-- ==== Sys2Proof/Word.lean ====
section
/-! DEFINITION. The word types of the module: bytes, 64-bit words, 57-bit word addresses, 80-bit instruction words and
2,048-bit vector registers (spec/00_scope.md R5, R6, spec/06_instruction_word.md R105, R106, spec/07_sequencers.md R129). -/

namespace Sys2Proof

/-- Eight bits (R6). -/
abbrev Byte := BitVec 8

/-- A 64-bit scalar register, channel entry or doubleword (R129). -/
abbrev Word := BitVec 64

/-- A 57-bit virtual or word address (R106). -/
abbrev VAddr := BitVec 57

/-- One 80-bit instruction word (R108). -/
abbrev IWord := BitVec 80

/-- A vector register: 64 lanes of 32 bits, lane i in bits 32i+31 to 32i (R84, R129). -/
abbrev VReg := BitVec 2048

end Sys2Proof
end

