-- ==== Sys2Proof/Syntax.lean ====
section
/-! DEFINITION. The syntax of the module: one constructor of Instr for every row of spec/opcode_table.json. The first
part holds the instruction words of spec/06_instruction_word.md R125, R126 with their fields as names; the second part
holds the events that the module's engines, its launch engine, its firmware and the outside world perform
(spec/95_what_each_step_holds.md). -/

namespace Sys2Proof

/-- The two streams of a core (R40). -/
inductive Stream
  | exe
  | acc
  deriving DecidableEq, Repr

/-- The fields every instruction word carries (R108): stream, producer distance, tag allocated, consume mask. -/
structure Hdr where
  st : Stream
  pd : Fin 16
  ta : Fin 8
  tc : BitVec 7
  deriving DecidableEq, Repr

/-- What an operand field may name (R109); `r` is an s or an a register according to the stream of the word, `q` and `n`
carry the keep bit (a peek). -/
inductive Opnd
  | r (n : Fin 64)
  | v (n : Fin 32)
  | k (n : Fin 8)
  | q (n : Fin 16) (keep : Bool)
  | n (n : Fin 48) (keep : Bool)
  deriving DecidableEq, Repr

/-- A tap operand (R113, R115): the direct form T or the indexed form TX. -/
inductive Tap
  | direct (sig : BitVec 9) (lag : BitVec 8) (row : BitVec 5)
  | indexed (sig : BitVec 9) (reg : Fin 64)
  deriving DecidableEq, Repr

/-- An operand position that accepts a register or a tap (R114). -/
inductive TOp
  | reg (o : Opnd)
  | tap (t : Tap)
  deriving DecidableEq, Repr

/-- Ordering annotations (R66). -/
inductive OrdKind
  | none
  | acq
  | rel
  | ar
  deriving DecidableEq, Repr

/-- The 14-bit ordering field (R66). -/
structure Ord14 where
  kind  : OrdKind
  scope : BitVec 4
  paths : BitVec 8
  deriving DecidableEq, Repr

/-- Rounding modes (R91). -/
inductive RM
  | rne
  | rtz
  | rdn
  | rup
  | srd
  deriving DecidableEq, Repr

/-- Number formats (R77). -/
inductive Fmt
  | fp32
  | fp16
  | bf16
  | e4m3
  | e5m2
  | int8
  | int32
  | b4
  deriving DecidableEq, Repr

/-- Scalar floating-point formats (R150). -/
inductive FW
  | s
  | h
  deriving DecidableEq, Repr

/-- Types of the scalar conversion (R154). -/
inductive CvtTy
  | s
  | h
  | w
  | l
  deriving DecidableEq, Repr

/-- Vector types (R208). -/
inductive VTy
  | s
  | h
  | bf
  | w
  | b
  | b4
  | d
  | u
  deriving DecidableEq, Repr

/-- Integer comparison conditions (R146). -/
inductive ICond
  | eq
  | ne
  | lt
  | le
  | ltu
  | leu
  | gt
  | ge
  | gtu
  | geu
  deriving DecidableEq, Repr

/-- Branch conditions (R155). -/
inductive BCond
  | z
  | nz
  | ltz
  | gez
  | gtz
  | lez
  deriving DecidableEq, Repr

/-- Floating-point comparison conditions (R153). -/
inductive FCond
  | eq
  | ne
  | lt
  | le
  | gt
  | ge
  | un
  | or
  deriving DecidableEq, Repr

/-- Key comparison conditions (R246). -/
inductive KCond
  | eq
  | ne
  | lt
  | le
  | gt
  | ge
  deriving DecidableEq, Repr

/-- Transfer sizes (R161). -/
inductive Sz
  | b
  | h
  | w
  | d
  deriving DecidableEq, Repr

/-- Widths of an atomic (R279). -/
inductive AW
  | w
  | d
  deriving DecidableEq, Repr

/-- Atomic operations (R282). -/
inductive AOpc
  | add
  | and
  | or
  | xor
  | swap
  | min
  | max
  | minu
  | maxu
  | fadd
  | fmin
  | fmax
  deriving DecidableEq, Repr

/-- A shift amount (R145, R225). -/
inductive ShAmt
  | reg (b : Opnd)
  | imm (n : Fin 64)
  deriving DecidableEq, Repr

/-- Second operand of cmp (R146). -/
inductive CmpArg
  | reg (b : Opnd)
  | imm (x : BitVec 22)
  deriving DecidableEq, Repr

/-- What ptok pushes (R156). -/
inductive TokArg
  | target (off : BitVec 22)
  | reg (a : Opnd)
  deriving DecidableEq, Repr

/-- The count of a loop (R157). -/
inductive LoopCnt
  | reg (a : Opnd)
  | imm (n : BitVec 10)
  deriving DecidableEq, Repr

/-- The semaphore of semw and semi (R160). -/
inductive SemArg
  | imm (n : BitVec 8)
  | reg (a : Opnd)
  deriving DecidableEq, Repr

/-- A threshold (R288). -/
inductive Thr
  | imm (n : BitVec 8)
  | reg (a : Fin 32)
  deriving DecidableEq, Repr

/-- The new gate bit of sgate (R197). -/
inductive GateArg
  | off
  | on
  | reg (s : Opnd)
  deriving DecidableEq, Repr

/-- The low function bits of layout A (R216): a rounding mode for floating-point types, saturation for integer types. -/
inductive VMode
  | fp (rm : RM)
  | int (sat : Bool)
  deriving DecidableEq, Repr

/-- The mask fields of layout M (R215). -/
structure VMask where
  kv : Bool
  kz : Bool
  kr : Fin 8
  deriving DecidableEq, Repr

/-- Scan operations (R228). -/
inductive ScanOp
  | sum
  | max
  | min
  deriving DecidableEq, Repr

/-- The fields of the six line-store words (R231): semaphore mode, mask, ordering field. -/
structure LsF where
  wait : Option (BitVec 8)
  sig  : Option (BitVec 8)
  kv   : Bool
  kr   : Fin 8
  ord  : Ord14
  deriving DecidableEq, Repr

/-- A key shape (R238, R240): number of axes and axis width, each minus 1. -/
structure KShape where
  ndm : BitVec 3
  awm : BitVec 6
  deriving DecidableEq, Repr

/-- The semaphore choice of csplit (R242). -/
inductive SemMode
  | none
  | wait (n : BitVec 8)
  | sig (n : BitVec 8)
  deriving DecidableEq, Repr

/-- Coarsening by level or by axes (R249). -/
inductive MaskArg
  | lvl (n : BitVec 9)
  | ax (m : BitVec 8)
  deriving DecidableEq, Repr

/-- Ordering field and semaphore codes of a matrix, copy or attention command (R262, R303, R347). -/
structure CmdF where
  ord  : Ord14
  wsem : BitVec 4
  ssem : BitVec 4
  deriving DecidableEq, Repr

/-- The gap operand of mpace and cpace (R275, R318). -/
inductive GapArg
  | imm (n : BitVec 16)
  | reg (s : Opnd)
  deriving DecidableEq, Repr

/-- Completion semaphore of ssave, srest, mapset and mapflush (R203, R378). -/
abbrev SigSem := Option (BitVec 8)

/-- The tap side of a copy (R302): none, the tap read, or the tap written. -/
inductive CpyTap
  | none (f : CmdF)
  | src (t : Tap)
  | dst (t : Tap)
  deriving DecidableEq, Repr

/-- Path classes of the ordering machine (R51). -/
inductive Cls
  | s
  | v
  | m
  | c
  | a
  | g
  | w
  | h
  deriving DecidableEq, Repr

/-- Agents of the ordering machine (R51). -/
inductive Agent
  | core (lc : Nat)
  | base (d : Nat)
  | walker (d : Nat)
  | host
  | portM
  | le
  | log
  | remote (m : Nat)
  deriving DecidableEq, Repr

/-- The ports of the I/O die on which an external requester accesses memory: the host's, and that of the memory devices
(R17, R51, R76). -/
inductive ExtPort
  | h
  | m
  deriving DecidableEq, Repr

/-- A physical address as a requester on a port names it. -/
structure ExtAddr where
  port : ExtPort
  pa   : Nat
  deriving DecidableEq, Repr

/-- The agent behind a port. -/
def ExtPort.agent : ExtPort → Agent
  | .h => .host
  | .m => .portM

/-- Stores of the ordering machine below the system store (R52). -/
inductive StoreId
  | stream (ag : Agent) (cl : Cls)
  | core (lc : Nat)
  | quire (pid : Nat)
  | die (d : Nat)
  | module
  | node
  | domain
  | region
  deriving DecidableEq, Repr

/-- Units that may be power gated (R395). -/
inductive PowerUnit
  | core (lc : Nat)
  | sau (stack : Nat)
  | adder (stack : Nat)
  deriving DecidableEq, Repr

/-- A request that another module sends to this one (R297). -/
inductive RemoteReq
  | load (pa : Nat) (n : Nat)
  | store (pa : Nat) (bytes : List Byte)
  | amo (op : AOpc) (wd : AW) (pa : Nat) (b : Word)
  | cas (wd : AW) (pa : Nat) (expect b : Word)
  | faddw (wd : AW) (pa : Nat) (b thr : Word)
  | enq (asid : BitVec 16) (handle : BitVec 32) (b : Word)
  | deq (asid : BitVec 16) (handle : BitVec 32)
  deriving DecidableEq, Repr

/-- A fabric message: an n-channel entry leaving this module's core, or one arriving from elsewhere (R402). -/
inductive FabricMsg
  | send (pid qc : Nat) (ch : Nat)
  | receive (asid : BitVec 16) (lcore : Nat) (rch : Nat) (value : Word)
  deriving DecidableEq, Repr

/-- Where an uncorrectable error strikes (R388, R407). -/
inductive PoisonAt
  | loc (key : Nat) (n : Nat)
  | slot (pid sig num off n : Nat)
  | spill (pid qc : Nat) (st : Stream) (off n : Nat)
  | tile (pid qc t : Nat)
  | region (r : Nat)
  deriving DecidableEq, Repr

/-- What waits on a word (R289). -/
inductive Waiter
  | core (pid qc : Nat)
  | join (rid : Nat)
  deriving DecidableEq, Repr

/-- One instruction word or one event of the module: one constructor for every row of spec/opcode_table.json. -/
inductive Instr
  -- integer and address (R143)
  | add (h : Hdr) (d a b : Opnd)
  | sub (h : Hdr) (d a b : Opnd)
  | addi (h : Hdr) (d a : Opnd) (imm : BitVec 22)
  | mul (h : Hdr) (d a b : Opnd)
  | mulh (h : Hdr) (d a b : Opnd)
  | mulhu (h : Hdr) (d a b : Opnd)
  | div (h : Hdr) (d a b : Opnd)
  | divu (h : Hdr) (d a b : Opnd)
  | rem (h : Hdr) (d a b : Opnd)
  | remu (h : Hdr) (d a b : Opnd)
  | and (h : Hdr) (d a b : Opnd)
  | or (h : Hdr) (d a b : Opnd)
  | xor (h : Hdr) (d a b : Opnd)
  | andn (h : Hdr) (d a b : Opnd)
  | shl (h : Hdr) (d a : Opnd) (n : ShAmt)
  | shr (h : Hdr) (d a : Opnd) (n : ShAmt)
  | sra (h : Hdr) (d a : Opnd) (n : ShAmt)
  | rol (h : Hdr) (d a : Opnd) (n : ShAmt)
  | clz (h : Hdr) (d a : Opnd)
  | ctz (h : Hdr) (d a : Opnd)
  | popc (h : Hdr) (d a : Opnd)
  | min (h : Hdr) (d a b : Opnd)
  | max (h : Hdr) (d a b : Opnd)
  | minu (h : Hdr) (d a b : Opnd)
  | maxu (h : Hdr) (d a b : Opnd)
  | sel (h : Hdr) (d a b c : Opnd)
  | cmp (h : Hdr) (cc : ICond) (d a : Opnd) (b : CmpArg)
  | li (h : Hdr) (d : Opnd) (imm : BitVec 22)
  | lui (h : Hdr) (d : Opnd) (imm : BitVec 22)
  | luiHi (h : Hdr) (d : Opnd) (imm : BitVec 20)
  | mov (h : Hdr) (d a : Opnd)
  | ext (h : Hdr) (u : Bool) (d a : Opnd) (w : BitVec 7)
  | ins (h : Hdr) (d a : Opnd) (lo : BitVec 6) (w : BitVec 7)
  | bfx (h : Hdr) (sg : Bool) (d a : Opnd) (lo : BitVec 6) (w : BitVec 7)
  -- scalar floating point (R150)
  | fadd (h : Hdr) (f : FW) (rm : RM) (d a b : Opnd)
  | fsub (h : Hdr) (f : FW) (rm : RM) (d a b : Opnd)
  | fmul (h : Hdr) (f : FW) (rm : RM) (d a b : Opnd)
  | ffma (h : Hdr) (f : FW) (rm : RM) (d a b c : Opnd)
  | fmin (h : Hdr) (f : FW) (d a b : Opnd)
  | fmax (h : Hdr) (f : FW) (d a b : Opnd)
  | fcmp (h : Hdr) (f : FW) (cc : FCond) (d a b : Opnd)
  | fcvt (h : Hdr) (dt st : CvtTy) (sat : Bool) (rm : RM) (d a : Opnd)
  | fdiv (h : Hdr) (f : FW) (rm : RM) (d a b : Opnd)
  | fsqrt (h : Hdr) (f : FW) (rm : RM) (d a : Opnd)
  -- control (R155 to R165, R128)
  | br (h : Hdr) (cc : BCond) (a : Opnd) (off : BitVec 22)
  | jmp (h : Hdr) (off : BitVec 22)
  | jal (h : Hdr) (d : Opnd) (off : BitVec 22)
  | jr (h : Hdr) (a : Opnd)
  | bcq (h : Hdr) (neg : Bool) (q : Opnd) (off : BitVec 22)
  | jcq (h : Hdr) (q : Opnd)
  | pcq (h : Hdr) (q a : Opnd)
  | ptok (h : Hdr) (q : Opnd) (t : TokArg)
  | loop (h : Hdr) (cnt : LoopCnt) (off : BitVec 12)
  | exit (h : Hdr)
  | trap (h : Hdr) (code : BitVec 16)
  | eret (h : Hdr)
  | eretN (h : Hdr)
  | csrr (h : Hdr) (d : Opnd) (num : BitVec 12)
  | csrw (h : Hdr) (num : BitVec 12) (a : Opnd)
  | semw (h : Hdr) (n : SemArg)
  | semi (h : Hdr) (n : SemArg)
  | spld (h : Hdr) (sz : Sz) (d : Opnd) (base : Option Opnd) (off : BitVec 22)
  | spst (h : Hdr) (sz : Sz) (base : Option Opnd) (off : BitVec 22) (b : Opnd)
  | nop (h : Hdr)
  -- memory (R279)
  | ld (h : Hdr) (sx : Bool) (sz : Sz) (ord : Ord14) (d a : Opnd) (off : BitVec 8)
  | st (h : Hdr) (sz : Sz) (ord : Ord14) (a : Opnd) (off : BitVec 8) (b : Opnd)
  | amo (h : Hdr) (op : AOpc) (wd : AW) (ord : Ord14) (asc : BitVec 4) (d a b : Opnd)
  | cas (h : Hdr) (wd : AW) (ord : Ord14) (asc : BitVec 4) (d a b : Opnd)
  | faddw (h : Hdr) (wd : AW) (ord : Ord14) (asc : BitVec 4) (d a b : Opnd) (thr : Thr)
  | wwait (h : Hdr) (wd : AW) (ord : Ord14) (a : Opnd) (thr : Thr)
  | enq (h : Hdr) (ord : Ord14) (asc : BitVec 4) (d a b : Opnd)
  | deq (h : Hdr) (ord : Ord14) (asc : BitVec 4) (d a : Opnd)
  | enqw (h : Hdr) (ord : Ord14) (lim asc : BitVec 4) (d a b : Opnd)
  | deqw (h : Hdr) (ord : Ord14) (lim asc : BitVec 4) (d a : Opnd)
  | ramo (h : Hdr) (op : AOpc) (wd : AW) (ord : Ord14) (asc : BitVec 4) (a b : Opnd)
  -- signals (R187)
  | tick (h : Hdr) (slack : BitVec 21)
  | tld (h : Hdr) (seg : BitVec 3) (d : Opnd) (t : Tap)
  | tst (h : Hdr) (seg : BitVec 3) (t : Tap) (a : Opnd)
  | tldx (h : Hdr) (sz : Sz) (d : Opnd) (t : Tap) (b : Opnd)
  | sdecl (h : Hdr) (sig : BitVec 9) (a : Opnd)
  | sbind (h : Hdr) (sig : BitVec 9) (a : Opnd)
  | sdrop (h : Hdr) (sig : BitVec 9)
  | sgate (h : Hdr) (sig : BitVec 9) (g : GateArg)
  | sfill (h : Hdr) (sig : BitVec 9) (a : Option Opnd)
  | snow (h : Hdr) (d : Opnd) (sig : BitVec 9)
  | slag (h : Hdr) (d : Opnd) (t : Tap)
  | ssave (h : Hdr) (sig : BitVec 9) (a : Opnd) (sem : SigSem)
  | srest (h : Hdr) (sig : BitVec 9) (a : Opnd) (sem : SigSem)
  | srebase (h : Hdr) (sig : BitVec 9) (a : Opnd)
  -- curve unit (R242)
  | ckey (h : Hdr) (sh : KShape) (d a : Opnd)
  | cunk (h : Hdr) (sh : KShape) (d a : Opnd)
  | cadd (h : Hdr) (sh : KShape) (sat fl : Bool) (d a b : Opnd)
  | csub (h : Hdr) (sh : KShape) (sat fl : Bool) (d a b : Opnd)
  | ccmp (h : Hdr) (sh : KShape) (cc : KCond) (d a b : Opnd)
  | cbox (h : Hdr) (sh : KShape) (d a b : Opnd)
  | csplit (h : Hdr) (sh : KShape) (sm : SemMode) (d a b : Opnd)
  | cnext (h : Hdr) (sh : KShape) (incl : Bool) (d a b : Opnd)
  | cprev (h : Hdr) (sh : KShape) (incl : Bool) (d a b : Opnd)
  | cclamp (h : Hdr) (sh : KShape) (d a b : Opnd)
  | cmask (h : Hdr) (sh : KShape) (m : MaskArg) (d a : Opnd)
  -- vector engine (R217)
  | vadd (h : Hdr) (t : VTy) (m : VMode) (d : Opnd) (a b : TOp) (mk : VMask)
  | vsub (h : Hdr) (t : VTy) (m : VMode) (d : Opnd) (a b : TOp) (mk : VMask)
  | vmul (h : Hdr) (t : VTy) (m : VMode) (d : Opnd) (a b : TOp) (mk : VMask)
  | vfma (h : Hdr) (t : VTy) (rm : RM) (d a b c : Opnd) (mk : VMask)
  | vmin (h : Hdr) (t : VTy) (d : Opnd) (a b : TOp) (mk : VMask)
  | vmax (h : Hdr) (t : VTy) (d : Opnd) (a b : TOp) (mk : VMask)
  | vabs (h : Hdr) (t : VTy) (m : VMode) (d : Opnd) (a : TOp) (mk : VMask)
  | vneg (h : Hdr) (t : VTy) (m : VMode) (d : Opnd) (a : TOp) (mk : VMask)
  | vrcp (h : Hdr) (t : VTy) (rm : RM) (d : Opnd) (a : TOp) (mk : VMask)
  | vrsq (h : Hdr) (t : VTy) (rm : RM) (d : Opnd) (a : TOp) (mk : VMask)
  | vexp2 (h : Hdr) (t : VTy) (rm : RM) (d : Opnd) (a : TOp) (mk : VMask)
  | vlog2 (h : Hdr) (t : VTy) (rm : RM) (d : Opnd) (a : TOp) (mk : VMask)
  | vsqrt (h : Hdr) (t : VTy) (rm : RM) (d : Opnd) (a : TOp) (mk : VMask)
  | vclamp (h : Hdr) (t : VTy) (d a b c : Opnd) (mk : VMask)
  | vcvt (h : Hdr) (dt st : VTy) (ct : BitVec 2) (sat : Bool) (part : BitVec 2) (rm : RM) (d a : Opnd) (mk : VMask)
  | vcmp (h : Hdr) (t : VTy) (cc : FCond) (d : Opnd) (a b : TOp) (mk : VMask)
  | vsel (h : Hdr) (d a b : Opnd) (kr : Fin 8)
  | vand (h : Hdr) (d : Opnd) (a b : TOp) (mk : VMask)
  | vor (h : Hdr) (d : Opnd) (a b : TOp) (mk : VMask)
  | vxor (h : Hdr) (d : Opnd) (a b : TOp) (mk : VMask)
  | vshl (h : Hdr) (t : VTy) (d a : Opnd) (n : ShAmt) (mk : VMask)
  | vshr (h : Hdr) (t : VTy) (d a : Opnd) (n : ShAmt) (mk : VMask)
  | vsra (h : Hdr) (t : VTy) (d a : Opnd) (n : ShAmt) (mk : VMask)
  | vpopc (h : Hdr) (t : VTy) (d : Opnd) (a : TOp) (mk : VMask)
  | vclz (h : Hdr) (t : VTy) (d : Opnd) (a : TOp) (mk : VMask)
  | vredsum (h : Hdr) (t : VTy) (m : VMode) (d : Opnd) (a : TOp) (mk : VMask)
  | vredmax (h : Hdr) (t : VTy) (d : Opnd) (a : TOp) (mk : VMask)
  | vredmin (h : Hdr) (t : VTy) (d : Opnd) (a : TOp) (mk : VMask)
  | vscan (h : Hdr) (t : VTy) (m : VMode) (op : ScanOp) (d a : Opnd) (mk : VMask)
  | vperm (h : Hdr) (t : VTy) (d a b : Opnd) (mk : VMask)
  | vbcast (h : Hdr) (t : VTy) (d a : Opnd) (idx : BitVec 8) (mk : VMask)
  | vslide (h : Hdr) (t : VTy) (dn : Bool) (d a b : Opnd) (idx : BitVec 8) (mk : VMask)
  | vmov (h : Hdr) (d : Opnd) (a : TOp) (mk : VMask)
  | vmovs (h : Hdr) (t : VTy) (toV : Bool) (d a : Opnd) (idx : BitVec 8)
  | vld (h : Hdr) (l : LsF) (d a : Opnd)
  | vst (h : Hdr) (l : LsF) (a b : Opnd)
  | vldt (h : Hdr) (l : LsF) (d a : Opnd)
  | vstt (h : Hdr) (l : LsF) (a b : Opnd)
  | vgath (h : Hdr) (l : LsF) (d a : Opnd)
  | vscat (h : Hdr) (l : LsF) (a b : Opnd)
  | vsort (h : Hdr) (t : VTy) (desc : Bool) (d a b : Opnd)
  | vtri (h : Hdr) (rm : RM) (d a b : Opnd)
  | kand (h : Hdr) (d a b : Opnd)
  | kor (h : Hdr) (d a b : Opnd)
  | kxor (h : Hdr) (d a b : Opnd)
  | knot (h : Hdr) (d a : Opnd)
  | kpop (h : Hdr) (d a : Opnd)
  | kmov (h : Hdr) (d a : Opnd)
  -- matrix engine (R261)
  | mfmt (h : Hdr) (a : Opnd)
  | mmodeRm (h : Hdr) (rm : RM)
  | mmodeSb (h : Hdr) (n : BitVec 4)
  | mmodeFqclr (h : Hdr)
  | mzero (h : Hdr) (mask : BitVec 8) (wsem ssem : BitVec 4)
  | mmac (h : Hdr) (t kc : BitVec 3) (a b : TOp) (f : CmdF)
  | mld (h : Hdr) (t : BitVec 3) (a : Opnd) (f : CmdF)
  | mst (h : Hdr) (t : BitVec 3) (a : Opnd) (f : CmdF)
  | mtr (h : Hdr) (t : BitVec 3) (a : Opnd) (f : CmdF)
  | mnot (h : Hdr) (ssem : BitVec 4)
  | mpace (h : Hdr) (g : GapArg)
  | mlease (h : Hdr) (a : Opnd) (ssem : BitVec 4)
  -- copy and gather engine (R302)
  | cpy (h : Hdr) (a : Opnd) (t : CpyTap)
  | cpy2d (h : Hdr) (a : Opnd) (t : CpyTap)
  | cgat (h : Hdr) (a b : Opnd) (f : CmdF)
  | cscat (h : Hdr) (a b : Opnd) (f : CmdF)
  | cred (h : Hdr) (ef : Fmt) (a b : Opnd) (f : CmdF)
  | cfill (h : Hdr) (a b : Opnd) (f : CmdF)
  | cnot (h : Hdr) (ssem : BitVec 4)
  | cpace (h : Hdr) (g : GapArg)
  | cpaceSb (h : Hdr) (n : BitVec 4)
  -- attention and parking (R347)
  | kvapp (h : Hdr) (layer : BitVec 6) (d a : Opnd) (f : CmdF)
  | attq (h : Hdr) (layer : BitVec 6) (d a b : Opnd) (f : CmdF)
  | park (h : Hdr) (a : Opnd)
  | prom (h : Hdr) (a : Opnd) (ssem : BitVec 4)
  | pstat (h : Hdr) (d : Opnd) (t : Tap)
  -- launch and futures (R326)
  | spawn (h : Hdr) (a : Opnd)
  | spawnG (h : Hdr) (a b : Opnd)
  | spawnPb (h : Hdr) (a b : Opnd)
  | spawnPe (h : Hdr) (a b : Opnd)
  | fres (h : Hdr) (a b : Opnd)
  | fresF (h : Hdr) (a b : Opnd)
  | fresN (h : Hdr) (a b : Opnd)
  | freg (h : Hdr) (d a b : Opnd)
  | fregJ (h : Hdr) (d a b : Opnd)
  | yield (h : Hdr)
  | migr (h : Hdr) (a : Opnd)
  -- system (R372, R375, R378, R392)
  | tlbinvVa (h : Hdr) (a : Opnd)
  | tlbinvAs (h : Hdr)
  | mapset (h : Hdr) (a b : Opnd) (sem : SigSem)
  | mapflush (h : Hdr) (inv : Bool) (a : Opnd) (sem : SigSem)
  | pfrep (h : Hdr) (d a : Opnd)
  | lease (h : Hdr) (d a : Opnd)
  -- events of a core: results, waits, slots
  | taggedResultLand (pid qc : Nat) (st : Stream) (n : Nat)
  | slotWritePerformed (pid n : Nat)
  | wwaitWake (pid qc : Nat)
  | waiterTablePoll (w : Waiter)
  | queueWaitLimitExpiry (pid qc : Nat)
  -- events of the ordering machine and of other modules' requests
  | ordDrain (ag : Agent) (cl : Cls) (i : Nat)
  | ordPropagate (st : StoreId) (i : Nat)
  | remoteRequestArrival (src sq : Nat) (r : RemoteReq)
  | remoteReplyAcknowledge (src sq : Nat)
  -- events of the engines
  | tickComplete (pid : Nat)
  | csplitComplete (pid qc : Nat)
  | vectorQueuedPerform (pid qc : Nat)
  | matrixCommandDepart (pid qc : Nat)
  | matrixCommandStart (pid qc n : Nat)
  | matrixCommandComplete (pid qc n : Nat)
  | copyCommandDepart (pid qc : Nat)
  | copyCommandStart (pid qc n : Nat)
  | copyCommandComplete (pid qc n : Nat)
  | attentionCommandDepart (pid qc : Nat)
  | kvappAppendComplete (pid qc n : Nat)
  | attqPageWaitExpiry (pid qc n : Nat)
  | attqComplete (pid qc n : Nat)
  | promComplete (pid qc n : Nat)
  | parkT1Expiry (pid : Nat)
  | parkT2Expiry (pid : Nat)
  | pageMoveComplete (pid : Nat)
  | notifyCompletionEvent (pid qc : Nat)
  | mapBlockFill (pid qc slot blk : Nat)
  | faultReplayWalk (id : Nat)
  -- events of the launch engine
  | leJoinWake (rid : Nat)
  | runDeferredAccept (rid : Nat)
  | passPlace
  | ageingPeriodExpiry (rid : Nat)
  | preemptionRequest
  | phoavoMigrationRequest (pid : Nat) (dies : BitVec 8)
  | passSave (pid : Nat)
  | passFinish (pid : Nat)
  | slackDeadlineExpiry (pid : Nat)
  | tickWatchdogExpiry (pid : Nat)
  | spareCoreExchange (lc : Nat) (healthy : Bool)
  | machineCheck (pid : Nat)
  -- events of power, grid, fabric, host and service
  | capoLeaseAnswer (pid qc n : Nat)
  | leaseEnergyExhausted (pid : Nat)
  | unitPowerGate (u : PowerUnit)
  | unitPowerWake (u : PowerUnit)
  | refusedRequestRetry (n : Nat)
  | targetAbsentExpiry (n : Nat)
  | raloreInputChange (step : Bool)
  | raloreMessage (sq : BitVec 32) (limw rsv : BitVec 16)
  | raloreLimitMet
  | powerFail
  | fabricMessageDelivery (m : FabricMsg)
  | moduleReset (m : BitVec 21)
  | hostWrite (pa : ExtAddr) (bytes : List Byte) (relaxed : Bool)
  | hostRead (pa : ExtAddr) (n : Nat)
  | mgSubasidWrite (v : Word)
  | mgAsidctxWrite (off : Nat) (v : Word)
  | asidInvalidationComplete (asid : BitVec 16)
  | mgKill (v : Word)
  | mgRalseqWrite (v : Word)
  | mgKvpoolWrite (pool dw : Nat) (v : Word)
  | mgRailWrite (off : Nat) (v : Word)
  | mgRegisterWrite (off : Nat) (v : Word)
  | modulePowerOn (verified : Bool)
  | dieCalibrationComplete (d : Nat) (full : Bool)
  | dieRetire (d : Nat)
  | linkRetire (l : Nat)
  | firmwareHandover (verified : Bool)
  | uncorrectableError (at_ : PoisonAt)
  deriving DecidableEq, Repr

end Sys2Proof
end

