-- ==== Sys2Proof/WellFormed.lean ====
section
/-! DEFINITION. Which instruction words are legal: every check of spec/06_instruction_word.md R110, R114, R116, R119, R127
and of each instruction's own description that depends on the word alone. A word that breaks one takes the
illegal-instruction trap; the check names what is wrong. Events are not words and are always well formed. -/

namespace Sys2Proof

/-- What makes a word illegal (R127). -/
inductive IllFormed
  | stream      -- a stream its group does not admit (R41)
  | latency     -- a PD or TA that R116 or R119 forbids
  | dest        -- a destination operand its position does not accept (R110)
  | source      -- a source operand its position does not accept (R110)
  | field       -- a field value its description forbids
  | ordering    -- an invalid ORD, annotation kind or ASC (R66, R67, R280)
  | vtype       -- a vector type or mode its row does not list (R208, R216)
  | mask        -- mask fields its row does not allow (R215)
  | taps        -- taps where they are not accepted (R114)
  | aligned     -- a register that must be aligned and is not (R214, R232, R241)
  deriving DecidableEq, Repr

/-- The first failing check of a list. -/
def firstBad : List (Bool × IllFormed) → Option IllFormed
  | [] => none
  | (true, _) :: rest => firstBad rest
  | (false, e) :: _ => some e

/-- Latency classes of R116. -/
inductive Lat
  | fixed (l : Nat)
  | var
  | none
  deriving DecidableEq, Repr

/-- The PD and TA rules of R116 and R119; `reg` says that the result lands in a register. -/
def latOk (h : Hdr) (l : Lat) (reg : Bool) : Bool :=
  match l with
  | .fixed l => decide (l ≤ h.pd.val) && decide (h.ta = 0)
  | .var => decide (h.pd = 0) && (if reg then decide (h.ta ≠ 0) else decide (h.ta = 0))
  | .none => decide (h.pd = 0) && decide (h.ta = 0)

/-- A scalar register of the stream (R109). -/
def regOk (st : Stream) : Opnd → Bool
  | .r n => match st with
    | .exe => true
    | .acc => decide (n.val < 32)
  | _ => false

/-- A channel the stream may write as data (R42, R43, R402). -/
def chanWOk (st : Stream) : Opnd → Bool
  | .q n keep => !keep && (match st with
    | .exe => n.val == 4 || n.val == 5
    | .acc => decide (n.val < 4))
  | .n n keep => !keep && st == .acc && decide (n.val < 32)
  | _ => false

/-- A channel the stream may read as data (R42, R43, R402). -/
def chanROk (st : Stream) : Opnd → Bool
  | .q n _ => match st with
    | .exe => decide (n.val < 4) || (decide (8 ≤ n.val) && decide (n.val < 12))
    | .acc => n.val == 4 || n.val == 5 || decide (12 ≤ n.val)
  | .n n _ => st == .acc && decide (32 ≤ n.val)
  | _ => false

/-- The destinations of R140. -/
def dstOk (st : Stream) (o : Opnd) : Bool := regOk st o || chanWOk st o

/-- The sources of R140. -/
def srcOk (st : Stream) (o : Opnd) : Bool := regOk st o || chanROk st o

/-- The operand names a register, not a channel. -/
def Opnd.isReg : Opnd → Bool
  | .q _ _ => false
  | .n _ _ => false
  | _ => true

/-- An s register named by the execute stream. -/
def isS : Opnd → Bool
  | .r _ => true
  | _ => false

def isV : Opnd → Bool
  | .v _ => true
  | _ => false

def isK : Opnd → Bool
  | .k _ => true
  | _ => false

/-- A v register whose number is a multiple of m. -/
def vAligned (m : Nat) : Opnd → Bool
  | .v n => n.val % m == 0
  | _ => false

/-- An a register (the words of R279, R326). -/
def isA : Opnd → Bool
  | .r n => decide (n.val < 32)
  | _ => false

def evenA : Opnd → Bool
  | .r n => decide (n.val < 32) && n.val % 2 == 0
  | _ => false

def exeOnly (h : Hdr) : Bool × IllFormed := (h.st == .exe, .stream)
def accOnly (h : Hdr) : Bool × IllFormed := (h.st == .acc, .stream)

/-- The checks of a scalar word with a fixed or variable latency (R140, R142). -/
def scalarChk (h : Hdr) (l : Lat) (d : Opnd) (srcs : List Opnd) : List (Bool × IllFormed) :=
  [(dstOk h.st d, .dest), (srcs.all (srcOk h.st), .source), (latOk h l d.isReg, .latency)]

/-- The checks of a scalar word that writes nothing (R142). -/
def sinkChk (h : Hdr) (srcs : List Opnd) : List (Bool × IllFormed) :=
  [(srcs.all (srcOk h.st), .source), (latOk h .none true, .latency)]

def shSrc : ShAmt → List Opnd
  | .reg b => [b]
  | .imm _ => []

/-- The condition queue a stream pops (R156). -/
def popsCq (st : Stream) : Opnd → Bool
  | .q n _ => match st with
    | .acc => n.val == 6
    | .exe => n.val == 7
  | _ => false

/-- The condition queue a stream pushes (R156). -/
def pushesCq (st : Stream) : Opnd → Bool
  | .q n keep => !keep && (match st with
    | .exe => n.val == 6
    | .acc => n.val == 7)
  | _ => false

/-- The control registers of R131. -/
def crListed (n : Nat) : Bool :=
  decide (n ≤ 6) || (decide (0x10 ≤ n) && decide (n ≤ 0x14)) || n == 0x20 || n == 0x21 ||
  (decide (0x30 ≤ n) && decide (n ≤ 0x33)) || (decide (0x40 ≤ n) && decide (n ≤ 0x4C))

/-- R66. -/
def ordOk (o : Ord14) : Bool :=
  match o.kind with
  | .none => o.scope == 0 && o.paths == 0
  | _ => decide (1 ≤ o.scope.toNat) && decide (o.scope.toNat ≤ 9)

def ordIn (o : Ord14) (ks : List OrdKind) : Bool × IllFormed :=
  (ordOk o && (o.kind == .none || ks.contains o.kind), .ordering)

/-- The scope of an atomic (R280). -/
def ascOk (o : Ord14) (asc : BitVec 4) : Bool :=
  match o.kind with
  | .none => decide (1 ≤ asc.toNat) && decide (asc.toNat ≤ 9)
  | _ => asc == 0

def atomOrd (o : Ord14) (asc : BitVec 4) : Bool × IllFormed :=
  (ordOk o && ascOk o asc, .ordering)

def isFpOp : AOpc → Bool
  | .fadd => true
  | .fmin => true
  | .fmax => true
  | _ => false

/-- Bit-field fields (R149). -/
def bfOk (lo : BitVec 6) (w : BitVec 7) : Bool :=
  decide (1 ≤ w.toNat) && decide (w.toNat ≤ 64) && decide (lo.toNat + w.toNat ≤ 64)

/-- Layout M rules common to every row (R215). -/
def maskOk (m : VMask) : Bool := m.kv || (!m.kz && m.kr == 0)

def noMask (m : VMask) : Bool := !m.kv && !m.kz && m.kr == 0

def VTy.isFp : VTy → Bool
  | .s => true
  | .h => true
  | .bf => true
  | _ => false

/-- Element width in bits (R208). -/
def VTy.width : VTy → Nat
  | .s => 32
  | .h => 16
  | .bf => 16
  | .w => 32
  | .b => 8
  | .b4 => 8
  | .d => 64
  | .u => 32

/-- Elements in a register (R208). -/
def VTy.count (t : VTy) : Nat := 2048 / t.width

/-- A mode fits its type (R216). -/
def modeFits (t : VTy) : VMode → Bool
  | .fp _ => t.isFp
  | .int _ => !t.isFp

def arithTy (t : VTy) : Bool := t.isFp || t == .w || t == .b
def wideTy (t : VTy) : Bool := t.isFp || t == .w || t == .b || t == .u

def TOp.isTap : TOp → Bool
  | .tap _ => true
  | .reg _ => false

/-- SA of a vector word: a v register or a tap. -/
def vOrTap : TOp → Bool
  | .reg o => isV o
  | .tap _ => true

/-- SB of a vector word: a v or s register or a tap. -/
def vsOrTap : TOp → Bool
  | .reg o => isV o || isS o
  | .tap _ => true

def vOrS (o : Opnd) : Bool := isV o || isS o

/-- Taps, mask and latency of a vector word (R114, R210, R214, R215, R217). -/
def vecChk (h : Hdr) (lat : Nat) (mk : VMask) (a : TOp) (b : Option TOp) : List (Bool × IllFormed) :=
  let tapB := match b with
    | some t => t.isTap
    | none => false
  let tapped := a.isTap || tapB
  [exeOnly h, (!(a.isTap && tapB), .taps), (vOrTap a, .source),
   ((match b with
     | some t => vsOrTap t
     | none => true), .source),
   (if tapped then noMask mk else maskOk mk, .mask),
   (if tapped then latOk h .var true else latOk h (.fixed lat) true, .latency)]

/-- A direct vector word without a tap. -/
def dirChk (h : Hdr) (lat : Nat) (mk : VMask) : List (Bool × IllFormed) :=
  [exeOnly h, (maskOk mk, .mask), (latOk h (.fixed lat) true, .latency)]

def vshChk (t : VTy) (n : ShAmt) : List (Bool × IllFormed) :=
  [(t == .w || t == .b, .vtype),
   (match n with
    | .reg b => vOrS b
    | .imm _ => true, .source),
   (match n with
    | .reg _ => true
    | .imm n => decide (n.val < t.width), .field)]

/-- The conversions of R226. -/
def cvtOk (dt st : VTy) (ct : BitVec 2) (part : BitVec 2) (mk : VMask) : Bool :=
  let plain (t : VTy) : Bool := arithTy t
  if dt == .b4 then st.isFp && part == 0 && noMask mk
  else if st == .b4 then dt.isFp && part == 0 && ct == 0 && noMask mk
  else plain dt && plain st && dt != st && ct == 0 &&
    decide (part.toNat < Nat.max dt.count st.count / Nat.min dt.count st.count)

/-- The line-store words (R231). -/
def lsChk (h : Hdr) (l : LsF) (load : Bool) : List (Bool × IllFormed) :=
  [exeOnly h, (!(l.wait.isSome && l.sig.isSome), .field), (l.kv || l.kr == 0, .mask), ordIn l.ord [.acq],
   (latOk h (if load then .var else .none) true, .latency)]

def KShape.nd (k : KShape) : Nat := k.ndm.toNat + 1
def KShape.aw (k : KShape) : Nat := k.awm.toNat + 1

/-- Shape and forms of a curve word (R240, R241). -/
def kvShape (k : KShape) (lim : Nat) : Bool × IllFormed := (decide (k.nd * k.aw ≤ lim), .field)

def sameKind (d a : Opnd) : Bool := (isS d && isS a) || (isV d && isV a)

/-- SB of a two-key word: of the form's kind, or an s register broadcast (R241). -/
def keySrc (a b : Opnd) : Bool := isS b || (isV a && isV b)

/-- An even register naming a pair (R241). -/
def pairOk (a b : Opnd) : Bool × IllFormed :=
  (match b with
   | .r n => n.val % 2 == 0
   | .v n => isV a && n.val % 2 == 0
   | _ => false, .aligned)

def keyChk (h : Hdr) (k : KShape) (lim ls lv : Nat) (d a : Opnd) : List (Bool × IllFormed) :=
  [exeOnly h, kvShape k lim, (sameKind d a, .source),
   (latOk h (.fixed (if isV d then lv else ls)) true, .latency)]

/-- A command word of an engine: execute stream, no result (R261, R302). -/
def cmdChk (h : Hdr) (ss : List Opnd) : List (Bool × IllFormed) :=
  [exeOnly h, (ss.all isS, .source), (latOk h .none true, .latency)]

def cmdFOk (f : CmdF) : Bool × IllFormed := ordIn f.ord [.acq]

def plainCmdF (f : CmdF) : Bool :=
  f.ord.kind == .none && f.ord.scope == 0 && f.ord.paths == 0 && f.wsem == 0 && f.ssem == 0

def matOp : TOp → Bool
  | .reg o => isS o || isV o
  | .tap _ => true

def gapSrc : GapArg → List Opnd
  | .imm _ => []
  | .reg s => [s]

/-- A launch word (R326). -/
def leChk (h : Hdr) (l : Lat) (as : List Opnd) : List (Bool × IllFormed) :=
  [accOnly h, (as.all isA, .source), (latOk h l true, .latency)]

/-- A source of a memory word: a register, q4, q5 or an n channel, as R279 says; the channels q12 to q15, which the access stream
reads by R42, are none (DEDUCED, notes/assumptions/71.md). -/
def memSrcOk (o : Opnd) : Bool :=
  srcOk .acc o && (match o with
    | .q n _ => decide (n.val < 12)
    | _ => true)

/-- A memory word with a result (R279). -/
def memChk (h : Hdr) (l : Lat) (d a : Opnd) : List (Bool × IllFormed) :=
  [accOnly h, (dstOk .acc d, .dest), (isA a, .source), (latOk h l d.isReg, .latency)]

def optSrc : Option Opnd → List Opnd
  | none => []
  | some o => [o]

def credFmt : Fmt → Bool
  | .fp32 => true
  | .fp16 => true
  | .bf16 => true
  | .int8 => true
  | .int32 => true
  | _ => false

/-- A direct tap or TX tap word of the execute stream with a tagged s or v result. -/
def tapLoadChk (h : Hdr) (d : Bool) : List (Bool × IllFormed) :=
  [exeOnly h, (d, .dest), (latOk h .var true, .latency)]

/-- The check of one instruction: none when the word is legal. -/
def check (i : Instr) : Option IllFormed :=
  match i with
  | .add h d a b => firstBad (scalarChk h (.fixed 1) d [a, b])
  | .sub h d a b => firstBad (scalarChk h (.fixed 1) d [a, b])
  | .addi h d a _ => firstBad (scalarChk h (.fixed 1) d [a])
  | .mul h d a b => firstBad (scalarChk h (.fixed 3) d [a, b])
  | .mulh h d a b => firstBad (scalarChk h (.fixed 3) d [a, b])
  | .mulhu h d a b => firstBad (scalarChk h (.fixed 3) d [a, b])
  | .div h d a b => firstBad (scalarChk h .var d [a, b])
  | .divu h d a b => firstBad (scalarChk h .var d [a, b])
  | .rem h d a b => firstBad (scalarChk h .var d [a, b])
  | .remu h d a b => firstBad (scalarChk h .var d [a, b])
  | .and h d a b => firstBad (scalarChk h (.fixed 1) d [a, b])
  | .or h d a b => firstBad (scalarChk h (.fixed 1) d [a, b])
  | .xor h d a b => firstBad (scalarChk h (.fixed 1) d [a, b])
  | .andn h d a b => firstBad (scalarChk h (.fixed 1) d [a, b])
  | .shl h d a n => firstBad (scalarChk h (.fixed 1) d (a :: shSrc n))
  | .shr h d a n => firstBad (scalarChk h (.fixed 1) d (a :: shSrc n))
  | .sra h d a n => firstBad (scalarChk h (.fixed 1) d (a :: shSrc n))
  | .rol h d a n => firstBad (scalarChk h (.fixed 1) d (a :: shSrc n))
  | .clz h d a => firstBad (scalarChk h (.fixed 1) d [a])
  | .ctz h d a => firstBad (scalarChk h (.fixed 1) d [a])
  | .popc h d a => firstBad (scalarChk h (.fixed 1) d [a])
  | .min h d a b => firstBad (scalarChk h (.fixed 1) d [a, b])
  | .max h d a b => firstBad (scalarChk h (.fixed 1) d [a, b])
  | .minu h d a b => firstBad (scalarChk h (.fixed 1) d [a, b])
  | .maxu h d a b => firstBad (scalarChk h (.fixed 1) d [a, b])
  | .sel h d a b c => firstBad (scalarChk h (.fixed 1) d [a, b, c])
  | .cmp h _ d a b => firstBad (scalarChk h (.fixed 1) d (a :: (match b with
      | .reg b => [b]
      | .imm _ => [])))
  | .li h d _ => firstBad (scalarChk h (.fixed 1) d [])
  | .lui h d _ => firstBad ((regOk h.st d, .dest) :: scalarChk h (.fixed 1) d [])
  | .luiHi h d _ => firstBad ((regOk h.st d, .dest) :: scalarChk h (.fixed 1) d [])
  | .mov h d a => firstBad (scalarChk h (.fixed 1) d [a])
  | .ext h _ d a w => firstBad ((bfOk 0 w, .field) :: scalarChk h (.fixed 1) d [a])
  | .ins h d a lo w => firstBad ((bfOk lo w, .field) :: (regOk h.st d, .dest) :: scalarChk h (.fixed 1) d [a])
  | .bfx h _ d a lo w => firstBad ((bfOk lo w, .field) :: scalarChk h (.fixed 1) d [a])
  | .fadd h _ _ d a b => firstBad (scalarChk h (.fixed 4) d [a, b])
  | .fsub h _ _ d a b => firstBad (scalarChk h (.fixed 4) d [a, b])
  | .fmul h _ _ d a b => firstBad (scalarChk h (.fixed 4) d [a, b])
  | .ffma h _ _ d a b c => firstBad (scalarChk h (.fixed 4) d [a, b, c])
  | .fmin h _ d a b => firstBad (scalarChk h (.fixed 1) d [a, b])
  | .fmax h _ d a b => firstBad (scalarChk h (.fixed 1) d [a, b])
  | .fcmp h _ _ d a b => firstBad (scalarChk h (.fixed 1) d [a, b])
  | .fcvt h dt st _ _ d a => firstBad ((dt != st && !((dt == .w || dt == .l) && (st == .w || st == .l)), .field) ::
      scalarChk h (.fixed 3) d [a])
  | .fdiv h _ _ d a b => firstBad (scalarChk h .var d [a, b])
  | .fsqrt h _ _ d a => firstBad (scalarChk h .var d [a])
  | .br h _ a _ => firstBad (sinkChk h [a])
  | .jmp h _ => firstBad (sinkChk h [])
  | .jal h d _ => firstBad (scalarChk h (.fixed 1) d [])
  | .jr h a => firstBad (sinkChk h [a])
  | .bcq h _ q _ => firstBad [(popsCq h.st q, .source), (latOk h .none true, .latency)]
  | .jcq h q => firstBad [(popsCq h.st q, .source), (latOk h .none true, .latency)]
  | .pcq h q a => firstBad [(pushesCq h.st q, .dest), (srcOk h.st a, .source), (latOk h .none true, .latency)]
  | .ptok h q t => firstBad [(pushesCq h.st q, .dest),
      (match t with
       | .target _ => true
       | .reg a => srcOk h.st a, .source), (latOk h .none true, .latency)]
  | .loop h c off => firstBad ((off != 0, .field) :: sinkChk h (match c with
      | .reg a => [a]
      | .imm _ => []))
  | .exit h => firstBad (sinkChk h [])
  | .trap h _ => firstBad (sinkChk h [])
  | .eret h => firstBad (sinkChk h [])
  | .eretN h => firstBad (sinkChk h [])
  | .csrr h d n => firstBad ((crListed n.toNat, .field) :: scalarChk h (.fixed 1) d [])
  | .csrw h n a => firstBad ((crListed n.toNat, .field) :: sinkChk h [a])
  | .semw h n => firstBad (sinkChk h (match n with
      | .reg a => [a]
      | .imm _ => []))
  | .semi h n => firstBad (sinkChk h (match n with
      | .reg a => [a]
      | .imm _ => []))
  | .spld h _ d base _ => firstBad (scalarChk h (.fixed 1) d (optSrc base))
  | .spst h _ base _ b => firstBad (sinkChk h (optSrc base ++ [b]))
  | .nop h => firstBad (sinkChk h [])
  | .ld h sx sz ord d a _ => firstBad ((!(sx && sz == .d), .field) :: ordIn ord [.acq] :: memChk h .var d a)
  | .st h _ ord a _ b => firstBad [accOnly h, ordIn ord [.rel], (isA a && memSrcOk b, .source), (latOk h .none true, .latency)]
  | .amo h op wd ord asc d a b => firstBad ((!(isFpOp op && wd == .d), .field) :: atomOrd ord asc ::
      (memSrcOk b, .source) :: memChk h .var d a)
  | .cas h _ ord asc d a b => firstBad (atomOrd ord asc :: (isA d, .dest) :: (memSrcOk b, .source) :: memChk h .var d a)
  | .faddw h _ ord asc d a b _ => firstBad (atomOrd ord asc :: (memSrcOk b, .source) :: memChk h .var d a)
  | .wwait h _ ord a _ => firstBad [accOnly h, ordIn ord [.acq], (isA a, .source), (latOk h .none true, .latency)]
  | .enq h ord asc d a b => firstBad (atomOrd ord asc :: (memSrcOk b, .source) :: memChk h .var d a)
  | .deq h ord asc d a => firstBad (atomOrd ord asc :: (evenA d, .aligned) :: memChk h .var d a)
  | .enqw h ord _ asc d a b => firstBad (atomOrd ord asc :: (memSrcOk b, .source) :: memChk h .var d a)
  | .deqw h ord _ asc d a => firstBad (atomOrd ord asc :: (evenA d, .aligned) :: memChk h .var d a)
  | .ramo h op wd ord asc a b => firstBad [accOnly h, (!(isFpOp op && wd == .d) && op != .swap, .field), atomOrd ord asc,
      (isA a && memSrcOk b, .source), (latOk h .none true, .latency)]
  | .tick h _ => firstBad (cmdChk h [])
  | .tld h _ d _ => firstBad (tapLoadChk h (isV d))
  | .tst h _ _ a => firstBad [exeOnly h, (isV a, .source), (latOk h .none true, .latency)]
  | .tldx h _ d _ b => firstBad ((isS b, .source) :: tapLoadChk h (isS d))
  | .sdecl h _ a => firstBad [exeOnly h, (isV a, .source), (latOk h .none true, .latency)]
  | .sbind h _ a => firstBad (cmdChk h [a])
  | .sdrop h _ => firstBad (cmdChk h [])
  | .sgate h _ g => firstBad (cmdChk h (match g with
      | .off => []
      | .on => []
      | .reg s => [s]))
  | .sfill h _ a => firstBad (cmdChk h (optSrc a))
  | .snow h d _ => firstBad [exeOnly h, (isS d, .dest), (latOk h (.fixed 2) true, .latency)]
  | .slag h d _ => firstBad [exeOnly h, (isS d, .dest), (latOk h (.fixed 2) true, .latency)]
  | .ssave h _ a _ => firstBad (cmdChk h [a])
  | .srest h _ a _ => firstBad (cmdChk h [a])
  | .srebase h _ a => firstBad (cmdChk h [a])
  | .ckey h k d a => firstBad (keyChk h k 64 2 3 d a)
  | .cunk h k d a => firstBad (keyChk h k 64 2 3 d a)
  | .cadd h k _ _ d a b => firstBad ((keySrc a b, .source) :: keyChk h k 64 2 3 d a)
  | .csub h k _ _ d a b => firstBad ((keySrc a b, .source) :: keyChk h k 64 2 3 d a)
  | .ccmp h k _ d a b => firstBad ((keySrc a b, .source) :: keyChk h k 64 2 3 d a)
  | .cbox h k d a b => firstBad (pairOk a b :: keyChk h k 64 2 3 d a)
  | .csplit h k _ d a b => firstBad [exeOnly h, kvShape k 63, (isS d, .dest), (isS a && isS b, .source), pairOk a b,
      (latOk h .var true, .latency)]
  | .cnext h k _ d a b => firstBad (pairOk a b :: keyChk h k 63 4 5 d a)
  | .cprev h k _ d a b => firstBad (pairOk a b :: keyChk h k 63 4 5 d a)
  | .cclamp h k d a b => firstBad (pairOk a b :: keyChk h k 64 2 3 d a)
  | .cmask h k m d a => firstBad ((match m with
      | .lvl n => decide (n.toNat ≤ k.aw)
      | .ax m => decide (m.toNat < 2 ^ k.nd), .field) :: keyChk h k 64 1 2 d a)
  | .vadd h t m d a b mk => firstBad ((arithTy t && modeFits t m, .vtype) :: (isV d, .dest) ::
      vecChk h (if t.isFp then 4 else 2) mk a (some b))
  | .vsub h t m d a b mk => firstBad ((arithTy t && modeFits t m, .vtype) :: (isV d, .dest) ::
      vecChk h (if t.isFp then 4 else 2) mk a (some b))
  | .vmul h t m d a b mk => firstBad ((arithTy t && modeFits t m, .vtype) :: (isV d, .dest) ::
      vecChk h (if t.isFp then 4 else 3) mk a (some b))
  | .vfma h t _ d a b c mk => firstBad ((t.isFp, .vtype) :: (isV d, .dest) :: (isV a && vOrS b && vOrS c, .source) :: dirChk h 4 mk)
  | .vmin h t d a b mk => firstBad ((wideTy t, .vtype) :: (isV d, .dest) :: vecChk h 2 mk a (some b))
  | .vmax h t d a b mk => firstBad ((wideTy t, .vtype) :: (isV d, .dest) :: vecChk h 2 mk a (some b))
  | .vabs h t m d a mk => firstBad ((arithTy t && modeFits t m && (m == .fp .rne || !t.isFp), .vtype) :: (isV d, .dest) ::
      vecChk h 2 mk a none)
  | .vneg h t m d a mk => firstBad ((arithTy t && modeFits t m && (m == .fp .rne || !t.isFp), .vtype) :: (isV d, .dest) ::
      vecChk h 2 mk a none)
  | .vrcp h t _ d a mk => firstBad ((t.isFp, .vtype) :: (isV d, .dest) :: vecChk h 8 mk a none)
  | .vrsq h t _ d a mk => firstBad ((t.isFp, .vtype) :: (isV d, .dest) :: vecChk h 8 mk a none)
  | .vexp2 h t _ d a mk => firstBad ((t.isFp, .vtype) :: (isV d, .dest) :: vecChk h 8 mk a none)
  | .vlog2 h t _ d a mk => firstBad ((t.isFp, .vtype) :: (isV d, .dest) :: vecChk h 8 mk a none)
  | .vsqrt h t _ d a mk => firstBad ((t.isFp, .vtype) :: (isV d, .dest) :: vecChk h 8 mk a none)
  | .vclamp h t d a b c mk => firstBad ((wideTy t, .vtype) :: (isV d, .dest) :: (isV a && vOrS b && vOrS c, .source) :: dirChk h 2 mk)
  | .vcvt h dt st ct _ part _ d a mk => firstBad ((cvtOk dt st ct part mk, .vtype) :: (isV d, .dest) :: (isV a, .source) :: dirChk h 3 mk)
  | .vcmp h t cc d a b mk => firstBad ((wideTy t && (t.isFp || (cc != .un && cc != .or)), .vtype) ::
      (isV d || (isK d && t.width == 32), .dest) :: vecChk h 2 mk a (some b))
  | .vsel h d a b _ => firstBad [exeOnly h, (isV d, .dest), (isV a && vOrS b, .source), (latOk h (.fixed 2) true, .latency)]
  | .vand h d a b mk => firstBad ((isV d, .dest) :: vecChk h 2 mk a (some b))
  | .vor h d a b mk => firstBad ((isV d, .dest) :: vecChk h 2 mk a (some b))
  | .vxor h d a b mk => firstBad ((isV d, .dest) :: vecChk h 2 mk a (some b))
  | .vshl h t d a n mk => firstBad (vshChk t n ++ (isV d, .dest) :: (isV a, .source) :: dirChk h 2 mk)
  | .vshr h t d a n mk => firstBad (vshChk t n ++ (isV d, .dest) :: (isV a, .source) :: dirChk h 2 mk)
  | .vsra h t d a n mk => firstBad (vshChk t n ++ (isV d, .dest) :: (isV a, .source) :: dirChk h 2 mk)
  | .vpopc h t d a mk => firstBad ((t == .w || t == .b, .vtype) :: (isV d, .dest) :: vecChk h 2 mk a none)
  | .vclz h t d a mk => firstBad ((t == .w || t == .b, .vtype) :: (isV d, .dest) :: vecChk h 2 mk a none)
  | .vredsum h t m d a mk => firstBad ((arithTy t && modeFits t m && m != .fp .srd, .vtype) :: (isS d, .dest) :: (!mk.kz, .mask) ::
      vecChk h 6 mk a none)
  | .vredmax h t d a mk => firstBad ((arithTy t, .vtype) :: (isS d, .dest) :: (!mk.kz, .mask) :: vecChk h 6 mk a none)
  | .vredmin h t d a mk => firstBad ((arithTy t, .vtype) :: (isS d, .dest) :: (!mk.kz, .mask) :: vecChk h 6 mk a none)
  | .vscan h t m op d a mk => firstBad ((arithTy t && modeFits t m && m != .fp .srd &&
        (op == .sum || m == .fp .rne || m == .int false), .vtype) ::
      (isV d, .dest) :: (isV a, .source) :: (!mk.kz, .mask) :: dirChk h 8 mk)
  | .vperm h t d a b mk => firstBad ((wideTy t, .vtype) :: (isV d, .dest) :: (isV a && isV b, .source) :: dirChk h 3 mk)
  | .vbcast h t d a idx mk => firstBad ((wideTy t, .vtype) :: (isV d, .dest) :: (vOrS a, .source) ::
      (if isV a then decide (idx.toNat < t.count) else idx == 0, .field) :: dirChk h 2 mk)
  | .vslide h t _ d a b idx mk => firstBad ((wideTy t, .vtype) :: (isV d, .dest) :: (isV a && isV b, .source) ::
      (decide (idx.toNat ≤ t.count), .field) :: dirChk h 3 mk)
  | .vmov h d a mk => firstBad ((isV d, .dest) :: vecChk h 2 mk a none)
  | .vmovs h t toV d a idx => firstBad [exeOnly h, (wideTy t, .vtype), (if toV then isV d else isS d, .dest),
      (if toV then isS a else isV a, .source), (decide (idx.toNat < t.count), .field), (latOk h (.fixed 2) true, .latency)]
  | .vld h l d a => firstBad ((isV d, .dest) :: (isS a, .source) :: lsChk h l true)
  | .vst h l a b => firstBad ((isS a && isV b, .source) :: lsChk h l false)
  | .vldt h l d a => firstBad ((vAligned 8 d, .aligned) :: (isS a, .source) :: lsChk h l true)
  | .vstt h l a b => firstBad ((vAligned 8 b, .aligned) :: (isS a, .source) :: lsChk h l false)
  | .vgath h l d a => firstBad ((isV d, .dest) :: (isV a, .source) :: lsChk h l true)
  | .vscat h l a b => firstBad ((isV a && isV b, .source) :: lsChk h l false)
  | .vsort h t _ d a b => firstBad [exeOnly h, (t == .s || t == .w || t == .u || t == .d, .vtype), (vAligned 2 d, .aligned),
      (isV a && isV b, .source), (latOk h (.fixed 12) true, .latency)]
  | .vtri h rm d a b => firstBad [exeOnly h, (rm != .srd, .vtype), (vAligned 4 d && vAligned 4 a && vAligned 4 b, .aligned),
      (latOk h (.fixed 10) true, .latency)]
  | .kand h d a b => firstBad [exeOnly h, (isK d, .dest), (isK a && isK b, .source), (latOk h (.fixed 1) true, .latency)]
  | .kor h d a b => firstBad [exeOnly h, (isK d, .dest), (isK a && isK b, .source), (latOk h (.fixed 1) true, .latency)]
  | .kxor h d a b => firstBad [exeOnly h, (isK d, .dest), (isK a && isK b, .source), (latOk h (.fixed 1) true, .latency)]
  | .knot h d a => firstBad [exeOnly h, (isK d, .dest), (isK a, .source), (latOk h (.fixed 1) true, .latency)]
  | .kpop h d a => firstBad [exeOnly h, (isS d, .dest), (isK a, .source), (latOk h (.fixed 1) true, .latency)]
  | .kmov h d a => firstBad [exeOnly h, ((isK d && (isK a || isS a)) || (isS d && isK a), .source), (latOk h (.fixed 1) true, .latency)]
  | .mfmt h a => firstBad (cmdChk h [a])
  | .mmodeRm h _ => firstBad (cmdChk h [])
  | .mmodeSb h _ => firstBad (cmdChk h [])
  | .mmodeFqclr h => firstBad (cmdChk h [])
  | .mzero h mask _ _ => firstBad ((mask != 0, .field) :: cmdChk h [])
  | .mmac h _ _ a b f => firstBad ((!(a.isTap && b.isTap), .taps) :: (matOp a && matOp b, .source) ::
      (if a.isTap || b.isTap then plainCmdF f else true, .field) :: cmdFOk f :: cmdChk h [])
  | .mld h _ a f => firstBad (cmdFOk f :: cmdChk h [a])
  | .mst h _ a f => firstBad (cmdFOk f :: cmdChk h [a])
  | .mtr h _ a f => firstBad (cmdFOk f :: cmdChk h [a])
  | .mnot h _ => firstBad (cmdChk h [])
  | .mpace h g => firstBad (cmdChk h (gapSrc g))
  | .mlease h a _ => firstBad (cmdChk h [a])
  | .cpy h a t => firstBad ((match t with
      | .none f => (cmdFOk f).1
      | .src _ => true
      | .dst _ => true, .ordering) :: cmdChk h [a])
  | .cpy2d h a t => firstBad ((match t with
      | .none f => (cmdFOk f).1
      | .src _ => true
      | .dst _ => true, .ordering) :: cmdChk h [a])
  | .cgat h a b f => firstBad (cmdFOk f :: cmdChk h [a, b])
  | .cscat h a b f => firstBad (cmdFOk f :: cmdChk h [a, b])
  | .cred h ef a b f => firstBad ((credFmt ef, .field) :: cmdFOk f :: cmdChk h [a, b])
  | .cfill h a b f => firstBad (cmdFOk f :: cmdChk h [a, b])
  | .cnot h _ => firstBad (cmdChk h [])
  | .cpace h g => firstBad (cmdChk h (gapSrc g))
  | .cpaceSb h _ => firstBad (cmdChk h [])
  | .kvapp h _ d a f => firstBad [exeOnly h, cmdFOk f, (isS d, .dest), (isS a, .source), (latOk h (.fixed 1) true, .latency)]
  | .attq h _ d a b f => firstBad [exeOnly h, cmdFOk f,
      (match d with
       | .q n keep => !keep && decide (8 ≤ n.val) && decide (n.val < 12)
       | _ => false, .dest), (isS a && isS b, .source), (latOk h .none true, .latency)]
  | .park h a => firstBad (cmdChk h [a])
  | .prom h a _ => firstBad (cmdChk h [a])
  | .pstat h d _ => firstBad (tapLoadChk h (isS d))
  | .spawn h a => firstBad (leChk h .none [a])
  | .spawnG h a b => firstBad (leChk h .none [a, b])
  | .spawnPb h a b => firstBad (leChk h .none [a, b])
  | .spawnPe h a b => firstBad (leChk h .none [a, b])
  | .fres h a b => firstBad (leChk h .none [a, b])
  | .fresF h a b => firstBad (leChk h .none [a, b])
  | .fresN h a b => firstBad (leChk h .none [a, b])
  | .freg h d a b => firstBad (leChk h .var [d, a, b])
  | .fregJ h d a b => firstBad (leChk h .var [d, a, b])
  | .yield h => firstBad (leChk h .none [])
  | .migr h a => firstBad (leChk h .none [a])
  | .tlbinvVa h a => firstBad [(regOk h.st a, .source), (latOk h .none true, .latency)]
  | .tlbinvAs h => firstBad [(latOk h .none true, .latency)]
  | .mapset h a b _ => firstBad (cmdChk h [a, b])
  | .mapflush h _ a _ => firstBad (cmdChk h [a])
  | .pfrep h d a => firstBad (leChk h .var [d, a])
  | .lease h d a => firstBad [(regOk h.st d, .dest), (regOk h.st a, .source), (latOk h .var true, .latency)]
  | .taggedResultLand _ _ _ _ => none
  | .slotWritePerformed _ _ => none
  | .wwaitWake _ _ => none
  | .waiterTablePoll _ => none
  | .queueWaitLimitExpiry _ _ => none
  | .ordDrain _ _ _ => none
  | .ordPropagate _ _ => none
  | .remoteRequestArrival _ _ _ => none
  | .remoteReplyAcknowledge _ _ => none
  | .tickComplete _ => none
  | .csplitComplete _ _ => none
  | .vectorQueuedPerform _ _ => none
  | .matrixCommandDepart _ _ => none
  | .matrixCommandStart _ _ _ => none
  | .matrixCommandComplete _ _ _ => none
  | .copyCommandDepart _ _ => none
  | .copyCommandStart _ _ _ => none
  | .copyCommandComplete _ _ _ => none
  | .attentionCommandDepart _ _ => none
  | .kvappAppendComplete _ _ _ => none
  | .attqPageWaitExpiry _ _ _ => none
  | .attqComplete _ _ _ => none
  | .promComplete _ _ _ => none
  | .parkT1Expiry _ => none
  | .parkT2Expiry _ => none
  | .pageMoveComplete _ => none
  | .notifyCompletionEvent _ _ => none
  | .mapBlockFill _ _ _ _ => none
  | .faultReplayWalk _ => none
  | .leJoinWake _ => none
  | .runDeferredAccept _ => none
  | .passPlace => none
  | .ageingPeriodExpiry _ => none
  | .preemptionRequest => none
  | .phoavoMigrationRequest _ _ => none
  | .passSave _ => none
  | .passFinish _ => none
  | .slackDeadlineExpiry _ => none
  | .tickWatchdogExpiry _ => none
  | .spareCoreExchange _ _ => none
  | .machineCheck _ => none
  | .capoLeaseAnswer _ _ _ => none
  | .leaseEnergyExhausted _ => none
  | .unitPowerGate _ => none
  | .unitPowerWake _ => none
  | .refusedRequestRetry _ => none
  | .targetAbsentExpiry _ => none
  | .raloreInputChange _ => none
  | .raloreMessage _ _ _ => none
  | .raloreLimitMet => none
  | .powerFail => none
  | .fabricMessageDelivery _ => none
  | .moduleReset _ => none
  | .hostWrite _ _ _ => none
  | .hostRead _ _ => none
  | .mgSubasidWrite _ => none
  | .mgAsidctxWrite _ _ => none
  | .asidInvalidationComplete _ => none
  | .mgKill _ => none
  | .mgRalseqWrite _ => none
  | .mgKvpoolWrite _ _ _ => none
  | .mgRailWrite _ _ => none
  | .mgRegisterWrite _ _ => none
  | .modulePowerOn _ => none
  | .dieCalibrationComplete _ _ => none
  | .dieRetire _ => none
  | .linkRetire _ => none
  | .firmwareHandover _ => none
  | .uncorrectableError _ => none

/-- A legal word, or an event. -/
def wf (i : Instr) : Bool := (check i).isNone

/-- The instruction is a word with an encoding, not an event. -/
def isWord (i : Instr) : Bool :=
  match i with
  | .taggedResultLand _ _ _ _ | .slotWritePerformed _ _ | .wwaitWake _ _ | .waiterTablePoll _
  | .queueWaitLimitExpiry _ _ | .ordDrain _ _ _ | .ordPropagate _ _ | .remoteRequestArrival _ _ _
  | .remoteReplyAcknowledge _ _ | .tickComplete _ | .csplitComplete _ _ | .vectorQueuedPerform _ _
  | .matrixCommandDepart _ _ | .matrixCommandStart _ _ _ | .matrixCommandComplete _ _ _ | .copyCommandDepart _ _
  | .copyCommandStart _ _ _ | .copyCommandComplete _ _ _ | .attentionCommandDepart _ _ | .kvappAppendComplete _ _ _
  | .attqPageWaitExpiry _ _ _ | .attqComplete _ _ _ | .promComplete _ _ _ | .parkT1Expiry _ | .parkT2Expiry _
  | .pageMoveComplete _ | .notifyCompletionEvent _ _ | .mapBlockFill _ _ _ _ | .faultReplayWalk _ | .leJoinWake _
  | .runDeferredAccept _ | .passPlace | .ageingPeriodExpiry _ | .preemptionRequest | .phoavoMigrationRequest _ _
  | .passSave _ | .passFinish _ | .slackDeadlineExpiry _ | .tickWatchdogExpiry _ | .spareCoreExchange _ _
  | .machineCheck _ | .capoLeaseAnswer _ _ _ | .leaseEnergyExhausted _ | .unitPowerGate _ | .unitPowerWake _
  | .refusedRequestRetry _ | .targetAbsentExpiry _ | .raloreInputChange _ | .raloreMessage _ _ _ | .raloreLimitMet
  | .powerFail | .fabricMessageDelivery _ | .moduleReset _ | .hostWrite _ _ _ | .hostRead _ _ | .mgSubasidWrite _
  | .mgAsidctxWrite _ _ | .asidInvalidationComplete _ | .mgKill _ | .mgRalseqWrite _ | .mgKvpoolWrite _ _ _
  | .mgRailWrite _ _ | .mgRegisterWrite _ _ | .modulePowerOn _ | .dieCalibrationComplete _ _ | .dieRetire _
  | .linkRetire _ | .firmwareHandover _ | .uncorrectableError _ => false
  | _ => true

end Sys2Proof
end

