-- ==== Sys2Proof/Decode.lean ====
section
/-! DEFINITION. The decoder and the encoder of the 80-bit instruction word (spec/06_instruction_word.md R105 to R127 and the
encoding tables R143, R150, R155 to R166, R187, R217, R231, R242, R261, R279, R302, R326, R347, R372, R375, R378, R392). The
decoder is total: it gives an instruction or names why the word is illegal. -/

namespace Sys2Proof

/-- Why a word is illegal (R127). -/
inductive Reject
  | opcode    -- an unassigned OP
  | function  -- an FN that the description does not assign
  | operand   -- an operand field names a reserved index (R110)
  | unused    -- a field the instruction does not use is not zero (R110)
  | bits      -- a reserved bit of X is not zero (R114)
  | code      -- a reserved code: RM, FMT, condition or type
  | ill (e : IllFormed)
  deriving DecidableEq, Repr

/-- The fields of R108. -/
structure Raw where
  op  : BitVec 8
  fn  : BitVec 6
  st  : BitVec 1
  pd  : BitVec 4
  ta  : BitVec 3
  tc  : BitVec 7
  dst : BitVec 9
  sa  : BitVec 10
  sb  : BitVec 10
  x   : BitVec 22
  deriving DecidableEq, Repr

/-- The word with these fields (R108). -/
def Raw.pack (r : Raw) : IWord := r.op ++ r.fn ++ r.st ++ r.pd ++ r.ta ++ r.tc ++ r.dst ++ r.sa ++ r.sb ++ r.x

/-- The fields of a word (R108). -/
def Raw.unpack (w : IWord) : Raw :=
  { op := w.extractLsb' 72 8, fn := w.extractLsb' 66 6, st := w.extractLsb' 65 1, pd := w.extractLsb' 61 4,
    ta := w.extractLsb' 58 3, tc := w.extractLsb' 51 7, dst := w.extractLsb' 42 9, sa := w.extractLsb' 32 10,
    sb := w.extractLsb' 22 10, x := w.extractLsb' 0 22 }

def streamOf (b : BitVec 1) : Stream := if b = 0 then .exe else .acc
def streamBit : Stream → BitVec 1
  | .exe => 0
  | .acc => 1

/-- The stream, PD, TA and TC of a word. -/
def Raw.hdr (r : Raw) : Hdr := { st := streamOf r.st, pd := r.pd.toFin, ta := r.ta.toFin, tc := r.tc }

/-- The k bits of a field. -/
def bvFin (k : Nat) (n : Fin (2 ^ k)) : BitVec k := BitVec.ofFin n

def bit (b : Bool) : BitVec 1 := BitVec.ofBool b
def isOne (b : BitVec 1) : Bool := b == 1

def need (b : Bool) (e : Reject) : Except Reject Unit := if b then .ok () else .error e

/-- An operand field (R109): class, keep, index. -/
def opndOf (st : Stream) (f : BitVec 10) : Except Reject Opnd :=
  let keep := f.getLsbD 8
  let i := (f.extractLsb' 0 8).toNat
  if f.getLsbD 9 then
    if h : i < 16 then .ok (.q ⟨i, h⟩ keep)
    else if h : 16 ≤ i ∧ i < 64 then
      (if st = .acc then .ok (.n ⟨i - 16, by omega⟩ keep) else .error .operand)
    else .error .operand
  else if keep then .error .operand
  else if h : i < 64 then
    (if st = .exe || i < 32 then .ok (.r ⟨i, h⟩) else .error .operand)
  else if st = .acc then .error .operand
  else if h : 64 ≤ i ∧ i < 96 then .ok (.v ⟨i - 64, by omega⟩)
  else if h : 96 ≤ i ∧ i < 104 then .ok (.k ⟨i - 96, by omega⟩)
  else .error .operand

/-- The operand field of an operand (R109). -/
def opndBits : Opnd → BitVec 10
  | .r n => BitVec.ofNat 10 n.val
  | .v n => BitVec.ofNat 10 (64 + n.val)
  | .k n => BitVec.ofNat 10 (96 + n.val)
  | .q n keep => (1 : BitVec 1) ++ bit keep ++ BitVec.ofNat 8 n.val
  | .n n keep => (1 : BitVec 1) ++ bit keep ++ BitVec.ofNat 8 (16 + n.val)

/-- A destination field: class and index, no keep bit (R108). -/
def dstAs (f : BitVec 9) : BitVec 10 := f.extractLsb' 8 1 ++ (0 : BitVec 1) ++ f.extractLsb' 0 8
def dstBits (o : Opnd) : BitVec 9 := (opndBits o).extractLsb' 9 1 ++ (opndBits o).extractLsb' 0 8

def Raw.d (r : Raw) : Except Reject Opnd := opndOf (streamOf r.st) (dstAs r.dst)
def Raw.a (r : Raw) : Except Reject Opnd := opndOf (streamOf r.st) r.sa
def Raw.b (r : Raw) : Except Reject Opnd := opndOf (streamOf r.st) r.sb
def Raw.noD (r : Raw) : Except Reject Unit := need (r.dst == 0) .unused
def Raw.noA (r : Raw) : Except Reject Unit := need (r.sa == 0) .unused
def Raw.noB (r : Raw) : Except Reject Unit := need (r.sb == 0) .unused
def Raw.noX (r : Raw) : Except Reject Unit := need (r.x == 0) .bits
def Raw.fn0 (r : Raw) : Except Reject Unit := need (r.fn == 0) .function

/-- Tap operands: index 128 with form T, index 129 with form TX (R113, R114). -/
def tapField (f : BitVec 10) : Bool := f == 0x280 || f == 0x281
def tapOf (f : BitVec 10) (x : BitVec 22) : Except Reject Tap :=
  if f == 0x280 then .ok (.direct (x.extractLsb' 13 9) (x.extractLsb' 5 8) (x.extractLsb' 0 5))
  else do
    need (f == 0x281) .operand
    need (x.extractLsb' 6 7 == 0) .bits
    .ok (.indexed (x.extractLsb' 13 9) (x.extractLsb' 0 6).toFin)
def tapBits : Tap → BitVec 10
  | .direct _ _ _ => 0x280
  | .indexed _ _ => 0x281
def tapX : Tap → BitVec 22
  | .direct s l r => s ++ l ++ r
  | .indexed s n => s ++ (0 : BitVec 7) ++ bvFin 6 n
def topOf (st : Stream) (f : BitVec 10) (x : BitVec 22) : Except Reject TOp :=
  if tapField f then do
    let t ← tapOf f x
    .ok (.tap t)
  else do
    let o ← opndOf st f
    .ok (.reg o)
def topBits : TOp → BitVec 10
  | .reg o => opndBits o
  | .tap t => tapBits t

/-- Source C of form C (R113). -/
def Raw.c (r : Raw) : Except Reject Opnd := opndOf (streamOf r.st) (r.x.extractLsb' 12 10)
def cX (o : Opnd) (lo : BitVec 12) : BitVec 22 := opndBits o ++ lo

/-! Codes of the fields. -/

def rmOf : BitVec 3 → Except Reject RM
  | 0 => .ok .rne
  | 1 => .ok .rtz
  | 2 => .ok .rdn
  | 3 => .ok .rup
  | 4 => .ok .srd
  | _ => .error .code
def rmBits : RM → BitVec 3
  | .rne => 0
  | .rtz => 1
  | .rdn => 2
  | .rup => 3
  | .srd => 4

def fwOf : BitVec 1 → Except Reject FW
  | 0 => .ok .s
  | 1 => .ok .h
def fwBits : FW → BitVec 1
  | .s => 0
  | .h => 1

def ctyOf : BitVec 2 → Except Reject CvtTy
  | 0 => .ok .s
  | 1 => .ok .h
  | 2 => .ok .w
  | 3 => .ok .l
def ctyBits : CvtTy → BitVec 2
  | .s => 0
  | .h => 1
  | .w => 2
  | .l => 3

def vtyOf : BitVec 3 → Except Reject VTy
  | 0 => .ok .s
  | 1 => .ok .h
  | 2 => .ok .bf
  | 3 => .ok .w
  | 4 => .ok .b
  | 5 => .ok .b4
  | 6 => .ok .d
  | 7 => .ok .u
def vtyBits : VTy → BitVec 3
  | .s => 0
  | .h => 1
  | .bf => 2
  | .w => 3
  | .b => 4
  | .b4 => 5
  | .d => 6
  | .u => 7

def icondOf : BitVec 4 → Except Reject ICond
  | 0 => .ok .eq
  | 1 => .ok .ne
  | 2 => .ok .lt
  | 3 => .ok .le
  | 4 => .ok .ltu
  | 5 => .ok .leu
  | 6 => .ok .gt
  | 7 => .ok .ge
  | 8 => .ok .gtu
  | 9 => .ok .geu
  | _ => .error .code
def icondBits : ICond → BitVec 4
  | .eq => 0
  | .ne => 1
  | .lt => 2
  | .le => 3
  | .ltu => 4
  | .leu => 5
  | .gt => 6
  | .ge => 7
  | .gtu => 8
  | .geu => 9

def bcondOf : BitVec 3 → Except Reject BCond
  | 0 => .ok .z
  | 1 => .ok .nz
  | 2 => .ok .ltz
  | 3 => .ok .gez
  | 4 => .ok .gtz
  | 5 => .ok .lez
  | _ => .error .code
def bcondBits : BCond → BitVec 3
  | .z => 0
  | .nz => 1
  | .ltz => 2
  | .gez => 3
  | .gtz => 4
  | .lez => 5

def fcondOf : BitVec 3 → Except Reject FCond
  | 0 => .ok .eq
  | 1 => .ok .ne
  | 2 => .ok .lt
  | 3 => .ok .le
  | 4 => .ok .gt
  | 5 => .ok .ge
  | 6 => .ok .un
  | 7 => .ok .or
def fcondBits : FCond → BitVec 3
  | .eq => 0
  | .ne => 1
  | .lt => 2
  | .le => 3
  | .gt => 4
  | .ge => 5
  | .un => 6
  | .or => 7

def kcondOf : BitVec 3 → Except Reject KCond
  | 0 => .ok .eq
  | 1 => .ok .ne
  | 2 => .ok .lt
  | 3 => .ok .le
  | 4 => .ok .gt
  | 5 => .ok .ge
  | _ => .error .code
def kcondBits : KCond → BitVec 3
  | .eq => 0
  | .ne => 1
  | .lt => 2
  | .le => 3
  | .gt => 4
  | .ge => 5

def szOf : BitVec 2 → Except Reject Sz
  | 0 => .ok .b
  | 1 => .ok .h
  | 2 => .ok .w
  | 3 => .ok .d
def szBits : Sz → BitVec 2
  | .b => 0
  | .h => 1
  | .w => 2
  | .d => 3

def awOf : BitVec 2 → Except Reject AW
  | 2 => .ok .w
  | 3 => .ok .d
  | _ => .error .code
def awBits : AW → BitVec 2
  | .w => 2
  | .d => 3

def aopOf : BitVec 4 → Except Reject AOpc
  | 0 => .ok .add
  | 1 => .ok .and
  | 2 => .ok .or
  | 3 => .ok .xor
  | 4 => .ok .swap
  | 5 => .ok .min
  | 6 => .ok .max
  | 7 => .ok .minu
  | 8 => .ok .maxu
  | 9 => .ok .fadd
  | 10 => .ok .fmin
  | 11 => .ok .fmax
  | _ => .error .code
def aopBits : AOpc → BitVec 4
  | .add => 0
  | .and => 1
  | .or => 2
  | .xor => 3
  | .swap => 4
  | .min => 5
  | .max => 6
  | .minu => 7
  | .maxu => 8
  | .fadd => 9
  | .fmin => 10
  | .fmax => 11

def fmtOf : BitVec 4 → Except Reject Fmt
  | 0 => .ok .fp32
  | 1 => .ok .fp16
  | 2 => .ok .bf16
  | 3 => .ok .e4m3
  | 4 => .ok .e5m2
  | 5 => .ok .int8
  | 6 => .ok .int32
  | 7 => .ok .b4
  | _ => .error .code
def fmtBits : Fmt → BitVec 4
  | .fp32 => 0
  | .fp16 => 1
  | .bf16 => 2
  | .e4m3 => 3
  | .e5m2 => 4
  | .int8 => 5
  | .int32 => 6
  | .b4 => 7

def okindOf : BitVec 2 → Except Reject OrdKind
  | 0 => .ok .none
  | 1 => .ok .acq
  | 2 => .ok .rel
  | 3 => .ok .ar
def okindBits : OrdKind → BitVec 2
  | .none => 0
  | .acq => 1
  | .rel => 2
  | .ar => 3

def scanOf : BitVec 2 → Except Reject ScanOp
  | 0 => .ok .sum
  | 1 => .ok .max
  | 2 => .ok .min
  | _ => .error .code
def scanBits : ScanOp → BitVec 2
  | .sum => 0
  | .max => 1
  | .min => 2


/-- ORD (R66). -/
def ordOf (o : BitVec 14) : Except Reject Ord14 := do
  let k ← okindOf (o.extractLsb' 12 2)
  .ok ⟨k, o.extractLsb' 8 4, o.extractLsb' 0 8⟩
def ordBits (o : Ord14) : BitVec 14 := okindBits o.kind ++ o.scope ++ o.paths
def Raw.ord (r : Raw) : Except Reject Ord14 := ordOf (r.x.extractLsb' 8 14)

/-- ORD, WSEM and SSEM (R262). -/
def cmdFOf (x : BitVec 22) : Except Reject CmdF := do
  let o ← ordOf (x.extractLsb' 8 14)
  .ok ⟨o, x.extractLsb' 4 4, x.extractLsb' 0 4⟩
def cmdFX (f : CmdF) : BitVec 22 := ordBits f.ord ++ f.wsem ++ f.ssem

/-- The mask fields (R215). -/
def maskOf (m : BitVec 5) : VMask := ⟨m.getLsbD 4, m.getLsbD 3, (m.extractLsb' 0 3).toFin⟩
def maskBits (m : VMask) : BitVec 5 := bit m.kv ++ bit m.kz ++ bvFin 3 m.kr
def VMask.none : VMask := ⟨false, false, 0⟩
/-- Layout M with IDX (R215). -/
def layM (x : BitVec 22) : Except Reject (BitVec 8 × VMask) := do
  need (x.extractLsb' 13 9 == 0) .bits
  .ok (x.extractLsb' 5 8, maskOf (x.extractLsb' 0 5))
/-- Layout M with IDX zero. -/
def layM0 (x : BitVec 22) : Except Reject VMask := do
  let (i, m) ← layM x
  need (i == 0) .bits
  .ok m
def mX (i : BitVec 8) (m : VMask) : BitVec 22 := (0 : BitVec 9) ++ i ++ maskBits m
/-- Layout C of a vector word: source C and the mask (R215). -/
def layC (r : Raw) : Except Reject (Opnd × VMask) := do
  need (r.x.extractLsb' 5 7 == 0) .bits
  let c ← r.c
  .ok (c, maskOf (r.x.extractLsb' 0 5))
/-- FN[2:0] of layout A (R216). -/
def modeOf (t : VTy) (m : BitVec 3) : Except Reject VMode :=
  if t.isFp then do
    let rm ← rmOf m
    .ok (.fp rm)
  else do
    need (m.extractLsb' 1 2 == 0) .function
    .ok (.int (m.getLsbD 0))
def modeBits : VMode → BitVec 3
  | .fp rm => rmBits rm
  | .int sat => (0 : BitVec 2) ++ bit sat
def Raw.vt (r : Raw) : Except Reject VTy := vtyOf (r.fn.extractLsb' 3 3)
def Raw.lo3 (r : Raw) : BitVec 3 := r.fn.extractLsb' 0 3
/-- A scalar register or channel amount, or an immediate (R145). -/
def sigOf (x : BitVec 22) : BitVec 9 := x.extractLsb' 13 9
def Raw.sig (r : Raw) : Except Reject (BitVec 9) := do
  need (r.x.extractLsb' 0 13 == 0) .bits
  .ok (sigOf r.x)
def sigX (s : BitVec 9) : BitVec 22 := s ++ (0 : BitVec 13)
/-- SV and SEM (R203, R378). -/
def semOf (x : BitVec 9) : Except Reject SigSem :=
  if x.getLsbD 8 then .ok (some (x.extractLsb' 0 8))
  else do
    need (x == 0) .bits
    .ok none
def semBits : SigSem → BitVec 9
  | none => 0
  | some n => (1 : BitVec 1) ++ n
/-- The shape of a curve word (R240). -/
def Raw.shape (r : Raw) : Except Reject KShape := do
  need (r.x.extractLsb' 18 4 == 0) .bits
  .ok ⟨r.x.extractLsb' 15 3, r.x.extractLsb' 9 6⟩
def Raw.p (r : Raw) : BitVec 9 := r.x.extractLsb' 0 9
def kX (k : KShape) (p : BitVec 9) : BitVec 22 := (0 : BitVec 4) ++ k.ndm ++ k.awm ++ p
/-- Layout L (R231). -/
def lsFOf (r : Raw) : Except Reject LsF := do
  let o ← r.ord
  let sem := r.x.extractLsb' 0 8
  let sm := r.fn.extractLsb' 4 2
  need (sm != 3) .function
  need (sm != 0 || sem == 0) .bits
  .ok { wait := if sm = 1 then some sem else none, sig := if sm = 2 then some sem else none,
        kv := r.fn.getLsbD 3, kr := (r.fn.extractLsb' 0 3).toFin, ord := o }
def lsFn (l : LsF) : BitVec 6 :=
  (match l.wait, l.sig with
   | some _, _ => (1 : BitVec 2)
   | none, some _ => 2
   | none, none => 0) ++ bit l.kv ++ bvFin 3 l.kr
def lsX (l : LsF) : BitVec 22 :=
  ordBits l.ord ++ (match l.wait, l.sig with
   | some n, _ => n
   | none, some n => n
   | none, none => 0)

/-! Decoders of the common forms. -/

def dec3 (c : Hdr → Opnd → Opnd → Opnd → Instr) (r : Raw) : Except Reject Instr := do
  r.fn0
  r.noX
  let d ← r.d
  let a ← r.a
  let b ← r.b
  .ok (c r.hdr d a b)
def dec2 (c : Hdr → Opnd → Opnd → Instr) (r : Raw) : Except Reject Instr := do
  r.fn0
  r.noX
  r.noB
  let d ← r.d
  let a ← r.a
  .ok (c r.hdr d a)
def decShift (c : Hdr → Opnd → Opnd → ShAmt → Instr) (r : Raw) : Except Reject Instr := do
  let d ← r.d
  let a ← r.a
  if r.fn == 0 then do
    r.noX
    let b ← r.b
    .ok (c r.hdr d a (.reg b))
  else do
    need (r.fn == 1) .function
    r.noB
    need (r.x.extractLsb' 6 16 == 0) .bits
    .ok (c r.hdr d a (.imm (r.x.extractLsb' 0 6).toFin))
/-- FN of the scalar FP words: H, RM, 0 (R150). -/
def fpFn (r : Raw) : Except Reject (FW × RM) := do
  need (r.fn.extractLsb' 0 2 == 0) .function
  let f ← fwOf (r.fn.extractLsb' 5 1)
  let rm ← rmOf (r.fn.extractLsb' 2 3)
  .ok (f, rm)
def fpFnBits (f : FW) (rm : RM) : BitVec 6 := fwBits f ++ rmBits rm ++ (0 : BitVec 2)
def decF3 (c : Hdr → FW → RM → Opnd → Opnd → Opnd → Instr) (r : Raw) : Except Reject Instr := do
  let (f, rm) ← fpFn r
  r.noX
  let d ← r.d
  let a ← r.a
  let b ← r.b
  .ok (c r.hdr f rm d a b)
def decFm (c : Hdr → FW → Opnd → Opnd → Opnd → Instr) (r : Raw) : Except Reject Instr := do
  need (r.fn.extractLsb' 0 5 == 0) .function
  let f ← fwOf (r.fn.extractLsb' 5 1)
  r.noX
  let d ← r.d
  let a ← r.a
  let b ← r.b
  .ok (c r.hdr f d a b)
def decSem (c : Hdr → SemArg → Instr) (byReg : Bool) (r : Raw) : Except Reject Instr := do
  r.noD
  r.noB
  if byReg then do
    r.noX
    let a ← r.a
    .ok (c r.hdr (.reg a))
  else do
    r.noA
    need (r.x.extractLsb' 8 14 == 0) .bits
    .ok (c r.hdr (.imm (r.x.extractLsb' 0 8)))
/-- Curve words of one and of two keys. -/
def decK2 (c : Hdr → KShape → Opnd → Opnd → Instr) (r : Raw) : Except Reject Instr := do
  r.noB
  need (r.p == 0) .bits
  let k ← r.shape
  let d ← r.d
  let a ← r.a
  .ok (c r.hdr k d a)
def decK3 (c : Hdr → KShape → Opnd → Opnd → Opnd → Instr) (r : Raw) : Except Reject Instr := do
  need (r.p == 0) .bits
  let k ← r.shape
  let d ← r.d
  let a ← r.a
  let b ← r.b
  .ok (c r.hdr k d a b)
/-- Vector words with taps and layout M (R214, R215). -/
def vops (r : Raw) (two : Bool) : Except Reject (Opnd × TOp × TOp × VMask) := do
  let d ← r.d
  let a ← topOf (streamOf r.st) r.sa r.x
  if two then do
    let b ← topOf (streamOf r.st) r.sb r.x
    if a.isTap || b.isTap then .ok (d, a, b, VMask.none)
    else do
      let m ← layM0 r.x
      .ok (d, a, b, m)
  else do
    r.noB
    if a.isTap then .ok (d, a, a, VMask.none)
    else do
      let m ← layM0 r.x
      .ok (d, a, a, m)
def vX (a : TOp) (b : Option TOp) (m : VMask) : BitVec 22 :=
  match a with
  | .tap t => tapX t
  | .reg _ => match b with
    | some (.tap t) => tapX t
    | _ => mX 0 m
def decVA (c : Hdr → VTy → VMode → Opnd → TOp → TOp → VMask → Instr) (r : Raw) : Except Reject Instr := do
  let t ← r.vt
  let m ← modeOf t r.lo3
  let (d, a, b, mk) ← vops r true
  .ok (c r.hdr t m d a b mk)
def decVA1 (c : Hdr → VTy → VMode → Opnd → TOp → VMask → Instr) (r : Raw) : Except Reject Instr := do
  let t ← r.vt
  let m ← modeOf t r.lo3
  let (d, a, _, mk) ← vops r false
  .ok (c r.hdr t m d a mk)
def decVF1 (c : Hdr → VTy → RM → Opnd → TOp → VMask → Instr) (r : Raw) : Except Reject Instr := do
  let t ← r.vt
  let rm ← rmOf r.lo3
  let (d, a, _, mk) ← vops r false
  .ok (c r.hdr t rm d a mk)
def decVB (c : Hdr → VTy → Opnd → TOp → TOp → VMask → Instr) (r : Raw) : Except Reject Instr := do
  let t ← r.vt
  need (r.lo3 == 0) .function
  let (d, a, b, mk) ← vops r true
  .ok (c r.hdr t d a b mk)
def decVB1 (c : Hdr → VTy → Opnd → TOp → VMask → Instr) (r : Raw) : Except Reject Instr := do
  let t ← r.vt
  need (r.lo3 == 0) .function
  let (d, a, _, mk) ← vops r false
  .ok (c r.hdr t d a mk)
def decVL (c : Hdr → Opnd → TOp → TOp → VMask → Instr) (r : Raw) : Except Reject Instr := do
  r.fn0
  let (d, a, b, mk) ← vops r true
  .ok (c r.hdr d a b mk)
def decVSh (c : Hdr → VTy → Opnd → Opnd → ShAmt → VMask → Instr) (r : Raw) : Except Reject Instr := do
  let t ← r.vt
  need (r.fn.extractLsb' 1 2 == 0) .function
  let d ← r.d
  let a ← r.a
  let (i, mk) ← layM r.x
  if r.fn.getLsbD 0 then do
    r.noB
    need (i.extractLsb' 6 2 == 0) .bits
    .ok (c r.hdr t d a (.imm (i.extractLsb' 0 6).toFin) mk)
  else do
    need (i == 0) .bits
    let b ← r.b
    .ok (c r.hdr t d a (.reg b) mk)
def decLd (c : Hdr → LsF → Opnd → Opnd → Instr) (r : Raw) : Except Reject Instr := do
  r.noB
  let l ← lsFOf r
  let d ← r.d
  let a ← r.a
  .ok (c r.hdr l d a)
def decSt (c : Hdr → LsF → Opnd → Opnd → Instr) (r : Raw) : Except Reject Instr := do
  r.noD
  let l ← lsFOf r
  let a ← r.a
  let b ← r.b
  .ok (c r.hdr l a b)
def decMat (c : Hdr → BitVec 3 → Opnd → CmdF → Instr) (r : Raw) : Except Reject Instr := do
  r.noD
  r.noB
  need (r.lo3 == 0) .function
  let a ← r.a
  let f ← cmdFOf r.x
  .ok (c r.hdr (r.fn.extractLsb' 3 3) a f)
def decC2 (c : Hdr → Opnd → Opnd → CmdF → Instr) (r : Raw) : Except Reject Instr := do
  r.noD
  r.fn0
  let a ← r.a
  let b ← r.b
  let f ← cmdFOf r.x
  .ok (c r.hdr a b f)
def decCpy (c : Hdr → Opnd → CpyTap → Instr) (r : Raw) : Except Reject Instr := do
  r.noD
  need (r.fn.extractLsb' 1 5 == 0) .function
  let a ← r.a
  if tapField r.sb then do
    let t ← tapOf r.sb r.x
    .ok (c r.hdr a (if r.fn.getLsbD 0 then .dst t else .src t))
  else do
    r.noB
    r.fn0
    let f ← cmdFOf r.x
    .ok (c r.hdr a (.none f))
/-- A completion semaphore code alone (R261, R302, R347). -/
def ssemOf (x : BitVec 22) : Except Reject (BitVec 4) := do
  need (x.extractLsb' 4 18 == 0) .bits
  .ok (x.extractLsb' 0 4)
def ssemX (n : BitVec 4) : BitVec 22 := (0 : BitVec 18) ++ n
def decGap (c : Hdr → GapArg → Instr) (r : Raw) : Except Reject Instr := do
  r.noD
  r.noB
  if r.fn.getLsbD 0 then do
    r.noX
    let a ← r.a
    .ok (c r.hdr (.reg a))
  else do
    r.noA
    need (r.x.extractLsb' 16 6 == 0) .bits
    .ok (c r.hdr (.imm (r.x.extractLsb' 0 16)))
/-- Launch words of one and two sources (R326). -/
def decL1 (c : Hdr → Opnd → Instr) (r : Raw) : Except Reject Instr := do
  r.noD
  r.noB
  r.noX
  let a ← r.a
  .ok (c r.hdr a)
def decL2 (c : Hdr → Opnd → Opnd → Instr) (r : Raw) : Except Reject Instr := do
  r.noD
  r.noX
  let a ← r.a
  let b ← r.b
  .ok (c r.hdr a b)
def decL3 (c : Hdr → Opnd → Opnd → Opnd → Instr) (r : Raw) : Except Reject Instr := do
  r.noX
  let d ← r.d
  let a ← r.a
  let b ← r.b
  .ok (c r.hdr d a b)
def decNull (c : Hdr → Instr) (r : Raw) : Except Reject Instr := do
  r.noD
  r.noA
  r.noB
  r.noX
  .ok (c r.hdr)
/-- A signal named in SIG with at most one s or v source (R187). -/
def decSig (c : Hdr → BitVec 9 → Instr) (r : Raw) : Except Reject Instr := do
  r.noD
  r.noA
  r.noB
  let s ← r.sig
  .ok (c r.hdr s)
def decSigA (c : Hdr → BitVec 9 → Opnd → Instr) (r : Raw) : Except Reject Instr := do
  r.noD
  r.noB
  let s ← r.sig
  let a ← r.a
  .ok (c r.hdr s a)
def decSave (c : Hdr → BitVec 9 → Opnd → SigSem → Instr) (r : Raw) : Except Reject Instr := do
  r.noD
  r.noB
  need (r.x.extractLsb' 9 4 == 0) .bits
  let sem ← semOf (r.x.extractLsb' 0 9)
  let a ← r.a
  .ok (c r.hdr (sigOf r.x) a sem)
def saveX (s : BitVec 9) (sem : SigSem) : BitVec 22 := s ++ (0 : BitVec 4) ++ semBits sem
/-- The width of faddw and wwait (R279). -/
def wOf (b : Bool) : AW := if b then .d else .w
def wBit : AW → BitVec 1
  | .w => 0
  | .d => 1
def thrOf (tr : Bool) (x : BitVec 8) : Except Reject Thr :=
  if tr then do
    need (x.extractLsb' 5 3 == 0) .bits
    .ok (.reg (x.extractLsb' 0 5).toFin)
  else .ok (.imm x)
def thrBits : Thr → BitVec 8
  | .imm n => n
  | .reg a => (0 : BitVec 3) ++ bvFin 5 a
def thrTr : Thr → BitVec 1
  | .imm _ => 0
  | .reg _ => 1

/-! The opcode map (R125, R126), group by group. -/

/-- 0x01 to 0x21: integer and address (R143 to R149). -/
def decInt (r : Raw) : Except Reject Instr :=
  match r.op.toNat with
  | 0x01 => dec3 .add r
  | 0x02 => dec3 .sub r
  | 0x03 => do
    r.fn0
    r.noB
    let d ← r.d
    let a ← r.a
    .ok (.addi r.hdr d a r.x)
  | 0x04 => dec3 .mul r
  | 0x05 => dec3 .mulh r
  | 0x06 => dec3 .mulhu r
  | 0x07 => dec3 .div r
  | 0x08 => dec3 .divu r
  | 0x09 => dec3 .rem r
  | 0x0A => dec3 .remu r
  | 0x0B => dec3 .and r
  | 0x0C => dec3 .or r
  | 0x0D => dec3 .xor r
  | 0x0E => dec3 .andn r
  | 0x0F => decShift .shl r
  | 0x10 => decShift .shr r
  | 0x11 => decShift .sra r
  | 0x12 => decShift .rol r
  | 0x13 => dec2 .clz r
  | 0x14 => dec2 .ctz r
  | 0x15 => dec2 .popc r
  | 0x16 => dec3 .min r
  | 0x17 => dec3 .max r
  | 0x18 => dec3 .minu r
  | 0x19 => dec3 .maxu r
  | 0x1A => do
    r.fn0
    need (r.x.extractLsb' 0 12 == 0) .bits
    let d ← r.d
    let a ← r.a
    let b ← r.b
    let c ← r.c
    .ok (.sel r.hdr d a b c)
  | 0x1B => do
    need (!r.fn.getLsbD 5) .function
    let cc ← icondOf (r.fn.extractLsb' 0 4)
    let d ← r.d
    let a ← r.a
    if r.fn.getLsbD 4 then do
      r.noB
      .ok (.cmp r.hdr cc d a (.imm r.x))
    else do
      r.noX
      let b ← r.b
      .ok (.cmp r.hdr cc d a (.reg b))
  | 0x1C => do
    r.fn0
    r.noA
    r.noB
    let d ← r.d
    .ok (.li r.hdr d r.x)
  | 0x1D => do
    r.noA
    r.noB
    let d ← r.d
    if r.fn == 0 then .ok (.lui r.hdr d r.x)
    else do
      need (r.fn == 1) .function
      need (r.x.extractLsb' 20 2 == 0) .bits
      .ok (.luiHi r.hdr d (r.x.extractLsb' 0 20))
  | 0x1E => dec2 .mov r
  | 0x1F => do
    need (r.fn.extractLsb' 1 5 == 0) .function
    r.noB
    need (r.x.extractLsb' 13 9 == 0 && r.x.extractLsb' 0 6 == 0) .bits
    let d ← r.d
    let a ← r.a
    .ok (.ext r.hdr (r.fn.getLsbD 0) d a (r.x.extractLsb' 6 7))
  | 0x20 => do
    r.fn0
    r.noB
    need (r.x.extractLsb' 13 9 == 0) .bits
    let d ← r.d
    let a ← r.a
    .ok (.ins r.hdr d a (r.x.extractLsb' 0 6) (r.x.extractLsb' 6 7))
  | 0x21 => do
    need (r.fn.extractLsb' 1 5 == 0) .function
    r.noB
    need (r.x.extractLsb' 13 9 == 0) .bits
    let d ← r.d
    let a ← r.a
    .ok (.bfx r.hdr (r.fn.getLsbD 0) d a (r.x.extractLsb' 0 6) (r.x.extractLsb' 6 7))
  | _ => .error .opcode

/-- 0x40 to 0x49: scalar floating point (R150, R154). -/
def decFp (r : Raw) : Except Reject Instr :=
  match r.op.toNat with
  | 0x40 => decF3 .fadd r
  | 0x41 => decF3 .fsub r
  | 0x42 => decF3 .fmul r
  | 0x43 => do
    let (f, rm) ← fpFn r
    need (r.x.extractLsb' 0 12 == 0) .bits
    let d ← r.d
    let a ← r.a
    let b ← r.b
    let c ← r.c
    .ok (.ffma r.hdr f rm d a b c)
  | 0x44 => decFm .fmin r
  | 0x45 => decFm .fmax r
  | 0x46 => do
    need (r.fn.extractLsb' 3 2 == 0) .function
    let f ← fwOf (r.fn.extractLsb' 5 1)
    let cc ← fcondOf r.lo3
    r.noX
    let d ← r.d
    let a ← r.a
    let b ← r.b
    .ok (.fcmp r.hdr f cc d a b)
  | 0x47 => do
    need (r.fn.extractLsb' 4 2 == 0) .function
    let dt ← ctyOf (r.fn.extractLsb' 2 2)
    let st ← ctyOf (r.fn.extractLsb' 0 2)
    r.noB
    need (r.x.extractLsb' 4 18 == 0) .bits
    let rm ← rmOf (r.x.extractLsb' 0 3)
    let d ← r.d
    let a ← r.a
    .ok (.fcvt r.hdr dt st (r.x.getLsbD 3) rm d a)
  | 0x48 => decF3 .fdiv r
  | 0x49 => do
    let (f, rm) ← fpFn r
    r.noX
    r.noB
    let d ← r.d
    let a ← r.a
    .ok (.fsqrt r.hdr f rm d a)
  | _ => .error .opcode

/-- 0x50 to 0x5F: control, condition queues, semaphores, spill, control registers (R155 to R165, R128). -/
def decCtl (r : Raw) : Except Reject Instr :=
  match r.op.toNat with
  | 0x50 => do
    need (r.fn.extractLsb' 3 3 == 0) .function
    let cc ← bcondOf r.lo3
    r.noD
    r.noB
    let a ← r.a
    .ok (.br r.hdr cc a r.x)
  | 0x51 => do
    r.fn0
    r.noD
    r.noA
    r.noB
    .ok (.jmp r.hdr r.x)
  | 0x52 => do
    r.fn0
    r.noA
    r.noB
    let d ← r.d
    .ok (.jal r.hdr d r.x)
  | 0x53 => do
    r.fn0
    decL1 .jr r
  | 0x54 => do
    need (r.fn.extractLsb' 1 5 == 0) .function
    r.noD
    r.noB
    let q ← r.a
    .ok (.bcq r.hdr (r.fn.getLsbD 0) q r.x)
  | 0x55 => do
    r.fn0
    decL1 .jcq r
  | 0x56 => dec2 .pcq r
  | 0x57 => do
    r.noB
    let q ← r.d
    if r.fn == 0 then do
      r.noA
      .ok (.ptok r.hdr q (.target r.x))
    else do
      need (r.fn == 1) .function
      r.noX
      let a ← r.a
      .ok (.ptok r.hdr q (.reg a))
  | 0x58 => do
    r.noD
    r.noB
    if r.fn == 0 then do
      need (r.x.extractLsb' 12 10 == 0) .bits
      let a ← r.a
      .ok (.loop r.hdr (.reg a) (r.x.extractLsb' 0 12))
    else do
      need (r.fn == 1) .function
      r.noA
      .ok (.loop r.hdr (.imm (r.x.extractLsb' 12 10)) (r.x.extractLsb' 0 12))
  | 0x59 => do
    r.fn0
    decNull .exit r
  | 0x5A => do
    if r.fn == 0 then do
      r.noD
      r.noA
      r.noB
      need (r.x.extractLsb' 16 6 == 0) .bits
      .ok (.trap r.hdr (r.x.extractLsb' 0 16))
    else if r.fn == 0b010000 then decNull .eret r
    else do
      need (r.fn == 0b010001) .function
      decNull .eretN r
  | 0x5B => do
    r.noB
    need (r.x.extractLsb' 12 10 == 0) .bits
    if r.fn == 0 then do
      r.noA
      let d ← r.d
      .ok (.csrr r.hdr d (r.x.extractLsb' 0 12))
    else do
      need (r.fn == 0b010000) .function
      r.noD
      let a ← r.a
      .ok (.csrw r.hdr (r.x.extractLsb' 0 12) a)
  | 0x5C => do
    need (r.fn.extractLsb' 1 3 == 0 && !r.fn.getLsbD 5) .function
    if r.fn.getLsbD 4 then decSem .semi (r.fn.getLsbD 0) r
    else decSem .semw (r.fn.getLsbD 0) r
  | 0x5D => do
    need (!r.fn.getLsbD 5 && !r.fn.getLsbD 3) .function
    let sz ← szOf (r.fn.extractLsb' 0 2)
    let base ← (if r.fn.getLsbD 2 then do
        let a ← r.a
        .ok (some a)
      else do
        r.noA
        .ok none)
    if r.fn.getLsbD 4 then do
      r.noD
      let b ← r.b
      .ok (.spst r.hdr sz base r.x b)
    else do
      r.noB
      let d ← r.d
      .ok (.spld r.hdr sz d base r.x)
  | 0x5F => do
    r.fn0
    decNull .nop r
  | _ => .error .opcode

/-- An atomic's fields after FN[1:0]: ORD, ASC, with X[7:4] zero (R279, R280). -/
def ascF (r : Raw) : Except Reject (Ord14 × BitVec 4) := do
  need (r.x.extractLsb' 4 4 == 0) .bits
  let o ← r.ord
  .ok (o, r.x.extractLsb' 0 4)

/-- 0x60 to 0x6A: memory (R279). -/
def decMem (r : Raw) : Except Reject Instr :=
  match r.op.toNat with
  | 0x60 => do
    need (r.fn.extractLsb' 3 3 == 0) .function
    let sz ← szOf (r.fn.extractLsb' 0 2)
    r.noB
    let o ← r.ord
    let d ← r.d
    let a ← r.a
    .ok (.ld r.hdr (r.fn.getLsbD 2) sz o d a (r.x.extractLsb' 0 8))
  | 0x61 => do
    need (r.fn.extractLsb' 2 4 == 0) .function
    let sz ← szOf (r.fn.extractLsb' 0 2)
    r.noD
    let o ← r.ord
    let a ← r.a
    let b ← r.b
    .ok (.st r.hdr sz o a (r.x.extractLsb' 0 8) b)
  | 0x62 => do
    let op ← aopOf (r.fn.extractLsb' 2 4)
    let wd ← awOf (r.fn.extractLsb' 0 2)
    let (o, asc) ← ascF r
    let d ← r.d
    let a ← r.a
    let b ← r.b
    .ok (.amo r.hdr op wd o asc d a b)
  | 0x63 => do
    need (r.fn.extractLsb' 2 4 == 0) .function
    let wd ← awOf (r.fn.extractLsb' 0 2)
    let (o, asc) ← ascF r
    let d ← r.d
    let a ← r.a
    let b ← r.b
    .ok (.cas r.hdr wd o asc d a b)
  | 0x64 => do
    let o ← r.ord
    let thr ← thrOf (r.fn.getLsbD 1) (r.x.extractLsb' 0 8)
    let d ← r.d
    let a ← r.a
    let b ← r.b
    .ok (.faddw r.hdr (wOf (r.fn.getLsbD 0)) o (r.fn.extractLsb' 2 4) d a b thr)
  | 0x65 => do
    need (r.fn.extractLsb' 2 4 == 0) .function
    r.noD
    r.noB
    let o ← r.ord
    let thr ← thrOf (r.fn.getLsbD 1) (r.x.extractLsb' 0 8)
    let a ← r.a
    .ok (.wwait r.hdr (wOf (r.fn.getLsbD 0)) o a thr)
  | 0x66 => do
    r.fn0
    let (o, asc) ← ascF r
    let d ← r.d
    let a ← r.a
    let b ← r.b
    .ok (.enq r.hdr o asc d a b)
  | 0x67 => do
    r.fn0
    r.noB
    let (o, asc) ← ascF r
    let d ← r.d
    let a ← r.a
    .ok (.deq r.hdr o asc d a)
  | 0x68 => do
    r.fn0
    let o ← r.ord
    let d ← r.d
    let a ← r.a
    let b ← r.b
    .ok (.enqw r.hdr o (r.x.extractLsb' 4 4) (r.x.extractLsb' 0 4) d a b)
  | 0x69 => do
    r.fn0
    r.noB
    let o ← r.ord
    let d ← r.d
    let a ← r.a
    .ok (.deqw r.hdr o (r.x.extractLsb' 4 4) (r.x.extractLsb' 0 4) d a)
  | 0x6A => do
    let op ← aopOf (r.fn.extractLsb' 2 4)
    let wd ← awOf (r.fn.extractLsb' 0 2)
    let (o, asc) ← ascF r
    r.noD
    let a ← r.a
    let b ← r.b
    .ok (.ramo r.hdr op wd o asc a b)
  | _ => .error .opcode

/-- 0x70 to 0x77: signals (R187). -/
def decSgn (r : Raw) : Except Reject Instr :=
  match r.op.toNat with
  | 0x70 => do
    r.fn0
    r.noD
    r.noA
    r.noB
    need (!r.x.getLsbD 21) .bits
    .ok (.tick r.hdr (r.x.extractLsb' 0 21))
  | 0x71 => do
    need (r.fn.extractLsb' 3 3 == 0) .function
    r.noB
    let d ← r.d
    let t ← tapOf r.sa r.x
    .ok (.tld r.hdr r.lo3 d t)
  | 0x72 => do
    need (r.fn.extractLsb' 3 3 == 0) .function
    r.noB
    let t ← tapOf (dstAs r.dst) r.x
    let a ← r.a
    .ok (.tst r.hdr r.lo3 t a)
  | 0x73 => do
    need (r.fn.extractLsb' 2 4 == 0) .function
    let sz ← szOf (r.fn.extractLsb' 0 2)
    let d ← r.d
    let t ← tapOf r.sa r.x
    let b ← r.b
    .ok (.tldx r.hdr sz d t b)
  | 0x74 => do
    if r.fn == 0 then decSigA .sdecl r
    else if r.fn == 0b010000 then decSigA .sbind r
    else do
      need (r.fn == 0b100000) .function
      decSig .sdrop r
  | 0x75 => do
    if r.fn == 0 then decSig (fun h s => .sgate h s .off) r
    else if r.fn == 1 then decSig (fun h s => .sgate h s .on) r
    else if r.fn == 2 then decSigA (fun h s a => .sgate h s (.reg a)) r
    else if r.fn == 0b010000 then decSig (fun h s => .sfill h s none) r
    else do
      need (r.fn == 0b010001) .function
      decSigA (fun h s a => .sfill h s (some a)) r
  | 0x76 => do
    r.noB
    let d ← r.d
    if r.fn == 0 then do
      r.noA
      let s ← r.sig
      .ok (.snow r.hdr d s)
    else do
      need (r.fn == 0b010000) .function
      let t ← tapOf r.sa r.x
      .ok (.slag r.hdr d t)
  | 0x77 => do
    if r.fn == 0 then decSave .ssave r
    else if r.fn == 0b010000 then decSave .srest r
    else do
      need (r.fn == 0b100000) .function
      decSigA .srebase r
  | _ => .error .opcode

/-- 0x78 to 0x7F: the curve unit (R242). -/
def decCrv (r : Raw) : Except Reject Instr :=
  match r.op.toNat with
  | 0x78 => do
    if r.fn == 0 then decK2 .ckey r
    else do
      need (r.fn == 0b010000) .function
      decK2 .cunk r
  | 0x79 => do
    need (!r.fn.getLsbD 5 && r.fn.extractLsb' 2 2 == 0) .function
    if r.fn.getLsbD 4 then decK3 (fun h k => .csub h k (r.fn.getLsbD 1) (r.fn.getLsbD 0)) r
    else decK3 (fun h k => .cadd h k (r.fn.getLsbD 1) (r.fn.getLsbD 0)) r
  | 0x7A => do
    need (r.fn.extractLsb' 3 3 == 0) .function
    let cc ← kcondOf r.lo3
    decK3 (fun h k => .ccmp h k cc) r
  | 0x7B => do
    r.fn0
    decK3 .cbox r
  | 0x7C => do
    need (r.fn.extractLsb' 0 4 == 0) .function
    need (!r.p.getLsbD 8) .bits
    let k ← r.shape
    let sem := r.x.extractLsb' 0 8
    let sm ← (match r.fn.extractLsb' 4 2 with
      | 0 => do
        need (sem == 0) .bits
        .ok SemMode.none
      | 1 => .ok (.wait sem)
      | 2 => .ok (.sig sem)
      | _ => .error .function)
    let d ← r.d
    let a ← r.a
    let b ← r.b
    .ok (.csplit r.hdr k sm d a b)
  | 0x7D => do
    need (!r.fn.getLsbD 5 && r.fn.extractLsb' 1 3 == 0) .function
    if r.fn.getLsbD 4 then decK3 (fun h k => .cprev h k (r.fn.getLsbD 0)) r
    else decK3 (fun h k => .cnext h k (r.fn.getLsbD 0)) r
  | 0x7E => do
    r.fn0
    decK3 .cclamp r
  | 0x7F => do
    need (r.fn.extractLsb' 1 5 == 0) .function
    r.noB
    let k ← r.shape
    let d ← r.d
    let a ← r.a
    if r.fn.getLsbD 0 then do
      need (!r.p.getLsbD 8) .bits
      .ok (.cmask r.hdr k (.ax (r.x.extractLsb' 0 8)) d a)
    else .ok (.cmask r.hdr k (.lvl r.p) d a)
  | _ => .error .opcode

/-- 0x80 to 0x8F: vector arithmetic and comparison (R217). -/
def decVec0 (r : Raw) : Except Reject Instr :=
  match r.op.toNat with
  | 0x80 => decVA .vadd r
  | 0x81 => decVA .vsub r
  | 0x82 => decVA .vmul r
  | 0x83 => do
    let t ← r.vt
    let rm ← rmOf r.lo3
    let d ← r.d
    let a ← r.a
    let b ← r.b
    let (c, mk) ← layC r
    .ok (.vfma r.hdr t rm d a b c mk)
  | 0x84 => decVB .vmin r
  | 0x85 => decVB .vmax r
  | 0x86 => decVA1 .vabs r
  | 0x87 => decVA1 .vneg r
  | 0x88 => decVF1 .vrcp r
  | 0x89 => decVF1 .vrsq r
  | 0x8A => decVF1 .vexp2 r
  | 0x8B => decVF1 .vlog2 r
  | 0x8C => decVF1 .vsqrt r
  | 0x8D => do
    let t ← r.vt
    need (r.lo3 == 0) .function
    let d ← r.d
    let a ← r.a
    let b ← r.b
    let (c, mk) ← layC r
    .ok (.vclamp r.hdr t d a b c mk)
  | 0x8E => do
    let dt ← r.vt
    let st ← vtyOf r.lo3
    r.noB
    let d ← r.d
    let a ← r.a
    let (i, mk) ← layM r.x
    let rm ← rmOf (i.extractLsb' 0 3)
    .ok (.vcvt r.hdr dt st (i.extractLsb' 6 2) (i.getLsbD 5) (i.extractLsb' 3 2) rm d a mk)
  | 0x8F => do
    let t ← r.vt
    let cc ← fcondOf r.lo3
    let (d, a, b, mk) ← vops r true
    .ok (.vcmp r.hdr t cc d a b mk)
  | _ => .error .opcode

/-- 0x90 to 0x9F: selection, logic, reductions, permutations (R217). -/
def decVec1 (r : Raw) : Except Reject Instr :=
  match r.op.toNat with
  | 0x90 => do
    r.fn0
    let d ← r.d
    let a ← r.a
    let b ← r.b
    let m ← layM0 r.x
    need (m.kv && !m.kz) .bits
    .ok (.vsel r.hdr d a b m.kr)
  | 0x91 => decVL .vand r
  | 0x92 => decVL .vor r
  | 0x93 => decVL .vxor r
  | 0x94 => decVSh .vshl r
  | 0x95 => decVSh .vshr r
  | 0x96 => decVSh .vsra r
  | 0x97 => decVB1 .vpopc r
  | 0x98 => decVB1 .vclz r
  | 0x99 => decVA1 .vredsum r
  | 0x9A => decVB1 .vredmax r
  | 0x9B => decVB1 .vredmin r
  | 0x9C => do
    let t ← r.vt
    let m ← modeOf t r.lo3
    r.noB
    let d ← r.d
    let a ← r.a
    let (i, mk) ← layM r.x
    need (i.extractLsb' 2 6 == 0) .bits
    let op ← scanOf (i.extractLsb' 0 2)
    .ok (.vscan r.hdr t m op d a mk)
  | 0x9D => do
    let t ← r.vt
    need (r.lo3 == 0) .function
    let d ← r.d
    let a ← r.a
    let b ← r.b
    let m ← layM0 r.x
    .ok (.vperm r.hdr t d a b m)
  | 0x9E => do
    let t ← r.vt
    need (r.lo3 == 0) .function
    r.noB
    let d ← r.d
    let a ← r.a
    let (i, mk) ← layM r.x
    .ok (.vbcast r.hdr t d a i mk)
  | 0x9F => do
    let t ← r.vt
    need (r.fn.extractLsb' 1 2 == 0) .function
    let d ← r.d
    let a ← r.a
    let b ← r.b
    let (i, mk) ← layM r.x
    .ok (.vslide r.hdr t (r.fn.getLsbD 0) d a b i mk)
  | _ => .error .opcode

/-- 0xA0 to 0xAF: moves, line-store words, sorting, triples, masks (R217, R231). -/
def decVec2 (r : Raw) : Except Reject Instr :=
  match r.op.toNat with
  | 0xA0 => do
    r.fn0
    let (d, a, _, mk) ← vops r false
    .ok (.vmov r.hdr d a mk)
  | 0xA1 => do
    let t ← r.vt
    need (r.fn.extractLsb' 1 2 == 0) .function
    r.noB
    need (r.x.extractLsb' 13 9 == 0 && r.x.extractLsb' 0 5 == 0) .bits
    let d ← r.d
    let a ← r.a
    .ok (.vmovs r.hdr t (r.fn.getLsbD 0) d a (r.x.extractLsb' 5 8))
  | 0xA2 => decLd .vld r
  | 0xA3 => decSt .vst r
  | 0xA4 => decLd .vldt r
  | 0xA5 => decSt .vstt r
  | 0xA6 => decLd .vgath r
  | 0xA7 => decSt .vscat r
  | 0xA8 => do
    let t ← r.vt
    need (r.fn.extractLsb' 1 2 == 0) .function
    decL3 (fun h d a b => .vsort h t (r.fn.getLsbD 0) d a b) r
  | 0xA9 => do
    need (r.fn.extractLsb' 3 3 == 0) .function
    let rm ← rmOf r.lo3
    decL3 (fun h d a b => .vtri h rm d a b) r
  | 0xAA => dec3 .kand r
  | 0xAB => dec3 .kor r
  | 0xAC => dec3 .kxor r
  | 0xAD => dec2 .knot r
  | 0xAE => dec2 .kpop r
  | 0xAF => do
    r.noX
    r.noB
    let d ← r.d
    let a ← r.a
    need (match d, a with
      | .k _, .k _ => r.fn == 0
      | .k _, .r _ => r.fn == 1
      | .r _, .k _ => r.fn == 2
      | _, _ => false) .function
    .ok (.kmov r.hdr d a)
  | _ => .error .opcode

/-- 0xC0 to 0xC9: the matrix engine (R261). -/
def decMtx (r : Raw) : Except Reject Instr :=
  match r.op.toNat with
  | 0xC0 => do
    r.fn0
    decL1 .mfmt r
  | 0xC1 => do
    r.noD
    r.noA
    r.noB
    if r.fn == 0 then do
      need (r.x.extractLsb' 3 19 == 0) .bits
      let rm ← rmOf (r.x.extractLsb' 0 3)
      .ok (.mmodeRm r.hdr rm)
    else if r.fn == 0b010000 then do
      let n ← ssemOf r.x
      .ok (.mmodeSb r.hdr n)
    else do
      need (r.fn == 0b100000) .function
      r.noX
      .ok (.mmodeFqclr r.hdr)
  | 0xC2 => do
    r.fn0
    r.noD
    r.noA
    r.noB
    need (r.x.extractLsb' 16 6 == 0) .bits
    .ok (.mzero r.hdr (r.x.extractLsb' 8 8) (r.x.extractLsb' 4 4) (r.x.extractLsb' 0 4))
  | 0xC3 => do
    r.noD
    let a ← topOf (streamOf r.st) r.sa r.x
    let b ← topOf (streamOf r.st) r.sb r.x
    if a.isTap || b.isTap then .ok (.mmac r.hdr (r.fn.extractLsb' 3 3) r.lo3 a b ⟨⟨.none, 0, 0⟩, 0, 0⟩)
    else do
      let f ← cmdFOf r.x
      .ok (.mmac r.hdr (r.fn.extractLsb' 3 3) r.lo3 a b f)
  | 0xC4 => decMat .mld r
  | 0xC5 => decMat .mst r
  | 0xC6 => decMat .mtr r
  | 0xC7 => do
    r.fn0
    r.noD
    r.noA
    r.noB
    let n ← ssemOf r.x
    .ok (.mnot r.hdr n)
  | 0xC8 => do
    need (r.fn.extractLsb' 1 5 == 0) .function
    decGap .mpace r
  | 0xC9 => do
    r.fn0
    r.noD
    r.noB
    let a ← r.a
    let n ← ssemOf r.x
    .ok (.mlease r.hdr a n)
  | _ => .error .opcode

/-- 0xD0 to 0xDC: copy engine, attention and parking (R302, R347). -/
def decCpyAtt (r : Raw) : Except Reject Instr :=
  match r.op.toNat with
  | 0xD0 => decCpy .cpy r
  | 0xD1 => decCpy .cpy2d r
  | 0xD2 => decC2 .cgat r
  | 0xD3 => decC2 .cscat r
  | 0xD4 => do
    r.noD
    need (r.fn.extractLsb' 4 2 == 0) .function
    let ef ← fmtOf (r.fn.extractLsb' 0 4)
    let a ← r.a
    let b ← r.b
    let f ← cmdFOf r.x
    .ok (.cred r.hdr ef a b f)
  | 0xD5 => decC2 .cfill r
  | 0xD6 => do
    r.fn0
    r.noD
    r.noA
    r.noB
    let n ← ssemOf r.x
    .ok (.cnot r.hdr n)
  | 0xD7 => do
    if r.fn == 0b010000 then do
      r.noD
      r.noA
      r.noB
      let n ← ssemOf r.x
      .ok (.cpaceSb r.hdr n)
    else do
      need (r.fn.extractLsb' 1 5 == 0) .function
      decGap .cpace r
  | 0xD8 => do
    r.noB
    let d ← r.d
    let a ← r.a
    let f ← cmdFOf r.x
    .ok (.kvapp r.hdr r.fn d a f)
  | 0xD9 => do
    let d ← r.d
    let a ← r.a
    let b ← r.b
    let f ← cmdFOf r.x
    .ok (.attq r.hdr r.fn d a b f)
  | 0xDA => do
    r.fn0
    decL1 .park r
  | 0xDB => do
    r.fn0
    r.noD
    r.noB
    let a ← r.a
    let n ← ssemOf r.x
    .ok (.prom r.hdr a n)
  | 0xDC => do
    r.fn0
    r.noB
    let d ← r.d
    let t ← tapOf r.sa r.x
    .ok (.pstat r.hdr d t)
  | _ => .error .opcode

/-- 0xE0 to 0xE4: launch and futures (R326); 0xF0 to 0xF4: translation and leases (R372, R375, R378, R392). -/
def decSys (r : Raw) : Except Reject Instr :=
  match r.op.toNat with
  | 0xE0 => do
    if r.fn == 0 then decL1 .spawn r
    else if r.fn == 1 then decL2 .spawnG r
    else if r.fn == 2 then decL2 .spawnPb r
    else do
      need (r.fn == 3) .function
      decL2 .spawnPe r
  | 0xE1 => do
    if r.fn == 0 then decL2 .fres r
    else if r.fn == 1 then decL2 .fresF r
    else do
      need (r.fn == 2) .function
      decL2 .fresN r
  | 0xE2 => do
    if r.fn == 0 then decL3 .freg r
    else do
      need (r.fn == 1) .function
      decL3 .fregJ r
  | 0xE3 => do
    r.fn0
    decNull .yield r
  | 0xE4 => do
    r.fn0
    decL1 .migr r
  | 0xF0 => do
    if r.fn == 0 then decL1 .tlbinvVa r
    else do
      need (r.fn == 1) .function
      decNull .tlbinvAs r
  | 0xF1 => do
    r.fn0
    r.noD
    need (r.x.extractLsb' 9 13 == 0) .bits
    let sem ← semOf (r.x.extractLsb' 0 9)
    let a ← r.a
    let b ← r.b
    .ok (.mapset r.hdr a b sem)
  | 0xF2 => do
    need (r.fn.extractLsb' 1 5 == 0) .function
    r.noD
    r.noB
    need (r.x.extractLsb' 9 13 == 0) .bits
    let sem ← semOf (r.x.extractLsb' 0 9)
    let a ← r.a
    .ok (.mapflush r.hdr (r.fn.getLsbD 0) a sem)
  | 0xF3 => dec2 .pfrep r
  | 0xF4 => dec2 .lease r
  | _ => .error .opcode

/-- The instruction of a word's fields, before the checks of WellFormed. -/
def parseRaw (r : Raw) : Except Reject Instr :=
  match r.op.toNat / 16 with
  | 0 => decInt r
  | 1 => decInt r
  | 2 => decInt r
  | 4 => decFp r
  | 5 => decCtl r
  | 6 => decMem r
  | 7 => if r.op.toNat < 0x78 then decSgn r else decCrv r
  | 8 => decVec0 r
  | 9 => decVec1 r
  | 10 => decVec2 r
  | 12 => decMtx r
  | 13 => decCpyAtt r
  | 14 => decSys r
  | 15 => decSys r
  | _ => .error .opcode

/-- The decoder (R127): an instruction, or why the word is illegal. -/
def decodeRaw (r : Raw) : Except Reject Instr :=
  match parseRaw r with
  | .error e => .error e
  | .ok i => match check i with
    | none => .ok i
    | some e => .error (.ill e)

def decodeWord (w : IWord) : Except Reject Instr := decodeRaw (Raw.unpack w)

/-- The stream that decodes a word (R127). -/
def wordStream (w : IWord) : Stream := streamOf (w.extractLsb' 65 1)

/-- The 80-bit word of ten bytes, the lowest address first (R6, R105). -/
def wordOfBytes (bs : List Byte) : IWord :=
  bs.foldr (fun b (acc : IWord) => (acc <<< 8) ||| b.zeroExtend 80) 0

/-- The ten bytes of a word in memory (R105). -/
def bytesOfWord (w : IWord) : List Byte := (List.range 10).map (fun k => w.extractLsb' (8 * k) 8)

/-- Decoding of the bytes at a word address: at least ten are needed. -/
def decodeBytes (bs : List Byte) : Except Reject Instr := decodeWord (wordOfBytes (bs.take 10))

/-- The decoder on a word given as the opcode table numbers its bits; bits above nbits are zero. -/
def decodeTableWord (nbits w : Nat) : Option Instr :=
  match decodeWord (BitVec.ofNat 80 (w % 2 ^ nbits)) with
  | .ok i => some i
  | .error _ => none

/-! The encoder. -/

def rawH (op : BitVec 8) (fn : BitVec 6) (h : Hdr) (dst : BitVec 9) (sa sb : BitVec 10) (x : BitVec 22) : Raw :=
  { op := op, fn := fn, st := streamBit h.st, pd := BitVec.ofFin h.pd, ta := BitVec.ofFin h.ta, tc := h.tc,
    dst := dst, sa := sa, sb := sb, x := x }

def enc3 (op : BitVec 8) (h : Hdr) (d a b : Opnd) : Raw := rawH op 0 h (dstBits d) (opndBits a) (opndBits b) 0
def enc2 (op : BitVec 8) (h : Hdr) (d a : Opnd) : Raw := rawH op 0 h (dstBits d) (opndBits a) 0 0
def encShift (op : BitVec 8) (h : Hdr) (d a : Opnd) (n : ShAmt) : Raw :=
  match n with
  | .reg b => rawH op 0 h (dstBits d) (opndBits a) (opndBits b) 0
  | .imm n => rawH op 1 h (dstBits d) (opndBits a) 0 ((0 : BitVec 16) ++ bvFin 6 n)
def encF3 (op : BitVec 8) (h : Hdr) (f : FW) (rm : RM) (d a b : Opnd) : Raw :=
  rawH op (fpFnBits f rm) h (dstBits d) (opndBits a) (opndBits b) 0
def encSem (fn : BitVec 6) (h : Hdr) (n : SemArg) : Raw :=
  match n with
  | .imm n => rawH 0x5C fn h 0 0 0 ((0 : BitVec 14) ++ n)
  | .reg a => rawH 0x5C (fn ||| 1) h 0 (opndBits a) 0 0
def encK2 (op : BitVec 8) (fn : BitVec 6) (h : Hdr) (k : KShape) (d a : Opnd) : Raw :=
  rawH op fn h (dstBits d) (opndBits a) 0 (kX k 0)
def encK3 (op : BitVec 8) (fn : BitVec 6) (h : Hdr) (k : KShape) (d a b : Opnd) : Raw :=
  rawH op fn h (dstBits d) (opndBits a) (opndBits b) (kX k 0)
def encV (op : BitVec 8) (fn : BitVec 6) (h : Hdr) (d : Opnd) (a b : TOp) (mk : VMask) : Raw :=
  rawH op fn h (dstBits d) (topBits a) (topBits b) (vX a (some b) mk)
def encV1 (op : BitVec 8) (fn : BitVec 6) (h : Hdr) (d : Opnd) (a : TOp) (mk : VMask) : Raw :=
  rawH op fn h (dstBits d) (topBits a) 0 (vX a none mk)
def vFn (t : VTy) (lo : BitVec 3) : BitVec 6 := vtyBits t ++ lo
def encVSh (op : BitVec 8) (h : Hdr) (t : VTy) (d a : Opnd) (n : ShAmt) (mk : VMask) : Raw :=
  match n with
  | .reg b => rawH op (vFn t 0) h (dstBits d) (opndBits a) (opndBits b) (mX 0 mk)
  | .imm n => rawH op (vFn t 1) h (dstBits d) (opndBits a) 0 (mX ((0 : BitVec 2) ++ bvFin 6 n) mk)
def encC2 (op : BitVec 8) (fn : BitVec 6) (h : Hdr) (a b : Opnd) (f : CmdF) : Raw :=
  rawH op fn h 0 (opndBits a) (opndBits b) (cmdFX f)
def encCpy (op : BitVec 8) (h : Hdr) (a : Opnd) (t : CpyTap) : Raw :=
  match t with
  | .none f => rawH op 0 h 0 (opndBits a) 0 (cmdFX f)
  | .src t => rawH op 0 h 0 (opndBits a) (tapBits t) (tapX t)
  | .dst t => rawH op 1 h 0 (opndBits a) (tapBits t) (tapX t)
def encGap (op : BitVec 8) (h : Hdr) (g : GapArg) : Raw :=
  match g with
  | .imm n => rawH op 0 h 0 0 0 ((0 : BitVec 6) ++ n)
  | .reg a => rawH op 1 h 0 (opndBits a) 0 0
def encSig (op : BitVec 8) (fn : BitVec 6) (h : Hdr) (s : BitVec 9) : Raw := rawH op fn h 0 0 0 (sigX s)
def encSigA (op : BitVec 8) (fn : BitVec 6) (h : Hdr) (s : BitVec 9) (a : Opnd) : Raw := rawH op fn h 0 (opndBits a) 0 (sigX s)
def memX (o : Ord14) (lo : BitVec 8) : BitVec 22 := ordBits o ++ lo

/-- The fields of an instruction word; an event has none. -/
def encodeRaw (i : Instr) : Option Raw :=
  match i with
  | .add h d a b => some (enc3 0x01 h d a b)
  | .sub h d a b => some (enc3 0x02 h d a b)
  | .addi h d a imm => some (rawH 0x03 0 h (dstBits d) (opndBits a) 0 imm)
  | .mul h d a b => some (enc3 0x04 h d a b)
  | .mulh h d a b => some (enc3 0x05 h d a b)
  | .mulhu h d a b => some (enc3 0x06 h d a b)
  | .div h d a b => some (enc3 0x07 h d a b)
  | .divu h d a b => some (enc3 0x08 h d a b)
  | .rem h d a b => some (enc3 0x09 h d a b)
  | .remu h d a b => some (enc3 0x0A h d a b)
  | .and h d a b => some (enc3 0x0B h d a b)
  | .or h d a b => some (enc3 0x0C h d a b)
  | .xor h d a b => some (enc3 0x0D h d a b)
  | .andn h d a b => some (enc3 0x0E h d a b)
  | .shl h d a n => some (encShift 0x0F h d a n)
  | .shr h d a n => some (encShift 0x10 h d a n)
  | .sra h d a n => some (encShift 0x11 h d a n)
  | .rol h d a n => some (encShift 0x12 h d a n)
  | .clz h d a => some (enc2 0x13 h d a)
  | .ctz h d a => some (enc2 0x14 h d a)
  | .popc h d a => some (enc2 0x15 h d a)
  | .min h d a b => some (enc3 0x16 h d a b)
  | .max h d a b => some (enc3 0x17 h d a b)
  | .minu h d a b => some (enc3 0x18 h d a b)
  | .maxu h d a b => some (enc3 0x19 h d a b)
  | .sel h d a b c => some (rawH 0x1A 0 h (dstBits d) (opndBits a) (opndBits b) (cX c 0))
  | .cmp h cc d a b => some (match b with
      | .reg b => rawH 0x1B ((0 : BitVec 2) ++ icondBits cc) h (dstBits d) (opndBits a) (opndBits b) 0
      | .imm x => rawH 0x1B ((1 : BitVec 2) ++ icondBits cc) h (dstBits d) (opndBits a) 0 x)
  | .li h d imm => some (rawH 0x1C 0 h (dstBits d) 0 0 imm)
  | .lui h d imm => some (rawH 0x1D 0 h (dstBits d) 0 0 imm)
  | .luiHi h d imm => some (rawH 0x1D 1 h (dstBits d) 0 0 ((0 : BitVec 2) ++ imm))
  | .mov h d a => some (enc2 0x1E h d a)
  | .ext h u d a w => some (rawH 0x1F ((0 : BitVec 5) ++ bit u) h (dstBits d) (opndBits a) 0 ((0 : BitVec 9) ++ w ++ (0 : BitVec 6)))
  | .ins h d a lo w => some (rawH 0x20 0 h (dstBits d) (opndBits a) 0 ((0 : BitVec 9) ++ w ++ lo))
  | .bfx h sg d a lo w => some (rawH 0x21 ((0 : BitVec 5) ++ bit sg) h (dstBits d) (opndBits a) 0 ((0 : BitVec 9) ++ w ++ lo))
  | .fadd h f rm d a b => some (encF3 0x40 h f rm d a b)
  | .fsub h f rm d a b => some (encF3 0x41 h f rm d a b)
  | .fmul h f rm d a b => some (encF3 0x42 h f rm d a b)
  | .ffma h f rm d a b c => some (rawH 0x43 (fpFnBits f rm) h (dstBits d) (opndBits a) (opndBits b) (cX c 0))
  | .fmin h f d a b => some (encF3 0x44 h f .rne d a b)
  | .fmax h f d a b => some (encF3 0x45 h f .rne d a b)
  | .fcmp h f cc d a b => some (rawH 0x46 (fwBits f ++ (0 : BitVec 2) ++ fcondBits cc) h (dstBits d) (opndBits a) (opndBits b) 0)
  | .fcvt h dt st sat rm d a => some (rawH 0x47 ((0 : BitVec 2) ++ ctyBits dt ++ ctyBits st) h (dstBits d) (opndBits a) 0
      ((0 : BitVec 18) ++ bit sat ++ rmBits rm))
  | .fdiv h f rm d a b => some (encF3 0x48 h f rm d a b)
  | .fsqrt h f rm d a => some (rawH 0x49 (fpFnBits f rm) h (dstBits d) (opndBits a) 0 0)
  | .br h cc a off => some (rawH 0x50 ((0 : BitVec 3) ++ bcondBits cc) h 0 (opndBits a) 0 off)
  | .jmp h off => some (rawH 0x51 0 h 0 0 0 off)
  | .jal h d off => some (rawH 0x52 0 h (dstBits d) 0 0 off)
  | .jr h a => some (rawH 0x53 0 h 0 (opndBits a) 0 0)
  | .bcq h n q off => some (rawH 0x54 ((0 : BitVec 5) ++ bit n) h 0 (opndBits q) 0 off)
  | .jcq h q => some (rawH 0x55 0 h 0 (opndBits q) 0 0)
  | .pcq h q a => some (enc2 0x56 h q a)
  | .ptok h q t => some (match t with
      | .target off => rawH 0x57 0 h (dstBits q) 0 0 off
      | .reg a => rawH 0x57 1 h (dstBits q) (opndBits a) 0 0)
  | .loop h c off => some (match c with
      | .reg a => rawH 0x58 0 h 0 (opndBits a) 0 ((0 : BitVec 10) ++ off)
      | .imm n => rawH 0x58 1 h 0 0 0 (n ++ off))
  | .exit h => some (rawH 0x59 0 h 0 0 0 0)
  | .trap h code => some (rawH 0x5A 0 h 0 0 0 ((0 : BitVec 6) ++ code))
  | .eret h => some (rawH 0x5A 0b010000 h 0 0 0 0)
  | .eretN h => some (rawH 0x5A 0b010001 h 0 0 0 0)
  | .csrr h d n => some (rawH 0x5B 0 h (dstBits d) 0 0 ((0 : BitVec 10) ++ n))
  | .csrw h n a => some (rawH 0x5B 0b010000 h 0 (opndBits a) 0 ((0 : BitVec 10) ++ n))
  | .semw h n => some (encSem 0 h n)
  | .semi h n => some (encSem 0b010000 h n)
  | .spld h sz d base off => some (match base with
      | some a => rawH 0x5D ((0b0001 : BitVec 4) ++ szBits sz) h (dstBits d) (opndBits a) 0 off
      | none => rawH 0x5D ((0 : BitVec 4) ++ szBits sz) h (dstBits d) 0 0 off)
  | .spst h sz base off b => some (match base with
      | some a => rawH 0x5D ((0b0101 : BitVec 4) ++ szBits sz) h 0 (opndBits a) (opndBits b) off
      | none => rawH 0x5D ((0b0100 : BitVec 4) ++ szBits sz) h 0 0 (opndBits b) off)
  | .nop h => some (rawH 0x5F 0 h 0 0 0 0)
  | .ld h sx sz o d a off => some (rawH 0x60 ((0 : BitVec 3) ++ bit sx ++ szBits sz) h (dstBits d) (opndBits a) 0 (memX o off))
  | .st h sz o a off b => some (rawH 0x61 ((0 : BitVec 4) ++ szBits sz) h 0 (opndBits a) (opndBits b) (memX o off))
  | .amo h op wd o asc d a b => some (rawH 0x62 (aopBits op ++ awBits wd) h (dstBits d) (opndBits a) (opndBits b)
      (memX o ((0 : BitVec 4) ++ asc)))
  | .cas h wd o asc d a b => some (rawH 0x63 ((0 : BitVec 4) ++ awBits wd) h (dstBits d) (opndBits a) (opndBits b)
      (memX o ((0 : BitVec 4) ++ asc)))
  | .faddw h wd o asc d a b thr => some (rawH 0x64 (asc ++ thrTr thr ++ wBit wd) h (dstBits d) (opndBits a) (opndBits b)
      (memX o (thrBits thr)))
  | .wwait h wd o a thr => some (rawH 0x65 ((0 : BitVec 4) ++ thrTr thr ++ wBit wd) h 0 (opndBits a) 0 (memX o (thrBits thr)))
  | .enq h o asc d a b => some (rawH 0x66 0 h (dstBits d) (opndBits a) (opndBits b) (memX o ((0 : BitVec 4) ++ asc)))
  | .deq h o asc d a => some (rawH 0x67 0 h (dstBits d) (opndBits a) 0 (memX o ((0 : BitVec 4) ++ asc)))
  | .enqw h o lim asc d a b => some (rawH 0x68 0 h (dstBits d) (opndBits a) (opndBits b) (memX o (lim ++ asc)))
  | .deqw h o lim asc d a => some (rawH 0x69 0 h (dstBits d) (opndBits a) 0 (memX o (lim ++ asc)))
  | .ramo h op wd o asc a b => some (rawH 0x6A (aopBits op ++ awBits wd) h 0 (opndBits a) (opndBits b)
      (memX o ((0 : BitVec 4) ++ asc)))
  | .tick h slack => some (rawH 0x70 0 h 0 0 0 ((0 : BitVec 1) ++ slack))
  | .tld h seg d t => some (rawH 0x71 ((0 : BitVec 3) ++ seg) h (dstBits d) (tapBits t) 0 (tapX t))
  | .tst h seg t a => some (rawH 0x72 ((0 : BitVec 3) ++ seg) h
      ((tapBits t).extractLsb' 9 1 ++ (tapBits t).extractLsb' 0 8) (opndBits a) 0 (tapX t))
  | .tldx h sz d t b => some (rawH 0x73 ((0 : BitVec 4) ++ szBits sz) h (dstBits d) (tapBits t) (opndBits b) (tapX t))
  | .sdecl h s a => some (encSigA 0x74 0 h s a)
  | .sbind h s a => some (encSigA 0x74 0b010000 h s a)
  | .sdrop h s => some (encSig 0x74 0b100000 h s)
  | .sgate h s g => some (match g with
      | .off => encSig 0x75 0 h s
      | .on => encSig 0x75 1 h s
      | .reg a => encSigA 0x75 2 h s a)
  | .sfill h s a => some (match a with
      | none => encSig 0x75 0b010000 h s
      | some a => encSigA 0x75 0b010001 h s a)
  | .snow h d s => some (rawH 0x76 0 h (dstBits d) 0 0 (sigX s))
  | .slag h d t => some (rawH 0x76 0b010000 h (dstBits d) (tapBits t) 0 (tapX t))
  | .ssave h s a sem => some (rawH 0x77 0 h 0 (opndBits a) 0 (saveX s sem))
  | .srest h s a sem => some (rawH 0x77 0b010000 h 0 (opndBits a) 0 (saveX s sem))
  | .srebase h s a => some (encSigA 0x77 0b100000 h s a)
  | .ckey h k d a => some (encK2 0x78 0 h k d a)
  | .cunk h k d a => some (encK2 0x78 0b010000 h k d a)
  | .cadd h k sat f d a b => some (encK3 0x79 ((0 : BitVec 4) ++ bit sat ++ bit f) h k d a b)
  | .csub h k sat f d a b => some (encK3 0x79 ((0b0100 : BitVec 4) ++ bit sat ++ bit f) h k d a b)
  | .ccmp h k cc d a b => some (encK3 0x7A ((0 : BitVec 3) ++ kcondBits cc) h k d a b)
  | .cbox h k d a b => some (encK3 0x7B 0 h k d a b)
  | .csplit h k sm d a b => some (match sm with
      | .none => rawH 0x7C 0 h (dstBits d) (opndBits a) (opndBits b) (kX k 0)
      | .wait n => rawH 0x7C 0b010000 h (dstBits d) (opndBits a) (opndBits b) (kX k ((0 : BitVec 1) ++ n))
      | .sig n => rawH 0x7C 0b100000 h (dstBits d) (opndBits a) (opndBits b) (kX k ((0 : BitVec 1) ++ n)))
  | .cnext h k i d a b => some (encK3 0x7D ((0 : BitVec 5) ++ bit i) h k d a b)
  | .cprev h k i d a b => some (encK3 0x7D ((0b01000 : BitVec 5) ++ bit i) h k d a b)
  | .cclamp h k d a b => some (encK3 0x7E 0 h k d a b)
  | .cmask h k m d a => some (match m with
      | .lvl n => rawH 0x7F 0 h (dstBits d) (opndBits a) 0 (kX k n)
      | .ax m => rawH 0x7F 1 h (dstBits d) (opndBits a) 0 (kX k ((0 : BitVec 1) ++ m)))
  | .vadd h t m d a b mk => some (encV 0x80 (vFn t (modeBits m)) h d a b mk)
  | .vsub h t m d a b mk => some (encV 0x81 (vFn t (modeBits m)) h d a b mk)
  | .vmul h t m d a b mk => some (encV 0x82 (vFn t (modeBits m)) h d a b mk)
  | .vfma h t rm d a b c mk => some (rawH 0x83 (vFn t (rmBits rm)) h (dstBits d) (opndBits a) (opndBits b)
      (cX c ((0 : BitVec 7) ++ maskBits mk)))
  | .vmin h t d a b mk => some (encV 0x84 (vFn t 0) h d a b mk)
  | .vmax h t d a b mk => some (encV 0x85 (vFn t 0) h d a b mk)
  | .vabs h t m d a mk => some (encV1 0x86 (vFn t (modeBits m)) h d a mk)
  | .vneg h t m d a mk => some (encV1 0x87 (vFn t (modeBits m)) h d a mk)
  | .vrcp h t rm d a mk => some (encV1 0x88 (vFn t (rmBits rm)) h d a mk)
  | .vrsq h t rm d a mk => some (encV1 0x89 (vFn t (rmBits rm)) h d a mk)
  | .vexp2 h t rm d a mk => some (encV1 0x8A (vFn t (rmBits rm)) h d a mk)
  | .vlog2 h t rm d a mk => some (encV1 0x8B (vFn t (rmBits rm)) h d a mk)
  | .vsqrt h t rm d a mk => some (encV1 0x8C (vFn t (rmBits rm)) h d a mk)
  | .vclamp h t d a b c mk => some (rawH 0x8D (vFn t 0) h (dstBits d) (opndBits a) (opndBits b)
      (cX c ((0 : BitVec 7) ++ maskBits mk)))
  | .vcvt h dt st ct sat part rm d a mk => some (rawH 0x8E (vtyBits dt ++ vtyBits st) h (dstBits d) (opndBits a) 0
      (mX (ct ++ bit sat ++ part ++ rmBits rm) mk))
  | .vcmp h t cc d a b mk => some (encV 0x8F (vFn t (fcondBits cc)) h d a b mk)
  | .vsel h d a b kr => some (rawH 0x90 0 h (dstBits d) (opndBits a) (opndBits b) (mX 0 ⟨true, false, kr⟩))
  | .vand h d a b mk => some (encV 0x91 0 h d a b mk)
  | .vor h d a b mk => some (encV 0x92 0 h d a b mk)
  | .vxor h d a b mk => some (encV 0x93 0 h d a b mk)
  | .vshl h t d a n mk => some (encVSh 0x94 h t d a n mk)
  | .vshr h t d a n mk => some (encVSh 0x95 h t d a n mk)
  | .vsra h t d a n mk => some (encVSh 0x96 h t d a n mk)
  | .vpopc h t d a mk => some (encV1 0x97 (vFn t 0) h d a mk)
  | .vclz h t d a mk => some (encV1 0x98 (vFn t 0) h d a mk)
  | .vredsum h t m d a mk => some (encV1 0x99 (vFn t (modeBits m)) h d a mk)
  | .vredmax h t d a mk => some (encV1 0x9A (vFn t 0) h d a mk)
  | .vredmin h t d a mk => some (encV1 0x9B (vFn t 0) h d a mk)
  | .vscan h t m op d a mk => some (rawH 0x9C (vFn t (modeBits m)) h (dstBits d) (opndBits a) 0
      (mX ((0 : BitVec 6) ++ scanBits op) mk))
  | .vperm h t d a b mk => some (rawH 0x9D (vFn t 0) h (dstBits d) (opndBits a) (opndBits b) (mX 0 mk))
  | .vbcast h t d a i mk => some (rawH 0x9E (vFn t 0) h (dstBits d) (opndBits a) 0 (mX i mk))
  | .vslide h t dn d a b i mk => some (rawH 0x9F (vFn t ((0 : BitVec 2) ++ bit dn)) h (dstBits d) (opndBits a) (opndBits b) (mX i mk))
  | .vmov h d a mk => some (encV1 0xA0 0 h d a mk)
  | .vmovs h t v d a i => some (rawH 0xA1 (vFn t ((0 : BitVec 2) ++ bit v)) h (dstBits d) (opndBits a) 0 (mX i VMask.none))
  | .vld h l d a => some (rawH 0xA2 (lsFn l) h (dstBits d) (opndBits a) 0 (lsX l))
  | .vst h l a b => some (rawH 0xA3 (lsFn l) h 0 (opndBits a) (opndBits b) (lsX l))
  | .vldt h l d a => some (rawH 0xA4 (lsFn l) h (dstBits d) (opndBits a) 0 (lsX l))
  | .vstt h l a b => some (rawH 0xA5 (lsFn l) h 0 (opndBits a) (opndBits b) (lsX l))
  | .vgath h l d a => some (rawH 0xA6 (lsFn l) h (dstBits d) (opndBits a) 0 (lsX l))
  | .vscat h l a b => some (rawH 0xA7 (lsFn l) h 0 (opndBits a) (opndBits b) (lsX l))
  | .vsort h t ds d a b => some (rawH 0xA8 (vFn t ((0 : BitVec 2) ++ bit ds)) h (dstBits d) (opndBits a) (opndBits b) 0)
  | .vtri h rm d a b => some (rawH 0xA9 ((0 : BitVec 3) ++ rmBits rm) h (dstBits d) (opndBits a) (opndBits b) 0)
  | .kand h d a b => some (enc3 0xAA h d a b)
  | .kor h d a b => some (enc3 0xAB h d a b)
  | .kxor h d a b => some (enc3 0xAC h d a b)
  | .knot h d a => some (enc2 0xAD h d a)
  | .kpop h d a => some (enc2 0xAE h d a)
  | .kmov h d a => some (rawH 0xAF (match d, a with
      | .k _, .r _ => 1
      | .r _, _ => 2
      | _, _ => 0) h (dstBits d) (opndBits a) 0 0)
  | .mfmt h a => some (rawH 0xC0 0 h 0 (opndBits a) 0 0)
  | .mmodeRm h rm => some (rawH 0xC1 0 h 0 0 0 ((0 : BitVec 19) ++ rmBits rm))
  | .mmodeSb h n => some (rawH 0xC1 0b010000 h 0 0 0 (ssemX n))
  | .mmodeFqclr h => some (rawH 0xC1 0b100000 h 0 0 0 0)
  | .mzero h mask w s => some (rawH 0xC2 0 h 0 0 0 ((0 : BitVec 6) ++ mask ++ w ++ s))
  | .mmac h t kc a b f => some (rawH 0xC3 (t ++ kc) h 0 (topBits a) (topBits b) (match a, b with
      | .tap t, _ => tapX t
      | .reg _, .tap t => tapX t
      | .reg _, .reg _ => cmdFX f))
  | .mld h t a f => some (rawH 0xC4 (t ++ (0 : BitVec 3)) h 0 (opndBits a) 0 (cmdFX f))
  | .mst h t a f => some (rawH 0xC5 (t ++ (0 : BitVec 3)) h 0 (opndBits a) 0 (cmdFX f))
  | .mtr h t a f => some (rawH 0xC6 (t ++ (0 : BitVec 3)) h 0 (opndBits a) 0 (cmdFX f))
  | .mnot h n => some (rawH 0xC7 0 h 0 0 0 (ssemX n))
  | .mpace h g => some (encGap 0xC8 h g)
  | .mlease h a n => some (rawH 0xC9 0 h 0 (opndBits a) 0 (ssemX n))
  | .cpy h a t => some (encCpy 0xD0 h a t)
  | .cpy2d h a t => some (encCpy 0xD1 h a t)
  | .cgat h a b f => some (encC2 0xD2 0 h a b f)
  | .cscat h a b f => some (encC2 0xD3 0 h a b f)
  | .cred h ef a b f => some (encC2 0xD4 ((0 : BitVec 2) ++ fmtBits ef) h a b f)
  | .cfill h a b f => some (encC2 0xD5 0 h a b f)
  | .cnot h n => some (rawH 0xD6 0 h 0 0 0 (ssemX n))
  | .cpace h g => some (encGap 0xD7 h g)
  | .cpaceSb h n => some (rawH 0xD7 0b010000 h 0 0 0 (ssemX n))
  | .kvapp h l d a f => some (rawH 0xD8 l h (dstBits d) (opndBits a) 0 (cmdFX f))
  | .attq h l d a b f => some (rawH 0xD9 l h (dstBits d) (opndBits a) (opndBits b) (cmdFX f))
  | .park h a => some (rawH 0xDA 0 h 0 (opndBits a) 0 0)
  | .prom h a n => some (rawH 0xDB 0 h 0 (opndBits a) 0 (ssemX n))
  | .pstat h d t => some (rawH 0xDC 0 h (dstBits d) (tapBits t) 0 (tapX t))
  | .spawn h a => some (rawH 0xE0 0 h 0 (opndBits a) 0 0)
  | .spawnG h a b => some (rawH 0xE0 1 h 0 (opndBits a) (opndBits b) 0)
  | .spawnPb h a b => some (rawH 0xE0 2 h 0 (opndBits a) (opndBits b) 0)
  | .spawnPe h a b => some (rawH 0xE0 3 h 0 (opndBits a) (opndBits b) 0)
  | .fres h a b => some (rawH 0xE1 0 h 0 (opndBits a) (opndBits b) 0)
  | .fresF h a b => some (rawH 0xE1 1 h 0 (opndBits a) (opndBits b) 0)
  | .fresN h a b => some (rawH 0xE1 2 h 0 (opndBits a) (opndBits b) 0)
  | .freg h d a b => some (rawH 0xE2 0 h (dstBits d) (opndBits a) (opndBits b) 0)
  | .fregJ h d a b => some (rawH 0xE2 1 h (dstBits d) (opndBits a) (opndBits b) 0)
  | .yield h => some (rawH 0xE3 0 h 0 0 0 0)
  | .migr h a => some (rawH 0xE4 0 h 0 (opndBits a) 0 0)
  | .tlbinvVa h a => some (rawH 0xF0 0 h 0 (opndBits a) 0 0)
  | .tlbinvAs h => some (rawH 0xF0 1 h 0 0 0 0)
  | .mapset h a b sem => some (rawH 0xF1 0 h 0 (opndBits a) (opndBits b) ((0 : BitVec 13) ++ semBits sem))
  | .mapflush h inv a sem => some (rawH 0xF2 ((0 : BitVec 5) ++ bit inv) h 0 (opndBits a) 0 ((0 : BitVec 13) ++ semBits sem))
  | .pfrep h d a => some (enc2 0xF3 h d a)
  | .lease h d a => some (enc2 0xF4 h d a)
  | _ => none

/-- The word of an instruction; an event has none. -/
def encode (i : Instr) : Option IWord := (encodeRaw i).map Raw.pack

end Sys2Proof
end

