-- ==== Sys2Proof/Config.lean ====
section
/-! DEFINITION. What the module fixes for good, and the free values: constants without a body, so that no proof can see
what they are. Each free value is named in a row of the assumption log. -/

namespace Sys2Proof

/-- The free choice of what happens next: the n-th draw (spec/04_ordering_machine.md R52 to R58; notes/assumptions/3.md). -/
opaque Config.choice : Nat → Nat

/-- The undefined value of a scalar register read before its fixed-latency result lands
(spec/06_instruction_word.md R116): cycle, pass, core of the quire, execute stream, register, source position. -/
opaque Config.undefW : Nat → Nat → Nat → Bool → Nat → Nat → Word

/-- The undefined value of a vector or k register read before its result lands (R116): cycle, pass, core, index,
position. -/
opaque Config.undefV : Nat → Nat → Nat → Nat → Nat → VReg

/-- The thermal margin of a logical core as Phoavo reports it in a cycle (spec/20_launch_engine.md R325). -/
opaque Config.thermal : Nat → Nat → Nat

/-- The leakage figure of a logical core recorded at calibration (R325). -/
opaque Config.leakage : Nat → Nat

/-- Headroom of a rail in a cycle: current in units of 0.1 A (spec/25_power_fabric_host.md R392). -/
opaque Config.headroomI : Nat → Nat → BitVec 16

/-- Headroom of a rail in a cycle: energy of an interval in µJ (R392). -/
opaque Config.headroomJ : Nat → Nat → BitVec 16

/-- The figures to which a power step reduces a lease: cycle and pass; current, then energy (R399). -/
opaque Config.pacedI : Nat → Nat → BitVec 16
opaque Config.pacedJ : Nat → Nat → BitVec 16

/-- Whether the capo takes the throttle order one step further in a cycle, or undoes a step (R399). -/
opaque Config.throttleUp : Nat → Bool
opaque Config.throttleDown : Nat → Bool

/-- Whether the capo has the draw within a new limit before its 200 µs are over (R399). -/
opaque Config.limitMet : Nat → Bool

/-- How far a step of the throttle order short of its floor slows an engine: cycle, logical core, step (R399); and, for
cycle 0 and step 4, the phase of the vector unit's issues at its floor. -/
opaque Config.pace : Nat → Nat → Nat → Nat

/-- Whether pacing holds the direct words of an engine of a core in a cycle: cycle, logical core, engine
(spec/13_vector_engine.md R211, spec/14_curve_unit.md R243; notes/assumptions/60.md). -/
opaque Config.holdsDirect : Nat → Nat → Nat → Bool

/-- How many passes beyond the first pre-emption is asked of at once in a cycle, in the order of R399. -/
opaque Config.shedAhead : Nat → Nat


/-- The draw of the module's work in watts, averaged over the last 10 µs of a cycle, with the throttle order taken to a level
(R19, R398, R399). -/
opaque Config.draw : Nat → Nat → BitVec 16

/-- Waiters that a home registers beyond the 1,024 that spec/17_memory_path.md R290 promises. -/
opaque Config.waiterExtra : Nat

/-- Whether the firmware of a start or a handover in a cycle is another one than before (R408; notes/assumptions/36.md). -/
opaque Config.newFirmware : Nat → Bool

/-- Whether a die that is calibrated in a cycle is another die in the place of one that has left service (R410). -/
opaque Config.dieReplaced : Nat → Nat → Bool

/-- The bytes of the attestation certificate chain that Phoavo writes (R406, R408): times written, index of
the doubleword. -/
opaque Config.attest : Nat → Nat → Word

/-- The offset of the power-fail directory in board flash (R400, R406). -/
opaque Config.flashDir : Word

/-- The board's budget in bytes for the images of a power fail (R400). -/
opaque Config.flashBudget : Nat

/-- The bytes that the control state of a pass of so many cores takes in flash (R400; notes/assumptions/36.md). -/
opaque Config.controlBytes : Nat → Nat

/-- What a queue step at another module finds: the draw; its status, its value, the head and the tail
(spec/17_memory_path.md R292, R297; notes/assumptions/34.md). -/
opaque Config.remoteQueue : Nat → Nat → Word

/-- Whether another module lies in the node of this one, and so reaches the node store (spec/04_ordering_machine.md R52,
R73; notes/assumptions/34.md). -/
opaque Config.sameNode : Nat → Bool

/-- A reading of an FMT field value or of a number the spec leaves without a value; position and operands are given
(notes/assumptions/12.md). -/
opaque Config.unstated : Nat → Word → Word → Word

/-- The module identifier of this module (spec/01_module_overview.md R18). -/
opaque Config.moduleId : BitVec 21

/-- Cycles of the core clock in one microsecond (spec/00_scope.md, 2.7 GHz). -/
def Config.cyclesPerUs : Nat := 2700

/-- Cores, dies and cores of a die (R12). -/
def Config.cores : Nat := 64
def Config.dies : Nat := 8

end Sys2Proof
end

