-- ==== Sys2Proof/Machine/State.lean ====
section
/-! DEFINITION. The state of the module: everything the spec gives the machine, as plain data, and its value after reset.
INVENTORY.md, heading State, lists each piece with its rule. -/

namespace Sys2Proof.Machine

/-- A finite map with a default: keys in rising order, no key mapped to the default. -/
abbrev Map (α : Type) := List (Nat × α)

/-- Bytes by location key; the default is zero (R52). -/
abbrev Mem := List Host.Cell

/-- Page kinds (R61 to R63). -/
inductive PK
  | r
  | s
  | u
  deriving DecidableEq, Repr

/-! ### Registers, results in flight and channels -/

/-- A value that lands in a register or a channel. -/
inductive Val
  | w (x : Word)
  | v (x : VReg)
  deriving DecidableEq, Repr

/-- Where a result lands: a register operand, or the entry `id` of a channel (R141). -/
inductive Dest
  | reg (o : Opnd)
  | chan (o : Opnd) (id : Nat)
  deriving DecidableEq, Repr

/-- One result of a word: its destination and its value once known. -/
structure Out where
  dst : Dest
  val : Option Val
  deriving DecidableEq, Repr

/-- When a result lands: exactly in a cycle, or at or after a cycle and, where the spec gives a greatest latency, no
later than another (R116, R119). -/
inductive Due
  | exact (c : Nat)
  | least (c : Nat)
  | within (lo hi : Nat)
  deriving DecidableEq, Repr

/-- One half of a load: the locations on one page, the kind of the page, the virtual address with the log2 of the size of
the page that translated it, and the bytes once the read is performed (R56, R64, R372, R424). -/
structure ReadPart where
  keys : List Nat
  pk   : PK
  page : Nat × Nat
  got  : Option (List Byte)
  deriving DecidableEq, Repr

/-- What a result in flight still waits for. -/
inductive Req
  | none
  | load (parts : List ReadPart) (sz : Sz) (sx : Bool) (ord : Ord14)
  | entry                                            -- an atomic in a path buffer; performed at its drain
  | lease                                            -- an answer of the capo (R392)
  deriving DecidableEq, Repr

/-- A result in flight (R116 to R121). -/
structure Pend where
  outs   : List Out
  tag    : Fin 8
  issued : Nat
  due    : Due
  req    : Req
  seq    : Nat
  pin    : Option (Nat × Nat)        -- reader pin: signal, sample (R179)
  arg    : Word                      -- the request word of a lease
  deriving DecidableEq, Repr

/-- Types of channel entries (R137). -/
inductive EntTy
  | data
  | bit
  | token
  deriving DecidableEq, Repr

/-- One channel entry; its content is none until the result lands (R141). -/
structure ChEnt where
  id  : Nat
  ty  : EntTy
  val : Option Word
  deriving DecidableEq, Repr

/-! ### Streams and cores -/

/-- One hardware loop level (R136). -/
structure LoopLvl where
  cnt : BitVec 32
  beg : VAddr
  fin : VAddr
  deriving DecidableEq, Repr

/-- A trap that the stream takes on its next word: page pool, link lost with module and count (R122), or the tick watchdog
with its budget (R338). -/
inductive NextTrap
  | pagePool (info : Word)
  | linkLost (m : BitVec 21) (count : Nat)
  | watchdog (budget : Nat)
  deriving DecidableEq, Repr

/-- An enqw or deqw that repeats its step: the cycle in which it first held, its limit, and what the last attempt read
(R295). -/
structure LimSt where
  since : Nat
  bound : Nat
  info  : Word
  deq   : Bool
  tried : Bool := false                 -- it has attempted its step
  deriving DecidableEq, Repr

/-- The state of one stream (R129, R131, R135, R136). -/
structure StreamSt where
  pc      : VAddr
  regs    : Map Word
  exited  : Bool
  pend    : List Pend
  spill   : Map Byte
  srdseed : BitVec 32
  tvec    : VAddr
  epc     : VAddr
  tcause  : Word
  tinfo   : Word
  loops   : Map LoopLvl               -- levels 0 to 3; also holds counts of levels not open
  ldepth  : Nat
  semWait : Option (Nat × List Opnd)  -- a semw held on a semaphore, and the channels it pops (R134)
  limFrom : Option LimSt              -- a repeating enqw or deqw (R295)
  settle  : Bool                      -- a trap was taken: results land before the next word (R123)
  nextTrap : List NextTrap
  tickWait : Option VAddr             -- a tick issued and not complete; the word the stream holds at (R189)
  line    : Option (Nat × List Byte) := none  -- the fetched line that the stream issues from: its address, its words (R107)
  spillBad : List Nat := []           -- poisoned bytes of its spill bank (R388)
  deriving DecidableEq, Repr

/-- Engines of a core with a command queue (R45). -/
inductive Eng
  | mat
  | copy
  | vec
  | curve
  | att
  deriving DecidableEq, Repr

/-- Progress of a command. -/
inductive CmdSt
  | queued
  | departed
  | started
  deriving DecidableEq, Repr

/-- A tap as resolved at issue (R178); a fill sample keeps the format and FILL of its signal. -/
structure RTap where
  sig  : Nat
  num  : Int
  row  : Nat
  fill : BitVec 4 × BitVec 32 := (0, 0)
  deriving DecidableEq, Repr

/-- A served entry of a kvapp list (R350). -/
structure KvEnt where
  sigK : Nat
  numK : Nat
  ka   : Nat
  sigV : Nat
  numV : Nat
  va   : Nat
  deriving DecidableEq, Repr

/-- Bytes with the positions of those that are poisoned. -/
structure Row where
  bytes : List Byte
  bad   : List Nat
  deriving DecidableEq, Repr

/-- An engine command in its queue or running, with all it captured at issue. -/
structure Cmd where
  id     : Nat
  eng    : Eng
  st     : CmdSt
  ins    : Instr
  ops    : List Val                    -- source values read at issue
  taps   : List RTap
  wpins  : List (Nat × Nat)            -- writer pins: signal, sample
  rpins  : List (Nat × Nat)            -- reader pins
  fmt    : Word                        -- format word captured at issue (R258)
  rm     : RM
  seed   : BitVec 32
  kvs    : List KvEnt
  range  : Int × Int                   -- samples of an attq or prom: least and greatest
  outs   : List Dest                   -- destinations of a queued vector word or curve word
  tag    : Fin 8
  seq    : Nat
  ivl    : Nat                         -- interval of issue (R46)
  wait   : Option Nat                  -- semaphores
  sig    : Option Nat
  ord    : Ord14
  begun  : Nat                         -- cycle of the start
  prog   : Nat                         -- steps done: rows, list positions, packets, K-steps (R260, R309, R310, R314, R373)
  blks   : Option (List Nat)           -- attq: pages absent at the end of its bound; prom: pages it promotes
  flt    : Option (BitVec 8 × Word)    -- an engine fault: cause and detail
  held   : Bool                        -- holds at a faulting access
  quota  : Nat := 0                    -- what its engine's rate has given it for the step at which it stands (R260, R394, R428)
  parts  : List (Nat × Row) := []      -- of the row that it reads, the halves that it has read (R64)
  marks  : List (Nat × Nat) := []      -- what a gather has read, by address; lines that a split has written (R213)
  cap    : List Row := []              -- lists, entries and rows read (R205, R310, R314, R348)
  sums   : List (Nat × List Nat) := [] -- a cred: the running sums of its bags (R313)
  stack  : Nat := 0                    -- a cred: the stack of its table (R314)
  deriving DecidableEq, Repr

/-- A region map of the map unit (R378). -/
structure MapSlot where
  la      : Nat
  nb      : Nat
  base    : VAddr
  present : List Nat
  dirty   : List Nat
  deriving DecidableEq, Repr

/-- An armed future of the notify combiner (R334). -/
structure Armed where
  key     : Nat
  va      : VAddr
  payload : BitVec 62
  deriving DecidableEq, Repr

/-- A completion event of the notify combiner that found an armed future: the engine that brought it about, and whether its
batch had an engine fault (R334, R343). -/
structure NotEvt where
  eng   : Eng
  flt   : Bool
  armed : Armed
  deriving DecidableEq, Repr

/-- An acquire of a core that holds later accesses after its own step: its serial number and path set, and the level that
its flush is still to reach where an earlier acquire holds an entry that the flush must drain (R69, R71). -/
structure Acq where
  seq   : Nat
  ps    : BitVec 8
  flush : Option Nat
  deriving DecidableEq, Repr

/-- The state of one core of a pass (R138). -/
structure CoreSt where
  lcore   : Nat
  exe     : StreamSt
  acc     : StreamSt
  v       : Map VReg
  k       : Map Word
  ch      : Map (List ChEnt)           -- q0 to q15 at 0 to 15, n0 to n47 at 16 to 63
  sems    : Map (BitVec 16)
  waitNow : Map Nat                    -- waits that each semaphore has satisfied in this cycle (R134)
  slstall : Word
  replays : Word
  semsat  : Word
  satNow  : Word                       -- of these, the increments of this cycle (R163)
  crNew   : List (Nat × Word)          -- counters 0x012 to 0x014 written in this cycle, for the next (R162, R163)
  cmds    : List Cmd                   -- every queue, oldest first
  copyLeft : Nat := 0                  -- bytes that the copy engine may still move in this cycle (R428)
  matLeft : Nat := 0                   -- half updates that the array may still do in this cycle (R260, R268)
  tiles   : Map (BitVec 32)            -- accumulator elements: tile, row, column (R257)
  fq      : List Word
  rm      : RM                         -- matrix rounding mode (R273)
  sbase   : BitVec 8
  mgap    : Nat
  cbase   : BitVec 8
  cgap    : Nat
  mlast   : Option Nat                 -- cycle of the last departure (R267)
  clast   : Option Nat
  slots   : Map MapSlot
  armed   : List Armed
  nots    : List (Eng × Nat × Bool)    -- notifies that no event has counted: serial number, completed (R343)
  flts    : List (Eng × Nat)           -- commands that ended with an engine fault, until an event counts their batch (R343)
  events  : List NotEvt                -- completion events whose resolution step is still to be performed (R334, R343)
  evAt    : Option Nat                 -- the cycle of the last completion event (R343)
  attqs   : List Nat                   -- layers of which the core issued an attq in this interval (R352)
  ticked  : Option Nat                 -- SLACK of the tick issued for this interval (R34)
  acqs    : List Acq                   -- acquires whose flush or whose delegated classes are awaited (R69, R71)
  deriving DecidableEq, Repr

/-! ### Signals -/

/-- A signal descriptor (R169). -/
structure SigDesc where
  tier   : BitVec 2
  home   : Nat
  fmt    : BitVec 4
  rows   : Nat
  rw     : Nat
  gm     : BitVec 2
  g0     : Bool
  keep   : Bool
  depth  : Nat
  base   : VAddr
  fw     : Nat
  fill   : BitVec 32
  period : Nat
  phase  : Nat
  deriving DecidableEq, Repr

/-- Slot states (R174). -/
inductive SlotState
  | empty
  | filling
  | ready
  | draining
  deriving DecidableEq, Repr

/-- The slot of one existing sample (R174). -/
structure Slot where
  num  : Nat
  st   : SlotState
  segs : Nat                           -- bitmap of written segments
  wp   : Nat
  rp   : Nat
  data : Map Byte
  touched : Bool                       -- HBM and global tiers: the backing slot has been translated (R183)
  back : Bool                          -- its bytes are still in the backing range after an srest (R205)
  bad  : List Nat := []                -- offsets of its poisoned bytes (R388)
  freed : Bool := false                -- a reader pin was released in this cycle (R181)
  deriving DecidableEq, Repr

/-- A signal of a pass (R172, R173). -/
structure Sig where
  desc  : SigDesc
  live  : Bool
  n     : Int
  o     : Nat
  g     : Bool
  due   : Bool                         -- due in the current interval
  slots : List Slot
  rest  : Bool                         -- an srest is under way: every slot is draining (R205)
  deriving DecidableEq, Repr

/-- A write to a slot that a sequencer word issued and that is still to be performed (R176, R194). -/
structure SlotWrite where
  id   : Nat
  sig  : Nat
  num  : Nat
  off  : Nat
  data : List Byte
  segs : Nat
  due  : Option Nat                    -- the cycle, for an LS-tier slot at its home core
  deriving DecidableEq, Repr

/-! ### Passes and runs -/

/-- A level of a loop table (R28). -/
structure Level where
  kind  : BitVec 2
  count : Nat
  deriving DecidableEq, Repr

/-- The fields of an accepted run record (R26), with its loop table and its signal table. -/
structure RunRec where
  prog   : VAddr
  param  : Word
  asid   : BitVec 16
  prio   : Nat
  powc   : Nat
  qd     : Nat
  qc     : Nat
  budget : Nat
  jv     : Bool
  join   : VAddr
  dv     : Bool
  done   : VAddr
  dthr   : BitVec 32
  jthr   : BitVec 32
  levels : List Level
  sigs   : List SigDesc
  joinAt : Nat := 0                    -- the location of its join word, as the checks at acceptance translated it (R427)
  deriving DecidableEq, Repr

/-- States of a run in the launch engine. -/
inductive RunSt
  | deferred                           -- above the limit of R322
  | waiting                            -- on its join word (R37)
  | active
  | finished
  | terminated
  deriving DecidableEq, Repr

/-- A position: the dies in order and the first core of each (R32). -/
structure Pos where
  dies : List Nat
  core : Nat
  deriving DecidableEq, Repr

/-- An accepted run (R322). -/
structure Run where
  rid    : Nat
  addr   : VAddr
  rcd    : RunRec
  st     : RunSt
  stamp  : Nat
  eff    : Nat                         -- effective priority (R324)
  aged   : Nat                         -- cycle since which no pass was placed
  target : Option Pos                  -- a blocking run's target quire (R323)
  made   : Nat                         -- passes created
  hold   : Option (Nat)                -- a replay: key of its version's doubleword (R329)
  cause  : BitVec 8                    -- cause of a termination
  joinKey : Nat
  from_  : Nat × Nat × Word := (0, 7, 0) -- a deferred run: core, unit and run record of the word that resolved (R332)
  deriving DecidableEq, Repr

/-- Pass states (R39). -/
inductive PassSt
  | resident
  | saved
  | parked
  | finished
  | terminated
  deriving DecidableEq, Repr

/-- A tick whose conditions have been met and that completes later: the cycle, and the signals that it makes due (R34). -/
structure TickWait where
  at_ : Nat
  due : List Nat
  deriving DecidableEq, Repr

/-- A pending park (R357, R358). -/
structure Park where
  wake  : Nat                          -- location key of the wake word
  wakeVa : VAddr
  t1    : Nat
  t2    : Nat
  sigs  : List Nat
  wm    : Nat
  since : Nat                          -- cycle in which the save completed
  woken : Bool
  order : Option (List Nat)            -- blocks in the order of the rounds; none: not yet drawn up
  t1on  : Bool
  t2on  : Bool
  dem1  : Bool                         -- demotion to tier 2 has begun
  dem2  : Bool
  deriving DecidableEq, Repr

/-- A deadline of the commands of an interval on a core (R46). -/
structure Deadline where
  qc  : Nat
  ivl : Nat
  at_ : Nat
  deriving DecidableEq, Repr

/-- An ASID context (R369). -/
structure AsidCtx where
  ast  : BitVec 2
  root : BitVec 56
  htb  : VAddr
  htl  : BitVec 21
  kwb  : VAddr
  lkp  : BitVec 4
  kws  : BitVec 41
  pst  : BitVec 56
  fln  : BitVec 5
  flb  : VAddr
  flp  : VAddr
  deriving DecidableEq, Repr

/-- A pass, resident or saved: the same record holds its state on the quire and in the save record (R341). -/
structure Pass where
  pid      : Nat
  rid      : Nat
  num      : Nat
  ctx      : AsidCtx                   -- the ASID context as it stood when the pass was placed (R369)
  st       : PassSt
  pos      : Pos
  qc       : Nat
  qd       : Nat
  cores    : List CoreSt
  now      : Word
  sched    : Nat
  wd       : Nat                       -- watchdog count (R338)
  lease    : Word
  sigs     : Map (Option Sig)          -- by number; none is undeclared
  writes   : List SlotWrite
  deadlines : List Deadline
  tick     : Option TickWait
  boundary : Option Nat                -- the LE holds the quire at a boundary (R33, R48)
  late     : Bool                      -- a slack stall is on
  lines    : List (Nat × List Byte)    -- instruction lines fetched since the placement, by virtual line address (R107)
  preempt  : Bool
  yield    : Bool
  after    : List Nat                  -- a yielded pass: the runs that are served first (R337)
  migr     : BitVec 8                  -- the pass's own migration mask (R339)
  phoavo   : Option (BitVec 8)         -- Phoavo's migration request
  dest     : Option Pos                -- reserved migration target
  park     : Option Park
  parkPend : Option Park               -- a park that takes effect at the next boundary (R358)
  lsSave   : List (Nat × Host.Cell)    -- free line-store bytes saved: core, cell (R138)
  held     : List (Nat × Nat × Word)   -- messages held while saved: core, channel, value (R403)
  ended    : Bool                      -- the tick space has ended (R31)
  exhausted : Bool                     -- the lease's energy of this interval is used up (R394)
  badLines : List (Nat × List Byte) := [] -- of the lines held, those whose fetch met poison (R388)
  mchk     : Option (Nat × Nat) := none -- poison was consumed: logical core and unit (R388)
  lsBad    : List (Nat × Nat) := []     -- poisoned bytes of the saved line stores: core, offset (R388)
  granted  : Option Word := none        -- the lease before a power step reduced its figures (R399)
  shed     : Bool := false              -- pre-empted for a limit below 300 W, and not placed again yet (R399)
  deriving DecidableEq, Repr

/-! ### Ordering machine -/

/-- A write in a path buffer or a store: serial number, page kind and bytes by location (R53, R424). -/
structure Wr where
  seq   : Nat
  pk    : PK
  cells : List Host.Cell
  bad   : List Nat := []                -- its locations whose bytes are poisoned (R388)
  half  : Option Nat := none            -- one of two halves: the serial number of their access (R64)
  page  : Option (Nat × Nat) := none    -- the virtual address and the log2 size of the page that translated it (R372)
  deriving DecidableEq, Repr

/-- What a path-buffer entry does when it drains. -/
inductive EAct
  | write
  | amo (op : AOpc) (wd : AW) (b : Word)
  | cas (wd : AW) (want b : Word)
  | faddw (wd : AW) (b thr : Word)
  | enq (b : Word)
  | deq
  deriving DecidableEq, Repr

/-- A path-buffer entry (R53): `seq` is its place in order of entry and `po` its place in program order, which for a write of
an engine is that of its command (R69); `key` is the location of an atomic, the handle of a queue step, or the number of the
command that wrote. -/
structure Entry where
  seq  : Nat
  po   : Nat := seq
  wr   : Wr
  act  : EAct
  key  : Nat
  hist : Nat                            -- queue: the address space
  ord  : Ord14
  asc  : BitVec 4
  pid  : Nat
  qc   : Nat
  deriving DecidableEq, Repr

/-- A path buffer (R51). -/
structure Buf where
  ag   : Agent
  cl   : Cls
  ents : List Entry
  deriving DecidableEq, Repr

/-- A store of the machine below the system store (R52), oldest write first. -/
structure Store where
  id : StoreId
  ws : List Wr
  deriving DecidableEq, Repr

/-- A waiter registered on a word (R289). -/
structure WaitReg where
  key   : Nat
  w     : Waiter
  woken : Bool                          -- a wake has reached it (R289)
  awake : Bool                          -- it repeats its read (R290)
  full  : Option Nat                    -- not registered, the table being full: the cycle of its last read
  deriving DecidableEq, Repr

/-- A performed remote request kept until its acknowledgement (R298). -/
structure Dedupe where
  src   : Nat
  sq    : Nat
  reply : List Word
  deriving DecidableEq, Repr

/-! ### Translation -/

/-- A cached translation of one die (R371). -/
structure TlbEnt where
  die  : Nat
  asid : BitVec 16
  va   : Nat                            -- first address of the page
  lg   : Nat                            -- log2 of the page size
  pte  : Word
  deriving DecidableEq, Repr

/-- A cached table entry of one die (R371). -/
structure WalkEnt where
  die  : Nat
  asid : BitVec 16
  lvl  : Nat
  va   : Nat
  pte  : Word
  deriving DecidableEq, Repr

/-- Who met a translation fault (R373). -/
inductive FaultBy
  | stream (st : Stream)
  | cmd (id : Nat)
  | event (eng : Eng)                   -- a completion event of the notify combiner (R334)
  | save
  deriving DecidableEq, Repr

/-- An outstanding translation fault (R373 to R375). -/
structure PFault where
  id   : Nat                            -- the model's number of the fault
  logId : Option Nat                    -- the producer index of its record, once written
  asid : BitVec 16
  pid  : Nat
  qc   : Nat
  who  : FaultBy
  va   : VAddr
  info : Word
  reason : Nat
  asked : Option (Nat × Nat × Nat) := none -- a replay was asked for: pass, logical core, serial number (R71, R375)
  deriving DecidableEq, Repr

/-- A fault log record waiting to be written (R374). -/
structure LogRec where
  asid : BitVec 16
  w0   : Word
  info : Word
  run  : Word
  ctx  : AsidCtx                        -- the log's base, size and producer word (R369, R374)
  flt  : Option Nat                     -- the fault whose record this is
  deriving DecidableEq, Repr

/-- Page states (R345). -/
inductive PageSt
  | none
  | hbm
  | down
  | tier2
  | tier3
  | up
  deriving DecidableEq, Repr

/-- An entry of a page-state table (R345). -/
structure KvPage where
  asid  : BitVec 16
  blk   : Nat
  ps    : PageSt
  frame : Nat
  size  : Nat
  dest  : Option (PageSt × Nat)         -- a move: the state and frame it goes to
  want  : Option (Nat × Nat)            -- a promotion asked for: its place in order, and the pass
  mover : Nat                           -- the pass on whose behalf it moves
  deriving DecidableEq, Repr

/-! ### The module -/

/-- The management window and the power state (R397, R406). -/
structure Mg where
  subrec  : VAddr
  substat : Word
  asidsel : BitVec 16
  asidack : BitVec 3
  rail    : Map (BitVec 2)
  railNew : Map (BitVec 2)              -- changes that wait until the core frees
  hostlim : BitVec 16
  caps    : BitVec 16
  ralOk   : Bool
  ralSeq  : BitVec 32
  gridLim : BitVec 16
  ralWait : Option (BitVec 32 × Nat × Bool) -- a message whose limit is not met: SEQ, limit, answered with status 1 (R398)
  level   : Nat                         -- how far the throttle order is taken, from 0 to 18 (R399)
  past    : List (Nat × Nat)            -- limits replaced within the last 200 µs: the cycle of the change, the limit (R399)
  step    : Bool
  ageper  : BitVec 10
  pfdir   : Word
  fwVerified : Bool
  kvpool  : Map (Nat × Nat)             -- base and length
  attest  : Nat                         -- the identity key's one-time-signature index, in fuses: the certificates written (R408)
  keySigs : Nat                         -- signatures that the attestation key certified last has used (R408)
  deriving DecidableEq, Repr

/-- Answers to Ralore messages (R398): SEQ, status, draw. -/
structure RalAns where
  sq     : BitVec 32
  status : BitVec 16
  draw   : BitVec 16
  deriving DecidableEq, Repr

/-- What a read of the host, or of a device on port M, returned (R76, R388). -/
structure HostRead where
  pa     : ExtAddr
  bytes  : List Byte
  poison : Bool
  deriving DecidableEq, Repr

/-- A fabric message on its way (R402, R390). -/
structure Msg where
  id    : Nat
  asid  : BitVec 16
  lcore : Nat
  rch   : Nat
  val   : Word
  since : Option Nat                    -- the cycle of its first refusal (R390)
  last  : Nat                           -- the cycle of its last refusal
  from_ : Option (Nat × Nat × Nat)      -- the sending pass, core and channel, when it is of this module
  deriving DecidableEq, Repr

/-- A message that has left for another module (R402). -/
structure OutMsg where
  module : BitVec 21
  lcore  : Nat
  rch    : Nat
  asid   : BitVec 16
  val    : Word
  deriving DecidableEq, Repr

/-- What Phoavo reports or counts (R385, R386, R388, R400). -/
inductive Report
  | terminated (rid : Nat) (cause : BitVec 8)
  | engineFault (rid : Nat) (eng : Nat) (cause : BitVec 8) (info : Word)
  | refusedRun (addr : Word)
  | leFault (rid : Nat) (cause : BitVec 8) (info : Word)
  | poison (key : Nat)
  | doubleArm (pid : Nat)
  | imageDir (dir : List (VAddr × Nat × Option Nat × Bool)) -- run record, pass, signal or control state, written
  | firmware (verified : Bool)
  | ralore (a : RalAns)
  | queueHome (lc : Nat)
  deriving DecidableEq, Repr

/-- The control state of one core in a power-fail image (R400). -/
structure CoreImg where
  exe      : Map Word
  acc      : Map Word
  v        : Map VReg
  k        : Map Word
  ch       : Map (List ChEnt)
  sems     : Map (BitVec 16)
  exeLoops : Map LoopLvl × Nat          -- the loop stack with its depth (R136)
  accLoops : Map LoopLvl × Nat
  deriving DecidableEq, Repr

/-- A signal in a power-fail image: its number, its entry and its folio (R184, R400). -/
structure SigImg where
  num   : Nat
  entry : List Word
  folio : List Byte
  deriving DecidableEq, Repr

/-- The images that Phoavo writes to board flash at power fail, in order (R400). -/
inductive Image
  | control (run : VAddr) (num : Nat) (now : Word) (cores : List CoreImg)
  | signal (run : VAddr) (num : Nat) (g : SigImg)
  deriving DecidableEq, Repr

/-- Which agent acts next. An execute stream that holds on an empty condition queue has its slot after the access stream's,
which may push to the queue in the same cycle (R156): `swap` is that slot of the access stream, `last` the execute stream's
after it. -/
inductive Turn
  | pre
  | issue (pid qc : Nat) (st : Stream)
  | swap (pid qc : Nat)
  | last (pid qc : Nat)
  | post
  deriving DecidableEq, Repr

/-- The module. -/
structure State where
  cycle    : Nat
  turn     : Turn
  script   : List Nat
  free     : Nat
  inputs   : List Instr
  seq      : Nat
  mem      : Mem
  bufs     : List Buf
  stores   : List Store
  waiters  : List WaitReg
  dedupe   : List Dedupe
  passes   : List Pass
  runs     : List Run
  nextId   : Nat
  remap    : Map (Nat × Nat)            -- core a pass migrated to, and the first message number after the migration (R340)
  asids    : Map AsidCtx
  binds    : Map Word                   -- binding entry i of ASID a at 32a + i (R402)
  tlb      : List TlbEnt
  walks    : List WalkEnt
  faults   : List PFault
  logq     : List LogRec
  pages    : List KvPage
  inval    : List (BitVec 16)           -- ASIDs under invalidation (R370)
  mg       : Mg
  dies     : BitVec 8                   -- dies in service
  fullDies : BitVec 8                   -- dies in full service
  leaving  : List Nat                   -- dies that are leaving service (R410)
  sparing  : List Nat                   -- cores under exchange (R13)
  spared   : List Nat                   -- dies whose spare core is in use (R13)
  outCores : List Nat                   -- failed cores that await their spare, or are out for good (R13)
  links    : List Nat                   -- retired links
  gated    : List PowerUnit
  msgs     : List Msg
  sent     : List OutMsg
  poison   : List Nat                   -- poisoned location keys
  badRegions : List Nat                 -- physical regions of failed devices (R407)
  poisonTiles : List (Nat × Nat × Nat)  -- poisoned accumulator elements: pass, core, element as CoreSt.tiles numbers it
  counts   : Nat                        -- corrected and engine-fault counts of Phoavo
  reports  : List Report
  reads    : List HostRead
  powered  : Bool                       -- input power is present (R400)
  capo     : List (Nat × Nat × Nat × Nat) -- requests answered in this cycle: rail, core, current and energy granted (R392)
  images   : List Image                 -- the power-fail images in board flash (R400)
  deriving DecidableEq, Repr

/-- Why the model stops with a fault. Every fault of the spec is a next state, so nothing raises this but a state that no
placement builds; it is safe. -/
inductive Fault
  /-- Raised by the step at a slot of a core that its pass does not have; safe: no reachable state has such a slot. -/
  | noSuchCore
  deriving DecidableEq, Repr

/-- Why the model refuses. -/
inductive Refusal
  /-- Raised by the dispatch for an instruction without a meaning; safe. -/
  | notModelled (mnemonic : String)
  deriving DecidableEq, Repr

/-- The management window after reset (R406). -/
def Mg.reset : Mg :=
  { subrec := 0, substat := 0, asidsel := 0, asidack := 0, rail := [], railNew := [], hostlim := 1700,
    caps := 850, ralOk := false, ralSeq := 0, gridLim := 0, ralWait := none, level := 0, past := [], step := false, ageper := 20, pfdir := 0,
    fwVerified := false, kvpool := [], attest := 0, keySigs := 0 }

/-- The module right after reset: nothing accepted, nothing in flight, memory zero (R52), every context free (R406). -/
def State.reset : State :=
  { cycle := 0, turn := .pre, script := [], free := 0, inputs := [], seq := 1, mem := [], bufs := [], stores := [],
    waiters := [], dedupe := [], passes := [], runs := [], nextId := 0, remap := [], asids := [], binds := [],
    tlb := [], walks := [], faults := [], logq := [], pages := [], inval := [], mg := Mg.reset,
    dies := 0xFF, fullDies := 0xFF, leaving := [], sparing := [], spared := [], outCores := [], links := [], gated := [],
    msgs := [], sent := [], poison := [], badRegions := [], poisonTiles := [], counts := 0, reports := [], reads := [],
    powered := true, capo := [], images := [] }

end Sys2Proof.Machine
end

