-- ==== Sys2Proof/Machine/Maps.lean ====
section
/-! DEFINITION. Reading and writing finite maps and byte memory in their one form, bytes of words, and the accessors of
passes, cores and streams. -/

namespace Sys2Proof.Machine

/-! ### Finite maps -/

/-- The value of a key. -/
def mget {α : Type} (d : α) : Map α → Nat → α
  | [], _ => d
  | (k, x) :: r, j => if j = k then x else mget d r j

/-- Puts a value at its place in the order of the keys. -/
def mins {α : Type} : Map α → Nat → α → Map α
  | [], k, v => [(k, v)]
  | (j, x) :: r, k, v => if k < j then (k, v) :: (j, x) :: r else if k = j then (k, v) :: r else (j, x) :: mins r k v

/-- The map with a key at a value; the default value is not listed. -/
def mset {α : Type} [DecidableEq α] (d : α) (m : Map α) (k : Nat) (v : α) : Map α :=
  if v = d then m.filter (fun p => p.1 != k) else mins m k v

/-! ### Byte memory -/

/-- The byte at a location; a location not listed holds zero (R52). -/
def memGet (m : Mem) (a : Nat) : Byte := mget 0 m a

/-- A byte written. -/
def memSet (m : Mem) (a : Nat) (b : Byte) : Mem := mset 0 m a b

/-- Bytes written at consecutive locations from a. -/
def memPut (m : Mem) (a : Nat) : List Byte → Mem
  | [] => m
  | b :: bs => memPut (memSet m a b) (a + 1) bs

/-- n bytes from a. -/
def memBytes (m : Mem) (a n : Nat) : List Byte := (List.range n).map (fun i => memGet m (a + i))

/-- Cells written. -/
def memCells (m : Mem) (cs : List Host.Cell) : Mem := cs.foldl (fun m c => memSet m c.1 c.2) m

/-- The canonical form: addresses strictly rising from a bound, no zero listed. -/
def memWfFrom : Nat → Mem → Bool
  | _, [] => true
  | lo, (a, b) :: r => decide (lo ≤ a) && b != 0 && memWfFrom (a + 1) r

/-- The canonical form of byte memory. -/
def Mem.wf (m : Mem) : Bool := memWfFrom 0 m

/-! ### Bytes and words, little-endian (R6) -/

/-- The number in bytes, lowest first. -/
def leNat : List Byte → Nat
  | [] => 0
  | b :: bs => b.toNat + 256 * leNat bs

/-- n bytes of a number, lowest first. -/
def natLe : Nat → Nat → List Byte
  | 0, _ => []
  | n + 1, x => BitVec.ofNat 8 x :: natLe n (x / 256)

def leWord (bs : List Byte) : Word := BitVec.ofNat 64 (leNat bs)
def wordLe (n : Nat) (w : Word) : List Byte := natLe n w.toNat

/-- A field [hi:lo] of a word as a number. -/
def fld (w : Word) (hi lo : Nat) : Nat := w.toNat / 2 ^ lo % 2 ^ (hi + 1 - lo)

def w64 (n : Nat) : Word := BitVec.ofNat 64 n
def va57 (w : Word) : VAddr := w.truncate 57
def vaWord (a : VAddr) : Word := a.zeroExtend 64

/-- Cells of consecutive locations. -/
def cellsAt (a : Nat) : List Byte → List Host.Cell
  | [] => []
  | b :: bs => (a, b) :: cellsAt (a + 1) bs

/-! ### Passes, cores, streams -/

def State.pass? (s : State) (pid : Nat) : Option Pass := s.passes.find? (fun p => p.pid == pid)

def State.run? (s : State) (rid : Nat) : Option Run := s.runs.find? (fun r => r.rid == rid)

/-- The pass of a number, changed. -/
def State.updPass (s : State) (pid : Nat) (f : Pass → Pass) : State :=
  { s with passes := s.passes.map (fun p => if p.pid == pid then f p else p) }

def State.updRun (s : State) (rid : Nat) (f : Run → Run) : State :=
  { s with runs := s.runs.map (fun r => if r.rid == rid then f r else r) }

def State.core? (s : State) (pid qc : Nat) : Option CoreSt :=
  match s.pass? pid with
  | some p => p.cores[qc]?
  | none => none

/-- A core of a pass, changed. -/
def Pass.updCore (p : Pass) (qc : Nat) (f : CoreSt → CoreSt) : Pass := { p with cores := p.cores.modify qc f }

def State.updCore (s : State) (pid qc : Nat) (f : CoreSt → CoreSt) : State :=
  s.updPass pid (fun p => p.updCore qc f)

def CoreSt.stream (c : CoreSt) : Stream → StreamSt
  | .exe => c.exe
  | .acc => c.acc

def CoreSt.updStream (c : CoreSt) (st : Stream) (f : StreamSt → StreamSt) : CoreSt :=
  match st with
  | .exe => { c with exe := f c.exe }
  | .acc => { c with acc := f c.acc }

def State.updStream (s : State) (pid qc : Nat) (st : Stream) (f : StreamSt → StreamSt) : State :=
  s.updCore pid qc (fun c => c.updStream st f)

/-- Die and logical core number of core qc of a quire (R32). -/
def posLcore (pos : Pos) (qcw qc : Nat) : Nat := pos.dies.getD (qc / qcw) 0 * 8 + pos.core + qc % qcw

/-- The die of a logical core (R12). -/
def dieOf (lc : Nat) : Nat := lc / 8

/-- The resident pass that holds a logical core, with the position of the core. -/
def holderGo (lc : Nat) : List Pass → Option (Pass × Nat)
  | [] => none
  | p :: ps =>
    if p.st == .resident then
      match p.cores.findIdx? (fun c => c.lcore == lc) with
      | some i => some (p, i)
      | none => holderGo lc ps
    else holderGo lc ps

def State.holder (s : State) (lc : Nat) : Option (Pass × Nat) := holderGo lc s.passes

/-- The next serial number. -/
def State.tickSeq (s : State) : State := { s with seq := s.seq + 1 }

def State.report (s : State) (r : Report) : State := { s with reports := s.reports ++ [r] }

/-! ### Locations -/

/-- A physical address in the one form that names its bytes: region 0x5 as region 0x0 (R368). -/
def canonPa (pa : Nat) : Nat :=
  if pa / 2 ^ 52 = 5 then
    let f := pa % 2 ^ 36
    let st := pa / 2 ^ 36 % 8
    (f / 2 ^ 16) * 2 ^ 19 + st * 2 ^ 16 + f % 2 ^ 16
  else pa

/-- Location key of byte `a` of the line store of logical core lc. -/
def lsKey (lc a : Nat) : Nat := 2 ^ 60 + lc * 2 ^ 24 + a

/-- Keys of consecutive bytes of memory. -/
def paKeys (pa n : Nat) : List Nat := (List.range n).map (fun i => canonPa (pa + i))

/-- Keys of consecutive bytes of a line store. -/
def lsKeys (lc a n : Nat) : List Nat := (List.range n).map (fun i => lsKey lc (a + i))

/-- Bytes at their keys. -/
def keyCells (ks : List Nat) (bs : List Byte) : List Host.Cell := ks.zip bs

end Sys2Proof.Machine
end

