-- ==== Sys2Proof/Machine/Num.lean ====
section
/-! DEFINITION. Number formats, rounding and the order of sums (spec/05_number_formats.md): exact values are rationals, and
every result is the exact value rounded once. -/

namespace Sys2Proof.Machine

/-! ### Exact values -/

/-- An exact value: NaN, an infinity, or a signed magnitude p / q (R79 to R82). -/
inductive Rv
  | nan
  | inf (neg : Bool)
  | fin (neg : Bool) (p q : Nat)
  deriving DecidableEq, Repr

/-- A floating-point format (R78): field widths, bias, and whether it is E4M3, which has no infinity (R80). -/
structure FFmt where
  ew   : Nat
  fw   : Nat
  bias : Nat
  e4m3 : Bool
  deriving DecidableEq, Repr

def fFP32 : FFmt := { ew := 8, fw := 23, bias := 127, e4m3 := false }
def fFP16 : FFmt := { ew := 5, fw := 10, bias := 15, e4m3 := false }
def fBF16 : FFmt := { ew := 8, fw := 7, bias := 127, e4m3 := false }
def fE4M3 : FFmt := { ew := 4, fw := 3, bias := 7, e4m3 := true }
def fE5M2 : FFmt := { ew := 5, fw := 2, bias := 15, e4m3 := false }

/-- Width of a format in bits. -/
def FFmt.width (f : FFmt) : Nat := 1 + f.ew + f.fw

/-- The code of the sign bit. -/
def FFmt.signBit (f : FFmt) : Nat := 2 ^ (f.ew + f.fw)

/-- The code of the largest finite magnitude (R78). -/
def FFmt.maxCode (f : FFmt) : Nat := if f.e4m3 then 0x7E else (2 ^ f.ew - 1) * 2 ^ f.fw - 1

/-- The canonical NaN (R81). -/
def FFmt.nanCode (f : FFmt) : Nat := if f.e4m3 then 0x7F else (2 ^ f.ew - 1) * 2 ^ f.fw + 2 ^ (f.fw - 1)

/-- The code of a magnitude of infinity; E4M3 delivers the canonical NaN (R93). -/
def FFmt.infCode (f : FFmt) : Nat := if f.e4m3 then 0x7F else (2 ^ f.ew - 1) * 2 ^ f.fw

/-- The signed code of an infinity. -/
def FFmt.infOf (f : FFmt) (neg : Bool) : Nat :=
  if f.e4m3 then 0x7F else f.infCode + (if neg then f.signBit else 0)

/-- 2 to the power e as a fraction. -/
def pow2Frac (e : Int) : Nat × Nat := if e ≥ 0 then (2 ^ e.toNat, 1) else (1, 2 ^ (-e).toNat)

/-- The value of an encoding (R79, R80). -/
def FFmt.dec (f : FFmt) (bits : Nat) : Rv :=
  let b := bits % 2 ^ f.width
  let neg := decide (f.signBit ≤ b)
  let mag := b % f.signBit
  if f.maxCode < mag then
    (if !f.e4m3 && mag == f.infCode then .inf neg else .nan)
  else
    let e := mag / 2 ^ f.fw
    let fr := mag % 2 ^ f.fw
    let m := if e = 0 then fr else fr + 2 ^ f.fw
    let s := pow2Frac ((if e = 0 then 1 else (e : Int)) - f.bias - f.fw)
    .fin neg (m * s.1) s.2

/-- floor(log2 (p / q)) for positive p and q. -/
def ilog2 (p q : Nat) : Int :=
  let g : Int := (Nat.log2 p : Int) - Nat.log2 q
  let ge (e : Int) : Bool := let s := pow2Frac e; decide (s.1 * q ≤ p * s.2)
  if ge (g + 1) then g + 1 else if ge g then g else g - 1

/-- The code c of the greatest magnitude not above p / q, continued above the largest finite value with the same step,
and the exact fraction of the gap above it (R92, R96). -/
def FFmt.locate (f : FFmt) (p q : Nat) : Nat × Nat × Nat :=
  if p = 0 then (0, 0, 1)
  else
    let emin : Int := 1 - f.bias
    let e := ilog2 p q
    let e' := if e < emin then emin else e
    let u := pow2Frac (e' - f.fw)
    let num := p * u.2
    let den := q * u.1
    let n := num / den
    let c := (e' + f.bias - 1).toNat * 2 ^ f.fw + n
    (c, num % den, den)

/-! ### The deterministic stochastic hash -/

/-- R96. -/
def srdHash (seed coord : BitVec 32) (now : Word) : BitVec 16 :=
  let h := seed ^^^ (coord * 0x9E3779B1#32)
  let h := h ^^^ now.extractLsb' 0 32
  let h := h * 0x85EBCA6B#32
  let h := h ^^^ (h >>> 13)
  let h := h ^^^ now.extractLsb' 32 32
  let h := h * 0xC2B2AE35#32
  let h := h ^^^ (h >>> 16)
  h.extractLsb' 0 16

/-- What a rounding needs (R91, R97). -/
structure Rc where
  rm   : RM
  seed : BitVec 32
  now  : Word
  deriving DecidableEq, Repr

/-- Round to nearest even, exactly. -/
def Rc.rne : Rc := { rm := .rne, seed := 0, now := 0 }

def Rc.r (c : Rc) (coord : Nat) : Nat := (srdHash c.seed (BitVec.ofNat 32 coord) c.now).toNat

/-- Whether a magnitude with lower neighbour of parity `odd` and gap fraction num / den (0 < num < den) moves to the
neighbour of greater magnitude (R92, R96). -/
def Rc.away (c : Rc) (coord : Nat) (neg odd : Bool) (num den : Nat) : Bool :=
  match c.rm with
  | .rne => decide (den < 2 * num) || (2 * num == den && odd)
  | .rtz => false
  | .rdn => neg
  | .rup => !neg
  | .srd =>
    if neg then !decide (c.r coord < (den - num) * 65536 / den)
    else decide (c.r coord < num * 65536 / den)

/-- Whether a magnitude beyond the largest finite value becomes an infinity (R93); `num / den` is the part of the last
step, `past` that it is a whole step or more. -/
def Rc.overflows (c : Rc) (coord : Nat) (neg past : Bool) (num den : Nat) : Bool :=
  match c.rm with
  | .rne => past || decide (den ≤ 2 * num)
  | .rtz => false
  | .rdn => neg
  | .rup => !neg
  | .srd => past || decide (c.r coord < num * 65536 / den)

/-- Rounds an exact value to a format (R92 to R94). -/
def FFmt.round (f : FFmt) (c : Rc) (coord : Nat) (sat : Bool) (x : Rv) : Nat :=
  match x with
  | .nan => f.nanCode
  | .inf neg => if sat then f.maxCode + (if neg then f.signBit else 0) else f.infOf neg
  | .fin neg p q =>
    let s := if neg then f.signBit else 0
    let l := f.locate p q
    if f.maxCode < l.1 || (f.maxCode == l.1 && l.2.1 != 0) then
      (if c.overflows coord neg (decide (f.maxCode < l.1)) l.2.1 l.2.2 then
        (if sat then f.maxCode + s else f.infOf neg)
       else f.maxCode + s)
    else if l.2.1 = 0 then l.1 + s
    else if c.away coord neg (l.1 % 2 == 1) l.2.1 l.2.2 then l.1 + 1 + s
    else l.1 + s

/-! ### Exact operations -/

def Rv.neg : Rv → Rv
  | .nan => .nan
  | .inf s => .inf (!s)
  | .fin s p q => .fin (!s) p q

/-- The signed numerator. -/
def sgnNum (s : Bool) (p : Nat) : Int := if s then -(p : Int) else p

/-- The exact sum; a zero sum of operands of opposite signs takes the sign of the mode (R82). -/
def Rv.add (rm : RM) (a b : Rv) : Rv :=
  match a, b with
  | .nan, _ => .nan
  | _, .nan => .nan
  | .inf s, .inf t => if s == t then .inf s else .nan
  | .inf s, .fin _ _ _ => .inf s
  | .fin _ _ _, .inf t => .inf t
  | .fin s p q, .fin t p' q' =>
    let n := sgnNum s p * q' + sgnNum t p' * q
    if n = 0 then .fin (if s == t then s else rm == .rdn) 0 1
    else .fin (decide (n < 0)) n.natAbs (q * q')

def Rv.mul (a b : Rv) : Rv :=
  match a, b with
  | .nan, _ => .nan
  | _, .nan => .nan
  | .inf s, .inf t => .inf (s != t)
  | .inf s, .fin t p _ => if p = 0 then .nan else .inf (s != t)
  | .fin s p _, .inf t => if p = 0 then .nan else .inf (s != t)
  | .fin s p q, .fin t p' q' => .fin (s != t) (p * p') (q * q')

/-- R81: 0/0 and ∞/∞ are NaN, a non-zero finite value over zero is an infinity. -/
def Rv.div (a b : Rv) : Rv :=
  match a, b with
  | .nan, _ => .nan
  | _, .nan => .nan
  | .inf _, .inf _ => .nan
  | .inf s, .fin t _ _ => .inf (s != t)
  | .fin s _ _, .inf t => .fin (s != t) 0 1
  | .fin s p q, .fin t p' q' =>
    if p' = 0 then (if p = 0 then .nan else .inf (s != t))
    else .fin (s != t) (p * q') (q * p')

/-- a × b + c, exact (R102). -/
def Rv.fma (rm : RM) (a b c : Rv) : Rv := Rv.add rm (Rv.mul a b) c

/-- Bits of an integer square root from bit k down. -/
def isqrtGo (n : Nat) : Nat → Nat → Nat
  | 0, r => r
  | k + 1, r =>
    let t := r + 2 ^ k
    isqrtGo n k (if t * t ≤ n then t else r)

/-- floor(√n). -/
def isqrt (n : Nat) : Nat := isqrtGo n (Nat.log2 n / 2 + 1) 0

/-- √(p / q): exact where it is rational with a power-of-two denominator, else a value inside the same gap of every
format and of its 2^16 parts (notes/assumptions/11.md). -/
def sqrtFrac (p q : Nat) : Nat × Nat :=
  let k := 64 + Nat.log2 q
  let n := p * 4 ^ k / q
  let r := isqrt n
  if r * r * q = p * 4 ^ k then (r, 2 ^ k) else (2 * r + 1, 2 ^ (k + 1))

def Rv.sqrt : Rv → Rv
  | .nan => .nan
  | .inf s => if s then .nan else .inf false
  | .fin s p q => if p = 0 then .fin s 0 1 else if s then .nan else
      let r := sqrtFrac p q
      .fin false r.1 r.2

/-- 1 / a (R220). -/
def Rv.rcp (a : Rv) : Rv :=
  match a with
  | .fin s p q => if p = 0 then .inf s else .fin s q p
  | .inf s => .fin s 0 1
  | .nan => .nan

/-- 1 / √a (R220). -/
def Rv.rsq (a : Rv) : Rv :=
  match a with
  | .nan => .nan
  | .inf s => if s then .nan else .fin false 0 1
  | .fin s p q => if p = 0 then .inf s else if s then .nan else
      let r := sqrtFrac q p
      .fin false r.1 r.2

/-- Working precision of the transcendental functions, in bits. -/
def tPrec : Nat := 256

/-- Terms of 2 · atanh(z) = ln((1+z)/(1-z)), with z = num / 2^tPrec. -/
def atanhGo (z2 : Nat) : Nat → Nat → Nat → Nat → Nat
  | 0, _, _, acc => acc
  | k + 1, d, t, acc => atanhGo z2 k (d + 2) (t * z2 / 2 ^ tPrec) (acc + t / d)

/-- ln(m) · 2^tPrec for 1 ≤ m = p / q < 2. -/
def lnFix (p q : Nat) : Nat :=
  let z := (p - q) * 2 ^ tPrec / (p + q)
  2 * atanhGo (z * z / 2 ^ tPrec) 90 1 z 0

/-- ln 2 · 2^tPrec. -/
def ln2Fix : Nat := 2 * atanhGo (2 ^ tPrec / 9) 90 1 (2 ^ tPrec / 3) 0

/-- Terms of the exponential series of y / 2^tPrec. -/
def expGo (y : Nat) : Nat → Nat → Nat → Nat → Nat
  | 0, _, _, acc => acc
  | k + 1, n, t, acc => expGo y k (n + 1) (t * y / (2 ^ tPrec * n)) (acc + t)

/-- 2^x (R220). -/
def Rv.exp2 (a : Rv) : Rv :=
  match a with
  | .nan => .nan
  | .inf s => if s then .fin false 0 1 else .inf false
  | .fin s p q =>
    let n := sgnNum s p
    let i := n.fdiv q
    let fr := (n - i * q).toNat
    if i > 400 then .fin false (2 ^ 400) 1
    else if i < -600 then .fin false 1 (2 ^ 600)
    else
      let e := pow2Frac i
      if fr = 0 then .fin false e.1 e.2
      else
        let y := fr * ln2Fix / q
        let m := expGo y 80 1 (2 ^ tPrec) 0
        .fin false ((2 * m + 1) * e.1) (2 ^ (tPrec + 1) * e.2)

/-- log2 a (R220). -/
def Rv.log2 (a : Rv) : Rv :=
  match a with
  | .nan => .nan
  | .inf s => if s then .nan else .inf false
  | .fin s p q =>
    if p = 0 then .inf true
    else if s then .nan
    else
      let e := ilog2 p q
      let u := pow2Frac e
      let mp := p * u.2
      let mq := q * u.1
      if mp = mq then .fin (decide (e < 0)) e.natAbs 1
      else
        let l := (lnFix mp mq) * 2 ^ tPrec / ln2Fix
        let v := e * 2 ^ (tPrec + 1) + (2 * l + 1)
        .fin (decide (v < 0)) v.natAbs (2 ^ (tPrec + 1))

/-! ### Comparison -/

/-- The order of two values that are not NaN: −1, 0 or 1; −0 equals +0. -/
def Rv.cmp (a b : Rv) : Option Int :=
  let key : Rv → Option (Int × Nat) := fun x =>
    match x with
    | .nan => none
    | .inf _ => some (0, 1)
    | .fin s p q => some (sgnNum s p, q)
  match a, b with
  | .nan, _ => none
  | _, .nan => none
  | .inf s, .inf t => some (if s == t then 0 else if s then -1 else 1)
  | .inf s, .fin _ _ _ => some (if s then -1 else 1)
  | .fin _ _ _, .inf t => some (if t then 1 else -1)
  | x, y =>
    match key x, key y with
    | some (n, d), some (n', d') =>
      let l := n * d'
      let r := n' * d
      some (if l < r then -1 else if l = r then 0 else 1)
    | _, _ => none

/-- The conditions of R153. -/
def fcondHolds (cc : FCond) (a b : Rv) : Bool :=
  match Rv.cmp a b with
  | none => cc == .ne || cc == .un
  | some o => match cc with
    | .eq => o == 0
    | .ne => o != 0
    | .lt => decide (o < 0)
    | .le => decide (o ≤ 0)
    | .gt => decide (0 < o)
    | .ge => decide (0 ≤ o)
    | .un => false
    | .or => true

/-- A code as a result delivers it: every NaN is the canonical one (R81, R101). -/
def FFmt.canon (f : FFmt) (c : Nat) : Nat :=
  match f.dec c with
  | .nan => f.nanCode
  | _ => c

def Rv.isNan : Rv → Bool
  | .nan => true
  | _ => false

/-- The sign of a value, true for a minus sign. -/
def Rv.sign : Rv → Bool
  | .nan => false
  | .inf s => s
  | .fin s _ _ => s

/-- a is below b in the order of R152, in which −0 is below +0. -/
def Rv.below (a b : Rv) : Bool :=
  match Rv.cmp a b with
  | none => false
  | some o => decide (o < 0) || (o == 0 && a.sign && !b.sign)

/-- fmin and fmax (R152): one NaN yields the other operand. -/
def Rv.min (a b : Rv) : Rv := if a.isNan then b else if b.isNan then a else if Rv.below b a then b else a
def Rv.max (a b : Rv) : Rv := if a.isNan then b else if b.isNan then a else if Rv.below a b then b else a

/-! ### Conversions -/

/-- Rounds to an integer (R95): SRD takes the neighbours as lo and hi. -/
def Rc.toInt (c : Rc) (coord : Nat) (neg : Bool) (p q : Nat) : Int :=
  let n := p / q
  let m := p % q
  sgnNum neg (if m = 0 then n else if c.away coord neg (n % 2 == 1) m q then n + 1 else n)

/-- Clamps to a two's-complement range of w bits. -/
def clampS (w : Nat) (x : Int) : Int :=
  let hi : Int := 2 ^ (w - 1) - 1
  let lo : Int := -(2 ^ (w - 1))
  if x < lo then lo else if hi < x then hi else x

/-- Conversion to a signed integer of w bits (R95). -/
def Rv.toS (c : Rc) (coord w : Nat) (x : Rv) : Int :=
  match x with
  | .nan => 0
  | .inf s => if s then -(2 ^ (w - 1)) else 2 ^ (w - 1) - 1
  | .fin s p q => clampS w (c.toInt coord s p q)

/-- The exact value of an integer; zero is +0. -/
def Rv.ofInt (x : Int) : Rv := .fin (decide (x < 0)) x.natAbs 1

/-- The magnitude v(code) of B4, in quarters·4 = units of 1/8, for the magnitude index of types 1 to 3 (R87). -/
def b4Mag (ct k : Nat) : Nat :=
  match ct with
  | 1 => [0, 4, 8, 12, 16, 24, 32, 48].getD k 0
  | 2 => if k = 0 then 0 else 2 ^ (k - 1)
  | _ => [0, 2, 4, 6, 8, 12, 16, 24].getD k 0

/-- The value of a code in a block with scale exponent field sx (R87). -/
def b4Val (ct sx code : Nat) : Rv :=
  if sx = 63 then .nan
  else
    let e := pow2Frac ((sx : Int) - 32)
    if ct = 0 then
      let v : Int := if code < 8 then code else (code : Int) - 16
      .fin (decide (v < 0)) (v.natAbs * e.1) e.2
    else
      let m := b4Mag ct (code % 8)
      .fin (decide (8 ≤ code) && m != 0) (m * e.1) (8 * e.2)

/-- Element n of a block of 17 bytes (R85, R86). -/
def b4Elem (bs : List Byte) (n : Nat) : Rv :=
  let sc := (bs.getD 0 0).toNat
  let b := (bs.getD (1 + n / 2) 0).toNat
  b4Val (sc / 64) (sc % 64) (if n % 2 = 0 then b % 16 else b / 16)

/-- The greatest k of a grid with b4Mag ct k ≤ p / q (in units of 1/8), scanning from k down. -/
def b4Find (ct p q : Nat) : Nat → Nat
  | 0 => 0
  | k + 1 => if b4Mag ct (k + 1) * q ≤ 8 * p then k + 1 else b4Find ct p q k

/-- The code of one element of magnitude p / q already divided by the scale (R88 to R90). -/
def b4Code (c : Rc) (coord ct : Nat) (neg : Bool) (p q : Nat) : Nat :=
  if ct = 0 then
    let v := c.toInt coord neg p q
    let v := if v < -8 then -8 else if 7 < v then 7 else v
    (v % 16).toNat
  else
    let k := b4Find ct p q 7
    let lo := b4Mag ct k * q
    let x := 8 * p
    let k' := if k = 7 || lo == x then k
      else if c.away coord neg (k % 2 == 1) (x - lo) (b4Mag ct (k + 1) * q - lo) then k + 1 else k
    if k' = 0 then 0 else k' + (if neg then 8 else 0)

/-- The greatest magnitude of a list of finite values. -/
def maxMag : List Rv → Nat × Nat
  | [] => (0, 1)
  | x :: xs =>
    let m := maxMag xs
    match x with
    | .fin _ p q => if m.1 * q < p * m.2 then (p, q) else m
    | _ => m

/-- Encodes 32 exact values as block b (R88). -/
def b4Encode (c : Rc) (ct blk : Nat) (xs : List Rv) : List Byte :=
  let special := xs.any (fun x => match x with
    | .fin _ _ _ => false
    | _ => true)
  if special then BitVec.ofNat 8 (ct * 64 + 63) :: List.replicate 16 0
  else
    let m := maxMag xs
    let d : Int := if ct = 2 then 3 else if ct = 3 then 1 else 2
    let e : Int := if m.1 = 0 then -32
      else
        let t := ilog2 m.1 m.2 - d
        if t < -32 then -32 else if 30 < t then 30 else t
    let s := pow2Frac (-e)
    let code (n : Nat) : Nat :=
      match xs.getD n (.fin false 0 1) with
      | .fin neg p q => b4Code c (32 * blk + n) ct neg (p * s.1) (q * s.2)
      | _ => 0
    BitVec.ofNat 8 (ct * 64 + (e + 32).toNat) ::
      (List.range 16).map (fun j => BitVec.ofNat 8 (code (2 * j) + 16 * code (2 * j + 1)))

/-! ### The formats by name -/

/-- The floating-point format of a code, if it is one (R77). -/
def fmtFF : Fmt → Option FFmt
  | .fp32 => some fFP32
  | .fp16 => some fFP16
  | .bf16 => some fBF16
  | .e4m3 => some fE4M3
  | .e5m2 => some fE5M2
  | _ => none

/-- Element width in bits of a format other than B4 (R77). -/
def fmtWidth : Fmt → Nat
  | .fp32 => 32
  | .fp16 => 16
  | .bf16 => 16
  | .e4m3 => 8
  | .e5m2 => 8
  | .int8 => 8
  | .int32 => 32
  | .b4 => 8

/-- The signed value of the low w bits. -/
def sval (w x : Nat) : Int :=
  let y := x % 2 ^ w
  if 2 ^ (w - 1) ≤ y then (y : Int) - 2 ^ w else y

/-- The value of an element of a format. -/
def fmtDec (f : Fmt) (bits : Nat) : Rv :=
  match fmtFF f with
  | some ff => ff.dec bits
  | none => .ofInt (sval (fmtWidth f) bits)

/-- Rounds a value into an element of a format (R92 to R95). -/
def fmtEnc (f : Fmt) (c : Rc) (coord : Nat) (sat : Bool) (x : Rv) : Nat :=
  match fmtFF f with
  | some ff => ff.round c coord sat x
  | none => ((x.toS c coord (fmtWidth f)) % 2 ^ (fmtWidth f)).toNat

/-- The code value 0x0 to 0x7 of a format (R77). -/
def fmtOfNat : Nat → Option Fmt
  | 0 => some .fp32
  | 1 => some .fp16
  | 2 => some .bf16
  | 3 => some .e4m3
  | 4 => some .e5m2
  | 5 => some .int8
  | 6 => some .int32
  | 7 => some .b4
  | _ => none

end Sys2Proof.Machine
end

