-- ==== Sys2Proof/Machine/Flags.lean ====
section
/-! DEFINITION. The conditions that instructions test and the counters that they keep: integer, branch and key conditions
(spec/08_sequencer_instructions.md R146, R155, spec/14_curve_unit.md R246), semaphores and their saturation
(spec/07_sequencers.md R133). The module has no flag register. -/

namespace Sys2Proof.Machine

/-- R146. -/
def icondHolds (cc : ICond) (a b : Word) : Bool :=
  match cc with
  | .eq => a == b
  | .ne => a != b
  | .lt => a.slt b
  | .le => a.sle b
  | .ltu => a.ult b
  | .leu => a.ule b
  | .gt => b.slt a
  | .ge => b.sle a
  | .gtu => b.ult a
  | .geu => b.ule a

/-- R155. -/
def bcondHolds (cc : BCond) (a : Word) : Bool :=
  match cc with
  | .z => a == 0
  | .nz => a != 0
  | .ltz => a.slt 0
  | .gez => !a.slt 0
  | .gtz => (0 : Word).slt a
  | .lez => !(0 : Word).slt a

/-- Unsigned conditions of keys (R246). -/
def kcondHolds (cc : KCond) (a b : Nat) : Bool :=
  match cc with
  | .eq => a == b
  | .ne => a != b
  | .lt => decide (a < b)
  | .le => decide (a ≤ b)
  | .gt => decide (b < a)
  | .ge => decide (b ≤ a)

/-- Signed or unsigned integer conditions of vector elements (R223). -/
def vcondHolds (cc : FCond) (a b : Int) : Bool :=
  match cc with
  | .eq => a == b
  | .ne => a != b
  | .lt => decide (a < b)
  | .le => decide (a ≤ b)
  | .gt => decide (b < a)
  | .ge => decide (b ≤ a)
  | .un => false
  | .or => true

/-- A truth value in a register. -/
def boolWord (b : Bool) : Word := if b then 1 else 0

/-- An increment of a semaphore (R133): at 65,535 it stays and is counted, also among those of this cycle (R163). The increments
of a cycle are applied before its waits (R134), so the waits that the cycle has already satisfied are added back. -/
def semInc (c : CoreSt) (n : Nat) : CoreSt :=
  let v := mget 0 c.sems n
  if v.toNat + mget 0 c.waitNow n = 65535 then { c with semsat := c.semsat + 1, satNow := c.satNow + 1 }
  else { c with sems := mset 0 c.sems n (v + 1) }

/-- A wait that finds the counter above zero (R133). -/
def semDec (c : CoreSt) (n : Nat) : CoreSt :=
  { c with sems := mset 0 c.sems n (mget 0 c.sems n - 1), waitNow := mset 0 c.waitNow n (mget 0 c.waitNow n + 1) }

def semVal (c : CoreSt) (n : Nat) : Nat := (mget 0 c.sems n).toNat

/-- The semaphore that a 4-bit code names: 0 none, else sem(base + code) (R262, R303, R348). -/
def semOfCode (base : Nat) (code : BitVec 4) : Option Nat := if code = 0 then none else some ((base + code.toNat) % 256)

end Sys2Proof.Machine
end

