-- ==== Sys2Proof/Machine/Operands.lean ====
section
/-! DEFINITION. Every operand form: registers with results in flight, channels popped and peeked, and the word in which a
result lands (spec/06_instruction_word.md R109 to R121, spec/08_sequencer_instructions.md R141). -/

namespace Sys2Proof.Machine

/-! ### Results in flight -/

/-- A destination of a result in flight. -/
def Pend.writes (p : Pend) (o : Opnd) : Bool := p.outs.any (fun x => x.dst == .reg o)

/-- An earlier write of the stream to a register has not landed (R118). -/
def StreamSt.busyReg (t : StreamSt) (o : Opnd) : Bool := t.pend.any (fun p => p.writes o)

/-- A fixed-latency write to a register has not landed: a reader finds an undefined value (R116). -/
def StreamSt.unlanded (t : StreamSt) (o : Opnd) : Bool :=
  t.pend.any (fun p => p.writes o && (match p.due with
    | .exact _ => true
    | _ => false))

/-- A scoreboard tag is busy (R119). -/
def StreamSt.tagBusy (t : StreamSt) (n : Nat) : Bool := n != 0 && t.pend.any (fun p => p.tag.val == n)

/-- Every tag of a consume mask is free (R120). -/
def StreamSt.tcFree (t : StreamSt) (tc : BitVec 7) : Bool :=
  (List.range 7).all (fun i => !tc.getLsbD i || !t.tagBusy (i + 1))

/-! ### Registers -/

/-- Where a word stands: pass, core of the quire, stream, cycle. -/
structure At where
  cycle : Nat
  pid   : Nat
  qc    : Nat
  st    : Stream
  deriving DecidableEq, Repr

/-- The value of a register operand at a source position, read in the issue cycle (R112, R116, R121). -/
def regVal (c : CoreSt) (w : At) (pos : Nat) (o : Opnd) : Val :=
  let t := c.stream w.st
  match o with
  | .r n => if t.unlanded o then .w (Config.undefW w.cycle w.pid w.qc (w.st == .exe) n.val pos)
      else .w (mget 0 t.regs n.val)
  | .v n => if t.unlanded o then .v (Config.undefV w.cycle w.pid w.qc (64 + n.val) pos) else .v (mget 0 c.v n.val)
  | .k n => if t.unlanded o then .w ((Config.undefV w.cycle w.pid w.qc (96 + n.val) pos).truncate 64)
      else .w (mget 0 c.k n.val)
  | .q _ _ => .w 0
  | .n _ _ => .w 0

/-- A register takes a value. -/
def setReg (c : CoreSt) (st : Stream) (o : Opnd) (v : Val) : CoreSt :=
  match o, v with
  | .r n, .w x => c.updStream st (fun t => { t with regs := mset 0 t.regs n.val x })
  | .v n, .v x => { c with v := mset 0 c.v n.val x }
  | .k n, .w x => { c with k := mset 0 c.k n.val x }
  | _, _ => c

/-! ### Channels -/

/-- The number of a channel: q0 to q15, then n0 to n47. -/
def chIdx : Opnd → Nat
  | .q n _ => n.val
  | .n n _ => 16 + n.val
  | _ => 64

def isChan : Opnd → Bool
  | .q _ _ => true
  | .n _ _ => true
  | _ => false

def keeps : Opnd → Bool
  | .q _ k => k
  | .n _ k => k
  | _ => false

/-- Room for one more entry (R42). -/
def chRoom (c : CoreSt) (o : Opnd) : Bool := decide ((mget [] c.ch (chIdx o)).length < 16)

/-- An entry joins a channel. -/
def chPush (c : CoreSt) (i : Nat) (e : ChEnt) : CoreSt := { c with ch := mset [] c.ch i (mget [] c.ch i ++ [e]) }

/-- The content of an entry lands (R141). -/
def chLand (c : CoreSt) (i id : Nat) (v : Word) : CoreSt :=
  { c with ch := mset [] c.ch i ((mget [] c.ch i).map (fun e => if e.id == id then { e with val := some v } else e)) }

/-- The channels after the pop of one source. -/
def popSrc (ch : Map (List ChEnt)) (o : Opnd) : Map (List ChEnt) :=
  if isChan o && !keeps o then mset [] ch (chIdx o) (mget [] ch (chIdx o)).tail else ch

/-- The channels after the pops of the sources of a word (R111). -/
def popSrcs (ch : Map (List ChEnt)) (os : List Opnd) : Map (List ChEnt) := os.foldl popSrc ch

/-- The sources of a word read in order; none while a channel holds too few landed entries (R111, R141). -/
def readSrcs (c : CoreSt) (w : At) : Nat → Map (List ChEnt) → List Opnd → Option (List Val)
  | _, _, [] => some []
  | pos, ch, o :: os =>
    let v : Option Val := if isChan o then ((mget [] ch (chIdx o)).head?.bind (fun e => e.val)).map Val.w
      else some (regVal c w pos o)
    match v, readSrcs c w (pos + 1) (popSrc ch o) os with
    | some x, some xs => some (x :: xs)
    | _, _ => none

/-- The scalar value of a source. -/
def Val.word : Val → Word
  | .w x => x
  | .v x => x.truncate 64

/-- The vector value of a source; a scalar is repeated in every lane (R209). -/
def Val.vec : Val → VReg
  | .v x => x
  | .w x => x.zeroExtend 2048

def wordAt (vs : List Val) (i : Nat) : Word := (vs.getD i (.w 0)).word
def vecAt (vs : List Val) (i : Nat) : VReg := (vs.getD i (.w 0)).vec

/-- Bytes of a transfer (R161). -/
def szBytes : Sz → Nat
  | .b => 1
  | .h => 2
  | .w => 4
  | .d => 8

/-- An optional source. -/
def optList : Option Opnd → List Opnd
  | none => []
  | some o => [o]

/-! ### Landing -/

/-- One result lands in its destination. -/
def landOut (c : CoreSt) (st : Stream) (o : Out) : CoreSt :=
  match o.val with
  | none => c
  | some v =>
    match o.dst with
    | .reg r => setReg c st r v
    | .chan q id => chLand c (chIdx q) id v.word

/-- A result in flight lands: every destination takes its value and the tag frees (R116, R119). -/
def landPend (c : CoreSt) (st : Stream) (p : Pend) : CoreSt :=
  (p.outs.foldl (fun c o => landOut c st o) c).updStream st (fun t => { t with pend := t.pend.filter (fun q => q.seq != p.seq) })

/-- The fixed-latency results due in a cycle land, in program order (R116, R117). -/
def landDue (c : CoreSt) (st : Stream) (cycle : Nat) : CoreSt :=
  ((c.stream st).pend.filter (fun p => match p.due with
    | .exact d => decide (d ≤ cycle)
    | _ => false)).foldl (fun c p => landPend c st p) c

end Sys2Proof.Machine
end

