-- ==== Sys2Proof/Machine/Order.lean ====
section
/-! DEFINITION. The ordering machine (spec/04_ordering_machine.md): path buffers, stores, the steps drain, propagate and
read, atomics, releases and acquires. -/

namespace Sys2Proof.Machine

/-! ### Chains -/

/-- The bit of a class in a path set (R66). -/
def clsBit : Cls → Nat
  | .s => 0
  | .v => 1
  | .m => 2
  | .c => 3
  | .a => 4
  | .g => 5
  | .w => 6
  | .h => 7

/-- The path set of an annotation with the access's own class (R66). -/
def pathSet (paths : BitVec 8) (own : Cls) : BitVec 8 := paths ||| BitVec.ofNat 8 (2 ^ clsBit own)

def inSet (ps : BitVec 8) (cl : Cls) : Bool := ps.getLsbD (clsBit cl)

/-- Every class. -/
def allCls : BitVec 8 := 0xFF

/-- The scope number of a store (R52). -/
def storeLvl : StoreId → Nat
  | .stream _ _ => 1
  | .core _ => 2
  | .quire _ => 3
  | .die _ => 4
  | .module => 5
  | .node => 6
  | .domain => 7
  | .region => 8

def upperChain : List StoreId := [.module, .node, .domain, .region]

/-- The chain of an agent's path (R51, R52), without the system store. -/
def State.chain (s : State) (ag : Agent) (cl : Cls) : List StoreId :=
  match ag with
  | .core lc =>
    let q := match s.holder lc with
      | some (p, _) => if p.qd = 1 then [StoreId.quire p.pid] else []
      | none => []
    [.stream ag cl, .core lc] ++ q ++ .die (dieOf lc) :: upperChain
  | .base d => .stream ag cl :: .die d :: upperChain
  | .walker d => .stream ag cl :: .die d :: upperChain
  | .host => .stream ag cl :: [.node, .domain, .region]
  | .portM => .stream ag cl :: [.node, .domain, .region]
  | .le => upperChain
  | .log => upperChain
  | .remote m => if Config.sameNode m then [.node, .domain, .region] else [.domain, .region]

/-- The level that a scope names on an agent's chain: scope 3 of a die-spanning quire is scope 5 (R52). -/
def State.scopeLvl (s : State) (ag : Agent) (x : Nat) : Nat :=
  match ag with
  | .core lc =>
    match s.holder lc with
    | some (p, _) => if x = 3 && p.qd != 1 then 5 else x
    | none => x
  | _ => x

/-! ### Buffers and stores -/

def bufOf (bs : List Buf) (ag : Agent) (cl : Cls) : List Entry :=
  match bs.find? (fun b => b.ag == ag && b.cl == cl) with
  | some b => b.ents
  | none => []

def setBuf (bs : List Buf) (ag : Agent) (cl : Cls) (es : List Entry) : List Buf :=
  let r := bs.filter (fun b => !(b.ag == ag && b.cl == cl))
  if es.isEmpty then r else r ++ [{ ag := ag, cl := cl, ents := es }]

def storeOf (ss : List Store) (i : StoreId) : List Wr :=
  match ss.find? (fun x => x.id == i) with
  | some x => x.ws
  | none => []

def setStore (ss : List Store) (i : StoreId) (ws : List Wr) : List Store :=
  let r := ss.filter (fun x => x.id != i)
  if ws.isEmpty then r else r ++ [{ id := i, ws := ws }]

/-- An entry enters its path buffer (R53). -/
def State.issueEntry (s : State) (ag : Agent) (cl : Cls) (e : Entry) : State :=
  { s with bufs := setBuf s.bufs ag cl (bufOf s.bufs ag cl ++ [e]) }

/-- Two writes share a location. -/
def overlaps (a b : List Host.Cell) : Bool := a.any (fun c => b.any (fun d => c.1 == d.1))

/-- A wake word that is armed and that a write to the system store makes nonzero wakes its pass (R360). -/
def wakePass (m : Mem) (cs : List Host.Cell) (p : Pass) : Pass :=
  match p.park with
  | some k =>
    if p.st == .parked && !k.woken && cs.any (fun c => decide (k.wake ≤ c.1) && decide (c.1 < k.wake + 8)) &&
        leNat (memBytes m k.wake 8) != 0 then
      { p with park := some { k with woken := true, t1on := false, t2on := false, order := none } }
    else p
  | none => p

/-- A write takes its place in the coherence order of its locations (R55). -/
def State.toSystem (s : State) (w : Wr) : State :=
  let m := memCells s.mem w.cells
  { s with mem := m, passes := s.passes.map (wakePass m w.cells),
           poison := s.poison.filter (fun k => !w.cells.any (fun c => c.1 == k)) ++ w.bad }

/-- A write is appended to a store; none is the system store (R55). -/
def State.append (s : State) (i : Option StoreId) (w : Wr) : State :=
  match i with
  | some i => { s with stores := setStore s.stores i (storeOf s.stores i ++ [w]) }
  | none => s.toSystem w

/-- Every write of a store moves to the next store, in order (R55). -/
def State.pushAll (s : State) (i : StoreId) (nxt : Option StoreId) : State :=
  let ws := storeOf s.stores i
  ws.foldl (fun s w => s.append nxt w) { s with stores := setStore s.stores i [] }

/-- Every write below a level on a chain propagates, level by level, until it reaches that level's store (R57, R68). -/
def State.pushBelow (s : State) (lvl : Nat) : List StoreId → State
  | [] => s
  | i :: rest => if storeLvl i < lvl then (s.pushAll i rest.head?).pushBelow lvl rest else s

/-- The store of a level on a chain: the first one at or above it. -/
def storeAt (lvl : Nat) (chain : List StoreId) : Option StoreId := chain.find? (fun i => decide (lvl ≤ storeLvl i))

/-- The part of a chain from a level up. -/
def chainFrom (lvl : Nat) (chain : List StoreId) : List StoreId := chain.dropWhile (fun i => decide (storeLvl i < lvl))

/-! ### Reading -/

/-- The newest write to a location in a list of writes, oldest first. -/
def newestIn (k : Nat) : List Wr → Option Byte
  | [] => none
  | w :: ws =>
    match newestIn k ws with
    | some b => some b
    | none => (w.cells.find? (fun c => c.1 == k)).map (fun c => c.2)

/-- The first value on a chain of stores, then the system store (R56, steps 2 and 3). -/
def State.readChain (s : State) (k : Nat) : List StoreId → Byte
  | [] => memGet s.mem k
  | i :: rest =>
    match newestIn k (storeOf s.stores i) with
    | some b => b
    | none => s.readChain k rest

/-- R56. -/
def State.readByte (s : State) (ag : Agent) (cl : Cls) (k : Nat) : Byte :=
  match newestIn k (((bufOf s.bufs ag cl).filter (fun e => e.act == .write)).map (fun e => e.wr)) with
  | some b => b
  | none => s.readChain k (s.chain ag cl)

/-- R56 for an access with a serial number: the writes of its path that are later in program order are not its own past
(notes/assumptions/15.md). -/
def State.readBefore (s : State) (ag : Agent) (cl : Cls) (sq k : Nat) : Byte :=
  match newestIn k (((bufOf s.bufs ag cl).filter (fun e => e.act == .write && decide (e.seq < sq))).map (fun e => e.wr)) with
  | some b => b
  | none => s.readChain k (s.chain ag cl)

/-- The newest write to a location in a list of writes, oldest first. -/
def newestWr (k : Nat) : List Wr → Option Wr
  | [] => none
  | w :: ws =>
    match newestWr k ws with
    | some x => some x
    | none => if w.cells.any (fun c => c.1 == k) then some w else none

/-- The poison that a read of a location on a chain meets (R388). -/
def State.badChain (s : State) (k : Nat) : List StoreId → Bool
  | [] => s.poison.contains k || s.badRegions.contains (k / 2 ^ 52)
  | i :: rest =>
    match newestWr k (storeOf s.stores i) with
    | some w => w.bad.contains k
    | none => s.badChain k rest

/-- The locations of a read that are poisoned as the reader finds them. -/
def State.badKeys (s : State) (ag : Agent) (cl : Cls) (ks : List Nat) : List Nat :=
  ks.filter (fun k =>
    match newestWr k (((bufOf s.bufs ag cl).filter (fun e => e.act == .write)).map (fun e => e.wr)) with
    | some w => w.bad.contains k
    | none => s.badChain k (s.chain ag cl))

/-- A run consumes poison: a machine check falls due (R388). -/
def State.consume (s : State) (pid lc en : Nat) (bad : List Nat) : State :=
  if bad.isEmpty then s
  else s.updPass pid (fun p => { p with mchk := p.mchk.orElse (fun _ => some (lc, en)) })

/-- One read step of several bytes (R424). -/
def State.readKeys (s : State) (ag : Agent) (cl : Cls) (ks : List Nat) : List Byte := ks.map (s.readByte ag cl)

/-- A read that starts at a scope (R57, R327). -/
def State.readFrom (s : State) (ag : Agent) (cl : Cls) (lvl : Nat) (ks : List Nat) : List Byte :=
  ks.map (fun k => s.readChain k (chainFrom lvl (s.chain ag cl)))

/-! ### Acquires that are not complete -/

/-- The serial numbers and path sets of the acquires of a core whose reads have not been performed (R69). -/
def pendAcqs (ps : List Pend) : List (Nat × BitVec 8) :=
  ps.filterMap (fun p => match p.req with
    | .load parts _ _ o =>
      if (o.kind == .acq || o.kind == .ar) && parts.any (fun r => r.got.isNone && r.pk != .u) then
        some (p.seq, pathSet o.paths .s)
      else none
    | _ => none)

def entAcqs (es : List Entry) (cl : Cls) : List (Nat × BitVec 8) :=
  es.filterMap (fun e => if e.act != .write && (e.ord.kind == .acq || e.ord.kind == .ar) then
    some (e.seq, pathSet e.ord.paths cl) else none)

/-- A command of a delegated class (R71): attention commands for a, reductions for g. -/
def delegated (c : Cmd) (ps : BitVec 8) : Bool :=
  match c.ins with
  | .kvapp _ _ _ _ _ => inSet ps .a
  | .attq _ _ _ _ _ _ => inSet ps .a
  | .cred _ _ _ _ _ => inSet ps .g
  | _ => false

/-- A write to the line store of a core: what a base die writes for the commands of that core (R348). -/
def onLs (lc : Nat) (w : Wr) : Bool :=
  w.cells.any (fun c => decide (lsKey lc 0 ≤ c.1) && decide (c.1 < lsKey lc 0 + 2 ^ 24))

/-- Writes of base dies for a core that its chain does not hold yet (R71). -/
def State.basePending (s : State) (lc : Nat) (ps : BitVec 8) : Bool :=
  (inSet ps .a || inSet ps .g) && (List.range 8).any (fun d =>
    [Cls.a, Cls.g].any (fun cl => inSet ps cl && ((bufOf s.bufs (.base d) cl).any (fun e => onLs lc e.wr) ||
      (storeOf s.stores (.stream (.base d) cl)).any (onLs lc))) ||
    (d != dieOf lc && (storeOf s.stores (.die d)).any (onLs lc)))

/-- A replay that a core asked for before a serial number has not been performed (R71). -/
def State.replayPending (s : State) (lc sq : Nat) : Bool :=
  match s.holder lc with
  | some (p, _) => s.faults.any (fun f => match f.asked with
      | some (pid, l, n) => pid == p.pid && l == lc && decide (n < sq)
      | none => false)
  | none => false

/-- An acquire that names delegated classes still holds later accesses (R71). -/
def State.acqHolds (s : State) (c : CoreSt) (a : Nat × BitVec 8) : Bool :=
  c.cmds.any (fun k => decide (k.seq < a.1) && delegated k a.2) || s.basePending c.lcore a.2 ||
  (inSet a.2 .w && s.replayPending c.lcore a.1)

/-- The acquires of a core that still hold later accesses after their own steps (R69, R71). -/
def State.heldAcqs (s : State) (c : CoreSt) : List (Nat × BitVec 8) :=
  (c.acqs.filter (fun a => a.flush.isSome || s.acqHolds c (a.seq, a.ps))).map (fun a => (a.seq, a.ps))

/-- The acquires of a core that hold accesses later than them (R69 step 3, R71). -/
def State.barriers (s : State) (ag : Agent) : List (Nat × BitVec 8) :=
  match ag with
  | .core lc =>
    match s.holder lc with
    | some (p, i) =>
      match p.cores[i]? with
      | some c => pendAcqs c.acc.pend ++ entAcqs (bufOf s.bufs ag .s) .s ++ s.heldAcqs c
      | none => []
    | none => []
  | _ => []

/-- An access of a class with a place in program order waits for an earlier acquire. -/
def State.barred (s : State) (ag : Agent) (cl : Cls) (sq : Nat) : Bool :=
  (s.barriers ag).any (fun b => decide (b.1 < sq) && inSet b.2 cl)

/-- The reads of an engine's command on a class wait for the acquires before it, and for its own where that names delegated
classes (R69 step 3, R71, R72). -/
def State.engHeld (s : State) (c : CoreSt) (cl : Cls) (k : Cmd) : Bool :=
  (s.barriers (.core c.lcore)).any (fun b => decide (b.1 ≤ k.seq) && inSet b.2 cl) ||
  ((k.ord.kind == .acq || k.ord.kind == .ar) && s.acqHolds c (k.seq, pathSet k.ord.paths cl))

/-! ### Draining -/

def allClasses : List Cls := [.s, .v, .m, .c, .a, .g, .w, .h]

/-- An entry at its place in order of serial numbers. -/
def insEntry (x : Cls × Entry) : List (Cls × Entry) → List (Cls × Entry)
  | [] => [x]
  | y :: ys => if x.2.seq ≤ y.2.seq then x :: y :: ys else y :: insEntry x ys

/-- Every buffered entry of an agent with its class, in order of entry. -/
def State.agEntries (s : State) (ag : Agent) : List (Cls × Entry) :=
  let es := allClasses.flatMap (fun cl => (bufOf s.bufs ag cl).map (fun e => (cl, e)))
  es.foldr insEntry []

def isRel (o : Ord14) : Bool := o.kind == .rel || o.kind == .ar
def isAcq (o : Ord14) : Bool := o.kind == .acq || o.kind == .ar

/-- An atomic with an acquire, whose flush follows its step (R69). -/
def Entry.acquires (e : Entry) : Bool := e.act != .write && isAcq e.ord

/-- Two writes are the halves of one access (R64). -/
def Wr.twin (a b : Wr) : Bool := a.half.isSome && a.half == b.half

/-- The entries that a flush of a set of classes drains, oldest first: those of the classes, and those that their
releases must follow (R68). The list comes newest first. -/
def flushNeeds (ps : BitVec 8) (acc : List (Cls × Entry)) : List (Cls × Entry) → List (Cls × Entry)
  | [] => acc
  | (cl, e) :: rest =>
    if inSet ps cl then
      flushNeeds (if isRel e.ord then ps ||| pathSet e.ord.paths cl else ps) ((cl, e) :: acc) rest
    else flushNeeds ps acc rest

/-- Every write below a scope on the chains of a set of classes propagates to the store of the scope (R68, R69). -/
def State.pushSet (s : State) (ag : Agent) (ps : BitVec 8) (lvl : Nat) : State :=
  allClasses.foldl (fun s cl => if inSet ps cl then s.pushBelow lvl (s.chain ag cl) else s) s

def State.rmEntry (s : State) (ag : Agent) (cl : Cls) (sq : Nat) : State :=
  { s with bufs := setBuf s.bufs ag cl ((bufOf s.bufs ag cl).filter (fun e => e.seq != sq)) }

end Sys2Proof.Machine
end

