-- ==== Sys2Proof/Machine/Xlate.lean ====
section
/-! DEFINITION. Free choices, and translation: page-table walks, TLBs and walk caches, permission checks and accesses that
lie on two pages (spec/24_translation_and_faults.md R365 to R372, spec/04_ordering_machine.md R64). -/

namespace Sys2Proof.Machine

/-- A choice below n: the next scripted choice, or a free one (notes/assumptions/3.md). -/
def State.draw (s : State) (n : Nat) : Nat × State :=
  match s.script with
  | x :: xs => (x % n, { s with script := xs })
  | [] => (Config.choice s.free % n, { s with free := s.free + 1 })

/-! ### Walks -/

/-- What an access needs (R367). -/
inductive Acc
  | rd
  | wr
  | fetch
  deriving DecidableEq, Repr

/-- The outcome of a translation: the physical address with the page's kind and the log2 of its size, or the fault. -/
inductive Tr
  | ok (pa : Nat) (pk : PK) (lg : Nat)
  | trans (reason : Nat)
  | perm
  | cow
  deriving DecidableEq, Repr

def State.asidCtx (s : State) (a : BitVec 16) : AsidCtx :=
  mget { ast := 0, root := 0, htb := 0, htl := 0, kwb := 0, lkp := 0, kws := 0, pst := 0, fln := 0, flb := 0, flp := 0 }
    s.asids a.toNat

/-- Shift of the index of a level, and log2 of its leaf (R365). -/
def lvlShift (l : Nat) : Nat :=
  match l with
  | 3 => 39
  | 2 => 30
  | 1 => 21
  | _ => 16

/-- Entries of a table of a level, as log2 (R365). -/
def lvlBits (l : Nat) : Nat :=
  match l with
  | 3 => 18
  | 2 => 9
  | 1 => 9
  | _ => 5

/-- A physical address that R368 leaves reserved. -/
def paReserved (pa : Nat) : Bool :=
  let r := pa / 2 ^ 52 % 16
  decide (6 ≤ r) || ((r == 0 || r == 5) && pa / 2 ^ 39 % 2 ^ 13 != 0) || (r == 4 && pa / 2 ^ 39 % 2 ^ 5 != 0)

/-- What an entry is at a level: a table, a leaf, or the reason of a translation fault (R366, R367). -/
inductive PteKind
  | table (pa : Nat)
  | leaf (pa : Nat)
  | bad (reason : Nat)
  deriving DecidableEq, Repr

def pteKind (l : Nat) (e : Word) : PteKind :=
  let pa := fld e 55 8 * 256
  let lf := e.getLsbD 1
  if !e.getLsbD 0 then .bad 0
  else if fld e 63 56 != 0 || paReserved pa then .bad 1
  else if lf then
    (if l = 3 || pa % 2 ^ lvlShift l != 0 || fld e 7 6 == 3 then .bad 1 else .leaf pa)
  else if l = 0 || fld e 7 2 != 0 || pa % 2 ^ (lvlBits (l - 1) + 3) != 0 then .bad 1
  else .table pa

def pteBytes (s : State) (die pa : Nat) : Word := leWord (s.readKeys (.walker die) .w (paKeys pa 8))

def walkKey (l : Nat) (va : Nat) : Nat := va / 2 ^ lvlShift l

/-- The cached table entry of a level on the path of an address. -/
def State.walkHit (s : State) (die : Nat) (asid : BitVec 16) (l va : Nat) : Option Word :=
  (s.walks.find? (fun w => w.die == die && w.asid == asid && w.lvl == l && w.va == walkKey l va)).map (fun w => w.pte)

def State.walkFill (s : State) (die : Nat) (asid : BitVec 16) (l va : Nat) (e : Word) : State :=
  let r := s.walks.filter (fun w => !(w.die == die && w.asid == asid && w.lvl == l && w.va == walkKey l va))
  { s with walks := r ++ [{ die := die, asid := asid, lvl := l, va := walkKey l va, pte := e }] }

/-- One level of a walk and the levels below it: a cached table entry may be used in place of memory (R371). -/
def State.walk (s : State) (die : Nat) (asid : BitVec 16) (va : Nat) : Nat → Nat → (PteKind × Word × Nat) × State
  | l, tbl =>
    let mem := pteBytes s die (tbl + 8 * (va / 2 ^ lvlShift l % 2 ^ lvlBits l))
    let pick : Word × State :=
      match s.walkHit die asid l va with
      | some c => if c = mem then (mem, s) else
          let d := s.draw 2
          (if d.1 = 0 then mem else c, d.2)
      | none => (mem, s)
    match l, pteKind l pick.1 with
    | l' + 1, .table pa =>
      (pick.2.walkFill die asid l va pick.1).walk die asid va l' pa
    | _, k => ((k, pick.1, l), pick.2)

def State.tlbHit (s : State) (die : Nat) (asid : BitVec 16) (va : Nat) : Option TlbEnt :=
  s.tlb.find? (fun t => t.die == die && t.asid == asid && va / 2 ^ t.lg == t.va / 2 ^ t.lg)

def State.tlbFill (s : State) (t : TlbEnt) : State :=
  { s with tlb := s.tlb.filter (fun u => !(u.die == t.die && u.asid == t.asid &&
      u.va / 2 ^ (Nat.max u.lg t.lg) == t.va / 2 ^ (Nat.max u.lg t.lg))) ++ [t] }

def pkOf (e : Word) : PK :=
  match fld e 7 6 with
  | 1 => .s
  | 2 => .u
  | _ => .r

/-- The permission checks of a leaf, in order (R367). -/
def leafCheck (acc : Acc) (e : Word) (va lg : Nat) : Tr :=
  let pa := fld e 55 8 * 256
  let okp := match acc with
    | .rd => e.getLsbD 2
    | .wr => e.getLsbD 3
    | .fetch => e.getLsbD 4
  if !okp then .perm
  else if acc == .wr && e.getLsbD 5 then .cow
  else .ok (pa + va % 2 ^ lg) (pkOf e) lg

/-- The access is translated. -/
def Tr.isOk : Tr → Bool
  | .ok _ _ _ => true
  | _ => false

/-- The translation of an address on a die for an access: a fresh walk, or a cached entry where one is held (R371). A leaf
that refuses the access is not cached. -/
def State.translate (s : State) (die : Nat) (asid : BitVec 16) (va : VAddr) (acc : Acc) : Tr × State :=
  let v := va.toNat
  let r := s.walk die asid v 3 (s.asidCtx asid).root.toNat
  let fresh : Tr × State :=
    match r.1 with
    | (.leaf _, e, l) =>
      let t := leafCheck acc e v (lvlShift l)
      (t, if t.isOk then
        r.2.tlbFill { die := die, asid := asid, va := v / 2 ^ lvlShift l * 2 ^ lvlShift l, lg := lvlShift l, pte := e }
      else r.2)
    | (.bad n, _, _) => (.trans n, r.2)
    | (.table _, _, _) => (.trans 1, r.2)
  match s.tlbHit die asid v with
  | some t =>
    let c := leafCheck acc t.pte v t.lg
    if c = fresh.1 then (c, s)
    else
      let d := s.draw 2
      if d.1 = 0 then (fresh.1, { fresh.2 with script := d.2.script, free := d.2.free }) else (c, d.2)
  | none => fresh

/-! ### Accesses of several bytes -/

/-- One half of an access: the locations, the kind of their page, and log2 of its size. -/
structure Part where
  va   : VAddr
  keys : List Nat
  pk   : PK
  lg   : Nat
  deriving DecidableEq, Repr

/-- The page that translated a half. -/
def Part.page (p : Part) : Nat × Nat := (p.va.toNat, p.lg)

/-- A half of a load still to be read. -/
def Part.read (p : Part) : ReadPart := { keys := p.keys, pk := p.pk, page := p.page, got := none }

/-- The locations of an access. -/
def partKeys (ps : List Part) : List Nat := ps.flatMap (fun p => p.keys)

/-- The translation of n bytes from va by a translation of one address: the parts of each page in order, or the kinds of
fault with their addresses (R64). -/
def spans (tr : VAddr → State → Tr × State) : Nat → VAddr → Nat → State → List (VAddr × Nat × Tr) × State
  | 0, _, _, s => ([], s)
  | fuel + 1, va, n, s =>
    if n = 0 then ([], s)
    else
      let t := tr va s
      let lg := match t.1 with
        | .ok _ _ lg => lg
        | _ => 16
      let room := 2 ^ lg - va.toNat % 2 ^ lg
      let m := if n < room then n else room
      let rest := spans tr fuel (va + BitVec.ofNat 57 m) (n - m) t.2
      ((va, m, t.1) :: rest.1, rest.2)

/-- A fault that an access meets: cause code of R381, its detail (R382), and for a translation fault its reason. -/
structure AccFault where
  cause  : BitVec 8
  info   : Word
  va     : VAddr
  reason : Nat
  deriving DecidableEq, Repr

/-- R382. -/
def accInfo (acc : Acc) (reason : Nat) (va : VAddr) : Word :=
  let w : Nat := match acc with
    | .wr => 2 ^ 63
    | .fetch => 2 ^ 62
    | .rd => 0
  BitVec.ofNat 64 (w + reason * 2 ^ 60 + va.toNat)

/-- The first half with a translation fault, then with a permission fault, then with a copy-on-write fault (R383). -/
def spanFault (acc : Acc) (l : List (VAddr × Nat × Tr)) : Option AccFault :=
  let tr := l.findSome? (fun x => match x.2.2 with
    | .trans r => some { cause := 0x0A, info := accInfo acc r x.1, va := x.1, reason := r : AccFault }
    | _ => none)
  let pm := l.findSome? (fun x => match x.2.2 with
    | .perm => some { cause := 0x0B, info := accInfo acc 0 x.1, va := x.1, reason := 0 : AccFault }
    | _ => none)
  let cw := l.findSome? (fun x => match x.2.2 with
    | .cow => some { cause := 0x0C, info := accInfo acc 0 x.1, va := x.1, reason := 0 : AccFault }
    | _ => none)
  (tr.orElse (fun _ => pm)).orElse (fun _ => cw)

/-- What the translations of an access come to: its parts, or its fault. -/
def spanned (acc : Acc) (l : List (VAddr × Nat × Tr)) : Except AccFault (List Part) :=
  match spanFault acc l with
  | some f => .error f
  | none => .ok (l.filterMap (fun x => match x.2.2 with
      | .ok pa pk lg => some { va := x.1, keys := paKeys pa x.2.1, pk := pk, lg := lg : Part }
      | _ => none))

/-- The parts of an access, or its fault. -/
def State.access (s : State) (die : Nat) (asid : BitVec 16) (acc : Acc) (va : VAddr) (n : Nat) :
    Except AccFault (List Part) × State :=
  let r := spans (fun v s => s.translate die asid v acc) (n / 65536 + 2) va n s
  (spanned acc r.1, r.2)

/-- An access by cached translations alone, where they are all held: it walks nothing (R371). -/
def State.cachedAccess (s : State) (die : Nat) (asid : BitVec 16) (acc : Acc) (va : VAddr) (n : Nat) :
    Option (Except AccFault (List Part)) :=
  let miss : Tr := .trans 2
  let l := (spans (fun v s => (match s.tlbHit die asid v.toNat with
    | some t => leafCheck acc t.pte v.toNat t.lg
    | none => miss, s)) (n / 65536 + 2) va n s).1
  if l.any (fun x => x.2.2 == miss) then none else some (spanned acc l)

/-- The home scope of a word by the region of its physical address (R331). -/
def homeScope (pa : Nat) : Nat :=
  match pa / 2 ^ 52 with
  | 1 => 6
  | 4 => 7
  | _ => 5

/-- The module that a physical address lies on, when it is another one (R368). -/
def remoteModule (pa : Nat) : Option (BitVec 8) :=
  if pa / 2 ^ 52 = 4 then some (BitVec.ofNat 8 (pa / 2 ^ 44 % 256)) else none

end Sys2Proof.Machine
end

