-- ==== Sys2Proof/Machine/Atoms.lean ====
section
/-! DEFINITION. Atomics and queue steps, the drain of a path-buffer entry, releases, acquire flushes and wakes
(spec/04_ordering_machine.md R54, R57, R68 to R74, spec/17_memory_path.md R282 to R295). -/

namespace Sys2Proof.Machine

/-! ### Functions of atomics -/

/-- Bits of an atomic's width (R279). -/
def awBitsOf : AW → Nat
  | .w => 32
  | .d => 64

def awBytes : AW → Nat
  | .w => 4
  | .d => 8

/-- f(old, b) of R282 on numbers of w bits. -/
def amoFun (op : AOpc) (w old b : Nat) : Nat :=
  let b := b % 2 ^ w
  match op with
  | .add => (old + b) % 2 ^ w
  | .and => old &&& b
  | .or => old ||| b
  | .xor => old ^^^ b
  | .swap => b
  | .min => if sval w b < sval w old then b else old
  | .max => if sval w old < sval w b then b else old
  | .minu => if b < old then b else old
  | .maxu => if old < b then b else old
  | .fadd => fFP32.round Rc.rne 0 false (Rv.add .rne (fFP32.dec old) (fFP32.dec b))
  | .fmin => fFP32.round Rc.rne 0 false (Rv.min (fFP32.dec old) (fFP32.dec b))
  | .fmax => fFP32.round Rc.rne 0 false (Rv.max (fFP32.dec old) (fFP32.dec b))

/-- Whether a faddw from old by b reaches the threshold (R288); an update whose stored value has wrapped does not
(DEDUCED, notes/assumptions/53.md). -/
def faddwReaches (w old b thr : Nat) : Bool :=
  let t := thr % 2 ^ w
  let sum := (old : Int) + sval w b
  decide (old < t) && decide ((t : Int) ≤ sum) && decide (sum < 2 ^ w)

/-! ### Wakes -/

/-- Every waiter registered on a word is woken (R289). -/
def State.wakeAll (s : State) (key : Nat) : State :=
  { s with waiters := s.waiters.map (fun x => if x.key == key && x.full.isNone then { x with woken := true } else x) }

/-! ### One step at a scope -/

/-- R57 with a function of the old bytes; no new bytes, no write. The old bytes come first. -/
def State.atomicAt (s : State) (ag : Agent) (cl : Cls) (lvl : Nat) (keys : List Nat) (pk : PK)
    (f : List Byte → Option (List Byte)) : List Byte × State :=
  let ch := s.chain ag cl
  let s1 := s.pushBelow lvl ch
  let old := keys.map (fun k => s1.readChain k (chainFrom lvl ch))
  match f old with
  | none => (old, s1)
  | some new =>
    (old, (s1.append (storeAt lvl ch) { seq := s1.seq, pk := pk, cells := keyCells keys new }).tickSeq)

/-- Results reach the outputs of their word in order (R116, R141). -/
def fillOuts : List Out → List Val → List Out
  | o :: os, v :: vs => { o with val := some v } :: fillOuts os vs
  | os, _ => os

/-- The results that a performed operation delivers to the word with a serial number. -/
def State.deliverTo (s : State) (pid qc : Nat) (st : Stream) (sq : Nat) (vals : List Val) : State :=
  s.updStream pid qc st (fun t =>
    { t with pend := t.pend.map (fun p =>
        if p.req == .entry && p.seq == sq then { p with outs := fillOuts p.outs vals, req := .none } else p) })

def State.deliver (s : State) (pid qc sq : Nat) (vals : List Word) : State :=
  s.deliverTo pid qc .acc sq (vals.map Val.w)

/-! ### Queue steps -/

/-- What a queue step finds (R292 to R294). -/
structure QRes where
  code : Nat
  val  : Word
  head : Word
  tail : Word
  foot : List Nat                       -- the locations that it has found, and S where one lies on an S page
  pk   : PK
  deriving DecidableEq, Repr

/-- The kind under which a step on several pages is ordered: S where one of them is S, else R (R61, R63). -/
def partsPk (ps : List Part) : PK := if ps.any (fun p => p.pk == .s) then .s else .r

/-- The parts of an access on one page or two, or nothing when it faults. -/
def State.quietParts (s : State) (die : Nat) (asid : BitVec 16) (acc : Acc) (va : VAddr) (n : Nat) :
    Option (List Part) × State :=
  let r := s.access die asid acc va n
  match r.1 with
  | .ok ps => (some ps, r.2)
  | .error _ => (none, r.2)

/-- The die whose walkers serve an agent. -/
def agDie : Agent → Nat
  | .core lc => dieOf lc
  | .base d => d
  | .walker d => d
  | _ => 0

/-- The address space of an access as its agent's pass was placed with it (R369). -/
def State.ctxOf (s : State) (ag : Agent) (asid : BitVec 16) : AsidCtx :=
  match ag with
  | .core lc => (match s.holder lc with
      | some (p, _) => p.ctx
      | none => s.asidCtx asid)
  | _ => s.asidCtx asid

/-- A slot of the handle table, read at a level of the agent's chain (R291, R292). -/
def State.handleSlot (s : State) (ag : Agent) (asid : BitVec 16) (lvl : Nat) (h : Word) :
    Option (List Part × Word × Word) × State :=
  let c := s.ctxOf ag asid
  let slot := fld h 19 0
  if slot = 0 || c.htl.toNat ≤ slot then (none, s)
  else
    let r := s.quietParts (agDie ag) asid .rd (c.htb + BitVec.ofNat 57 (16 * slot)) 16
    match r.1 with
    | none => (none, r.2)
    | some ps =>
      let bs := r.2.readFrom ag .s lvl (partKeys ps)
      (some (ps, leWord (bs.take 8), leWord (bs.drop 8)), r.2)

/-- A core's run consumes poison that its locations hold (R388). -/
def State.consumeAt (s : State) (ag : Agent) (ks : List Nat) : State :=
  match ag with
  | .core lc =>
    match s.holder lc with
    | some (p, _) => s.consume p.pid lc 0 (s.badKeys ag .s ks)
    | none => s
  | _ => s

/-- The logical core that an agent's faults are reported for. -/
def agCore : Agent → Nat
  | .core lc => lc
  | .base d => d * 8
  | .walker d => d * 8
  | _ => 0

/-- The agent is a core of another module, whose request has come to its home. -/
def isRemote : Agent → Bool
  | .remote _ => true
  | _ => false

/-- A queue step that the module named by HOME performs: what it finds there is free (R292, R297; notes/assumptions/34.md). -/
def State.awayStep (s : State) (enq : Option Word) (ps : List Part) : QRes × State :=
  let w (i : Nat) : Word := Config.remoteQueue s.free i
  let code := fld (w 0) 1 0
  ({ code := code, val := if enq.isNone && code = 0 then w 1 else 0, head := w 2, tail := w 3, foot := partKeys ps,
     pk := partsPk ps }, { s with free := s.free + 1 })

/-- The queue step of R294 on a control block that lies here. -/
def State.blockStep (s : State) (ag : Agent) (asid : BitVec 16) (lvl : Nat) (sp : List Part) (blk : VAddr)
    (enq : Option Word) : QRes × State :=
  let die := agDie ag
  let stop (ps : List Part) (s : State) : QRes × State :=
    ({ code := 3, val := 0, head := 0, tail := 0, foot := partKeys ps, pk := partsPk ps }, s.report (.queueHome (agCore ag)))
  let r := s.quietParts die asid .wr blk 64
  match r.1 with
  | none => stop sp r.2
  | some bp =>
    let bk := partKeys bp
    let ch := r.2.chain ag .s
    let s1 := (r.2.pushBelow lvl ch).consumeAt ag bk
    let bs := bk.map (fun k => s1.readChain k (chainFrom lvl ch))
    let dw (i : Nat) : Word := leWord ((bs.drop (8 * i)).take 8)
    let head := dw 0
    let tail := dw 1
    let lcap := fld (dw 3) 4 0
    let ring := va57 (dw 2)
    let fill := (tail - head).toNat
    if blk.toNat % 64 != 0 || fld (dw 2) 63 57 != 0 || ring.toNat % 8 != 0 || fld (dw 3) 63 5 != 0 ||
        lcap = 0 || decide (16 < lcap) || dw 4 != 0 || dw 5 != 0 || dw 6 != 0 || dw 7 != 0 ||
        decide (2 ^ lcap < fill) then stop (sp ++ bp) r.2
    else
      let idx := (if enq.isSome then tail else head).toNat % 2 ^ lcap
      let q := s1.quietParts die asid .wr (ring + BitVec.ofNat 57 (8 * idx)) 8
      match q.1 with
      | none => stop (sp ++ bp) r.2
      | some rp =>
        let rk := partKeys rp
        let ps := sp ++ bp ++ rp
        let res (code : Nat) (val : Word) : QRes :=
          { code := code, val := val, head := head, tail := tail, foot := partKeys ps, pk := partsPk ps }
        let put (cells : List Host.Cell) (s : State) : State :=
          (s.append (storeAt lvl ch) { seq := s.seq, pk := partsPk (bp ++ rp), cells := cells }).tickSeq
        match enq with
        | some b =>
          if fill = 2 ^ lcap then (res 1 0, q.2)
          else (res 0 0, put (keyCells rk (wordLe 8 b) ++ keyCells ((bk.drop 8).take 8) (wordLe 8 (tail + 1))) q.2)
        | none =>
          if fill = 0 then (res 1 0, q.2)
          else (res 0 (leWord (rk.map (fun k => q.2.readChain k (chainFrom lvl ch)))),
                put (keyCells (bk.take 8) (wordLe 8 (head + 1))) (q.2.consumeAt ag rk))

/-- The queue step of R294 at a level by an agent: enqueue of a value, or dequeue. The handle is resolved on the issuing
module, then at its home, which tests the generation first; a request of another module has had the first of the two steps
there (R292). -/
def State.queueStep (s : State) (ag : Agent) (asid : BitVec 16) (lvl : Nat) (h : Word) (enq : Option Word) :
    QRes × State :=
  let stop (n : Nat) (ps : List Part) : QRes :=
    { code := n, val := 0, head := 0, tail := 0, foot := partKeys ps, pk := partsPk ps }
  let hs := s.handleSlot ag asid lvl h
  match hs.1 with
  | none => (stop 3 [], hs.2)
  | some (sp, w0, w1) =>
    if !isRemote ag && (fld w0 63 57 != 0 || fld w1 49 21 != 0 || fld w1 51 50 != 1) then (stop 3 sp, hs.2)
    else if !isRemote ag && fld w1 20 0 != Config.moduleId.toNat then
      (hs.2.pushBelow lvl (hs.2.chain ag .s)).awayStep enq sp
    else if fld w1 63 52 != fld h 31 20 then (stop 2 sp, hs.2)
    else if fld w1 51 50 != 1 then (stop 3 sp, hs.2)
    else hs.2.blockStep ag asid lvl sp (va57 w0) enq

/-! ### Loads in flight -/

/-- Two lists of locations meet. -/
def meet (a b : List Nat) : Bool := a.any b.contains

/-- The parts of loads that a write about to drain must follow: those older than it at its locations, and, where such a
part lies on an S page, the older parts on S pages (R58, R61). -/
def ReadPart.mustPrecede (ks : List Nat) (sPage : Bool) (r : ReadPart) : Bool :=
  r.got.isNone && (meet r.keys ks || (sPage && r.pk == .s))

def loadParts (p : Pend) : List ReadPart :=
  match p.req with
  | .load parts _ _ _ => parts
  | _ => []

/-- Performs the parts of a load that a test selects (R56, R424). -/
def State.readParts (s : State) (ag : Agent) (sel : ReadPart → Bool) (p : Pend) : Pend :=
  match p.req with
  | .load parts sz sx o =>
    { p with req := .load (parts.map (fun r =>
        if sel r then { r with got := some (r.keys.map (s.readBefore ag .s p.seq)) } else r)) sz sx o }
  | _ => p

/-- The loads that a write of path s must follow are performed (R58; notes/assumptions/15.md). -/
def State.forceLoads (s : State) (lc : Nat) (sq : Nat) (ks : List Nat) : State :=
  match s.holder lc with
  | none => s
  | some (p, i) =>
    match p.cores[i]? with
    | none => s
    | some c =>
      let old := c.acc.pend.filter (fun q => decide (q.seq < sq))
      let sPage := old.any (fun q => (loadParts q).any (fun r => r.got.isNone && r.pk == .s && meet r.keys ks))
      if old.any (fun q => (loadParts q).any (fun r => r.got.isNone && meet r.keys ks)) then
        let bad := s.badKeys (.core lc) .s (old.flatMap (fun q =>
          ((loadParts q).filter (ReadPart.mustPrecede ks sPage)).flatMap (fun r => r.keys)))
        (s.consume p.pid lc 0 bad).updStream p.pid i .acc (fun t => { t with pend := t.pend.map (fun q =>
          if q.seq < sq then s.readParts (.core lc) (ReadPart.mustPrecede ks sPage) q else q) })
      else s

/-! ### Draining -/

/-- The scope at which an entry is performed: of its annotation, else of its atomic field (R280). -/
def Entry.scope (e : Entry) : Nat := if e.ord.kind == .none then e.asc.toNat else e.ord.scope.toNat

/-- The locations of an entry and the kind that orders it; those of a queue step are found through its handle (R58, R61,
R292). -/
def State.entFoot (s : State) (ag : Agent) (e : Entry) : List Nat × PK :=
  let q (b : Option Word) : List Nat × PK :=
    let r := (s.queueStep ag (BitVec.ofNat 16 e.hist) (s.scopeLvl ag e.scope) (w64 e.key) b).1
    (r.foot, r.pk)
  match e.act with
  | .enq b => q (some b)
  | .deq => q none
  | _ => (e.wr.cells.map (fun c => c.1), e.wr.pk)

/-- An atomic entry is performed at a level (R57, R282, R283, R288, R294); on a U page its write keeps R58 (R63). -/
def State.perform (s : State) (lc : Nat) (ag : Agent) (cl : Cls) (lvl : Nat) (e : Entry) : State :=
  let keys := e.wr.cells.map (fun c => c.1)
  let pk := if e.wr.pk == .u then .r else e.wr.pk
  let s := if e.act == .write then s else s.consume e.pid lc 0 (s.badKeys ag cl keys)
  match e.act with
  | .write => s.append (storeAt lvl (s.chain ag cl)) e.wr
  | .amo op wd b =>
    let r := s.atomicAt ag cl lvl keys pk (fun o =>
      some (natLe (awBytes wd) (amoFun op (awBitsOf wd) (leNat o) b.toNat)))
    r.2.deliver e.pid e.qc e.seq [leWord r.1]
  | .cas wd want b =>
    let r := s.atomicAt ag cl lvl keys pk (fun o =>
      if leNat o = want.toNat % 2 ^ awBitsOf wd then some (natLe (awBytes wd) b.toNat) else none)
    let done := leNat r.1 = want.toNat % 2 ^ awBitsOf wd
    (if done then r.2 else s).deliver e.pid e.qc e.seq [leWord r.1]
  | .faddw wd b thr =>
    let w := awBitsOf wd
    let r := s.atomicAt ag cl lvl keys pk (fun o => some (natLe (awBytes wd) (amoFun .add w (leNat o) b.toNat)))
    let s2 := r.2.deliver e.pid e.qc e.seq [leWord r.1]
    if faddwReaches w (leNat r.1) b.toNat thr.toNat then s2.wakeAll (keys.headD 0) else s2
  | .enq b =>
    let r := s.queueStep (.core lc) (BitVec.ofNat 16 e.hist) lvl (w64 e.key) (some b)
    r.2.deliver e.pid e.qc e.seq [w64 r.1.code]
  | .deq =>
    let r := s.queueStep (.core lc) (BitVec.ofNat 16 e.hist) lvl (w64 e.key) none
    r.2.deliver e.pid e.qc e.seq [w64 r.1.code, r.1.val]

/-- One entry leaves its buffer; what its release must follow has drained (R54, R68). -/
def State.drainOne (s : State) (ag : Agent) (cl : Cls) (e : Entry) : State :=
  let s := (match ag, cl with
    | .core lc, .s => s.forceLoads lc e.seq (s.entFoot ag e).1
    | _, _ => s).rmEntry ag cl e.seq
  let lvl := s.scopeLvl ag e.scope
  let s := if isRel e.ord then s.pushSet ag (pathSet e.ord.paths cl) lvl else s
  match e.act with
  | .write => if isRel e.ord then s.append (storeAt lvl (s.chain ag cl)) e.wr
      else s.append (s.chain ag cl).head? e.wr
  | _ => s.perform (agCore ag) ag cl lvl e

/-- The acquires at which a flush stops: loads not complete, and those that name classes still awaited (R69, R71). -/
def State.loadBarriers (s : State) (ag : Agent) : List (Nat × BitVec 8) :=
  match ag with
  | .core lc =>
    match s.holder lc with
    | some (p, i) =>
      match p.cores[i]? with
      | some c => pendAcqs c.acc.pend ++ (entAcqs (bufOf s.bufs ag .s) .s).filter (s.acqHolds c) ++ s.heldAcqs c
      | none => []
    | none => []
  | _ => []

/-- An acquire that names delegated classes goes on holding later accesses while there is something to wait for (R71). -/
def State.noteAcq (s : State) (pid qc sq : Nat) (ps : BitVec 8) : State :=
  if inSet ps .a || inSet ps .g || inSet ps .w then
    s.updCore pid qc (fun c => if s.acqHolds c (sq, ps) then { c with acqs := c.acqs ++ [⟨sq, ps, none⟩] } else c)
  else s

/-- An entry that a flush meets is held by an acquire at which flushes stop. -/
def stopsAt (bars : List (Nat × BitVec 8)) (x : Cls × Entry) : Bool :=
  bars.any (fun b => decide (b.1 < x.2.po) && inSet b.2 x.1)

/-- The entries that the flush of a set of classes drains, oldest first; those that an acquire still holds stay. -/
def State.flushList (s : State) (ag : Agent) (ps : BitVec 8) : List (Cls × Entry) :=
  let bars := s.loadBarriers ag
  flushNeeds ps [] ((s.agEntries ag).filter (fun x => !stopsAt bars x)).reverse

/-- The flush of an acquire must drain an entry that an acquire before it holds, and waits for that one (R69). -/
def State.flushHeld (s : State) (ag : Agent) (ps : BitVec 8) (sq : Nat) : Bool :=
  let bars := (s.loadBarriers ag).filter (fun b => decide (b.1 < sq))
  (flushNeeds ps [] (s.agEntries ag).reverse).any (stopsAt bars)

/-- Entries drain in order. -/
def State.drainOnes (s : State) (ag : Agent) (es : List (Cls × Entry)) : State :=
  es.foldl (fun s x => s.drainOne ag x.1 x.2) s

/-- The flush of an acquire waits for an earlier acquire. -/
def State.waitFlush (s : State) (pid qc sq : Nat) (ps : BitVec 8) (lvl : Nat) : State :=
  s.updCore pid qc (fun c => { c with acqs := c.acqs ++ [⟨sq, ps, some lvl⟩] })

/-- Entries drain in order, and the flush of each acquire among them follows its step at once (R69, R70). The number bounds
how deep flushes stand in one another. -/
def State.drainList : Nat → State → Agent → List (Cls × Entry) → State
  | 0, s, _, _ => s
  | k + 1, s, ag, es =>
    es.foldl (fun s x =>
      if !(bufOf s.bufs ag x.1).any (fun e => e.seq == x.2.seq) || stopsAt (s.loadBarriers ag) x then s
      else
        let s1 := s.drainOne ag x.1 x.2
        if x.2.acquires then
          let ps := pathSet x.2.ord.paths x.1
          let lvl := s1.scopeLvl ag x.2.ord.scope.toNat
          let s2 := s1.noteAcq x.2.pid x.2.qc x.2.seq ps
          if s2.flushHeld ag ps x.2.seq then s1.waitFlush x.2.pid x.2.qc x.2.seq ps lvl
          else (State.drainList k s2 ag (s2.flushList ag ps)).pushSet ag ps lvl
        else s1) s

/-- The acquire flush of R69 step 2: entries present in the buffers of a set of classes drain, oldest first, and every write
below the level on their chains propagates to its store. -/
def State.flush (s : State) (ag : Agent) (ps : BitVec 8) (lvl : Nat) : State :=
  (State.drainList ((s.agEntries ag).length + 1) s ag (s.flushList ag ps)).pushSet ag ps lvl

/-- An acquire whose read or step has been performed (R69, R71). -/
def State.acquire (s : State) (ag : Agent) (pid qc sq : Nat) (ps : BitVec 8) (lvl : Nat) : State :=
  let s1 := s.noteAcq pid qc sq ps
  if s1.flushHeld ag ps sq then s.waitFlush pid qc sq ps lvl else s1.flush ag ps lvl

/-- The entries older than a serial number that a release with a path set must follow (R68); the other half of its access is
none of them (R64). -/
def State.relNeeds (s : State) (ag : Agent) (ps : BitVec 8) (sq : Nat) (half : Option Nat := none) : List (Cls × Entry) :=
  flushNeeds ps [] ((s.agEntries ag).filter (fun x =>
    decide (x.2.seq < sq) && !(half.isSome && x.2.wr.half == half))).reverse

/-- A release is held by an acquire that it, or an entry that it must follow, comes after or is (R68, R69). -/
def State.relBarred (s : State) (ag : Agent) (cl : Cls) (ps : BitVec 8) (sq : Nat) (half : Option Nat := none) : Bool :=
  let needs := s.relNeeds ag ps sq half
  s.barred ag cl sq || needs.any (fun x => x.2.acquires || s.barred ag x.1 x.2.po)

/-- A word performs a release before its step: what stands before it drains and propagates to the level (R68). -/
def State.releaseNow (s : State) (ag : Agent) (ps : BitVec 8) (lvl : Nat) : State :=
  (s.drainOnes ag (s.relNeeds ag ps s.seq)).pushSet ag ps lvl

/-- The releases of an agent that name a class, are older than a serial number and have not drained. -/
def State.relsNaming (s : State) (ag : Agent) (cl : Cls) (sq : Nat) : List (Cls × Entry) :=
  (s.agEntries ag).filter (fun x => isRel x.2.ord && inSet x.2.ord.paths cl && decide (x.2.seq < sq))

/-- A queue step walks: an address that it translates is not cached, or does not translate (R371). -/
def State.stepWalks (s : State) (ag : Agent) (e : Entry) : Bool :=
  let r (b : Option Word) : Bool :=
    let q := s.queueStep ag (BitVec.ofNat 16 e.hist) (s.scopeLvl ag e.scope) (w64 e.key) b
    q.1.code == 3 || q.2.tlb != s.tlb || q.2.walks != s.walks
  match e.act with
  | .enq b => r (some b)
  | .deq => r none
  | _ => false

/-- A queue step that walks follows the agent's earlier releases that name w (R71). -/
def State.walksEarly (s : State) (ag : Agent) (e : Entry) : Bool :=
  !(s.relsNaming ag .w e.seq).isEmpty && s.stepWalks ag e

/-- An entry may drain: page-kind order and per-location order within its buffer, and acquires before it (R58, R61 to R64,
R69). -/
def State.mayDrain (s : State) (ag : Agent) (cl : Cls) (e : Entry) : Bool :=
  let older := (bufOf s.bufs ag cl).takeWhile (fun x => x.seq != e.seq)
  let f := s.entFoot ag e
  let free (x : Entry) : Bool := e.wr.pk == .u && x.wr.pk == .u && e.act == .write && x.act == .write
  let same := older.any (fun x => meet (s.entFoot ag x).1 f.1 && !free x)
  let sOrd := f.2 == .s && older.any (fun x => (s.entFoot ag x).2 == .s && !x.wr.twin e.wr)
  !s.walksEarly ag e && (if isRel e.ord then !s.relBarred ag cl (pathSet e.ord.paths cl) e.seq e.wr.half
  else !same && !sOrd && !s.barred ag cl e.po)

/-- A read on path s of a core may be performed: acquires before it, atomics and reads before it at its locations, and the
order of S pages (R58, R61, R69). -/
def State.mayRead (s : State) (lc sq : Nat) (keys : List Nat) (pk : PK) (pend : List Pend) : Bool :=
  let ag := Agent.core lc
  let buf := (bufOf s.bufs ag .s).filter (fun e => decide (e.seq < sq))
  let older := (pend.filter (fun p => decide (p.seq < sq))).flatMap loadParts
  !s.barred ag .s sq &&
  !buf.any (fun e => e.act != .write && meet keys (s.entFoot ag e).1) &&
  (pk == .u || !older.any (fun r => r.got.isNone && meet r.keys keys)) &&
  (pk != .s || (!older.any (fun r => r.got.isNone && r.pk == .s) && !buf.any (fun e => (s.entFoot ag e).2 == .s)))

/-- The flush of an acquire runs that has waited for an earlier one. -/
def State.lateFlush (s : State) (pid qc : Nat) (c : CoreSt) (a : Acq) : State :=
  let ag := Agent.core c.lcore
  match a.flush with
  | none => s
  | some lvl =>
    if s.flushHeld ag a.ps a.seq then s
    else (s.updCore pid qc (fun c => { c with acqs := c.acqs.map (fun b =>
        if b.seq == a.seq then { b with flush := none } else b) })).flush ag a.ps lvl

/-- Flushes that nothing holds any more run, oldest acquire first, and acquires of a core that hold nothing any more are over
(R69, R71). -/
def State.dropAcqs (s : State) : State :=
  let s := s.passes.foldl (fun s p => (List.range p.cores.length).foldl (fun s i => match p.cores[i]? with
    | some c => c.acqs.foldl (fun s a => s.lateFlush p.pid i c a) s
    | none => s) s) s
  { s with passes := s.passes.map (fun p => { p with cores := p.cores.map (fun c =>
      { c with acqs := c.acqs.filter (fun a => a.flush.isSome || s.acqHolds c (a.seq, a.ps)) }) }) }

/-- An entry drains with all that its annotation asks (R68 to R70). -/
def State.drain (s : State) (ag : Agent) (cl : Cls) (e : Entry) : State :=
  let ps := pathSet e.ord.paths cl
  let s := if isRel e.ord then s.drainOnes ag (s.relNeeds ag ps e.seq e.wr.half) else s
  let s := s.drainOne ag cl e
  if e.acquires then s.acquire ag e.pid e.qc e.seq ps (s.scopeLvl ag e.ord.scope.toNat) else s

/-- On an S page a read of a path follows the earlier writes of the path on S pages, which drain first (R61); on the path of an
engine the order is that of the accesses as its commands make them (DEDUCED, notes/assumptions/67.md). -/
def State.drainS (s : State) (ag : Agent) (cl : Cls) (ps : List Part) : State :=
  if ps.any (fun p => p.pk == .s) then
    ((bufOf s.bufs ag cl).filter (fun e => e.wr.pk == .s && !s.barred ag cl e.po)).foldl (fun s e => s.drain ag cl e) s
  else s

/-! ### Releases that name a delegated class (R71) -/

/-- A release that names walks is held by an acquire, so that a later walk waits. -/
def State.walkHeld (s : State) (ag : Agent) (sq : Nat) : Bool :=
  (s.relsNaming ag .w sq).any (fun x => s.relBarred ag x.1 (pathSet x.2.ord.paths x.1) x.2.seq)

def sameAccess : Except AccFault (List Part) → Except AccFault (List Part) → Bool
  | .ok a, .ok b => a == b
  | .error a, .error b => a == b
  | _, _ => false

/-- An access of a core: a walk that it makes comes after its earlier releases that name w have drained (R71, R75); an access
that cached translations explain makes none. What issues it waits while an acquire holds such a release. -/
def State.accessAs (s : State) (ag : Agent) (sq : Nat) (die : Nat) (asid : BitVec 16) (acc : Acc) (va : VAddr) (n : Nat) :
    Except AccFault (List Part) × State :=
  let r := s.access die asid acc va n
  let rels := s.relsNaming ag .w sq
  if rels.isEmpty || s.walkHeld ag sq || (s.cachedAccess die asid acc va n).any (sameAccess r.1) then r
  else (rels.foldl (fun s x => s.drain ag x.1 x.2) s).access die asid acc va n

/-! ### Draining what a core leaves behind -/

/-- Every entry of an agent's buffers drains (R52). -/
def State.drainAll (s : State) (ag : Agent) : State := s.drainOnes ag (s.agEntries ag)

/-- Writes of the base dies drain and propagate to a level (R38). -/
def State.baseFlush (s : State) (lvl : Nat) : State :=
  (List.range 8).foldl (fun s d =>
    let s := s.drainAll (.base d)
    (s.pushBelow lvl (s.chain (.base d) .a)).pushBelow lvl (s.chain (.base d) .g)) s

/-- A release of the launch engine over every class: the writes that the dies hold reach the level (R38). -/
def State.leRelease (s : State) (lvl : Nat) : State :=
  (List.range 8).foldl (fun s d => s.pushBelow lvl (.die d :: upperChain)) (s.baseFlush lvl)

end Sys2Proof.Machine
end

