-- ==== Sys2Proof/Machine/Signals.lean ====
section
/-! DEFINITION. Signals: descriptors, due tests, taps, slots and pins (spec/10_signals.md), backing ranges, and the KV pages
and frame pools of spec/22_stack_attention.md R344 to R346. -/

namespace Sys2Proof.Machine

/-! ### Descriptors -/

/-- Bytes of a row and of a sample (R169). -/
def SigDesc.rowBytes (d : SigDesc) : Nat := d.rw * 256
def SigDesc.size (d : SigDesc) : Nat := d.rows * d.rw * 256
def SigDesc.segs (d : SigDesc) : Nat := d.rows * d.rw

/-- Tiers (R169). -/
def SigDesc.isLs (d : SigDesc) : Bool := d.tier == 0
def SigDesc.isDepot (d : SigDesc) : Bool := d.tier == 1
def SigDesc.isHbm (d : SigDesc) : Bool := d.tier == 2
def SigDesc.backed (d : SigDesc) : Bool := d.tier == 2 || d.tier == 3

/-- Element width of the format of a signal in bytes (R77). -/
def elemBytes (fmt : BitVec 4) : Nat :=
  match fmt.toNat with
  | 0 => 4
  | 6 => 4
  | 1 => 2
  | 2 => 2
  | _ => 1

/-- The descriptor of four doublewords (R169). -/
def parseDesc (w0 w1 w2 w3 : Word) : SigDesc :=
  { tier := BitVec.ofNat 2 (fld w0 63 62), home := fld w0 61 56, fmt := BitVec.ofNat 4 (fld w0 55 52),
    rows := fld w0 51 47 + 1, rw := fld w0 46 44 + 1, gm := BitVec.ofNat 2 (fld w0 43 42), g0 := w0.getLsbD 41,
    keep := w0.getLsbD 40, depth := fld w0 24 0, base := va57 w1, fw := fld w2 56 32,
    fill := BitVec.ofNat 32 (fld w2 31 0), period := fld w3 28 16, phase := fld w3 11 0 }

/-- The per-signal rules of R169 and R170, for a quire of qc × qd. -/
def descOk (qc qd : Nat) (w0 w1 w2 w3 : Word) : Bool :=
  let d := parseDesc w0 w1 w2 w3
  let w := elemBytes d.fmt * 8
  fld w0 39 25 == 0 && fld w1 63 57 == 0 && fld w2 63 57 == 0 && fld w3 63 29 == 0 && fld w3 15 12 == 0 &&
  d.gm != 3 && decide (d.fmt.toNat < 7) && (d.gm != 0 || !d.g0) &&
  (if d.isLs then decide (d.home < qc * qd) else if d.isDepot then decide (d.home < qd) else d.home == 0) &&
  (if d.backed then d.base != 0 && d.base.toNat % 256 == 0 && decide (1 ≤ d.depth) && decide (d.depth ≤ 2 ^ 24)
   else d.base == 0 && decide (1 ≤ d.depth) && decide (d.depth ≤ 65535)) &&
  decide (d.fw ≤ d.depth) && d.fill.toNat / 2 ^ w == 0 &&
  decide (1 ≤ d.period) && decide (d.period ≤ 4096) && decide (d.phase < d.period)

/-- Footprint of a signal in its tier (R170). -/
def SigDesc.foot (d : SigDesc) : Nat := d.depth * d.size

/-- The due test with a gate bit (R172). -/
def sigDue (d : SigDesc) (g : Bool) (k : Nat) : Bool :=
  decide (d.phase ≤ k) && (k - d.phase) % d.period == 0 && (d.gm == 0 || g)

def freshSlot (d : SigDesc) (n : Nat) : Slot :=
  { num := n, st := .empty, segs := 0, wp := 0, rp := 0, data := [], touched := !d.backed, back := false }

/-- A signal at the start of a pass (R172, R173). The gate of a one-shot signal that is due in interval 0 stays open: no tick
completion made it due (DESIGN CHOICE, notes/assumptions/72.md). -/
def initSig (d : SigDesc) : Sig :=
  let due := sigDue d d.g0 0
  { desc := d, live := true, n := if due then 0 else -1, o := 0, g := d.g0, due := due,
    slots := if due then [freshSlot d 0] else [], rest := false }

/-! ### Signals of a pass -/

/-- A declared signal that has not been dropped (R178, R188). -/
def Pass.sig? (p : Pass) (i : Nat) : Option Sig :=
  match mget none p.sigs i with
  | some g => if g.live then some g else none
  | none => none

def Pass.updSig (p : Pass) (i : Nat) (f : Sig → Sig) : Pass :=
  match mget none p.sigs i with
  | some g => { p with sigs := mset none p.sigs i (some (f g)) }
  | none => p

def State.updSig (s : State) (pid i : Nat) (f : Sig → Sig) : State := s.updPass pid (fun p => p.updSig i f)

def Sig.slot? (g : Sig) (n : Nat) : Option Slot := g.slots.find? (fun t => t.num == n)

def Sig.updSlot (g : Sig) (n : Nat) (f : Slot → Slot) : Sig :=
  { g with slots := g.slots.map (fun t => if t.num == n then f t else t) }

/-- The detail of a tap fault (R382). -/
def tapInfo (sig lag row : Nat) : Word := w64 (lag % 2 ^ 24 * 2 ^ 24 + row % 32 * 2 ^ 17 + sig * 2 ^ 8)

/-- Resolution of a tap against the current n (R173, R178): the cause of a fault, or the sample. -/
def Pass.resolve (p : Pass) (sig lag row : Nat) : Except (BitVec 8 × Word) RTap :=
  match p.sig? sig with
  | none => .error (0x12, tapInfo sig lag row)
  | some g =>
    if g.desc.rows ≤ row then .error (0x13, tapInfo sig lag row)
    else
      let m : Int := g.n - lag
      if g.desc.depth ≤ lag || decide (m < -(g.desc.fw : Int)) || (decide (0 ≤ m) && decide (m < g.o)) then
        .error (0x14, tapInfo sig lag row)
      else .ok { sig := sig, num := m, row := row, fill := (g.desc.fmt, g.desc.fill) }

/-- The lag-0 slot takes writes: the signal is due, and the slot is empty or filling (R177). -/
def Sig.takesWrites (g : Sig) : Bool :=
  g.due && !g.rest && (match g.slot? g.n.toNat with
    | some q => q.st == .empty || q.st == .filling
    | none => false)

/-- Resolution of a tap that a word writes (R177). A write that names lag 0 raises only the slot-write fault; one that names an
overrunning lag raises the lag-overrun fault (DEDUCED, notes/assumptions/55.md). -/
def Pass.resolveW (p : Pass) (sig lag row : Nat) : Except (BitVec 8 × Word) RTap :=
  match p.sig? sig with
  | none => .error (0x12, tapInfo sig lag row)
  | some g =>
    if g.desc.rows ≤ row then .error (0x13, tapInfo sig lag row)
    else if lag = 0 then
      if g.takesWrites then .ok { sig := sig, num := g.n, row := row } else .error (0x15, tapInfo sig lag row)
    else
      match p.resolve sig lag row with
      | .error e => .error e
      | .ok _ => .error (0x15, tapInfo sig lag row)

/-- The state that a tap finds: a fill sample, or its slot. -/
inductive TapAt
  | fill
  | slot (t : Slot)
  | gone
  deriving DecidableEq, Repr

def Pass.tapAt (p : Pass) (t : RTap) : TapAt :=
  if t.num < 0 then .fill
  else
    match p.sig? t.sig with
    | some g =>
      match g.slot? t.num.toNat with
      | some q => .slot q
      | none => .gone
    | none => .gone

/-- A word that reads the tap may issue (R175); `restoring` slots are draining (R205). -/
def Pass.tapReady (p : Pass) (t : RTap) : Bool :=
  match p.tapAt t with
  | .fill => true
  | .slot q => q.st == .ready && (match p.sig? t.sig with
      | some g => !g.rest
      | none => true)
  | .gone => match p.sig? t.sig with
      | some g => !g.rest
      | none => true

/-- n bytes from an offset of FILL repeated at the width of a format (R173). -/
def fillBytes (fmt : BitVec 4) (x : BitVec 32) (off n : Nat) : List Byte :=
  let e := elemBytes fmt
  (List.range n).map (fun i => x.extractLsb' (8 * ((off + i) % e)) 8)

/-- n bytes of a tapped sample from offset off of its row: the sample's own bytes, also where a program has stored to the
backing range (R183 allows either; DESIGN CHOICE, notes/assumptions/65.md). -/
def Pass.tapBytes (p : Pass) (t : RTap) (off n : Nat) : List Byte :=
  match p.tapAt t, p.sig? t.sig with
  | .fill, _ => fillBytes t.fill.1 t.fill.2 off n
  | .slot q, some g => (List.range n).map (fun i => mget 0 q.data (t.row * g.desc.rowBytes + off + i))
  | _, _ => List.replicate n 0

/-- The poisoned bytes among n of a tapped sample from offset off of its row (R388). -/
def Pass.tapBad (p : Pass) (t : RTap) (off n : Nat) : List Nat :=
  match p.sig? t.sig with
  | none => []
  | some g =>
    match p.tapAt t with
    | .slot q =>
      let lo := t.row * g.desc.rowBytes + off
      q.bad.filter (fun k => decide (lo ≤ k) && decide (k < lo + n))
    | _ => []

/-! ### Pins and writes -/

/-- A slot that satisfies the conditions of ready (R174). -/
def Slot.settle (t : Slot) (segs : Nat) : Slot :=
  if (t.st == .empty || t.st == .filling) && t.wp == 0 && t.segs == 2 ^ segs - 1 then { t with st := .ready } else t

/-- The segments covered by n bytes at an offset of a sample, as a bitmap. -/
def segMask (off n : Nat) : Nat :=
  if n = 0 then 0 else
    let lo := off / 256
    let hi := (off + n - 1) / 256
    2 ^ (hi + 1) - 2 ^ lo

def putData (m : Map Byte) (a : Nat) : List Byte → Map Byte
  | [] => m
  | b :: bs => putData (mset 0 m a b) (a + 1) bs

/-- A write to a slot is performed (R174, R176); `bad` are the offsets of its poisoned bytes. -/
def Sig.writeSlot (g : Sig) (n off : Nat) (bs : List Byte) (bad : List Nat) : Sig :=
  g.updSlot n (fun t =>
    let t := { t with data := putData t.data off bs, segs := t.segs ||| segMask off bs.length,
                      st := if t.st == SlotState.empty then .filling else t.st,
                      bad := t.bad.filter (fun k => decide (k < off) || decide (off + bs.length ≤ k)) ++ bad }
    t.settle g.desc.segs)

def Sig.pinW (g : Sig) (n : Nat) : Sig := g.updSlot n (fun t => { t with wp := t.wp + 1 })
def Sig.pinR (g : Sig) (n : Nat) : Sig := g.updSlot n (fun t => { t with rp := t.rp + 1 })
def Sig.unpinW (g : Sig) (n : Nat) : Sig :=
  g.updSlot n (fun t => ({ t with wp := t.wp - 1 } : Slot).settle g.desc.segs)
def Sig.unpinR (g : Sig) (n : Nat) : Sig := g.updSlot n (fun t => { t with rp := t.rp - 1, freed := true })

/-- Reader pins of a list of samples placed or released; fill samples have no slot. -/
def State.pinsR (s : State) (pid : Nat) (l : List (Nat × Nat)) : State :=
  l.foldl (fun s x => s.updSig pid x.1 (fun g => g.pinR x.2)) s
def State.unpinsR (s : State) (pid : Nat) (l : List (Nat × Nat)) : State :=
  l.foldl (fun s x => s.updSig pid x.1 (fun g => g.unpinR x.2)) s
def State.pinsW (s : State) (pid : Nat) (l : List (Nat × Nat)) : State :=
  l.foldl (fun s x => s.updSig pid x.1 (fun g => g.pinW x.2)) s
def State.unpinsW (s : State) (pid : Nat) (l : List (Nat × Nat)) : State :=
  l.foldl (fun s x => s.updSig pid x.1 (fun g => g.unpinW x.2)) s

/-- The pin of a tap that reads a slot, if it has one. -/
def RTap.pin (t : RTap) : List (Nat × Nat) := if t.num < 0 then [] else [(t.sig, t.num.toNat)]

/-- One more pin of the kind would exceed 65,535 (R179). -/
def Pass.pinFull (p : Pass) (wr : Bool) (x : Nat × Nat) : Bool :=
  match p.sig? x.1 with
  | some g =>
    match g.slot? x.2 with
    | some t => decide (65535 ≤ (if wr then t.wp else t.rp))
    | none => false
  | none => false

/-! ### Free line store -/

/-- The lowest slot byte of a core's line store: LS-tier slots stand at the top (R171). -/
def lsLimit (sigs : List SigDesc) (qc : Nat) : Nat :=
  2 ^ 24 - (sigs.foldl (fun a d => if d.isLs && d.home == qc then a + d.foot else a) 0)

def State.lsTop (s : State) (pid qc : Nat) : Nat :=
  match s.pass? pid with
  | some p =>
    match s.run? p.rid with
    | some r => lsLimit r.rcd.sigs qc
    | none => 2 ^ 24
  | none => 2 ^ 24

/-! ### KV signals and pages -/

def AsidCtx.kpb (a : AsidCtx) : Nat := 2 ^ (a.lkp.toNat + 14)

/-- R344. -/
def isKv (a : AsidCtx) (d : SigDesc) : Bool :=
  d.isHbm && decide (a.kwb.toNat ≤ d.base.toNat) && decide (d.base.toNat < a.kwb.toNat + a.kws.toNat) &&
  d.base.toNat % a.kpb == 0 && d.size * 64 == a.kpb && d.depth % 64 == 0 && d.gm == 1

/-- The block of the page that holds sample n (R344). -/
def kvBlk (a : AsidCtx) (d : SigDesc) (n : Nat) : Nat := (d.base.toNat - a.kwb.toNat) / a.kpb + n % d.depth / 64

def State.page? (s : State) (asid : BitVec 16) (blk : Nat) : Option KvPage :=
  s.pages.find? (fun k => k.asid == asid && k.blk == blk)

def State.updPage (s : State) (asid : BitVec 16) (blk : Nat) (f : KvPage → KvPage) : State :=
  { s with pages := s.pages.map (fun k => if k.asid == asid && k.blk == blk then f k else k) }

/-- A run of bytes overlaps an allocated frame or the frame of a move. -/
def State.frameUsed (s : State) (a n : Nat) : Bool :=
  s.pages.any (fun k =>
    (decide (a < k.frame + k.size) && decide (k.frame < a + n)) ||
    (match k.dest with
     | some (_, f) => decide (a < f + k.size) && decide (f < a + n)
     | none => false))

/-- The first free frame of a range of a pool, in increasing address (R346; notes/assumptions/14.md). -/
def State.freeFrom (s : State) (size : Nat) : Nat → Nat → Option Nat
  | 0, _ => none
  | k + 1, a => if s.frameUsed a size then s.freeFrom size k (a + size) else some a

/-- A free frame of pool i (R346). -/
def State.freeFrame (s : State) (i size : Nat) : Option Nat :=
  let p := mget (0, 0) s.mg.kvpool i
  let lo := (p.1 + size - 1) / size * size
  s.freeFrom size ((p.1 + p.2 - lo) / size) lo

/-- A frame for block b: from stack b mod 8, else from the next stack that has one (R346). -/
def State.hbmFrame (s : State) (b size : Nat) : Option Nat :=
  (List.range 8).findSome? (fun i => s.freeFrame ((b + i) % 8) size)

/-- Frames for the pages of a list of blocks that have none; none if the pools lack one (R350). -/
def State.allocPages (s : State) (asid : BitVec 16) (size pid : Nat) : List Nat → Option State
  | [] => some s
  | b :: bs =>
    match s.page? asid b with
    | some _ => s.allocPages asid size pid bs
    | none =>
      match s.hbmFrame b size with
      | none => none
      | some f =>
        ({ s with pages := s.pages ++ [{ asid := asid, blk := b, ps := .hbm, frame := f, size := size, dest := none,
                                         want := none, mover := pid }] } : State).allocPages asid size pid bs

/-- Ready samples of a signal that a test selects begin to drain; draining ones are ready again (R174). -/
def Sig.drainOn (g : Sig) (sel : Nat → Bool) : Sig :=
  { g with slots := g.slots.map (fun t => if t.st == .ready && sel t.num then { t with st := .draining } else t) }
def Sig.drainOff (g : Sig) (sel : Nat → Bool) : Sig :=
  { g with slots := g.slots.map (fun t => if t.st == .draining && sel t.num then { t with st := .ready } else t) }

/-- A change of the live KV signals of every pass of an address space. -/
def State.mapKv (s : State) (asid : BitVec 16) (f : AsidCtx → Sig → Sig) : State :=
  { s with passes := s.passes.map (fun p =>
      if (s.run? p.rid).any (fun r => r.rcd.asid == asid) then
        { p with sigs := p.sigs.map (fun x => (x.1, x.2.map (fun g => if g.live && isKv p.ctx g.desc then f p.ctx g else g))) }
      else p) }

/-- The samples of a KV page, in every pass of its address space, drain while the page moves down (R174, R345). -/
def State.drainPage (s : State) (asid : BitVec 16) (blk : Nat) (on : Bool) : State :=
  s.mapKv asid (fun a g =>
    if on then g.drainOn (fun n => kvBlk a g.desc n == blk) else g.drainOff (fun n => kvBlk a g.desc n == blk))

/-- A sample of a KV page has a pin, in some pass of its address space. -/
def State.pagePinned (s : State) (asid : BitVec 16) (blk : Nat) : Bool :=
  s.passes.any (fun p => (s.run? p.rid).any (fun r => r.rcd.asid == asid) && p.sigs.any (fun x => match x.2 with
    | some g => g.live && isKv p.ctx g.desc &&
        g.slots.any (fun q => (q.wp != 0 || q.rp != 0) && kvBlk p.ctx g.desc q.num == blk)
    | none => false))

/-- The page state of a sample: none where no frame is held (R345). -/
def State.pageSt (s : State) (a : AsidCtx) (asid : BitVec 16) (d : SigDesc) (n : Nat) : PageSt :=
  match s.page? asid (kvBlk a d n) with
  | some k => k.ps
  | none => .none

/-- The stack of a frame (R345). -/
def frameStack (f : Nat) : Nat := f / 2 ^ 36 % 8

/-- Asks for the promotion of a page that is not hbm, ahead of the rounds and after the promotions asked for before (R362,
R364). -/
def State.wantPage (s : State) (asid : BitVec 16) (blk pid : Nat) : State :=
  (s.updPage asid blk (fun k =>
    if (k.ps == .tier2 || k.ps == .tier3 || k.ps == .down) && k.want.isNone then { k with want := some (s.seq, pid) }
    else k)).tickSeq

/-- The blocks of a KV signal's pages. -/
def kvBlocks (a : AsidCtx) (d : SigDesc) : List Nat :=
  (List.range (d.depth / 64)).map (fun i => (d.base.toNat - a.kwb.toNat) / a.kpb + i)

/-- Every frame of a KV signal returns to its pool (R345). -/
def State.freePages (s : State) (a : AsidCtx) (asid : BitVec 16) (d : SigDesc) : State :=
  if isKv a d then
    let lo := (d.base.toNat - a.kwb.toNat) / a.kpb
    let hi := lo + d.depth / 64
    { s with pages := s.pages.filter (fun k => !(k.asid == asid && decide (lo ≤ k.blk) && decide (k.blk < hi))) }
  else s

/-! ### Backing ranges -/

/-- The virtual address of the slot of sample n (R183). -/
def backVa (d : SigDesc) (n : Nat) : VAddr := d.base + BitVec.ofNat 57 (n % d.depth * d.size)

/-- The parts of a sample's backing slot, translated; an HBM-tier range must lie in module HBM (R200). -/
def State.backing (s : State) (lc sq : Nat) (asid : BitVec 16) (d : SigDesc) (n : Nat) (acc : Acc) :
    Except AccFault (List Part) × State :=
  let r := s.accessAs (.core lc) sq (dieOf lc) asid acc (backVa d n) d.size
  match r.1 with
  | .error f => (.error f, r.2)
  | .ok ps =>
    if d.isHbm && ps.any (fun q => q.keys.any (fun k => decide (2 ^ 52 ≤ k))) then
      (.error { cause := 0x0A, info := accInfo acc 1 (backVa d n), va := backVa d n, reason := 1 }, r.2)
    else (.ok ps, r.2)

/-- A slot of a backed signal is touched for the first time: its range is translated, and after an srest its bytes are
read on path c, after the path's writes where they lie on an S page (R61, R183, R205, R377). -/
def State.touch (s : State) (pid lc sig num : Nat) (asid : BitVec 16) (acc : Acc) : Except AccFault State × State :=
  match s.pass? pid with
  | none => (.ok s, s)
  | some p =>
    match p.sig? sig with
    | none => (.ok s, s)
    | some g =>
      match g.slot? num with
      | none => (.ok s, s)
      | some q =>
        if q.touched || isKv p.ctx g.desc then (.ok s, s)
        else
          let r := s.backing lc s.seq asid g.desc num acc
          match r.1 with
          | .error f => (.error f, r.2)
          | .ok ps =>
            let ks := ps.flatMap (fun x => x.keys)
            let s1 := if q.back then r.2.drainS (.core lc) .c ps else r.2
            let bs := if q.back then s1.readKeys (.core lc) .c ks else []
            let bk := if q.back then s1.badKeys (.core lc) .c ks else []
            let bad := (List.range ks.length).filter (fun i => bk.contains (ks.getD i 0))
            let s2 := s1.updSig pid sig (fun g => g.updSlot num (fun t =>
              { t with touched := true, back := false, data := if q.back then putData t.data 0 bs else t.data,
                       bad := if q.back then bad else t.bad }))
            (.ok s2, s2)

end Sys2Proof.Machine
end

