-- ==== Sys2Proof/Machine/Runs.lean ====
section
/-! DEFINITION. Run records, their loop and signal tables, acceptance, join words, done words, futures, the fault log, and
what happens when a pass leaves its cores or a run is terminated (spec/03_execution_model.md R26 to R39, R427,
spec/20_launch_engine.md R322 to R335, spec/24_translation_and_faults.md R374, R385, R386). -/

namespace Sys2Proof.Machine

/-! ### Reading a run record -/

/-- The fields of the 128 bytes before any check (R26). -/
structure RawRec where
  rcd   : RunRec
  loopt : VAddr
  sigt  : VAddr
  ok    : Bool
  deriving DecidableEq, Repr

def dwordAt (bs : List Byte) (off : Nat) : Word := leWord ((bs.drop off).take 8)

/-- The record of R26 with the checks of R27 that depend on it alone. -/
def parseRec (bs : List Byte) : RawRec :=
  let w (i : Nat) : Word := dwordAt bs (8 * i)
  let qd := fld (w 4) 7 4
  let qc := fld (w 4) 3 0
  let jv := (w 6).getLsbD 63
  let dv := (w 7).getLsbD 63
  let rcd : RunRec :=
    { prog := va57 (w 0), param := w 3, asid := BitVec.ofNat 16 (fld (w 4) 63 48), prio := fld (w 4) 42 40,
      powc := fld (w 4) 39 36, qd := qd, qc := qc, budget := fld (w 5) 31 0, jv := jv, join := va57 (w 6), dv := dv,
      done := va57 (w 7), dthr := BitVec.ofNat 32 (fld (w 8) 63 32), jthr := BitVec.ofNat 32 (fld (w 8) 31 0),
      levels := [], sigs := [] }
  let reserved := fld (w 0) 63 57 == 0 && fld (w 1) 63 57 == 0 && fld (w 2) 63 57 == 0 && fld (w 3) 63 57 == 0 &&
    fld (w 4) 47 43 == 0 &&
    fld (w 4) 35 8 == 0 && fld (w 5) 63 32 == 0 && fld (w 6) 62 57 == 0 && fld (w 7) 62 57 == 0 &&
    (List.range 7).all (fun i => w (9 + i) == 0)
  let qOk := (qd == 1 || qd == 2 || qd == 4 || qd == 8) && decide (1 ≤ qc) && decide (qc ≤ 8) &&
    (qd == 1 || qc == 1 || qc == 2 || qc == 4 || qc == 8)
  { rcd := rcd, loopt := va57 (w 1), sigt := va57 (w 2),
    ok := reserved && rcd.prog.toNat % 64 == 0 && (va57 (w 1)).toNat % 64 == 0 && qOk && decide (rcd.powc ≤ 3) &&
      rcd.budget != 0 && (!jv || rcd.join.toNat % 8 == 0) && (!dv || rcd.done.toNat % 8 == 0) }

/-- The levels of a loop table, if it keeps R28. -/
def parseLoops (bs : List Byte) : Option (List Level) :=
  let h := dwordAt bs 0
  let n := fld h 2 0
  let lv (i : Nat) : Word := dwordAt bs (8 + 8 * i)
  let ls := (List.range n).map (fun i => ({ kind := BitVec.ofNat 2 (fld (lv i) 63 62), count := fld (lv i) 31 0 } : Level))
  let spatial := ls.filter (fun l => l.kind != 1)
  let temporal := ls.filter (fun l => l.kind == 1)
  let prod (l : List Level) : Nat := l.foldl (fun a x => a * x.count) 1
  if fld h 63 3 == 0 && decide (1 ≤ n) && decide (n ≤ 6) && dwordAt bs 56 == 0 &&
      (List.range n).all (fun i => fld (lv i) 61 32 == 0) && ls.all (fun l => l.kind != 0 && l.count != 0) &&
      (List.range (6 - n)).all (fun i => lv (n + i) == 0) && decide (spatial.length ≤ 4) &&
      decide (prod spatial ≤ 2 ^ 32) && decide (prod temporal ≤ 2 ^ 63) then some ls
  else none

/-- Drops the edges whose source has no edge of its own, again and again: what is left holds a cycle (R170). -/
def edgeCore : Nat → List (Nat × Nat) → List (Nat × Nat)
  | 0, es => es
  | k + 1, es => edgeCore k (es.filter (fun e => es.any (fun f => f.1 == e.2)))

/-- The descriptors of a signal table, if it keeps R168 to R170. -/
def parseSigs (qc qd : Nat) (nsig nedge : Nat) (bs : List Byte) : Option (List SigDesc) :=
  let w (i j : Nat) : Word := dwordAt bs (32 * i + 8 * j)
  let ds := (List.range nsig).map (fun i => parseDesc (w i 0) (w i 1) (w i 2) (w i 3))
  let es := (List.range nedge).map (fun e => w64 (leNat ((bs.drop (32 * nsig + 4 * e)).take 4)))
  let prs := es.map (fun e => (fld e 24 16, fld e 8 0))
  let sum (f : SigDesc → Bool) : Nat := ds.foldl (fun a d => if f d then a + d.foot else a) 0
  if (List.range nsig).all (fun i => descOk qc qd (w i 0) (w i 1) (w i 2) (w i 3)) &&
      es.all (fun e => fld e 31 25 == 0 && fld e 15 9 == 0 && decide (fld e 24 16 < nsig) && decide (fld e 8 0 < nsig)) &&
      (edgeCore (nsig + 1) prs).isEmpty &&
      (List.range (qc * qd)).all (fun q => decide (sum (fun d => d.isLs && d.home == q) ≤ 2 ^ 24)) &&
      (List.range qd).all (fun m => decide (sum (fun d => d.isDepot && d.home == m) ≤ 2 ^ 27)) then some ds
  else none

/-- What reading a record gives. -/
inductive RecRes
  | page (f : AccFault)
  | refuse (reason : Nat)               -- 1 record, 2 ASID not live, 3 join or done word (R405)
  | ok (rcd : RunRec)
  deriving DecidableEq, Repr

/-- Bytes read by the launch engine at module scope on its own chain (R327). -/
def State.leRead (s : State) (die : Nat) (asid : BitVec 16) (va : VAddr) (n : Nat) :
    Except AccFault (List Byte) × State :=
  let r := s.access die asid .rd va n
  match r.1 with
  | .error f => (.error f, r.2)
  | .ok ps => (.ok (ps.flatMap (fun p => r.2.readFrom .le .s 5 p.keys)), r.2)

/-- The key and home scope of a word of the launch engine, translated in an address space (R427, R331). -/
def State.leWordKey (s : State) (die : Nat) (asid : BitVec 16) (acc : Acc) (va : VAddr) :
    Except AccFault (Nat × Nat) × State :=
  let r := s.access die asid acc va 8
  match r.1 with
  | .error f => (.error f, r.2)
  | .ok ps =>
    let k := ((ps.flatMap (fun p => p.keys)).headD 0)
    (.ok (k, homeScope k), r.2)

/-- R427, at acceptance: the location of the join word, zero without one, or nothing where a word does not translate. -/
def State.checkWords (s : State) (die : Nat) (rcd : RunRec) : Option Nat × State :=
  let key (r : Except AccFault (Nat × Nat) × State) : Option Nat × State :=
    (match r.1 with
     | .ok k => some k.1
     | .error _ => none, r.2)
  let j : Option Nat × State := if rcd.jv then key (s.leWordKey die rcd.asid .rd rcd.join) else (some 0, s)
  if j.1.isSome && rcd.dv then
    let d := key (j.2.leWordKey die rcd.asid .wr rcd.done)
    (if d.1.isSome then j.1 else none, d.2)
  else j

/-- The signal table at an address, or nothing when the run declares none (R168, R170). -/
def State.readSigs (s : State) (die : Nat) (asid : BitVec 16) (rcd : RunRec) (va : VAddr) : RecRes × State :=
  if va = 0 then (.ok rcd, s)
  else if va.toNat % 32 != 0 then (.refuse 1, s)
  else
    let h := s.leRead die asid va 32
    match h.1 with
    | .error f => (.page f, h.2)
    | .ok hb =>
      let w := dwordAt hb 0
      let nsig := fld w 9 0
      let nedge := fld w 28 16
      if fld w 63 29 != 0 || fld w 15 10 != 0 || decide (4096 < nedge) || nsig = 0 || decide (512 < nsig) ||
          dwordAt hb 8 != 0 || dwordAt hb 16 != 0 || dwordAt hb 24 != 0 then (.refuse 1, h.2)
      else
        let b := h.2.leRead die asid (va + 32) (32 * nsig + 4 * nedge)
        match b.1 with
        | .error f => (.page f, b.2)
        | .ok bs =>
          match parseSigs rcd.qc rcd.qd nsig nedge bs with
          | none => (.refuse 1, b.2)
          | some ds => (.ok { rcd with sigs := ds }, b.2)

/-- The checks of R27, R170 and R427 on the bytes of a record, its loop table and its signal table (R327 steps 2 and 3).
`asid` is the submitter's. -/
def State.checkRec (s : State) (die : Nat) (asid : BitVec 16) (addr : VAddr) (bs : List Byte) : RecRes × State :=
  let r := parseRec bs
  if !r.ok || addr.toNat % 128 != 0 || r.rcd.asid != asid then (.refuse 1, s)
  else if (s.asidCtx r.rcd.asid).ast != 1 then (.refuse 2, s)
  else
    let lo : RecRes × State :=
      if r.loopt = 0 then (.ok r.rcd, s)
      else
        let b := s.leRead die asid r.loopt 64
        match b.1 with
        | .error f => (.page f, b.2)
        | .ok lb => match parseLoops lb with
          | none => (.refuse 1, b.2)
          | some ls => (.ok { r.rcd with levels := ls }, b.2)
    match lo with
    | (.ok rcd, s1) =>
      match s1.readSigs die asid rcd r.sigt with
      | (.ok rcd, s2) =>
        let w := s2.checkWords die rcd
        (match w.1 with
         | some k => .ok { rcd with joinAt := k }
         | none => .refuse 3, w.2)
      | x => x
    | x => x

def State.readRec (s : State) (die : Nat) (asid : BitVec 16) (addr : VAddr) : RecRes × State :=
  let b := s.leRead die asid addr 128
  match b.1 with
  | .error f => (.page f, b.2)
  | .ok bs => b.2.checkRec die asid addr bs

/-! ### The fault log (R374) -/

/-- The first doubleword of a record. -/
def logHead (fk : Nat) (fc : BitVec 8) (lc en : Nat) (asid : BitVec 16) : Word :=
  w64 (fk * 2 ^ 56 + fc.toNat * 2 ^ 48 + lc * 2 ^ 40 + en * 2 ^ 37 + asid.toNat)

/-- Writes the oldest waiting record of an address space: none while the log is full or does not translate. -/
def State.logWrite (s : State) (r : LogRec) : Option State :=
  let c := r.ctx
  let p := s.leWordKey 0 r.asid .wr c.flp
  let q := p.2.leWordKey 0 r.asid .rd (c.flp + 8)
  match p.1, q.1 with
  | .ok (pk, _), .ok (ck, _) =>
    let rd (k : Nat) : Word := leWord (q.2.readFrom .log .s 5 ((List.range 8).map (fun i => k + i)))
    let prod := rd pk
    let cons := rd ck
    if prod - cons = w64 (2 ^ c.fln.toNat) then none
    else
      let slot := c.flb + BitVec.ofNat 57 (32 * (prod.toNat % 2 ^ c.fln.toNat))
      let t := q.2.access 0 r.asid .wr slot 32
      match t.1 with
      | .error _ => none
      | .ok ps =>
        let ks := ps.flatMap (fun x => x.keys)
        let bs := wordLe 8 r.w0 ++ wordLe 8 r.info ++ wordLe 8 r.run ++ wordLe 8 prod
        let s1 := (t.2.append (some .module) { seq := t.2.seq, pk := .r, cells := keyCells ks bs }).tickSeq
        let s2 := (s1.atomicAt .log .s 5 ((List.range 8).map (fun i => pk + i)) .r
          (fun o => some (natLe 8 (leNat o + 1)))).2.wakeAll pk
        some { s2 with faults := s2.faults.map (fun f => if some f.id == r.flt then { f with logId := some prod.toNat } else f) }
  | _, _ => none

/-- A record joins those waiting to be written, when the address space has a log. -/
def State.log (s : State) (r : LogRec) : State :=
  if r.ctx.flb = 0 then s else { s with logq := s.logq ++ [r] }

/-- An engine fault, or a fault of the launch engine, of a pass (R386). -/
def State.logEngine (s : State) (pid qc en : Nat) (fc : BitVec 8) (info : Word) : State :=
  match s.pass? pid with
  | some p =>
    match s.run? p.rid with
    | some r =>
      let lc := match p.cores[qc]? with
        | some c => c.lcore
        | none => 0
      ({ s with counts := s.counts + 1 } : State).log
        { asid := r.rcd.asid, w0 := logHead 2 fc lc en r.rcd.asid, info := info, run := vaWord r.addr, ctx := p.ctx, flt := none }
        |>.report (.engineFault p.rid en fc info)
    | none => s
  | none => s

/-- A failed access of the launch engine (R427, R360): kind 0x02, EN 7, LC 0. -/
def State.logLe (s : State) (asid : BitVec 16) (rid : Nat) (run : Word) (f : AccFault) : State :=
  (s.log { asid := asid, w0 := logHead 2 f.cause 0 7 asid, info := f.info, run := run, ctx := s.asidCtx asid, flt := none }).report
    (.leFault rid f.cause f.info)

/-! ### Acceptance -/

def Run.live (r : Run) : Bool := r.st == .waiting || r.st == .active

/-- Runs that count against the limit of 65,536 (R322). -/
def State.runCount (s : State) : Nat := (s.runs.filter (fun r => r.live)).length

/-- A run may be accepted now: below the limit, and no deferred run waits for room (R322). -/
def State.runRoom (s : State) : Bool := decide (s.runCount < 65536) && !s.runs.any (fun r => r.st == .deferred)

/-- Waiters that a home holds, by the stack of module memory or the region (R290). -/
def homeOf (key : Nat) : Nat := if key < 2 ^ 52 then key / 2 ^ 16 % 8 else 8 + key / 2 ^ 52

def State.register (s : State) (key : Nat) (w : Waiter) : State :=
  let here := (s.waiters.filter (fun x => homeOf x.key == homeOf key && x.full.isNone)).length
  let room := decide (here < 1024 + Config.waiterExtra)
  { s with waiters := s.waiters ++ [{ key := key, w := w, woken := false, awake := false,
                                      full := if room then none else some s.cycle }] }

def State.unregister (s : State) (w : Waiter) : State := { s with waiters := s.waiters.filter (fun x => x.w != w) }

/-- The run is queued when its join word has reached the threshold, else it waits for a wake (R37). -/
def State.joinRead (s : State) (rid : Nat) : State :=
  match s.run? rid with
  | none => s
  | some r =>
    let lvl := homeScope r.joinKey
    let v := leNat (s.readFrom .le .s lvl ((List.range 8).map (fun i => r.joinKey + i)))
    if r.rcd.jthr.toNat ≤ v then
      (s.updRun rid (fun r => { r with st := .active, aged := s.cycle })).unregister (.join rid)
    else { s with waiters := s.waiters.map (fun x => if x.w == .join rid then
        { x with woken := false, awake := false, full := x.full.map (fun _ => s.cycle) } else x) }

/-- A run is accepted: it enters its queue, or waits on its join word (R322, R37). -/
def State.acceptRun (s : State) (addr : VAddr) (rcd : RunRec) (hold : Option Nat) : State :=
  let rid := s.nextId
  let r : Run := { rid := rid, addr := addr, rcd := rcd, st := if rcd.jv then .waiting else .active, stamp := s.cycle,
                   eff := rcd.prio, aged := s.cycle, target := none, made := 0, hold := hold, cause := 0,
                   joinKey := rcd.joinAt }
  let s1 := { s with runs := s.runs ++ [r], nextId := s.nextId + 1 }
  if rcd.jv then (s1.register rcd.joinAt (.join rid)).joinRead rid else s1

/-- A run whose acceptance by a future waits for room (R322). -/
def State.deferRun (s : State) (addr : VAddr) (asid : BitVec 16) (from_ : Nat × Nat × Word) : State :=
  let rcd : RunRec := { prog := 0, param := 0, asid := asid, prio := 0, powc := 0, qd := 1, qc := 1, budget := 1,
                        jv := false, join := 0, dv := false, done := 0, dthr := 0, jthr := 0, levels := [], sigs := [] }
  { s with runs := s.runs ++ [{ rid := s.nextId, addr := addr, rcd := rcd, st := .deferred, stamp := s.cycle, eff := 0,
                                aged := s.cycle, target := none, made := 0, hold := none, cause := 0,
                                joinKey := 0, from_ := from_ }],
           nextId := s.nextId + 1 }

/-! ### Join bumps, done words and futures -/

/-- R335: adds 1 to a join word at its home scope, released over every class, and wakes every waiter. -/
def State.joinBump (s : State) (asid : BitVec 16) (va : VAddr) : State :=
  let k := s.leWordKey 0 asid .wr va
  match k.1 with
  | .error f => k.2.logLe asid 0 0 f
  | .ok (key, lvl) =>
    let s1 := k.2.leRelease lvl
    ((s1.atomicAt .le .s lvl ((List.range 8).map (fun i => key + i)) .r (fun o => some (natLe 8 (leNat o + 1)))).2).wakeAll key

/-- R38: the done word of a run, after a release over every class. -/
def State.doneUpdate (s : State) (rid : Nat) : State :=
  match s.run? rid with
  | none => s
  | some r =>
    if !r.rcd.dv then s
    else
      let k := s.leWordKey 0 r.rcd.asid .wr r.rcd.done
      match k.1 with
      | .error f => k.2.logLe r.rcd.asid rid (vaWord r.addr) f
      | .ok (key, lvl) =>
        let s1 := k.2.leRelease lvl
        let a := s1.atomicAt .le .s lvl ((List.range 8).map (fun i => key + i)) .r (fun o => some (natLe 8 (leNat o + 1)))
        if faddwReaches 64 (leNat a.1) 1 r.rcd.dthr.toNat then a.2.wakeAll key else a.2

/-- A continuation run is accepted after a new reading and check; a failing record is logged with the core, the unit and
the run that resolved (R332). -/
def State.startNow (s : State) (from_ : Nat × Nat × Word) (asid : BitVec 16) (addr : VAddr) : State :=
  let r := s.readRec 0 asid addr
  match r.1 with
  | .ok rcd => r.2.acceptRun addr rcd none
  | _ => (({ r.2 with counts := r.2.counts + 1 } : State).log
      { asid := asid, w0 := logHead 2 0x0D from_.1 from_.2.1 asid, info := vaWord addr, run := from_.2.2, ctx := s.asidCtx asid, flt := none }).report
        (.refusedRun (vaWord addr))

/-- The continuation run at an address is accepted, or deferred at the limit (R322, R332). -/
def State.startRun (s : State) (pid qc en : Nat) (asid : BitVec 16) (addr : VAddr) : State :=
  let from_ : Nat × Nat × Word := match s.pass? pid with
    | some p => ((match p.cores[qc]? with
        | some c => c.lcore
        | none => 0), en, (match s.run? p.rid with
        | some r => vaWord r.addr
        | none => 0))
    | none => (0, en, 0)
  if s.runRoom then s.startNow from_ asid addr else s.deferRun addr asid from_

/-- The step of R332 on the future at a key; true when it is a double resolve. -/
def State.resolve (s : State) (pid qc en : Nat) (asid : BitVec 16) (ag : Agent) (key lvl : Nat) (tag : Nat)
    (payload : BitVec 62) : Bool × State :=
  let keys := (List.range 8).map (fun i => key + i)
  let new := natLe 8 (payload.toNat * 4 + tag)
  let a := s.atomicAt ag .s lvl keys .r (fun o =>
    if leNat o % 4 = 0 || leNat o % 4 = 2 then some new else none)
  let old := leNat a.1
  if old % 4 = 0 then (false, a.2)
  else if old % 4 = 2 then
    let va := BitVec.ofNat 57 (old / 8 % 2 ^ 54 * 8)
    if old / 4 % 2 = 0 then (false, a.2.startRun pid qc en asid va) else (false, a.2.joinBump asid va)
  else (true, a.2)

/-! ### A pass leaves its cores -/

/-- Removes the cells of a core's line store from a list of writes. -/
def dropLs (lc : Nat) (ws : List Wr) : List Wr :=
  (ws.map (fun w => { w with cells := w.cells.filter (fun c => !(decide (lsKey lc 0 ≤ c.1) && decide (c.1 < lsKey (lc + 1) 0))) })).filter
    (fun w => !w.cells.isEmpty)

/-- The launch engine writes zero to every byte of the line store (R139). -/
def State.clearLs (s : State) (lc : Nat) : State :=
  let inLs (c : Host.Cell) : Bool := decide (lsKey lc 0 ≤ c.1) && decide (c.1 < lsKey (lc + 1) 0)
  { s with mem := s.mem.filter (fun c => !inLs c),
           stores := (s.stores.map (fun x => { x with ws := dropLs lc x.ws })).filter (fun x => !x.ws.isEmpty),
           poison := s.poison.filter (fun k => !(decide (lsKey lc 0 ≤ k) && decide (k < lsKey (lc + 1) 0))) }

/-- The free line-store bytes of a core as its chain shows them (R138). -/
def State.lsImage (s : State) (lc lim : Nat) : List Host.Cell :=
  let lo := lsKey lc 0
  let inLs (c : Host.Cell) : Bool := decide (lo ≤ c.1) && decide (c.1 < lo + lim)
  let ids : List StoreId := [.region, .domain, .node, .module] ++ (List.range 8).map (fun d => StoreId.die d)
  let base : Mem := s.mem.filter inLs
  let all := ids.foldl (fun m i => (storeOf s.stores i).foldl (fun m w => memCells m (w.cells.filter inLs)) m) base
  all.map (fun c => (c.1 - lo, c.2))

/-- What the ordering machine holds below die scope for the cores of a pass moves to their die stores (R52). -/
def State.quiesce (s : State) (p : Pass) : State :=
  let s := p.cores.foldl (fun s c => s.drainAll (.core c.lcore)) s
  let s := p.cores.foldl (fun s c =>
    allClasses.foldl (fun s cl => s.pushBelow 4 (s.chain (.core c.lcore) cl)) s) s
  s.baseFlush 5

/-- The logical cores of a quire, by position. -/
def posCores (pos : Pos) (qc : Nat) : List Nat := (List.range (qc * pos.dies.length)).map (posLcore pos qc)

/-- Cores reserved as migration targets (R339). -/
def State.reserved (s : State) : List Nat :=
  s.passes.flatMap (fun p => match p.dest with
    | some d => posCores d p.qc
    | none => [])

/-- Rail changes that waited take effect on cores that have freed (R406); a core reserved for a migrating pass keeps its rail,
so that the pass is not placed across two (R339, R396). -/
def State.railSettle (s : State) (lcs : List Nat) : State :=
  (lcs.filter (fun lc => !s.reserved.contains lc)).foldl (fun s lc =>
    match s.mg.railNew.find? (fun x => x.1 == lc) with
    | some x => { s with mg := { s.mg with rail := mset 0 s.mg.rail lc x.2,
                                           railNew := s.mg.railNew.filter (fun y => y.1 != lc) } }
    | none => s) s

/-- Rail changes take effect on cores that are no longer reserved, where they are free. -/
def State.railFree (s : State) (lcs : List Nat) : State := s.railSettle (lcs.filter (fun lc => (s.holder lc).isNone))

/-- Core exchanges of a pass's cores are done once it has left them: the spares serve (R13). -/
def State.endSwap (s : State) (p : Pass) : State :=
  { s with sparing := s.sparing.filter (fun lc => !p.cores.any (fun c => c.lcore == lc)) }

/-- A pass leaves its quire: its writes propagate, its fetched lines and waits go, every line store is cleared (R52, R139,
R290). -/
def State.leave (s : State) (pid : Nat) : State :=
  match s.pass? pid with
  | none => s
  | some p =>
    let s := s.quiesce p
    let s := p.cores.foldl (fun s c => s.clearLs c.lcore) s
    let s := { s with waiters := s.waiters.filter (fun x => match x.w with
        | .core q _ => q != pid
        | .join _ => true),
                      faults := s.faults.filter (fun f => f.pid != pid) }
    (s.railSettle (p.cores.map (fun c => c.lcore))).endSwap p

/-! ### Termination (R385) -/

/-- KV frames and map slots of a pass are released without write-back. -/
def State.dropPages (s : State) (p : Pass) : State :=
  match s.run? p.rid with
  | none => s
  | some r => p.sigs.foldl (fun s x => match x.2 with
      | some g => if g.live then s.freePages p.ctx r.rcd.asid g.desc else s
      | none => s) s

/-- The hold of a replay is released (R329). -/
def State.dropHold (s : State) (r : Run) : State :=
  match r.hold with
  | none => s
  | some key =>
    let s1 := s.leRelease 5
    (s1.atomicAt .le .s 5 ((List.range 8).map (fun i => key + i)) .r (fun o =>
      let v := leNat o
      some (natLe 8 (v / 65536 * 65536 + (v + 65535) % 65536)))).2

/-- Armed futures of a pass, those of events not yet performed first, are resolved faulted with the cause code as payload. -/
def State.faultArmed (s : State) (p : Pass) (asid : BitVec 16) (cause : BitVec 8) : State :=
  (List.range p.cores.length).foldl (fun s i =>
    match p.cores[i]? with
    | none => s
    | some c => (c.events.map (fun e => e.armed) ++ c.armed).foldl (fun s a =>
        (s.resolve p.pid i 7 asid .le a.key (homeScope a.key) 3 (cause.zeroExtend 62)).2) s) s

/-- One pass of a terminated run. -/
def State.endPass (s : State) (asid : BitVec 16) (cause : BitVec 8) (p : Pass) : State :=
  let s := if p.st == .resident then s.leave p.pid else s
  let s := s.dropPages p
  let s := s.faultArmed p asid cause
  let s := { s with poisonTiles := s.poisonTiles.filter (fun t => t.1 != p.pid) }
  let s := s.updPass p.pid (fun q =>
    { q with st := .terminated, cores := [], sigs := [], writes := [], lease := 0, lsSave := [], held := [], lines := [],
             badLines := [], park := none, tick := none, deadlines := [], parkPend := none, boundary := none, late := false,
             dest := none, after := [], lsBad := [] })
  match p.dest with
  | some d => s.railFree (posCores d p.qc)
  | none => s

/-- R385: a run is terminated with a cause; the log record names a core, a unit and a detail. -/
def State.terminate (s : State) (rid : Nat) (cause : BitVec 8) (lc en : Nat) (info : Word) : State :=
  match s.run? rid with
  | none => s
  | some r =>
    if r.st == .finished || r.st == .terminated then s
    else
      let s := (s.passes.filter (fun p => p.rid == rid && p.st != .finished && p.st != .terminated)).foldl
        (fun s p => s.endPass r.rcd.asid cause p) s
      let s := (s.passes.filter (fun p => p.rid == rid && p.st == .finished)).foldl (fun s p => s.dropPages p) s
      let s := (s.updRun rid (fun r => { r with st := .terminated, cause := cause, target := none })).unregister (.join rid)
      let s := s.dropHold r
      let s := s.log { asid := r.rcd.asid, w0 := logHead 3 cause lc en r.rcd.asid, info := info, run := vaWord r.addr, ctx := s.asidCtx r.rcd.asid, flt := none }
      (s.doneUpdate rid).report (.terminated rid cause)

end Sys2Proof.Machine
end

