-- ==== Sys2Proof/Machine/Ops.lean ====
section
/-! DEFINITION. The shared operations of a step: issue slots and holds, taking a trap and returning from one, loop ends,
results put in flight, and the one wrapper through which every instruction word issues. -/

namespace Sys2Proof.Machine

abbrev Out3 := Host.Outcome State Fault Refusal

/-! ### Slots -/

/-- A pass whose quire's stall wire is asserted: a page fault, a slack stall, a boundary held by the LE (R33). -/
def State.stalled (s : State) (p : Pass) : Bool :=
  p.late || p.boundary.isSome || s.faults.any (fun f => f.pid == p.pid)

/-- The issue slots of the resident passes in order: per core the execute stream, then the access stream. -/
def slotsOf (p : Pass) : List (Nat × Nat × Stream) :=
  (List.range p.cores.length).flatMap (fun i => [(p.pid, i, Stream.exe), (p.pid, i, Stream.acc)])

def State.allSlots (s : State) : List (Nat × Nat × Stream) :=
  (s.passes.filter (fun p => p.st == .resident)).flatMap slotsOf

/-- One slot comes before another in a cycle. -/
def slotLt (x y : Nat × Nat × Stream) : Bool :=
  decide (x.1 < y.1) || (x.1 == y.1 && (decide (x.2.1 < y.2.1) || (x.2.1 == y.2.1 && x.2.2 == .exe && y.2.2 == .acc)))

/-- The slot after one, or the end of the cycle's slots. -/
def slotAfter (x : Nat × Nat × Stream) (l : List (Nat × Nat × Stream)) : Turn :=
  match l.find? (slotLt x) with
  | some y => .issue y.1 y.2.1 y.2.2
  | none => .post

def State.firstSlot (s : State) : State :=
  { s with turn := match s.allSlots with
      | [] => .post
      | x :: _ => .issue x.1 x.2.1 x.2.2 }

/-- The slot of a stream is over in this cycle: the next in order, or the execute slot of the core that waited for it. -/
def State.slotDone (s : State) (pid qc : Nat) (st : Stream) : State :=
  { s with turn := match s.turn with
      | .swap _ _ => if s.allSlots.contains (pid, qc, .exe) then .last pid qc else slotAfter (pid, qc, .acc) s.allSlots
      | .last _ _ => slotAfter (pid, qc, .acc) s.allSlots
      | _ => slotAfter (pid, qc, st) s.allSlots }

/-- The stream whose slot it is: pass, core, stream. -/
def State.slotNow (s : State) : Option (Nat × Nat × Stream) :=
  match s.turn with
  | .issue pid qc st => some (pid, qc, st)
  | .swap pid qc => some (pid, qc, .acc)
  | .last pid qc => some (pid, qc, .exe)
  | _ => none

/-! ### Word addresses -/

/-- A word address has offset 0x00 or 0x0A in its slot (R105). -/
def isWordAddr (a : VAddr) : Bool := a.toNat % 32 == 0 || a.toNat % 32 == 10

/-- The index of a word address (R106). -/
def wordIdx (a : VAddr) : Nat := 2 * (a.toNat / 32) + (if a.toNat % 32 == 10 then 1 else 0)

/-- The address of a word index, modulo 2^57 (R106). -/
def idxAddr (i : Int) : VAddr :=
  let n := (i % (2 ^ 53 : Int)).toNat
  BitVec.ofNat 57 (n / 2 * 32 + n % 2 * 10)

/-- The next word in sequence (R106). -/
def nextAddr (a : VAddr) : VAddr := idxAddr (wordIdx a + 1)

/-- The word at a distance (R106). -/
def relAddr (a : VAddr) (off : BitVec 22) : VAddr := idxAddr (wordIdx a + off.toInt)

/-! ### Taking a trap and returning from one -/

/-- Waits and limits of a held word end. -/
def StreamSt.unhold (t : StreamSt) : StreamSt := { t with semWait := none, limFrom := none }

/-- A trap is taken on the word at w (R380): epc, cause and detail are recorded and the next word is the one at tvec; the
results in flight land before it (R123). -/
def StreamSt.trap (t : StreamSt) (w : VAddr) (cause : BitVec 8) (info : Word) : StreamSt :=
  { t.unhold with epc := w, tcause := cause.zeroExtend 64, tinfo := info, pc := t.tvec, settle := true }

/-- Taking an exception: the one operation that every trap goes through (R380, R384). With tvec 0, or not a word address,
the run is terminated with the trap's cause. -/
def State.takeTrap (s : State) (pid qc : Nat) (st : Stream) (w : VAddr) (cause : BitVec 8) (info : Word) : State :=
  match s.pass? pid, s.core? pid qc with
  | some p, some c =>
    let t := c.stream st
    if t.tvec = 0 || !isWordAddr t.tvec then
      s.terminate p.rid cause c.lcore (if st == .acc then 0 else 1) info
    else
      (s.updStream pid qc st (fun t => t.trap w cause info)).unregister (.core pid qc)
  | _, _ => s

/-- Returning from an exception: the target of eret and eret.n (R165). -/
def eretTarget (t : StreamSt) (skip : Bool) : VAddr := if skip then nextAddr t.epc else t.epc

/-! ### Loops -/

def loopZero : LoopLvl := { cnt := 0, beg := 0, fin := 0 }

/-- The end check of the word at w, from the innermost level outward (R158): the word to repeat from, and the stack. -/
def endCheck (w : VAddr) : Nat → Map LoopLvl → Option VAddr × Map LoopLvl × Nat
  | 0, ls => (none, ls, 0)
  | d + 1, ls =>
    let l := mget loopZero ls d
    if l.fin = w then
      if 2 ≤ l.cnt.toNat then (some l.beg, mset loopZero ls d { l with cnt := l.cnt - 1 }, d + 1)
      else endCheck w d (mset loopZero ls d { l with cnt := 0 })
    else (none, ls, d + 1)

/-- A level's body holds a word. -/
def LoopLvl.holds (l : LoopLvl) (w : VAddr) : Bool := decide (l.beg.toNat ≤ w.toNat) && decide (w.toNat ≤ l.fin.toNat)

/-- A transfer taken at w to a target closes the levels whose bodies it leaves (R158). -/
def closeLoops (w target : VAddr) : Nat → Map LoopLvl → Map LoopLvl × Nat
  | 0, ls => (ls, 0)
  | d + 1, ls =>
    let l := mget loopZero ls d
    if l.holds w && !l.holds target then closeLoops w target d (mset loopZero ls d { l with cnt := 0 })
    else (ls, d + 1)

/-- Where a stream goes after a word. -/
inductive Next
  | seq                                 -- the next word, through the end check
  | transfer (a : VAddr)                -- a transfer that closes loops it leaves
  | plain (a : VAddr)                   -- a transfer that leaves the loop stack alone
  | stay                                -- the stream issues no further word
  deriving DecidableEq, Repr

/-- The stream after its word has issued (R106, R155, R158). The end check of a word comes after its own effect, so a csrw to
the count of the level that it ends is tested with the count that it wrote (DESIGN CHOICE, notes/assumptions/61.md). -/
def StreamSt.after (t : StreamSt) (n : Next) : StreamSt :=
  let t := t.unhold
  match n with
  | .seq =>
    let r := endCheck t.pc t.ldepth t.loops
    { t with pc := (match r.1 with
        | some b => b
        | none => nextAddr t.pc), loops := r.2.1, ldepth := r.2.2 }
  | .transfer a =>
    let r := closeLoops t.pc a t.ldepth t.loops
    { t with pc := a, loops := r.1, ldepth := r.2 }
  | .plain a => { t with pc := a }
  | .stay => t

/-! ### Issuing a word -/

/-- What a word finds at its slot. -/
structure Ctx where
  w    : At
  h    : Hdr
  p    : Pass
  r    : Run
  c    : CoreSt
  t    : StreamSt
  deriving DecidableEq, Repr

def Ctx.lc (x : Ctx) : Nat := x.c.lcore
def Ctx.ag (x : Ctx) : Agent := .core x.c.lcore
def Ctx.die (x : Ctx) : Nat := dieOf x.c.lcore
def Ctx.asid (x : Ctx) : BitVec 16 := x.r.rcd.asid
def Ctx.rc (x : Ctx) (rm : RM) : Rc := { rm := rm, seed := x.t.srdseed, now := x.p.now }
def Ctx.seed (x : Ctx) : BitVec 32 := x.t.srdseed

/-- The slot in which a word of a header would issue now. -/
def State.ctx? (s : State) (h : Hdr) : Option Ctx :=
  match s.slotNow with
  | some (pid, qc, st) =>
    if st = h.st then
      match s.pass? pid with
      | some p =>
        if p.st == .resident then
          match p.cores[qc]?, s.run? p.rid with
          | some c, some r =>
            some { w := { cycle := s.cycle, pid := pid, qc := qc, st := st }, h := h, p := p, r := r, c := c,
                   t := c.stream st }
          | _, _ => none
        else none
      | none => none
    else none
  | none => none

/-- An execute-stream word's reads on path s wait for the core's acquires before it (R69 step 3, R71). -/
def Ctx.readHeld (x : Ctx) (s : State) : Bool := s.barred (.core x.lc) .s s.seq

/-- What issuing a word amounts to. -/
structure Go where
  st   : State                          -- the state with the word's own effect
  outs : List (Opnd × Option Val)       -- its results
  due  : Due
  req  : Req
  pin  : Option (Nat × Nat)
  arg  : Word
  next : Next
  deriving DecidableEq, Repr

inductive Act
  | hold (s : State)
  | trap (s : State) (cause : BitVec 8) (info : Word)
  | page (s : State) (f : AccFault)
  | go (g : Go)
  deriving DecidableEq, Repr

/-- A word with no result. -/
def Act.done (s : State) : Act :=
  .go { st := s, outs := [], due := .exact 0, req := .none, pin := none, arg := 0, next := .seq }

/-- A word with one fixed-latency result, which lands at issue + PD (R116). -/
def Act.fixed (x : Ctx) (s : State) (d : Opnd) (v : Val) : Act :=
  .go { st := s, outs := [(d, some v)], due := .exact (x.w.cycle + x.h.pd.val), req := .none, pin := none, arg := 0,
        next := .seq }

/-- A word with one variable-latency result known at issue. -/
def Act.var (x : Ctx) (s : State) (d : Opnd) (v : Val) (lo : Nat) (hi : Option Nat) : Act :=
  .go { st := s, outs := [(d, some v)], due := (match hi with
        | some k => .within (x.w.cycle + lo) (x.w.cycle + k)
        | none => .least (x.w.cycle + lo)), req := .none, pin := none, arg := 0, next := .seq }

/-- A word that moves the stream. -/
def Act.goto (s : State) (n : Next) : Act :=
  .go { st := s, outs := [], due := .exact 0, req := .none, pin := none, arg := 0, next := n }

/-- The binding entry of an n channel is valid (R402). -/
def Ctx.bound (x : Ctx) (s : State) (o : Opnd) : Bool :=
  match o with
  | .n i _ => (mget 0 s.binds (x.asid.toNat * 32 + i.val)).getLsbD 0
  | _ => true

/-- Entries of the channels a word writes are taken, and its result goes in flight (R111, R116, R141). -/
def takeOuts (c : CoreSt) (sq : Nat) : Nat → List (Opnd × Option Val) → CoreSt × List Out
  | _, [] => (c, [])
  | i, (o, v) :: rest =>
    if isChan o then
      let id := sq * 4 + i
      let r := takeOuts (chPush c (chIdx o) { id := id, ty := .data, val := none }) sq (i + 1) rest
      (r.1, { dst := .chan o id, val := v } :: r.2)
    else
      let r := takeOuts c sq (i + 1) rest
      (r.1, { dst := .reg o, val := v } :: r.2)

def pushPend (c : CoreSt) (st : Stream) (p : Pend) : CoreSt := c.updStream st (fun t => { t with pend := t.pend ++ [p] })

/-- The word issues: channels, results, and the stream's next word. -/
def State.issueGo (x : Ctx) (srcs : List Opnd) (g : Go) : State :=
  let w := x.w
  let s := g.st
  let sq := s.seq
  let s := s.updCore w.pid w.qc (fun c =>
    let c := { c with ch := popSrcs c.ch srcs }
    let r := takeOuts c sq 0 g.outs
    let c := if g.outs.isEmpty && g.req == .none then r.1
      else pushPend r.1 w.st { outs := r.2, tag := x.h.ta, issued := w.cycle, due := g.due, req := g.req, seq := sq,
                               pin := g.pin, arg := g.arg }
    c.updStream w.st (fun t => t.after g.next))
  (s.tickSeq).slotDone w.pid w.qc w.st

/-- A translation fault stalls the quire when the address space has a log, and is a trap otherwise; the other faults of an
access are traps (R373). -/
def State.meetFault (s : State) (x : Ctx) (f : AccFault) : State :=
  if f.cause = 0x0A && x.p.ctx.flb != 0 then
    let id := s.nextId
    let pf : PFault := { id := id, logId := none, asid := x.asid, pid := x.w.pid, qc := x.w.qc, who := .stream x.w.st,
                         va := f.va, info := f.info, reason := f.reason }
    (({ s with faults := s.faults ++ [pf], nextId := id + 1 } : State).log
      { asid := x.asid, w0 := logHead 1 (BitVec.ofNat 8 f.reason) x.lc (if x.w.st == .acc then 0 else 1) x.asid,
        info := f.info, run := vaWord x.r.addr, ctx := x.p.ctx, flt := some id }).slotDone x.w.pid x.w.qc x.w.st
  else (s.takeTrap x.w.pid x.w.qc x.w.st x.t.pc f.cause f.info).slotDone x.w.pid x.w.qc x.w.st

def State.finish (x : Ctx) (srcs : List Opnd) (a : Act) : State :=
  match a with
  | .hold s => s.slotDone x.w.pid x.w.qc x.w.st
  | .trap s cause info => (s.takeTrap x.w.pid x.w.qc x.w.st x.t.pc cause info).slotDone x.w.pid x.w.qc x.w.st
  | .page s f => s.meetFault x f
  | .go g => State.issueGo x srcs g

/-- The holds that every word meets before its own: TC, TA, the register interlock, room in the channels it writes
(R111, R118, R119, R120). -/
def Ctx.ready (x : Ctx) (dsts : List Opnd) : Bool :=
  x.t.tcFree x.h.tc && !x.t.tagBusy x.h.ta.val &&
  dsts.all (fun d => if isChan d then chRoom x.c d else !x.t.busyReg d)

/-- Issue of a word with a header, its source operands in order and its destinations: with no slot for it nothing
happens; a write to an n channel that is not bound is illegal (R402); else the holds, then the body on the values read. -/
def issue (h : Hdr) (srcs dsts : List Opnd) (s : State) (body : Ctx → List Val → Act) : Out3 :=
  match s.ctx? h with
  | none => .next s
  | some x =>
    if !dsts.all (x.bound s) then .next (State.finish x srcs (.trap s 0x01 0))
    else if !x.ready dsts then .next (State.finish x srcs (.hold s))
    else
      match readSrcs x.c x.w 0 x.c.ch srcs with
      | none => .next (State.finish x srcs (.hold s))
      | some vs => .next (State.finish x srcs (body x vs))

/-- A word goes on with the parts of an access, or ends with its fault (R122, R373). -/
def withParts (x : Ctx) (s : State) (acc : Acc) (va : VAddr) (n : Nat) (k : State → List Part → Act) : Act :=
  if s.walkHeld x.ag s.seq then Act.hold s
  else
    let r := s.accessAs x.ag s.seq x.die x.asid acc va n
    match r.1 with
    | .error f => .page r.2 f
    | .ok ps => k r.2 ps

/-- The kind under which a read of several parts is ordered: U where all of them are. -/
def readPk (ps : List Part) : PK := if ps.all (fun p => p.pk == .u) then .u else partsPk ps

/-- A read on path s at issue, of locations that go on to the word: it waits as the order of the path asks (R58, R61, R69). -/
def withRead (x : Ctx) (s : State) (va : VAddr) (n : Nat) (k : State → List Nat → Act) : Act :=
  withParts x s .rd va n (fun s ps =>
    if s.mayRead x.lc s.seq (partKeys ps) (readPk ps) x.c.acc.pend then k s (partKeys ps) else Act.hold s)

end Sys2Proof.Machine
end

