-- ==== Sys2Proof/Machine/Power.lean ====
section
/-! DEFINITION. The power limit, the throttle order and the paces that it gives the engines (spec/01_module_overview.md R19,
spec/25_power_fabric_host.md R391 to R394, R397, R399). -/

namespace Sys2Proof.Machine

/-! ### The limit and the draw (R397, R399) -/

def floor200 (n : Nat) : Nat := Nat.max 200 n

/-- The module's power limit in watts. -/
def State.powerLimit (s : State) : Nat :=
  let m := Nat.min 1700 (floor200 s.mg.hostlim.toNat)
  let m := if s.mg.gridLim = 0 then m else Nat.min m (floor200 s.mg.gridLim.toNat)
  if s.mg.step then Nat.min m (floor200 s.mg.caps.toNat) else m

/-- A change in a cycle has had its 200 µs. -/
def overdue200 (since cycle : Nat) : Bool := decide (since + 200 * Config.cyclesPerUs ≤ cycle)

/-- The steps of the throttle order: 1 to 4 for each power class, then 5 and 6. -/
def topLevel : Nat := 18

/-- The draw of the module's work with the throttle order taken to a level; every step at its floor holds it to 300 W
(R399). -/
def State.drawAt (s : State) (level : Nat) : Nat :=
  let d := (Config.draw s.cycle level).toNat
  if level = topLevel then Nat.min d 300 else d

/-- The greatest draw that the limits allow: the greatest of the limit and of those that it has replaced within the last
200 µs; the throttle order alone reaches 300 W (R399). -/
def State.drawBound (s : State) : Nat :=
  (s.mg.past.filter (fun e => !overdue200 e.1 s.cycle)).foldl (fun m e => Nat.max m e.2) (Nat.max 300 s.powerLimit)

/-- The module draws what its work draws at the level of the throttle order, within what R19, R397 and R399 promise: 1,700 W,
the limits, and 180 W with no resident pass. -/
def State.drawNow (s : State) : Nat :=
  let d := Nat.min 1700 (Nat.min (s.drawAt s.mg.level) s.drawBound)
  if s.passes.any (fun p => p.st == .resident) then d else Nat.min d 180

/-- A limit below 300 W that the draw exceeds while a pass is resident. -/
def State.overLimit (s : State) (limit : Nat) : Bool :=
  decide (limit < 300) && decide (limit < s.drawNow) && s.passes.any (fun p => p.st == .resident)

def State.powerShort (s : State) : Bool := s.overLimit s.powerLimit

/-- A limit of its own is met (R398, R399): from 300 W up once the draw is bound by it, below 300 W once the draw is within
it. -/
def State.limitMet (s : State) (limit : Nat) : Bool :=
  if limit < 300 then !s.overLimit limit else decide (s.drawBound ≤ limit)

/-- A change that may change the limit: the limit that it ends counts for 200 µs more (R399). -/
def State.limitFrom (s s0 : State) : State :=
  if s.powerLimit = s0.powerLimit then s
  else { s with mg := { s.mg with past := s.mg.past ++ [(s.cycle, Nat.max 300 s0.powerLimit)] } }

/-! ### The throttle order (R399) -/

/-- The power class of a pass's run. -/
def State.powcOf (s : State) (p : Pass) : Nat :=
  match s.run? p.rid with
  | some r => r.rcd.powc
  | none => 0

/-- A step from 1 to 4 acts on the passes of a power class: the order takes steps 1 to 4 for class 3, then for class 2, 1
and 0. -/
def State.stepActs (s : State) (i powc : Nat) : Bool := decide (4 * (3 - powc) + i ≤ s.mg.level)

/-- The step stands at its floor: the order has gone on to the next one (DEDUCED, notes/assumptions/69.md). -/
def State.stepFloor (s : State) (i powc : Nat) : Bool := decide (4 * (3 - powc) + i < s.mg.level) || s.mg.level == topLevel

/-- The level that brings the draw within the limit; below 300 W every step goes to its floor. -/
def State.levelNeeded (s : State) : Nat :=
  if s.powerLimit < 300 then topLevel
  else ((List.range topLevel).find? (fun l => decide (s.drawAt l ≤ s.powerLimit))).getD topLevel

/-- How far the throttle order is taken after this cycle: up to what the limit needs, at once where no change of the limit is
younger than 200 µs, else as fast as the capo chooses; back down within 200 µs of a raise, else as it chooses. -/
def State.nextLevel (s : State) : Nat :=
  let l := s.mg.level
  let n := s.levelNeeded
  if l < n then
    (if s.mg.past.all (fun e => overdue200 e.1 s.cycle) then n else if Config.throttleUp s.cycle then l + 1 else l)
  else if n < l then
    (if s.mg.past.any (fun e => overdue200 e.1 s.cycle && decide (e.2 < s.powerLimit)) then n
     else if Config.throttleDown s.cycle then l - 1 else l)
  else l

/-! ### Leases under the throttle order (R391, R393, R399) -/

/-- A lease word with its figures. -/
def leaseWord (ln : Nat) (rail : BitVec 2) (gst li lj : Nat) : Word :=
  w64 (ln * 2 ^ 48 + rail.toNat * 2 ^ 42 + gst * 2 ^ 40 + li * 2 ^ 16 + lj)

/-- The lease as it was granted, with the ticks that are left, also while a power step has reduced its figures. -/
def Pass.fullLease (p : Pass) : Word :=
  match p.granted with
  | some w => leaseWord (fld p.lease 63 48) (BitVec.ofNat 2 (fld p.lease 43 42)) (fld w 41 40) (fld w 31 16) (fld w 15 0)
  | none => p.lease

/-- The figures of a lease under a power step. -/
def State.paced (s : State) (p : Pass) : Pass :=
  if fld p.lease 41 40 = 0 || p.granted.isSome then p
  else
    { p with granted := some p.lease,
             lease := leaseWord (fld p.lease 63 48) (BitVec.ofNat 2 (fld p.lease 43 42)) 2
               (Nat.min (fld p.lease 31 16) (Config.pacedI s.cycle p.pid).toNat)
               (Nat.min (fld p.lease 15 0) (Config.pacedJ s.cycle p.pid).toNat) }

/-- The lease of a resident pass as the steps that act on its class leave it. -/
def State.throttled (s : State) (p : Pass) : Pass :=
  if p.st != .resident then p
  else if s.stepActs 1 (s.powcOf p) then s.paced p else { p with lease := p.fullLease, granted := none }

/-- The capo at the end of a cycle. -/
def State.capoStep (s : State) : State :=
  let l := s.nextLevel
  let met := Config.limitMet s.cycle && decide (s.drawAt l ≤ Nat.max 300 s.powerLimit)
  let past := if met then [] else s.mg.past.filter (fun e => !overdue200 e.1 s.cycle)
  let t : State := { s with mg := { s.mg with level := l, past := past } }
  { t with passes := t.passes.map t.throttled }

/-! ### The paces of the engines (R394, R399) -/

/-- No lease, or a lease whose energy of this interval is used up: the engines run at their pacing floor (R394). -/
def Pass.atFloor (p : Pass) : Bool := fld p.lease 41 40 == 0 || p.exhausted

/-- The half clocks of a K-step to which pacing slows the array of a core: 32 at the floor of one K-step in 16 clocks; a step
of the throttle order short of its floor slows it by a free measure. -/
def State.matPace (s : State) (p : Pass) (lc : Nat) : Nat :=
  if p.atFloor || s.stepFloor 1 (s.powcOf p) then 32
  else if s.stepActs 1 (s.powcOf p) then Nat.min 32 (Config.pace s.cycle lc 1)
  else 0

/-- The bytes that the copy engine of a core may move in a cycle (R394, R399, R428). -/
def State.copyRate (s : State) (p : Pass) (lc : Nat) : Nat :=
  let rate := if p.atFloor then 64 else 256
  if s.stepFloor 2 (s.powcOf p) then 16
  else if s.stepActs 2 (s.powcOf p) then Nat.min rate (Nat.max 16 (Config.pace s.cycle lc 2))
  else rate

/-- The throttle order keeps the vector unit of a core from issuing in this cycle; at its floor it has one issue in 4 cycles,
at a free phase (DESIGN CHOICE, notes/assumptions/60.md). -/
def State.vecPaced (s : State) (p : Pass) (lc : Nat) : Bool :=
  s.stepFloor 4 (s.powcOf p) && s.cycle % 4 != Config.pace 0 lc 4 % 4

end Sys2Proof.Machine
end

