-- ==== Sys2Proof/Machine/Queues.lean ====
section
/-! DEFINITION. What the command queues of the engines share: their depths, commands with what they capture at issue, taps
in words, pins, line-store accesses of engines, mapped regions, engine faults and completion (spec/03_execution_model.md
R45, R46, spec/04_ordering_machine.md R59, R60, R72, spec/10_signals.md R175 to R179, spec/24_translation_and_faults.md R373,
R377 to R379, R386). -/

namespace Sys2Proof.Machine

/-! ### Queues -/

/-- R45. -/
def qCap : Eng → Nat
  | .mat => 64
  | .copy => 64
  | .vec => 32
  | .curve => 16
  | .att => 16

/-- The unit number of an engine in a log record (R374). -/
def engNo : Eng → Nat
  | .mat => 2
  | .copy => 3
  | .vec => 4
  | .curve => 5
  | .att => 6

/-- The commands of an engine in a state, oldest first. -/
def CoreSt.cmdsIn (c : CoreSt) (e : Eng) (st : CmdSt) : List Cmd := c.cmds.filter (fun k => k.eng == e && k.st == st)

def CoreSt.qFull (c : CoreSt) (e : Eng) : Bool := decide (qCap e ≤ (c.cmdsIn e .queued).length)

/-- The annotation of an access that carries none. -/
def noOrd : Ord14 := { kind := .none, scope := 0, paths := 0 }

/-- A command as its word issues it (R212, R267). -/
def Cmd.new (x : Ctx) (s : State) (e : Eng) (i : Instr) (ops : List Val) : Cmd :=
  { id := s.seq, eng := e, st := .queued, ins := i, ops := ops, taps := [], wpins := [], rpins := [], fmt := 0,
    rm := x.c.rm, seed := x.t.srdseed, kvs := [], range := (0, 0), outs := [], tag := x.h.ta, seq := s.seq,
    ivl := x.p.now.toNat, wait := none, sig := none, ord := noOrd, begun := 0, prog := 0, blks := none, flt := none,
    held := false }

/-- The command enters its queue with its pins (R176, R179). -/
def State.enqueue (s : State) (x : Ctx) (k : Cmd) : State :=
  ((s.pinsW x.w.pid k.wpins).pinsR x.w.pid k.rpins).updCore x.w.pid x.w.qc (fun c => { c with cmds := c.cmds ++ [k] })

/-- A pin that the command would place exceeds the count of R179. -/
def Pass.pinsFull (p : Pass) (k : Cmd) : Bool :=
  k.wpins.any (p.pinFull true) || k.rpins.any (p.pinFull false)

/-- A full queue holds a word before its faults (R45, R122). -/
def freeQ (x : Ctx) (s : State) (e : Eng) (k : Act) : Act := if x.c.qFull e then Act.hold s else k

/-- A word that only puts a command in its queue: it holds on a full queue and at the pin limit. -/
def enqAct (x : Ctx) (s : State) (k : Cmd) : Act :=
  if x.c.qFull k.eng || x.p.pinsFull k then Act.hold s else Act.done (s.enqueue x k)

def State.cmd? (s : State) (pid qc n : Nat) : Option Cmd :=
  match s.core? pid qc with
  | some c => c.cmds.find? (fun k => k.id == n)
  | none => none

def State.updCmd (s : State) (pid qc n : Nat) (f : Cmd → Cmd) : State :=
  s.updCore pid qc (fun c => { c with cmds := c.cmds.map (fun k => if k.id == n then f k else k) })

/-- A wait of a command of an engine's queue head that finds its counter above zero decrements it; the acquire flush runs
at that moment (R72, R134). -/
def State.takeWait (s : State) (pid qc : Nat) (cl : Cls) (k : Cmd) : State :=
  match s.core? pid qc, k.wait with
  | some c, some n =>
    if semVal c n = 0 then s
    else
      let s1 := (s.updCore pid qc (fun c => semDec c n)).updCmd pid qc k.id (fun k => { k with wait := none, ord := noOrd })
      if isAcq k.ord then
        let ag := Agent.core c.lcore
        s1.acquire ag pid qc k.seq (pathSet k.ord.paths cl) (s1.scopeLvl ag k.ord.scope.toNat)
      else s1
  | _, _ => s

/-- The head leaves its queue; the flush of a command that names no wait runs now (R72). -/
def State.departCmd (s : State) (pid qc : Nat) (cl : Cls) (k : Cmd) : State :=
  match s.core? pid qc with
  | some c =>
    let s1 := s.updCmd pid qc k.id (fun k => { k with st := .departed, ord := noOrd, begun := s.cycle })
    if isAcq k.ord then
      let ag := Agent.core c.lcore
      s1.acquire ag pid qc k.seq (pathSet k.ord.paths cl) (s1.scopeLvl ag k.ord.scope.toNat)
    else s1
  | none => s

/-- Pins of a command are released once its accesses have been performed (R176, R179). -/
def State.freePins (s : State) (pid qc : Nat) (k : Cmd) : State :=
  ((s.unpinsW pid k.wpins).unpinsR pid k.rpins).updCmd pid qc k.id (fun k => { k with wpins := [], rpins := [] })

/-- The command completes and increments its semaphore (R59). -/
def State.endCmd (s : State) (pid qc : Nat) (k : Cmd) : State :=
  let s := (s.unpinsW pid k.wpins).unpinsR pid k.rpins
  let s := match k.flt with
    | some f => s.logEngine pid qc (engNo k.eng) f.1 f.2
    | none => s
  s.updCore pid qc (fun c =>
    let c := { c with cmds := c.cmds.filter (fun j => j.id != k.id),
                      flts := if k.flt.isSome then c.flts ++ [(k.eng, k.seq)] else c.flts }
    match k.sig with
    | some n => semInc c n
    | none => c)

/-! ### The notify combiner (R21, R334, R343) -/

/-- A notify word enters its queue: the combiner tracks it. -/
def State.enqueueNot (s : State) (x : Ctx) (k : Cmd) : State :=
  (s.enqueue x k).updCore x.w.pid x.w.qc (fun c => { c with nots := c.nots ++ [(k.eng, k.seq, false)] })

/-- The oldest notify of each queue that no event has counted. -/
def CoreSt.tracked (c : CoreSt) : List (Eng × Nat × Bool) :=
  [Eng.mat, Eng.copy].filterMap (fun e => c.nots.find? (fun n => n.1 == e))

/-- A command lies in the batch of a counted notify: it was issued in its queue no later than the notify. -/
def inBatch (l : List (Eng × Nat × Bool)) (f : Eng × Nat) : Bool := l.any (fun n => n.1 == f.1 && decide (f.2 ≤ n.2.1))

/-- A completion event is raised when every tracked notify has completed, at most one in a cycle: it counts them, takes the
faults of their batches, and takes the oldest armed future, if there is one (R343). -/
def CoreSt.raiseEvent (c : CoreSt) (cycle : Nat) (e : Eng) : CoreSt :=
  let l := c.tracked
  if l.isEmpty || l.any (fun n => !n.2.2) || c.evAt == some cycle then c
  else
    { c with nots := c.nots.filter (fun n => !l.contains n), flts := c.flts.filter (fun f => !inBatch l f),
             armed := c.armed.tail, evAt := some cycle,
             events := c.events ++ c.armed.head?.toList.map (fun a => { eng := e, flt := c.flts.any (inBatch l), armed := a }) }

/-- A notify completes. -/
def State.notify (s : State) (pid qc : Nat) (k : Cmd) : State :=
  (s.endCmd pid qc k).updCore pid qc (fun c =>
    ({ c with nots := c.nots.map (fun n => if n.1 == k.eng && n.2.1 == k.seq then (n.1, n.2.1, true) else n) } : CoreSt).raiseEvent
      s.cycle k.eng)



/-! ### Taps in words -/

/-- The register that an indexed tap reads (R115). -/
def tapSrc : Tap → List Opnd
  | .direct _ _ _ => []
  | .indexed _ r => [.r r]

/-- Signal, lag and row of a tap, with the value of its register (R115). -/
def tapArgs (t : Tap) (w : Word) : Nat × Nat × Nat :=
  match t with
  | .direct sg lag row => (sg.toNat, lag.toNat, row.toNat)
  | .indexed sg _ => (sg.toNat, fld w 23 0, fld w 36 32)

/-- A segment at or above the row's segments (R192). -/
def Pass.segBad (p : Pass) (sg seg : Nat) : Bool :=
  match p.sig? sg with
  | some g => decide (g.desc.rw ≤ seg)
  | none => false

/-- The KV page of a tapped sample, if the sample lies on one (R344). -/
def State.kvOf (s : State) (asid : BitVec 16) (p : Pass) (t : RTap) : Option (Nat × PageSt) :=
  match p.sig? t.sig with
  | some g =>
    if t.num < 0 || !isKv p.ctx g.desc then none
    else some (kvBlk p.ctx g.desc t.num.toNat, s.pageSt p.ctx asid g.desc t.num.toNat)
  | none => none

/-- What a reading word finds at issue: a fault, a hold, or the resolved tap (R175, R178, R179, R362). -/
inductive TapRes
  | fault (e : BitVec 8 × Word)
  | hold (s : State)
  | page (s : State) (f : AccFault)
  | ok (s : State) (t : RTap)
  deriving DecidableEq, Repr

/-- The fault of a tap that does not resolve, or of a segment outside the row; a signal-number fault comes first (R192). -/
def Pass.tapFault (p : Pass) (a : Nat × Nat × Nat) (seg : Nat) (e : BitVec 8 × Word) : TapRes :=
  .fault (if e.1 != 0x12 && p.segBad a.1 seg then (0x13, tapInfo a.1 a.2.1 a.2.2) else e)

/-- The backing slot of a tapped sample is translated when the sample is first touched (R183), after the releases that name
walks (R71). -/
def State.touchTap (s : State) (x : Ctx) (t : RTap) (acc : Acc) : TapRes :=
  let u := s.touch x.w.pid x.lc t.sig t.num.toNat x.asid acc
  if s.walkHeld x.ag s.seq then .hold s
  else
    match u.1 with
    | .error f => .page u.2 f
    | .ok s1 => .ok s1 t

/-- The checks and holds of a tap that a word reads; a fault waits until nothing holds the word (R122). -/
def readTap (x : Ctx) (s : State) (a : Nat × Nat × Nat) (seg : Nat) : TapRes :=
  match x.p.resolve a.1 a.2.1 a.2.2 with
  | .error e => x.p.tapFault a seg e
  | .ok t =>
    let go : TapRes :=
      if !x.p.tapReady t || t.pin.any (x.p.pinFull false) then .hold s
      else if x.p.segBad a.1 seg then .fault (0x13, tapInfo a.1 a.2.1 a.2.2)
      else if t.num < 0 || (s.kvOf x.asid x.p t).isSome then .ok s t
      else s.touchTap x t .rd
    match s.kvOf x.asid x.p t with
    | some (b, st) => if st != .hbm && st != .none then .hold (s.wantPage x.asid b x.w.pid) else go
    | none => go

/-- The checks and holds of a tap that a word writes: R177, then a frame for a KV slot (R425). -/
def writeTap (x : Ctx) (s : State) (a : Nat × Nat × Nat) (seg : Nat) : TapRes :=
  match x.p.resolveW a.1 a.2.1 a.2.2 with
  | .error e => x.p.tapFault a seg e
  | .ok t =>
    if t.pin.any (x.p.pinFull true) then .hold s
    else if x.p.segBad a.1 seg then .fault (0x13, tapInfo a.1 a.2.1 a.2.2)
    else
      match s.kvOf x.asid x.p t with
      | some (b, _) =>
        match s.allocPages x.asid (x.p.ctx).kpb x.w.pid [b] with
        | none => .hold s
        | some s1 => .ok s1 t
      | none => s.touchTap x t .wr

/-- A word goes on with a tap that it reads, or ends as the tap's checks say. -/
def TapRes.run (r : TapRes) (s : State) (k : State → RTap → Act) : Act :=
  match r with
  | .fault e => Act.trap s e.1 e.2
  | .hold s => Act.hold s
  | .page s f => .page s f
  | .ok s t => k s t

/-- A tap that holds its word holds it before the word's other faults (R122). -/
def TapRes.before (r : TapRes) (k : Act) : Act :=
  match r with
  | .hold s => Act.hold s
  | _ => k

/-! ### The line store under the engines -/

/-- The detail of an LS-address fault (R231). -/
def lsInfo (reason lane a : Nat) : Word := w64 (reason * 2 ^ 32 + lane * 2 ^ 24 + a % 2 ^ 24)

/-- The reason for which n bytes from a are refused, below a top: outside, slot area, misaligned (R231). -/
def lsReason (top a n al : Nat) : Option Nat :=
  if 2 ^ 24 < a + n then some 0
  else if top < a + n && n != 0 then some 1
  else if a % al != 0 then some 2
  else none

/-- The first refused range of a list of (address, length), with the detail of lane 0xFF; its address is where the range
begins. -/
def lsCheck (top al : Nat) : List (Nat × Nat) → Option Word
  | [] => none
  | (a, n) :: r =>
    match lsReason top a n al with
    | some why => some (lsInfo why 0xFF a)
    | none => lsCheck top al r

/-- Rotation of a line-store byte address (R264, R307). -/
def rotAddr (rot r a : Nat) : Nat :=
  if rot = 0 then a else a / 2048 * 2048 + (a / 64 % 32 + rot * (r % 32)) % 32 * 64 + a % 64

/-- The 2 KiB blocks that n bytes from a touch. -/
def blocksOf (a n : Nat) : List Nat :=
  if n = 0 then [] else (List.range ((a + n - 1) / 2048 - a / 2048 + 1)).map (fun i => a / 2048 + i)

/-- Cells cut where their 64-byte line changes; the engines write line by line (notes/assumptions/16.md). -/
def groupLines : List Host.Cell → List (List Host.Cell)
  | [] => []
  | c :: cs =>
    match groupLines cs with
    | [] => [[c]]
    | g :: gs => if (g.headD c).1 / 64 = c.1 / 64 then (c :: g) :: gs else [c] :: g :: gs

/-- Writes of an engine enter a path buffer (R53); `bad` are the keys whose bytes are poisoned, `page` the page that
translated them, `cmd` the number of their command, `half` that of an access on several pages (R64). -/
def State.putCells (s : State) (ag : Agent) (cl : Cls) (pid qc : Nat) (pk : PK) (cells : List Host.Cell)
    (bad : List Nat) (page : Option (Nat × Nat) := none) (cmd : Nat := 0) (half : Option Nat := none) : State :=
  (groupLines cells).foldl (fun s g =>
    let wr : Wr := { seq := s.seq, pk := pk, cells := g, bad := bad.filter (fun k => g.any (fun c => c.1 == k)),
                     half := half, page := page }
    (s.issueEntry ag cl { seq := s.seq, po := if cmd = 0 then s.seq else cmd, wr := wr, act := .write, key := cmd, hist := 0,
                          ord := noOrd, asc := 0, pid := pid, qc := qc }).tickSeq) s

/-- The bytes of one access, written on the pages that it lies on; its halves are in no order (R64). -/
def State.putParts (s : State) (ag : Agent) (cl : Cls) (pid qc cmd : Nat) (ps : List Part) (w : Row) : State :=
  let ks := partKeys ps
  let cells := keyCells ks w.bytes
  let half := if ps.length < 2 then none else some s.seq
  ps.foldl (fun s p =>
    s.putCells ag cl pid qc p.pk (cells.filter (fun c => p.keys.contains c.1)) (w.bad.map (fun i => ks.getD i 0))
      (if p.lg = 0 then none else some p.page) cmd half) s

/-- n line-store bytes from a as a class of a core reads them. -/
def State.lsGet (s : State) (lc : Nat) (cl : Cls) (a n : Nat) : List Byte :=
  s.readKeys (.core lc) cl (lsKeys lc a n)

/-- Line-store bytes written on a class of a core by the command of a number. -/
def State.lsPut (s : State) (lc : Nat) (cl : Cls) (pid qc cmd a : Nat) (bs : List Byte) : State :=
  s.putCells (.core lc) cl pid qc .r (keyCells (lsKeys lc a bs.length) bs) [] none cmd

/-! ### Mapped regions (R378, R379) -/

/-- The slot and block of a map that holds a line-store block. -/
def mapAt (ms : Map MapSlot) (b : Nat) : Option (Nat × Nat) :=
  ms.findSome? (fun m => if m.2.la / 2048 ≤ b && decide (b < m.2.la / 2048 + m.2.nb) then some (m.1, b - m.2.la / 2048)
    else none)

/-- A block of a mapped region that is not present. -/
def absentBlk (c : CoreSt) (b : Nat) : Option (Nat × Nat) :=
  match mapAt c.slots b with
  | some (i, j) =>
    match c.slots.find? (fun m => m.1 == i) with
    | some m => if m.2.present.contains j then none else some (i, j)
    | none => none
  | none => none

/-- Blocks written are marked dirty. -/
def dirtyBlks (c : CoreSt) (bs : List Nat) : CoreSt :=
  { c with slots := c.slots.map (fun m =>
      (m.1, { m.2 with dirty := m.2.dirty ++ ((List.range m.2.nb).filter (fun j =>
        bs.contains (m.2.la / 2048 + j) && !m.2.dirty.contains j)) })) }

/-- Line-store blocks that a command reads and writes, and the virtual lines (R268, R316). -/
structure Foot where
  rd  : List Nat
  wr  : List Nat
  vrd : List Nat
  vwr : List Nat
  deriving DecidableEq, Repr

def Foot.none : Foot := { rd := [], wr := [], vrd := [], vwr := [] }

def meets (a b : List Nat) : Bool := a.any (fun x => b.contains x)

/-- One footprint must wait for an earlier one. -/
def Foot.clash (x y : Foot) : Bool :=
  meets y.wr x.rd || meets y.wr x.wr || meets y.rd x.wr || meets y.vwr x.vrd || meets y.vwr x.vwr || meets y.vrd x.vwr

/-- Every mapped block of a footprint is present. -/
def CoreSt.footPresent (c : CoreSt) (f : Foot) : Bool := (f.rd ++ f.wr).all (fun b => (absentBlk c b).isNone)

/-! ### Faults of commands after issue -/

/-- The command stops with an engine fault (R386). -/
def State.cmdFault (s : State) (pid qc n : Nat) (cause : BitVec 8) (info : Word) : State :=
  s.updCmd pid qc n (fun k => { k with flt := some (cause, info) })

/-- A fault of an access that a command performs: with a fault log a translation fault holds the command and stalls the
quire, any other is an engine fault (R319, R373). -/
def State.cmdAccFault (s : State) (p : Pass) (r : Run) (qc lc : Nat) (k : Cmd) (f : AccFault) : State :=
  if f.cause = 0x0A && p.ctx.flb != 0 then
    let id := s.nextId
    let pf : PFault := { id := id, logId := none, asid := r.rcd.asid, pid := p.pid, qc := qc, who := .cmd k.id, va := f.va,
                         info := f.info, reason := f.reason }
    (({ s with faults := s.faults ++ [pf], nextId := id + 1 } : State).updCmd p.pid qc k.id (fun k => { k with held := true })).log
      { asid := r.rcd.asid, w0 := logHead 1 (BitVec.ofNat 8 f.reason) lc (engNo k.eng) r.rcd.asid, info := f.info,
        run := vaWord r.addr, ctx := p.ctx, flt := some id }
  else s.cmdFault p.pid qc k.id f.cause f.info

/-- What an event of an engine's command finds. -/
structure CmdCtx where
  p  : Pass
  r  : Run
  c  : CoreSt
  k  : Cmd
  qc : Nat
  deriving DecidableEq, Repr

def CmdCtx.lc (x : CmdCtx) : Nat := x.c.lcore
def CmdCtx.asid (x : CmdCtx) : BitVec 16 := x.r.rcd.asid
def CmdCtx.top (x : CmdCtx) : Nat := lsLimit x.r.rcd.sigs x.qc

/-- A command of a resident pass. -/
def State.cmdCtx (s : State) (pid qc n : Nat) : Option CmdCtx :=
  match s.pass? pid with
  | some p =>
    match p.cores[qc]?, s.run? p.rid with
    | some c, some r =>
      if p.st == .resident then (c.cmds.find? (fun k => k.id == n)).map (fun k => { p := p, r := r, c := c, k := k, qc := qc })
      else none
    | _, _ => none
  | none => none

/-- The head of an engine's queue. -/
def State.headCtx (s : State) (pid qc : Nat) (e : Eng) : Option CmdCtx :=
  match s.core? pid qc with
  | some c =>
    match (c.cmdsIn e .queued).head? with
    | some k => s.cmdCtx pid qc k.id
    | none => none
  | none => none

/-- Positions of a list of keys that are poisoned for a reader. -/
def badPos (s : State) (ag : Agent) (cl : Cls) (ks : List Nat) : List Nat :=
  let b := s.badKeys ag cl ks
  (List.range ks.length).filter (fun i => b.contains (ks.getD i 0))

/-- Line-store bytes with their poison, as a class of a core reads them. -/
def State.lsRow (s : State) (lc : Nat) (cl : Cls) (ks : List Nat) : Row :=
  { bytes := s.readKeys (.core lc) cl ks, bad := badPos s (.core lc) cl ks }

/-- A step of a command is done: the next is to follow, and what its engine's rate gave it is used (R260, R428). -/
def State.stepDone (s : State) (x : CmdCtx) : State :=
  s.updCmd x.p.pid x.qc x.k.id (fun k => { k with prog := k.prog + 1, quota := 0, parts := [] })

/-- What a command still lacks for a step, out of what its engine has left in this cycle. -/
def Cmd.share (k : Cmd) (need left : Nat) : Nat := Nat.min left (need - k.quota)

/-- Commands of an engine that have left the queue and are not complete, issued before one. -/
def CmdCtx.earlier (x : CmdCtx) : List Cmd :=
  x.c.cmds.filter (fun k => k.eng == x.k.eng && k.st != .queued && decide (k.seq < x.k.seq))

end Sys2Proof.Machine
end

