-- ==== Sys2Proof/Machine/Curve.lean ====
section
/-! DEFINITION. The curve unit: curve-coordinate keys, boxes and csplit (spec/14_curve_unit.md R238 to R255). -/

namespace Sys2Proof

/-! ### Keys (R238, R239) -/

/-- Bits of a key of a shape. -/
def KShape.bits (k : KShape) : Nat := k.nd * k.aw

/-- Bits of a number at the positions `off + step * b` for b below w, lowest first. -/
def pickBits (x off step : Nat) : Nat → Nat
  | 0 => 0
  | w + 1 => pickBits x off step w + (if x.testBit (off + step * w) then 2 ^ w else 0)

/-- Axis j of a key. -/
def KShape.axis (k : KShape) (key j : Nat) : Nat := pickBits key j k.nd k.aw

def KShape.axes (k : KShape) (key : Nat) : List Nat := (List.range k.nd).map (k.axis key)

/-- The low w bits of a number spread to the positions `off + step * b`. -/
def spreadBits (x off step : Nat) : Nat → Nat
  | 0 => 0
  | w + 1 => spreadBits x off step w + (if x.testBit w then 2 ^ (off + step * w) else 0)

/-- The key of a list of axis values, axis j0 first. -/
def KShape.keyFrom (k : KShape) : Nat → List Nat → Nat
  | _, [] => 0
  | j, x :: xs => spreadBits x j k.nd k.aw + k.keyFrom (j + 1) xs

def KShape.key (k : KShape) (axes : List Nat) : Nat := k.keyFrom 0 axes

/-- A key operand, read modulo its shape (R238). -/
def KShape.read (k : KShape) (w : Word) : Nat := w.toNat % 2 ^ k.bits

/-- Axis j of a packed word (R239). -/
def KShape.packed (k : KShape) (x : Nat) : List Nat := (List.range k.nd).map (fun j => x / 2 ^ (j * k.aw) % 2 ^ k.aw)

def KShape.pack (k : KShape) : List Nat → Nat
  | [] => 0
  | x :: xs => x + 2 ^ k.aw * k.pack xs

/-- The semaphore that a word waits on, and the one it signals (R231). -/
def SemMode.waitSem : SemMode → Option Nat
  | .wait n => Option.some n.toNat
  | _ => Option.none
def SemMode.sigSem : SemMode → Option Nat
  | .sig n => Option.some n.toNat
  | _ => Option.none

end Sys2Proof

namespace Sys2Proof.Machine

/-! ### Scalar results -/

/-- R244. -/
def ckeyOf (k : KShape) (a : Word) : Word := w64 (k.key (k.packed (k.read a)))
def cunkOf (k : KShape) (a : Word) : Word := w64 (k.pack (k.axes (k.read a)))

/-- Bits of a list of truths, the first at bit 0. -/
def flagBits : List Bool → Nat
  | [] => 0
  | b :: bs => (if b then 1 else 0) + 2 * flagBits bs

/-- R245. -/
def caddOf (k : KShape) (sub sat fl : Bool) (a b : Word) : Word :=
  let xs := (List.range k.nd).map (fun j =>
    let o := sval k.aw (k.axis (k.read b) j)
    ((k.axis (k.read a) j : Nat) : Int) + (if sub then -o else o))
  if fl then w64 (flagBits (xs.map (fun x => decide (x < 0) || decide ((2 ^ k.aw : Int) ≤ x))))
  else w64 (k.key (xs.map (fun x =>
    if sat then (if x < 0 then 0 else if (2 ^ k.aw : Int) ≤ x then 2 ^ k.aw - 1 else x.toNat)
    else (x % (2 ^ k.aw : Int)).toNat)))

/-- R246. -/
def ccmpOf (k : KShape) (cc : KCond) (a b : Word) : Word :=
  let x := k.read a
  let y := k.read b
  let fs := (List.range k.nd).map (fun j => kcondHolds cc (k.axis x j) (k.axis y j))
  w64 ((if kcondHolds cc x y then 512 else 0) + (if fs.all id then 256 else 0) + flagBits fs)

/-- R247. -/
def cboxOf (k : KShape) (a lo hi : Word) : Word :=
  let above := (List.range k.nd).map (fun j => decide (k.axis (k.read hi) j < k.axis (k.read a) j))
  let below := (List.range k.nd).map (fun j => decide (k.axis (k.read a) j < k.axis (k.read lo) j))
  w64 (flagBits above * 2 ^ 16 + flagBits below * 2 ^ 8 + (if above.any id || below.any id then 0 else 1))

/-- R248. -/
def cclampOf (k : KShape) (a lo hi : Word) : Word :=
  w64 (k.key ((List.range k.nd).map (fun j =>
    Nat.min (Nat.max (k.axis (k.read a) j) (k.axis (k.read lo) j)) (k.axis (k.read hi) j))))

/-- R249. -/
def cmaskOf (k : KShape) (m : MaskArg) (a : Word) : Word :=
  match m with
  | .lvl n => w64 (k.read a / 2 ^ (k.nd * n.toNat) * 2 ^ (k.nd * n.toNat))
  | .ax m => w64 (k.key ((List.range k.nd).map (fun j => if m.getLsbD j then k.axis (k.read a) j else 0)))

/-! ### Searching a box (R250) -/

/-- A box by its axis bounds, both included. -/
structure Box where
  lo : List Nat
  hi : List Nat
  deriving DecidableEq, Repr

def boxOf (k : KShape) (lo hi : Word) : Box := { lo := k.axes (k.read lo), hi := k.axes (k.read hi) }

/-- The keys from p to p + 2^i - 1 make a cell; its part inside a box. -/
def Box.cell (k : KShape) (b : Box) (p i : Nat) : Box :=
  { lo := List.zipWith Nat.max b.lo (k.axes p), hi := List.zipWith Nat.min b.hi (k.axes (p + 2 ^ i - 1)) }

def Box.isEmpty (b : Box) : Bool := (List.zip b.lo b.hi).any (fun x => decide (x.2 < x.1))

/-- A cell lies wholly inside a box. -/
def Box.holds (k : KShape) (b : Box) (p i : Nat) : Bool :=
  (List.zip b.lo (k.axes p)).all (fun x => decide (x.1 ≤ x.2)) &&
  (List.zip (k.axes (p + 2 ^ i - 1)) b.hi).all (fun x => decide (x.1 ≤ x.2))

/-- The smallest key of the box in the cell (p, i) that is at least a, where a lies in the cell. -/
def Box.seekUp (k : KShape) (b : Box) (a : Nat) : Nat → Nat → Option Nat
  | 0, p => if (b.cell k p 0).isEmpty then none else some p
  | i + 1, p =>
    if (b.cell k p (i + 1)).isEmpty then none
    else if a.testBit i then b.seekUp k a i (p + 2 ^ i)
    else
      match b.seekUp k a i p with
      | some r => some r
      | none =>
        let c := b.cell k (p + 2 ^ i) i
        if c.isEmpty then none else some (k.key c.lo)

/-- The largest key of the box in the cell that is at most a. -/
def Box.seekDown (k : KShape) (b : Box) (a : Nat) : Nat → Nat → Option Nat
  | 0, p => if (b.cell k p 0).isEmpty then none else some p
  | i + 1, p =>
    if (b.cell k p (i + 1)).isEmpty then none
    else if a.testBit i then
      match b.seekDown k a i (p + 2 ^ i) with
      | some r => some r
      | none =>
        let c := b.cell k p i
        if c.isEmpty then none else some (k.key c.hi)
    else b.seekDown k a i p

/-- The smallest key of the cell that is not in the box, for a cell that has one. -/
def Box.firstOut (k : KShape) (b : Box) : Nat → Nat → Nat
  | 0, p => p
  | i + 1, p => if b.holds k p i then b.firstOut k i (p + 2 ^ i) else b.firstOut k i p

/-- The smallest key at least a, in the cell that holds a, that is not in the box. -/
def Box.seekOut (k : KShape) (b : Box) (a : Nat) : Nat → Nat → Option Nat
  | 0, p => if b.holds k p 0 then none else some p
  | i + 1, p =>
    if b.holds k p (i + 1) then none
    else if a.testBit i then b.seekOut k a i (p + 2 ^ i)
    else
      match b.seekOut k a i p with
      | some r => some r
      | none => if b.holds k (p + 2 ^ i) i then none else some (b.firstOut k i (p + 2 ^ i))

/-- No key qualifies (R250). -/
def noKey : Word := 0xFFFFFFFFFFFFFFFF

def keyOr : Option Nat → Word
  | some r => w64 r
  | none => noKey

/-- R250. -/
def cnextOf (k : KShape) (incl : Bool) (a lo hi : Word) : Word :=
  let x := k.read a + (if incl then 0 else 1)
  if 2 ^ k.bits ≤ x then noKey else keyOr ((boxOf k lo hi).seekUp k x k.bits 0)

def cprevOf (k : KShape) (incl : Bool) (a lo hi : Word) : Word :=
  let x := k.read a
  if incl then keyOr ((boxOf k lo hi).seekDown k x k.bits 0)
  else if x = 0 then noKey
  else keyOr ((boxOf k lo hi).seekDown k (x - 1) k.bits 0)

/-! ### Direct words -/

/-- The register after an even register of either kind (R241). -/
def pairHi : Opnd → Opnd
  | .r n => .r (n + 1)
  | .v n => .v (n + 1)
  | o => o

/-- Element j of a curve operand; a scalar is broadcast (R241). -/
def keyEl (v : Val) (j : Nat) : Word :=
  match v with
  | .w x => x
  | .v x => x.extractLsb' (64 * j) 64

def packWords : List Word → Nat
  | [] => 0
  | w :: ws => w.toNat + 2 ^ 64 * packWords ws

/-- A direct curve word over its elements: one in the scalar form, 32 in the vector form (R241, R243). -/
def curveWord (h : Hdr) (srcs : List Opnd) (d : Opnd) (f : List Word → Word) (s : State) : Out3 :=
  issue h srcs [d] s (fun x vs =>
    match d with
    | .v _ => Act.fixed x s d (.v (BitVec.ofNat 2048 (packWords ((List.range 32).map (fun j => f (vs.map (fun v => keyEl v j)))))))
    | _ => Act.fixed x s d (.w (f (vs.map (fun v => keyEl v 0)))))

def argW (l : List Word) (i : Nat) : Word := l.getD i 0

def execCkey (h : Hdr) (sh : KShape) (d a : Opnd) (s : State) : Out3 :=
  curveWord h [a] d (fun l => ckeyOf sh (argW l 0)) s
def execCunk (h : Hdr) (sh : KShape) (d a : Opnd) (s : State) : Out3 :=
  curveWord h [a] d (fun l => cunkOf sh (argW l 0)) s
def execCadd (h : Hdr) (sh : KShape) (sat fl : Bool) (d a b : Opnd) (s : State) : Out3 :=
  curveWord h [a, b] d (fun l => caddOf sh false sat fl (argW l 0) (argW l 1)) s
def execCsub (h : Hdr) (sh : KShape) (sat fl : Bool) (d a b : Opnd) (s : State) : Out3 :=
  curveWord h [a, b] d (fun l => caddOf sh true sat fl (argW l 0) (argW l 1)) s
def execCcmp (h : Hdr) (sh : KShape) (cc : KCond) (d a b : Opnd) (s : State) : Out3 :=
  curveWord h [a, b] d (fun l => ccmpOf sh cc (argW l 0) (argW l 1)) s
def execCbox (h : Hdr) (sh : KShape) (d a b : Opnd) (s : State) : Out3 :=
  curveWord h [a, b, pairHi b] d (fun l => cboxOf sh (argW l 0) (argW l 1) (argW l 2)) s
def execCnext (h : Hdr) (sh : KShape) (incl : Bool) (d a b : Opnd) (s : State) : Out3 :=
  curveWord h [a, b, pairHi b] d (fun l => cnextOf sh incl (argW l 0) (argW l 1) (argW l 2)) s
def execCprev (h : Hdr) (sh : KShape) (incl : Bool) (d a b : Opnd) (s : State) : Out3 :=
  curveWord h [a, b, pairHi b] d (fun l => cprevOf sh incl (argW l 0) (argW l 1) (argW l 2)) s
def execCclamp (h : Hdr) (sh : KShape) (d a b : Opnd) (s : State) : Out3 :=
  curveWord h [a, b, pairHi b] d (fun l => cclampOf sh (argW l 0) (argW l 1) (argW l 2)) s
def execCmask (h : Hdr) (sh : KShape) (m : MaskArg) (d a : Opnd) (s : State) : Out3 :=
  curveWord h [a] d (fun l => cmaskOf sh m (argW l 0)) s

/-! ### csplit -/

/-- Entries the list may hold (R251). -/
def splitCap (a : Word) : Nat := if fld a 40 32 = 0 then 512 else fld a 40 32

/-- A word that queues a command with a register result, which the command delivers (R212, R253). -/
def queueResult (x : Ctx) (s : State) (k : Cmd) (outs : List (Opnd × Option Val)) (due : Due) : Act :=
  if x.c.qFull k.eng || x.p.pinsFull k then Act.hold s
  else .go { st := s.enqueue x k, outs := outs, due := due, req := .entry, pin := none, arg := 0,
             next := .seq }

/-- R251: queues the split; its three registers are read here. -/
def execCsplit (h : Hdr) (sh : KShape) (sm : SemMode) (d a b : Opnd) (s : State) : Out3 :=
  issue h [a, b, pairHi b] [d] s (fun x vs =>
    let la := fld (wordAt vs 0) 23 0
    freeQ x s .curve (match lsCheck (s.lsTop x.w.pid x.w.qc) 16 [(la, 16 + 16 * splitCap (wordAt vs 0))] with
      | some info => Act.trap s 0x17 info
      | none =>
        let k := Cmd.new x s .curve (.csplit h sh sm d a b) vs
        queueResult x s { k with wait := sm.waitSem, sig := sm.sigSem } [(d, none)] (.least (x.w.cycle + 9))))

/-- The maximal runs of consecutive keys of a box from a key on, at most `fuel` of them (R253). -/
def Box.runs (k : KShape) (b : Box) : Nat → Nat → List (Nat × Nat)
  | 0, _ => []
  | n + 1, x =>
    if 2 ^ k.bits ≤ x then []
    else
      match b.seekUp k x k.bits 0 with
      | none => []
      | some f =>
        let e := match b.seekOut k f k.bits 0 with
          | some o => o - 1
          | none => 2 ^ k.bits - 1
        (f, e) :: b.runs k n (e + 1)

/-- The number of keys of a box. -/
def Box.count (b : Box) : Nat :=
  if b.isEmpty then 0 else (List.zip b.lo b.hi).foldl (fun n x => n * (x.2 + 1 - x.1)) 1

/-- The header and the entries of the list (R252, R253): E, T and the bytes. -/
def splitList (k : KShape) (a lo hi : Word) : Nat × Bool × List Byte :=
  let b := boxOf k lo hi
  let n := splitCap a
  let all := b.runs k (n + 1) 0
  let t := decide (n < all.length)
  let es := all.take n
  let es := if t then es.dropLast ++ (es.drop (n - 1)).map (fun e => (e.1, k.read hi)) else es
  (es.length, t, natLe 8 (es.length + (if t then 2 ^ 32 else 0)) ++ natLe 8 b.count ++
    es.flatMap (fun e => natLe 8 e.1 ++ natLe 8 e.2))

end Sys2Proof.Machine
end

