-- ==== Sys2Proof/Machine/SignalInstr.lean ====
section
/-! DEFINITION. The signal instructions (spec/11_signal_instructions.md R187 to R206). -/

namespace Sys2Proof.Machine

/-! ### Faults and results -/

/-- The signal-use fault (R188). -/
def useFault (s : State) (sg code : Nat) : Act := Act.trap s 0x16 (w64 (sg * 256 + code))

/-- The signal-number fault of a word that names a signal in SIG: its tap fields are zero (R188, R382). -/
def numFault (s : State) (sg : Nat) : Act := Act.trap s 0x12 (tapInfo sg 0 0)

/-- A word that acts on a signal it names (R188). -/
def withSig (x : Ctx) (sg : BitVec 9) (s : State) (k : Sig → Act) : Act :=
  match x.p.sig? sg.toNat with
  | none => numFault s sg.toNat
  | some g => k g

/-- The tapped slot is homed in the issuing core's line store (R193). -/
def homeHere (x : Ctx) (t : RTap) : Bool :=
  match x.p.sig? t.sig with
  | some g => g.desc.isLs && g.desc.home == x.w.qc
  | none => false

/-- A result read from a slot: from 9 to 16 cycles after issue at home, with no greatest latency elsewhere (R193); its pin
goes with it (R179). -/
def tapResult (x : Ctx) (s : State) (d : Opnd) (t : RTap) (v : Val) : Act :=
  .go { st := s.pinsR x.w.pid t.pin, outs := [(d, some v)],
        due := if homeHere x t then .within (x.w.cycle + 9) (x.w.cycle + 16) else .least (x.w.cycle + 9),
        req := .none, pin := t.pin.head?, arg := 0, next := .seq }

/-- The bytes that a tap of a pass reads; reading poison is a machine check (R388). -/
def tapRead (x : Ctx) (s : State) (t : RTap) (off n : Nat) : List Byte × State :=
  match s.pass? x.w.pid with
  | some p => (p.tapBytes t off n, s.consume x.w.pid x.lc 1 (p.tapBad t off n))
  | none => ([], s)

/-! ### Ticks -/

/-- Issues the core's part of the collective; the stream holds at its next word until it completes (R34, R189). -/
def execTick (h : Hdr) (slack : BitVec 21) (s : State) : Out3 :=
  issue h [] [] s (fun x _ =>
    Act.done (s.updCore x.w.pid x.w.qc (fun c =>
      { c with ticked := some slack.toNat,
               exe := { c.exe with tickWait := some (x.t.after .seq).pc } })))

/-! ### Reading and writing samples -/

def vregOf (bs : List Byte) : VReg := BitVec.ofNat 2048 (leNat bs)
def vregLe (v : VReg) : List Byte := natLe 256 v.toNat

/-- R191. -/
def execTld (h : Hdr) (seg : BitVec 3) (d : Opnd) (t : Tap) (s : State) : Out3 :=
  issue h (tapSrc t) [d] s (fun x vs =>
    (readTap x s (tapArgs t (wordAt vs 0)) seg.toNat).run s (fun s r =>
      let b := tapRead x s r (256 * seg.toNat) 256
      tapResult x b.2 d r (.v (vregOf b.1))))

/-- A byte offset that R192 refuses. -/
def Pass.offBad (p : Pass) (sg n : Nat) (b : Word) : Bool :=
  match p.sig? sg with
  | some g => b.toNat % n != 0 || decide (g.desc.rowBytes ≤ b.toNat)
  | none => false

/-- R192. -/
def execTldx (h : Hdr) (sz : Sz) (d : Opnd) (t : Tap) (b : Opnd) (s : State) : Out3 :=
  issue h (tapSrc t ++ [b]) [d] s (fun x vs =>
    let a := tapArgs t (wordAt vs 0)
    let off := wordAt vs (tapSrc t).length
    let n := szBytes sz
    (readTap x s a (if x.p.offBad a.1 n off then 8 else 0)).run s (fun s r =>
      let y := tapRead x s r off.toNat n
      tapResult x y.2 d r (.w (leWord y.1))))

/-- A write to a slot is issued with its pin (R176, R194). -/
def State.issueSlotWrite (s : State) (x : Ctx) (t : RTap) (off : Nat) (bs : List Byte) (due : Option Nat) : State :=
  ((s.pinsW x.w.pid t.pin).updPass x.w.pid (fun p =>
    { p with writes := p.writes ++ [{ id := s.seq, sig := t.sig, num := t.num.toNat, off := off, data := bs,
                                      segs := segMask off bs.length, due := due }] })).tickSeq

/-- Row width of a signal of a pass. -/
def Pass.rowBytes (p : Pass) (sg : Nat) : Nat :=
  match p.sig? sg with
  | some g => g.desc.rowBytes
  | none => 0

/-- R194. -/
def execTst (h : Hdr) (seg : BitVec 3) (t : Tap) (a : Opnd) (s : State) : Out3 :=
  issue h (tapSrc t ++ [a]) [] s (fun x vs =>
    (writeTap x s (tapArgs t (wordAt vs 0)) seg.toNat).run s (fun s r =>
      Act.done (s.issueSlotWrite x r (r.row * x.p.rowBytes r.sig + 256 * seg.toNat) (vregLe (vecAt vs (tapSrc t).length))
        (if homeHere x r then some (x.w.cycle + 3) else none))))

/-! ### Inspecting a line -/

/-- R196. -/
def execSnow (h : Hdr) (d : Opnd) (sig : BitVec 9) (s : State) : Out3 :=
  issue h [] [d] s (fun x _ => withSig x sig s (fun g =>
    Act.fixed x s d (.w (w64 ((if g.due then 2 ^ 63 else 0) + (if g.desc.gm != 0 && g.g then 2 ^ 62 else 0) +
      (g.n + 1).toNat % 2 ^ 62)))))

/-- The case that a tap finds, as R196 codes it. -/
def slagCode (g : Sig) (lag : Nat) : Nat :=
  let m : Int := g.n - lag
  if g.desc.depth ≤ lag || decide (m < -(g.desc.fw : Int)) || (decide (0 ≤ m) && decide (m < g.o)) then 5
  else if m < 0 then 4
  else if g.rest then 3
  else
    match g.slot? m.toNat with
    | some q =>
      (match q.st with
       | .empty => 0
       | .filling => 1
       | .ready => 2
       | .draining => 3)
    | none => 0

/-- R196. -/
def execSlag (h : Hdr) (d : Opnd) (t : Tap) (s : State) : Out3 :=
  issue h (tapSrc t) [d] s (fun x vs =>
    let a := tapArgs t (wordAt vs 0)
    match x.p.sig? a.1 with
    | none => Act.trap s 0x12 (tapInfo a.1 a.2.1 a.2.2)
    | some g =>
      if g.desc.rows ≤ a.2.2 then Act.trap s 0x13 (tapInfo a.1 a.2.1 a.2.2)
      else Act.fixed x s d (.w (w64 (slagCode g a.2.1))))

/-! ### Gates and fresh slots -/

def gateSrc : GateArg → List Opnd
  | .reg a => [a]
  | _ => []

/-- R197. -/
def execSgate (h : Hdr) (sig : BitVec 9) (g : GateArg) (s : State) : Out3 :=
  issue h (gateSrc g) [] s (fun x vs => withSig x sig s (fun q =>
    if q.desc.gm = 0 then useFault s sig.toNat 5
    else
      let v := match g with
        | .off => false
        | .on => true
        | .reg _ => (wordAt vs 0).getLsbD 0
      Act.done (s.updSig x.w.pid sig.toNat (fun q => { q with g := v }))))

/-- R198. -/
def execSfill (h : Hdr) (sig : BitVec 9) (a : Option Opnd) (s : State) : Out3 :=
  issue h (optList a) [] s (fun x vs => withSig x sig s (fun g =>
    (writeTap x s (sig.toNat, 0, 0) 0).run s (fun s r =>
      let v : BitVec 32 := if a.isSome then (wordAt vs 0).truncate 32 else g.desc.fill
      Act.done (s.issueSlotWrite x r 0 (fillBytes g.desc.fmt v 0 g.desc.size) (some (x.w.cycle + 3))))))

/-! ### Declaring, rebinding and dropping -/

/-- The tier, home and footprint allowed for a number (R199). -/
def declAllowed (r : Run) (sg : Nat) (d : SigDesc) : Bool :=
  d.backed ||
  (match r.rcd.sigs[sg]? with
   | some e => d.tier == e.tier && d.home == e.home && decide (d.foot ≤ e.foot)
   | none => false)

/-- R199. -/
def execSdecl (h : Hdr) (sig : BitVec 9) (a : Opnd) (s : State) : Out3 :=
  issue h [a] [] s (fun x vs =>
    let v := vecAt vs 0
    let w (i : Nat) : Word := v.extractLsb' (64 * i) 64
    let d := parseDesc (w 0) (w 1) (w 2) (w 3)
    if (x.p.sig? sig.toNat).isSome then useFault s sig.toNat 1
    else if !descOk x.r.rcd.qc x.r.rcd.qd (w 0) (w 1) (w 2) (w 3) then useFault s sig.toNat 2
    else if !declAllowed x.r sig.toNat d then useFault s sig.toNat 3
    else
      let g : Sig := { desc := d, live := true, n := -1, o := 0, g := d.g0, due := false, slots := [], rest := false }
      Act.done (s.updPass x.w.pid (fun p => { p with sigs := mset none p.sigs sig.toNat (some g) })))

/-- R200. -/
def execSbind (h : Hdr) (sig : BitVec 9) (a : Opnd) (s : State) : Out3 :=
  issue h [a] [] s (fun x vs => withSig x sig s (fun g =>
    let b := va57 (wordAt vs 0)
    if g.n != -1 || !g.desc.backed || b = 0 || b.toNat % 256 != 0 then useFault s sig.toNat 4
    else Act.done (s.updSig x.w.pid sig.toNat (fun g => { g with desc := { g.desc with base := b } }))))

/-- Locations of a sample's backing slot: of its page's frame for a KV signal, else by translation (R183, R344). -/
def State.backKeys (s : State) (a : AsidCtx) (lc sq : Nat) (asid : BitVec 16) (d : SigDesc) (n : Nat) (acc : Acc) :
    Except AccFault (List Part) × State :=
  if isKv a d then
    match s.page? asid (kvBlk a d n) with
    | some k => (.ok [{ va := backVa d n, keys := paKeys (k.frame + n % d.depth % 64 * d.size) d.size, pk := .r,
                          lg := 0 }], s)
    | none => (.ok [], s)
  else s.backing lc sq asid d n acc

/-- A sample is written back to its backing slot on path c of a core by the word or command of a serial number (R183,
R201). -/
def State.writeBack (s : State) (a : AsidCtx) (pid qc lc sq : Nat) (asid : BitVec 16) (d : SigDesc) (q : Slot) :
    Except AccFault State × State :=
  if q.back then (.ok s, s)
  else
    let r := s.backKeys a lc sq asid d q.num .wr
    match r.1 with
    | .error f => (.error f, r.2)
    | .ok ps =>
      let bs := (List.range (partKeys ps).length).map (fun i => mget 0 q.data i)
      let s2 := r.2.putParts (.core lc) .c pid qc sq ps { bytes := bs, bad := q.bad }
      (.ok s2, s2)

/-- Write-backs of a list of samples, up to the first fault. -/
def State.writeBacks (s : State) (a : AsidCtx) (pid qc lc sq : Nat) (asid : BitVec 16) (d : SigDesc) : List Slot →
    Except AccFault State × State
  | [] => (.ok s, s)
  | q :: qs =>
    let r := s.writeBack a pid qc lc sq asid d q
    match r.1 with
    | .error f => (.error f, r.2)
    | .ok s1 => s1.writeBacks a pid qc lc sq asid d qs

def Sig.pinned (g : Sig) : Bool := g.slots.any (fun q => q.wp != 0 || q.rp != 0)

/-- R201. -/
def execSdrop (h : Hdr) (sig : BitVec 9) (s : State) : Out3 :=
  issue h [] [] s (fun x _ => withSig x sig s (fun g =>
    if g.pinned then Act.hold s
    else
      let gone (s : State) : State :=
        (s.freePages x.p.ctx x.asid g.desc).updSig x.w.pid sig.toNat (fun g => { g with live := false, due := false, slots := [] })
      if g.desc.backed && !isKv (x.p.ctx) g.desc then
        let r := s.writeBacks x.p.ctx x.w.pid x.w.qc x.lc s.seq x.asid g.desc (g.slots.filter (fun q => q.st == .ready))
        if s.walkHeld x.ag s.seq then Act.hold s
        else match r.1 with
        | .error f => .page { s with tlb := r.2.tlb, walks := r.2.walks, script := r.2.script, free := r.2.free } f
        | .ok s1 => Act.done (gone s1)
      else Act.done (gone s)))

/-- R202. -/
def execSrebase (h : Hdr) (sig : BitVec 9) (a : Opnd) (s : State) : Out3 :=
  issue h [a] [] s (fun x vs => withSig x sig s (fun _ =>
    let per := fld (wordAt vs 0) 28 16
    let ph := fld (wordAt vs 0) 11 0
    if per = 0 || decide (4096 < per) || decide (per ≤ ph) then useFault s sig.toNat 6
    else Act.done (s.updSig x.w.pid sig.toNat (fun g => { g with desc := { g.desc with period := per, phase := ph } }))))

/-! ### Saving and restoring under program control -/

/-- The doublewords of the entry of R184: H, the gate with PERIOD and PHASE, FOLIO, and E with L. -/
def saveEntry (g : Sig) (e : Nat) (folio : VAddr) : List Word :=
  let hh := (g.n + 1).toNat
  [w64 hh, w64 ((if g.g then 2 ^ 48 else 0) + g.desc.period * 2 ^ 16 + g.desc.phase), vaWord folio,
   w64 (e * 2 ^ 32 + (hh - e - g.o))]

/-- 1 when the lag-0 slot is not ready (R204). -/
def Sig.emptyHead (g : Sig) : Nat :=
  match g.slot? g.n.toNat with
  | some q => if q.st == .ready || g.n < 0 then 0 else 1
  | none => 0

/-- A sample of the live window is draining: the save, which reads it, holds (R175; notes/assumptions/29.md). -/
def Sig.drains (g : Sig) : Bool := g.rest || g.slots.any (fun q => q.st == .draining)

/-- R203, R204: pins the live window and queues the save; the entry holds the gate, PERIOD and PHASE of the issue
(DESIGN CHOICE, notes/assumptions/66.md). -/
def execSsave (h : Hdr) (sig : BitVec 9) (a : Opnd) (sem : SigSem) (s : State) : Out3 :=
  issue h [a] [] s (fun x vs => freeQ x s .copy (withSig x sig s (fun g =>
    let va := va57 (wordAt vs 0)
    let e := g.emptyHead
    let win := (List.range ((g.n + 1).toNat - e - g.o)).map (fun i => (sig.toNat, g.o + i))
    let folio := if g.desc.backed then g.desc.base else va + 32
    let k := Cmd.new x s .copy (.ssave h sig a sem) (.w (vaWord va) :: (saveEntry g e folio).map Val.w)
    if g.drains || win.any (x.p.pinFull false) then Act.hold s
    else if va = 0 || va.toNat % 32 != 0 then useFault s sig.toNat 8
    else Act.done (s.enqueue x
      { k with rpins := win, range := (g.o, (g.o + win.length : Nat)), sig := sem.map (fun n => n.toNat) }))))

/-- R203, R205: discards the samples and queues the restore; the record address is checked before the due signal, in the
order of the text (DEDUCED, notes/assumptions/55.md). -/
def execSrest (h : Hdr) (sig : BitVec 9) (a : Opnd) (sem : SigSem) (s : State) : Out3 :=
  issue h [a] [] s (fun x vs => freeQ x s .copy (withSig x sig s (fun g =>
    let va := va57 (wordAt vs 0)
    if g.pinned then Act.hold s
    else if va = 0 || va.toNat % 32 != 0 then useFault s sig.toNat 8
    else if g.due then useFault s sig.toNat 7
    else
      let k := Cmd.new x s .copy (.srest h sig a sem) [.w (vaWord va)]
      Act.done ((s.enqueue x { k with sig := sem.map (fun n => n.toNat) }).updSig x.w.pid sig.toNat
        (fun g => { g with slots := [], rest := true })))))

end Sys2Proof.Machine
end

