-- ==== Sys2Proof/Machine/Vector.lean ====
section
/-! DEFINITION. The vector engine: direct words, queued words, masks, reductions, sorting, triples and line-store words
(spec/13_vector_engine.md R207 to R237). -/

namespace Sys2Proof.Machine

/-! ### Elements and masks -/

/-- Element i of width w of an operand; a scalar is broadcast (R84, R214). -/
def Val.el (w : Nat) (v : Val) (i : Nat) : Nat :=
  match v with
  | .w x => x.toNat % 2 ^ w
  | .v x => x.toNat / 2 ^ (w * i) % 2 ^ w

/-- Elements of width w packed, the first lowest. -/
def packEls (w : Nat) : List Nat → Nat
  | [] => 0
  | x :: xs => x % 2 ^ w + 2 ^ w * packEls w xs

def vecEls (w : Nat) (xs : List Nat) : Val := .v (BitVec.ofNat 2048 (packEls w xs))

/-- The floating-point format of a vector type (R208). -/
def vtyFF : VTy → Option FFmt
  | .s => some fFP32
  | .h => some fFP16
  | .bf => some fBF16
  | _ => none

/-- The value of an element: signed for w and b, unsigned for u and d. -/
def vInt (t : VTy) (x : Nat) : Int :=
  match t with
  | .w => sval 32 x
  | .b => sval 8 x
  | _ => x

def vDec (t : VTy) (x : Nat) : Rv :=
  match vtyFF t with
  | some f => f.dec x
  | none => .ofInt (vInt t x)

/-- Lane i takes part (R209, R215). -/
def VMaskOn (mk : VMask) (kv : Word) (lane : Nat) : Bool := !mk.kv || kv.getLsbD lane

/-- The sources that a mask adds: k, and the destination when it is merged (R215). -/
def maskSrcs (mk : VMask) (d : Opnd) : List Opnd :=
  if mk.kv then .k mk.kr :: (if mk.kz then [] else [d]) else []

/-- Writes elements of width w under a mask (R218); `ms` are the values of the mask's sources. -/
def maskEls (mk : VMask) (ms : List Val) (w : Nat) (f : Nat → Nat) : Val :=
  let kv := wordAt ms 0
  let old := ms.getD 1 (.w 0)
  vecEls w ((List.range (2048 / w)).map (fun i =>
    if VMaskOn mk kv (i * w / 32) then f i else if mk.kz then 0 else old.el w i))

/-! ### Issuing vector words -/

def topSrc : TOp → List Opnd
  | .reg o => [o]
  | .tap t => tapSrc t

def topTap : TOp → Option Tap
  | .reg _ => none
  | .tap t => some t

/-- The values of operands that may be taps, the value of a tap given, and the values left over. -/
def topVals (tv : Val) : List TOp → List Val → List Val × List Val
  | [], vs => ([], vs)
  | .reg _ :: ts, vs =>
    let r := topVals tv ts vs.tail
    (vs.headD (.w 0) :: r.1, r.2)
  | .tap t :: ts, vs =>
    let r := topVals tv ts (vs.drop (tapSrc t).length)
    (tv :: r.1, r.2)

/-- The value of the register that an indexed tap names. -/
def topReg : List TOp → List Val → Word
  | [], _ => 0
  | .reg _ :: ts, vs => topReg ts vs.tail
  | .tap _ :: _, vs => wordAt vs 0

/-- The direct latency of a word that may read a tap (R217). -/
def directLat : Instr → Nat
  | .vadd _ t _ _ _ _ _ => if t.isFp then 4 else 2
  | .vsub _ t _ _ _ _ _ => if t.isFp then 4 else 2
  | .vmul _ t _ _ _ _ _ => if t.isFp then 4 else 3
  | .vrcp _ _ _ _ _ _ => 8
  | .vrsq _ _ _ _ _ _ => 8
  | .vexp2 _ _ _ _ _ _ => 8
  | .vlog2 _ _ _ _ _ _ => 8
  | .vsqrt _ _ _ _ _ _ => 8
  | .vredsum _ _ _ _ _ _ => 6
  | .vredmax _ _ _ _ _ => 6
  | .vredmin _ _ _ _ _ => 6
  | _ => 2

/-- When a queued word lands: from 9 to 12 cycles after issue, and a direct latency, where the queue is empty and nothing
else may hold the word; in every other case from 9 cycles on (R213). -/
def vecDue (x : Ctx) (near : Bool) (lat : Nat) : Due :=
  if near && x.c.cmds.all (fun k => k.eng != .vec) then .within (x.w.cycle + 9 + lat) (x.w.cycle + 12 + lat)
  else .least (x.w.cycle + 9)

/-- A vector word: direct with a fixed latency, or queued when an operand is a tap (R210 to R212, R214). `f` forms the
result from the values of the operands and of the extra sources. -/
def issueV (h : Hdr) (i : Instr) (tops : List TOp) (extra : List Opnd) (d : Opnd) (s : State)
    (f : Ctx → List Val → List Val → Val) : Out3 :=
  issue h (tops.flatMap topSrc ++ extra) [d] s (fun x vs =>
    match tops.findSome? topTap with
    | none => Act.fixed x s d (f x (vs.take tops.length) (vs.drop tops.length))
    | some t =>
      freeQ x s .vec ((readTap x s (tapArgs t (topReg tops vs)) 0).run s (fun s r =>
        let y := tapRead x s r 0 256
        let vals := topVals (.v (vregOf y.1)) tops vs
        let k := Cmd.new x y.2 .vec i [f x vals.1 vals.2]
        queueResult x y.2 { k with rpins := r.pin } [(d, none)] (vecDue x (homeHere x r) (directLat i)))))

def va (vs : List Val) (i : Nat) : Val := vs.getD i (.w 0)

/-- A masked word over the elements of a type. -/
def mapV (h : Hdr) (i : Instr) (w : Nat) (tops : List TOp) (d : Opnd) (mk : VMask) (s : State)
    (f : Ctx → List Val → Nat → Nat) : Out3 :=
  issueV h i tops (maskSrcs mk d) d s (fun x vs ms => maskEls mk ms w (f x vs))

/-! ### Arithmetic -/

def VMode.rmOf : VMode → RM
  | .fp rm => rm
  | .int _ => .rne

def VMode.satOf : VMode → Bool
  | .fp _ => false
  | .int b => b

/-- An exact integer into w bits: wrapped, or clamped to the range of the type (R216, R219). -/
def narrow (w : Nat) (sat : Bool) (x : Int) : Nat := ((if sat then clampS w x else x) % (2 ^ w : Int)).toNat

/-- An arithmetic word on two operands (R218, R219). -/
def arithV (h : Hdr) (i : Instr) (t : VTy) (m : VMode) (d : Opnd) (a b : TOp) (mk : VMask)
    (ff : RM → Rv → Rv → Rv) (fi : Int → Int → Int) (s : State) : Out3 :=
  mapV h i t.width [a, b] d mk s (fun x vs n =>
    let p := (va vs 0).el t.width n
    let q := (va vs 1).el t.width n
    match vtyFF t with
    | some f => f.round (x.rc (VMode.rmOf m)) n false (ff (VMode.rmOf m) (f.dec p) (f.dec q))
    | none => narrow t.width (VMode.satOf m) (fi (vInt t p) (vInt t q)))

def execVadd (h : Hdr) (t : VTy) (m : VMode) (d : Opnd) (a b : TOp) (mk : VMask) (s : State) : Out3 :=
  arithV h (.vadd h t m d a b mk) t m d a b mk Rv.add (· + ·) s
def execVsub (h : Hdr) (t : VTy) (m : VMode) (d : Opnd) (a b : TOp) (mk : VMask) (s : State) : Out3 :=
  arithV h (.vsub h t m d a b mk) t m d a b mk (fun rm p q => Rv.add rm p q.neg) (· - ·) s
def execVmul (h : Hdr) (t : VTy) (m : VMode) (d : Opnd) (a b : TOp) (mk : VMask) (s : State) : Out3 :=
  arithV h (.vmul h t m d a b mk) t m d a b mk (fun _ => Rv.mul) (· * ·) s

/-- R221. -/
def execVfma (h : Hdr) (t : VTy) (rm : RM) (d a b c : Opnd) (mk : VMask) (s : State) : Out3 :=
  mapV h (.vfma h t rm d a b c mk) t.width [.reg a, .reg b, .reg c] d mk s (fun x vs n =>
    let e (j : Nat) : Nat := (va vs j).el t.width n
    match vtyFF t with
    | some f => f.round (x.rc rm) n false (Rv.fma rm (f.dec (e 0)) (f.dec (e 1)) (f.dec (e 2)))
    | none => 0)

/-- The lesser or the greater of two elements (R152, R222). -/
def minMaxEl (t : VTy) (mx : Bool) (p q : Nat) : Nat :=
  match vtyFF t with
  | some f => f.round Rc.rne 0 false ((if mx then Rv.max else Rv.min) (f.dec p) (f.dec q))
  | none => if decide (vInt t q < vInt t p) == mx then p else q

def execVmin (h : Hdr) (t : VTy) (d : Opnd) (a b : TOp) (mk : VMask) (s : State) : Out3 :=
  mapV h (.vmin h t d a b mk) t.width [a, b] d mk s (fun _ vs n =>
    minMaxEl t false ((va vs 0).el t.width n) ((va vs 1).el t.width n))
def execVmax (h : Hdr) (t : VTy) (d : Opnd) (a b : TOp) (mk : VMask) (s : State) : Out3 :=
  mapV h (.vmax h t d a b mk) t.width [a, b] d mk s (fun _ vs n =>
    minMaxEl t true ((va vs 0).el t.width n) ((va vs 1).el t.width n))

/-- R221. -/
def execVclamp (h : Hdr) (t : VTy) (d a b c : Opnd) (mk : VMask) (s : State) : Out3 :=
  mapV h (.vclamp h t d a b c mk) t.width [.reg a, .reg b, .reg c] d mk s (fun _ vs n =>
    minMaxEl t false (minMaxEl t true ((va vs 0).el t.width n) ((va vs 1).el t.width n)) ((va vs 2).el t.width n))

/-- R219. -/
def execVabs (h : Hdr) (t : VTy) (m : VMode) (d : Opnd) (a : TOp) (mk : VMask) (s : State) : Out3 :=
  mapV h (.vabs h t m d a mk) t.width [a] d mk s (fun _ vs n =>
    let p := (va vs 0).el t.width n
    match vtyFF t with
    | some f => if (f.dec p).isNan then f.nanCode else p % f.signBit
    | none => narrow t.width (VMode.satOf m) (vInt t p).natAbs)
def execVneg (h : Hdr) (t : VTy) (m : VMode) (d : Opnd) (a : TOp) (mk : VMask) (s : State) : Out3 :=
  mapV h (.vneg h t m d a mk) t.width [a] d mk s (fun _ vs n =>
    let p := (va vs 0).el t.width n
    match vtyFF t with
    | some f => if (f.dec p).isNan then f.nanCode else (p + f.signBit) % (2 * f.signBit)
    | none => narrow t.width (VMode.satOf m) (-(vInt t p)))

/-- A function of one floating-point operand, rounded once (R220). -/
def unaryV (h : Hdr) (i : Instr) (t : VTy) (rm : RM) (d : Opnd) (a : TOp) (mk : VMask) (g : Rv → Rv) (s : State) : Out3 :=
  mapV h i t.width [a] d mk s (fun x vs n =>
    match vtyFF t with
    | some f => f.round (x.rc rm) n false (g (f.dec ((va vs 0).el t.width n)))
    | none => 0)

def execVrcp (h : Hdr) (t : VTy) (rm : RM) (d : Opnd) (a : TOp) (mk : VMask) (s : State) : Out3 :=
  unaryV h (.vrcp h t rm d a mk) t rm d a mk Rv.rcp s
def execVrsq (h : Hdr) (t : VTy) (rm : RM) (d : Opnd) (a : TOp) (mk : VMask) (s : State) : Out3 :=
  unaryV h (.vrsq h t rm d a mk) t rm d a mk Rv.rsq s
def execVexp2 (h : Hdr) (t : VTy) (rm : RM) (d : Opnd) (a : TOp) (mk : VMask) (s : State) : Out3 :=
  unaryV h (.vexp2 h t rm d a mk) t rm d a mk Rv.exp2 s
def execVlog2 (h : Hdr) (t : VTy) (rm : RM) (d : Opnd) (a : TOp) (mk : VMask) (s : State) : Out3 :=
  unaryV h (.vlog2 h t rm d a mk) t rm d a mk Rv.log2 s
def execVsqrt (h : Hdr) (t : VTy) (rm : RM) (d : Opnd) (a : TOp) (mk : VMask) (s : State) : Out3 :=
  unaryV h (.vsqrt h t rm d a mk) t rm d a mk Rv.sqrt s

/-! ### Conversion (R226) -/

/-- A value into an element of a type. -/
def vEnc (t : VTy) (c : Rc) (n : Nat) (sat : Bool) (x : Rv) : Nat :=
  match vtyFF t with
  | some f => f.round c n sat x
  | none => ((x.toS c n t.width) % (2 ^ t.width : Int)).toNat

/-- The destination keeps some of its elements, or merges a mask. -/
def cvtKeeps (dt st : VTy) (mk : VMask) : Bool :=
  (mk.kv && !mk.kz) || (dt != .b4 && st != .b4 && decide (st.count < dt.count))

def cvtSrcs (dt st : VTy) (d : Opnd) (mk : VMask) : List Opnd :=
  (if mk.kv then [.k mk.kr] else []) ++ (if cvtKeeps dt st mk then [d] else [])

def vBytes (v : Val) : List Byte := vregLe v.vec

/-- The elements of a conversion; SAT acts also between FP16 and BF16, which are of one width (DESIGN CHOICE,
notes/assumptions/42.md). -/
def cvtEls (x : Ctx) (dt st : VTy) (ct : BitVec 2) (sat : Bool) (part : BitVec 2) (rm : RM) (mk : VMask) (a : Val)
    (kv : Word) (old : Val) : Val :=
  let c := x.rc rm
  if dt = .b4 then
    let xs := (List.range st.count).map (fun n => vDec st (a.el st.width n))
    .v (vregOf ((List.range (st.count / 32)).flatMap (fun b => b4Encode c ct.toNat b ((xs.drop (32 * b)).take 32))))
  else if st = .b4 then
    let bs := vBytes a
    vecEls dt.width ((List.range dt.count).map (fun n =>
      vEnc dt c n sat (b4Elem ((bs.drop (17 * (n / 32))).take 17) (n % 32))))
  else
    let m := Nat.min dt.count st.count
    let sat := sat && dt != .s            -- a conversion to FP32 is exact or does not narrow (R94, R226)
    let so := if dt.count < st.count then m * part.toNat else 0
    let d0 := if st.count < dt.count then m * part.toNat else 0
    vecEls dt.width ((List.range dt.count).map (fun n =>
      if d0 ≤ n && decide (n < d0 + m) then
        (if VMaskOn mk kv (n * dt.width / 32) then vEnc dt c n sat (vDec st (a.el st.width (so + (n - d0))))
         else if mk.kz then 0 else old.el dt.width n)
      else old.el dt.width n))

def execVcvt (h : Hdr) (dt st : VTy) (ct : BitVec 2) (sat : Bool) (part : BitVec 2) (rm : RM) (d a : Opnd) (mk : VMask)
    (s : State) : Out3 :=
  issueV h (.vcvt h dt st ct sat part rm d a mk) [.reg a] (cvtSrcs dt st d mk) d s (fun x vs ms =>
    cvtEls x dt st ct sat part rm mk (va vs 0) (if mk.kv then wordAt ms 0 else 0)
      (if mk.kv then va ms 1 else va ms 0))

/-! ### Comparison, selection, logic and bits -/

/-- The condition on two elements (R153, R223). -/
def cmpEl (t : VTy) (cc : FCond) (p q : Nat) : Bool :=
  match vtyFF t with
  | some f => fcondHolds cc (f.dec p) (f.dec q)
  | none => vcondHolds cc (vInt t p) (vInt t q)

/-- Bits of a k destination under a mask (R223). -/
def maskBits (mk : VMask) (ms : List Val) (f : Nat → Bool) : Val :=
  let kv := wordAt ms 0
  let old := wordAt ms 1
  .w (w64 (flagBits ((List.range 64).map (fun i =>
    if VMaskOn mk kv i then f i else if mk.kz then false else old.getLsbD i))))

def isK : Opnd → Bool
  | .k _ => true
  | _ => false

def execVcmp (h : Hdr) (t : VTy) (cc : FCond) (d : Opnd) (a b : TOp) (mk : VMask) (s : State) : Out3 :=
  issueV h (.vcmp h t cc d a b mk) [a, b] (maskSrcs mk d) d s (fun _ vs ms =>
    let f (n : Nat) : Bool := cmpEl t cc ((va vs 0).el t.width n) ((va vs 1).el t.width n)
    if isK d then maskBits mk ms f else maskEls mk ms t.width (fun n => if f n then 2 ^ t.width - 1 else 0))

/-- R224. -/
def execVsel (h : Hdr) (d a b : Opnd) (kr : Fin 8) (s : State) : Out3 :=
  issueV h (.vsel h d a b kr) [.reg a, .reg b] [.k kr] d s (fun _ vs ms =>
    vecEls 32 ((List.range 64).map (fun i =>
      if (wordAt ms 0).getLsbD i then (va vs 0).el 32 i else (va vs 1).el 32 i)))

def logicV (h : Hdr) (i : Instr) (d : Opnd) (a b : TOp) (mk : VMask) (g : Nat → Nat → Nat) (s : State) : Out3 :=
  mapV h i 32 [a, b] d mk s (fun _ vs n => g ((va vs 0).el 32 n) ((va vs 1).el 32 n))

def execVand (h : Hdr) (d : Opnd) (a b : TOp) (mk : VMask) (s : State) : Out3 :=
  logicV h (.vand h d a b mk) d a b mk (fun p q => p &&& q) s
def execVor (h : Hdr) (d : Opnd) (a b : TOp) (mk : VMask) (s : State) : Out3 :=
  logicV h (.vor h d a b mk) d a b mk (fun p q => p ||| q) s
def execVxor (h : Hdr) (d : Opnd) (a b : TOp) (mk : VMask) (s : State) : Out3 :=
  logicV h (.vxor h d a b mk) d a b mk (fun p q => p ^^^ q) s

/-- The operands of a shift: a, and an amount in a register. -/
def shTops (a : Opnd) : ShAmt → List TOp
  | .reg b => [.reg a, .reg b]
  | .imm _ => [.reg a]

/-- R225. -/
def shiftV (h : Hdr) (i : Instr) (t : VTy) (d a : Opnd) (n : ShAmt) (mk : VMask) (g : Nat → Nat → Nat) (s : State) : Out3 :=
  mapV h i t.width (shTops a n) d mk s (fun _ vs e =>
    let k := match n with
      | .imm k => k.val
      | .reg _ => (va vs 1).el t.width e
    g ((va vs 0).el t.width e) (k % t.width))

def execVshl (h : Hdr) (t : VTy) (d a : Opnd) (n : ShAmt) (mk : VMask) (s : State) : Out3 :=
  shiftV h (.vshl h t d a n mk) t d a n mk (fun p k => p * 2 ^ k) s
def execVshr (h : Hdr) (t : VTy) (d a : Opnd) (n : ShAmt) (mk : VMask) (s : State) : Out3 :=
  shiftV h (.vshr h t d a n mk) t d a n mk (fun p k => p / 2 ^ k) s
def execVsra (h : Hdr) (t : VTy) (d a : Opnd) (n : ShAmt) (mk : VMask) (s : State) : Out3 :=
  shiftV h (.vsra h t d a n mk) t d a n mk (fun p k => (sval t.width p / (2 ^ k : Int) % (2 ^ t.width : Int)).toNat) s

/-- The number of one bits, and of leading zeros, of the low w bits. -/
def onesIn (x : Nat) : Nat → Nat
  | 0 => 0
  | w + 1 => onesIn x w + (if x.testBit w then 1 else 0)
def leadZeros (x : Nat) : Nat → Nat
  | 0 => 0
  | w + 1 => if x.testBit w then 0 else leadZeros x w + 1

def execVpopc (h : Hdr) (t : VTy) (d : Opnd) (a : TOp) (mk : VMask) (s : State) : Out3 :=
  mapV h (.vpopc h t d a mk) t.width [a] d mk s (fun _ vs n => onesIn ((va vs 0).el t.width n) t.width)
def execVclz (h : Hdr) (t : VTy) (d : Opnd) (a : TOp) (mk : VMask) (s : State) : Out3 :=
  mapV h (.vclz h t d a mk) t.width [a] d mk s (fun _ vs n => leadZeros ((va vs 0).el t.width n) t.width)

/-! ### Reductions and scans (R103, R104, R227, R228) -/

/-- The operation of a reduction or scan on element bits. -/
def foldEl (t : VTy) (op : ScanOp) (c : Rc) (sat : Bool) (p q : Nat) : Nat :=
  match vtyFF t with
  | some f =>
    let x := f.dec p
    let y := f.dec q
    let r := match op with
      | .sum => Rv.add c.rm x y
      | .max => if x.isNan || y.isNan then .nan else Rv.max x y
      | .min => if x.isNan || y.isNan then .nan else Rv.min x y
    f.round (if op == .sum then c else Rc.rne) 0 false r
  | none =>
    match op with
    | .sum => narrow t.width sat (vInt t p + vInt t q)
    | .max => if vInt t p < vInt t q then q else p
    | .min => if vInt t q < vInt t p then q else p

/-- The identity of a reduction (R103). -/
def foldId (t : VTy) (op : ScanOp) : Nat :=
  match vtyFF t with
  | some f =>
    (match op with
     | .sum => f.signBit
     | .max => f.infOf true
     | .min => f.infOf false)
  | none =>
    match op with
    | .sum => 0
    | .max => 2 ^ (t.width - 1)
    | .min => 2 ^ (t.width - 1) - 1

/-- The tree of R103 over 2^n elements. -/
def treeFold (f : Nat → Nat → Nat) : Nat → List Nat → Nat
  | 0, xs => xs.headD 0
  | n + 1, xs => treeFold f n (List.zipWith f (xs.take (xs.length / 2)) (xs.drop (xs.length / 2)))

/-- The elements of a, with identities for inactive lanes; a NaN is canonical. -/
def foldEls (t : VTy) (op : ScanOp) (mk : VMask) (kv : Word) (a : Val) : List Nat :=
  (List.range t.count).map (fun n =>
    if VMaskOn mk kv (n * t.width / 32) then
      (match vtyFF t with
       | some f => if (f.dec (a.el t.width n)).isNan then f.nanCode else a.el t.width n
       | none => a.el t.width n)
    else foldId t op)

/-- A scalar result of a vector type: zero-extended for floating-point and unsigned types, else sign-extended. -/
def vScalar (t : VTy) (x : Nat) : Word :=
  match t with
  | .w => BitVec.ofInt 64 (sval 32 x)
  | .b => BitVec.ofInt 64 (sval 8 x)
  | _ => w64 (x % 2 ^ t.width)

def kvSrcs (mk : VMask) : List Opnd := if mk.kv then [.k mk.kr] else []

def reduceV (h : Hdr) (i : Instr) (t : VTy) (op : ScanOp) (m : VMode) (d : Opnd) (a : TOp) (mk : VMask) (s : State) : Out3 :=
  issueV h i [a] (kvSrcs mk) d s (fun x vs ms =>
    let c := x.rc (VMode.rmOf m)
    .w (vScalar t (treeFold (foldEl t op c (VMode.satOf m)) (Nat.log2 t.count)
      (foldEls t op mk (wordAt ms 0) (va vs 0)))))

def execVredsum (h : Hdr) (t : VTy) (m : VMode) (d : Opnd) (a : TOp) (mk : VMask) (s : State) : Out3 :=
  reduceV h (.vredsum h t m d a mk) t .sum m d a mk s
def execVredmax (h : Hdr) (t : VTy) (d : Opnd) (a : TOp) (mk : VMask) (s : State) : Out3 :=
  reduceV h (.vredmax h t d a mk) t .max (.fp .rne) d a mk s
def execVredmin (h : Hdr) (t : VTy) (d : Opnd) (a : TOp) (mk : VMask) (s : State) : Out3 :=
  reduceV h (.vredmin h t d a mk) t .min (.fp .rne) d a mk s

/-- The running results after a first value. -/
def scanFrom (f : Nat → Nat → Nat) : Nat → List Nat → List Nat
  | _, [] => []
  | y, x :: xs => f y x :: scanFrom f (f y x) xs

def scanEls (f : Nat → Nat → Nat) : List Nat → List Nat
  | [] => []
  | x :: xs => x :: scanFrom f x xs

def execVscan (h : Hdr) (t : VTy) (m : VMode) (op : ScanOp) (d a : Opnd) (mk : VMask) (s : State) : Out3 :=
  issueV h (.vscan h t m op d a mk) [.reg a] (kvSrcs mk) d s (fun x vs ms =>
    vecEls t.width (scanEls (foldEl t op (x.rc (VMode.rmOf m)) (VMode.satOf m))
      (foldEls t op mk (wordAt ms 0) (va vs 0))))

/-! ### Permutations and moves (R229, R230) -/

def execVperm (h : Hdr) (t : VTy) (d a b : Opnd) (mk : VMask) (s : State) : Out3 :=
  mapV h (.vperm h t d a b mk) t.width [.reg a, .reg b] d mk s (fun _ vs n =>
    (va vs 0).el t.width ((va vs 1).el t.width n % t.count))

def execVbcast (h : Hdr) (t : VTy) (d a : Opnd) (idx : BitVec 8) (mk : VMask) (s : State) : Out3 :=
  mapV h (.vbcast h t d a idx mk) t.width [.reg a] d mk s (fun _ vs _ => (va vs 0).el t.width idx.toNat)

def execVslide (h : Hdr) (t : VTy) (dn : Bool) (d a b : Opnd) (idx : BitVec 8) (mk : VMask) (s : State) : Out3 :=
  mapV h (.vslide h t dn d a b idx mk) t.width [.reg a, .reg b] d mk s (fun _ vs n =>
    let m := idx.toNat
    let c := t.count
    if dn then (if n + m < c then (va vs 0).el t.width (n + m) else (va vs 1).el t.width (n + m - c))
    else if m ≤ n then (va vs 0).el t.width (n - m) else (va vs 1).el t.width (c - m + n))

def execVmov (h : Hdr) (d : Opnd) (a : TOp) (mk : VMask) (s : State) : Out3 :=
  mapV h (.vmov h d a mk) 32 [a] d mk s (fun _ vs n => (va vs 0).el 32 n)

def execVmovs (h : Hdr) (t : VTy) (toV : Bool) (d a : Opnd) (idx : BitVec 8) (s : State) : Out3 :=
  issueV h (.vmovs h t toV d a idx) [.reg a] (if toV then [d] else []) d s (fun _ vs ms =>
    if toV then vecEls t.width ((List.range t.count).map (fun n =>
      if n = idx.toNat then (va vs 0).el t.width 0 else (va ms 0).el t.width n))
    else .w (vScalar t ((va vs 0).el t.width idx.toNat)))

/-! ### Sorting and triples -/

/-- A number whose order is the order of keys of a type (R234). -/
def sortKey (t : VTy) (x : Nat) : Nat :=
  match t with
  | .s => if (fFP32.dec x).isNan then 2 ^ 33 else if 2 ^ 31 ≤ x then 2 ^ 32 - 1 - x else 2 ^ 31 + x
  | .w => (x + 2 ^ 31) % 2 ^ 32
  | _ => x

/-- A pair at its place behind every pair that must come before it. -/
def sortIns (desc : Bool) (x : Nat × Nat × Nat) : List (Nat × Nat × Nat) → List (Nat × Nat × Nat)
  | [] => [x]
  | y :: ys => if (if desc then decide (y.1 < x.1) else decide (x.1 < y.1)) then x :: y :: ys else y :: sortIns desc x ys

/-- A stable sort of (order, key, value). -/
def sortAll (desc : Bool) (l : List (Nat × Nat × Nat)) : List (Nat × Nat × Nat) :=
  l.foldl (fun acc x => sortIns desc x acc) []

def execVsort (h : Hdr) (t : VTy) (desc : Bool) (d a b : Opnd) (s : State) : Out3 :=
  issue h [a, b] [d, pairHi d] s (fun x vs =>
    let w := t.width
    let l := sortAll desc ((List.range t.count).map (fun n =>
      let k := (va vs 0).el w n
      let k := if t == .s && (fFP32.dec k).isNan then fFP32.nanCode else k
      (sortKey t k, k, (va vs 1).el w n)))
    .go { st := s, outs := [(d, some (vecEls w (l.map (fun p => p.2.1)))), (pairHi d, some (vecEls w (l.map (fun p => p.2.2))))],
          due := .exact (x.w.cycle + x.h.pd.val), req := .none, pin := none, arg := 0, next := .seq })

/-- The register k after a vector register. -/
def vAfter (k : Nat) : Opnd → Opnd
  | .v n => .v (n + Fin.ofNat 32 k)
  | o => o

/-- One lane of a merge of triples; two empty triples merge to the empty triple (R235). -/
def triLane (rm : RM) (c : Rc) (ma sa xa mb sb xb : Nat) : Nat × Nat × Nat :=
  let f := fFP32
  let rnd (v : Rv) : Nat := f.round c 0 false v
  let m := if (f.dec ma).isNan || (f.dec mb).isNan then f.nanCode else f.round Rc.rne 0 false (Rv.max (f.dec ma) (f.dec mb))
  let w (mi : Nat) : Rv :=
    if mi = f.infOf true then .fin false 0 1
    else f.dec (rnd (Rv.exp2 (f.dec (rnd (Rv.add rm (f.dec mi) (f.dec m).neg)))))
  let sum (p q : Nat) : Nat := rnd (Rv.add rm (Rv.mul (f.dec p) (w ma)) (Rv.mul (f.dec q) (w mb)))
  if ma = fFP32.infOf true ∧ mb = fFP32.infOf true then (m, 0, 0) else (m, sum sa sb, sum xa xb)

def execVtri (h : Hdr) (rm : RM) (d a b : Opnd) (s : State) : Out3 :=
  issue h [a, vAfter 1 a, vAfter 2 a, b, vAfter 1 b, vAfter 2 b] [d, vAfter 1 d, vAfter 2 d] s (fun x vs =>
    let l := (List.range 64).map (fun i =>
      let e (j : Nat) : Nat := (va vs j).el 32 i
      triLane rm (x.rc rm) (e 0) (e 1) (e 2) (e 3) (e 4) (e 5))
    .go { st := s, outs := [(d, some (vecEls 32 (l.map (fun p => p.1)))), (vAfter 1 d, some (vecEls 32 (l.map (fun p => p.2.1)))),
                            (vAfter 2 d, some (vecEls 32 (l.map (fun p => p.2.2))))],
          due := .exact (x.w.cycle + x.h.pd.val), req := .none, pin := none, arg := 0, next := .seq })

/-! ### Mask instructions (R236) -/

def maskOp (h : Hdr) (srcs : List Opnd) (d : Opnd) (f : List Val → Word) (s : State) : Out3 :=
  issue h srcs [d] s (fun x vs => Act.fixed x s d (.w (f vs)))

def execKand (h : Hdr) (d a b : Opnd) (s : State) : Out3 := maskOp h [a, b] d (fun v => wordAt v 0 &&& wordAt v 1) s
def execKor (h : Hdr) (d a b : Opnd) (s : State) : Out3 := maskOp h [a, b] d (fun v => wordAt v 0 ||| wordAt v 1) s
def execKxor (h : Hdr) (d a b : Opnd) (s : State) : Out3 := maskOp h [a, b] d (fun v => wordAt v 0 ^^^ wordAt v 1) s
def execKnot (h : Hdr) (d a : Opnd) (s : State) : Out3 := maskOp h [a] d (fun v => ~~~(wordAt v 0)) s
def execKpop (h : Hdr) (d a : Opnd) (s : State) : Out3 := maskOp h [a] d (fun v => w64 (onesIn (wordAt v 0).toNat 64)) s
def execKmov (h : Hdr) (d a : Opnd) (s : State) : Out3 := maskOp h [a] d (fun v => wordAt v 0) s

/-! ### Line-store words (R231 to R233) -/

/-- The mask of a line-store word. -/
def LsMask (l : LsF) : VMask := { kv := l.kv, kz := false, kr := l.kr }

/-- The check of an address register: bits above the line store give reason 0 (R231). -/
def lsAddrBad (top : Nat) (w : Word) (n al : Nat) : Option Word :=
  if 2 ^ 24 ≤ w.toNat then some (lsInfo 0 0xFF w.toNat)
  else (lsReason top w.toNat n al).map (fun r => lsInfo r 0xFF w.toNat)

/-- The first active lane whose address is refused (R231, R233). -/
def lanesBad (top : Nat) (l : LsF) (kv : Word) (a : Val) : Option Word :=
  (List.range 64).findSome? (fun i =>
    if !VMaskOn (LsMask l) kv i then none
    else
      let x := a.el 32 i
      if 2 ^ 24 ≤ x then some (lsInfo 0 i x) else (lsReason top x 4 4).map (fun r => lsInfo r i x))

/-- A vld or vldt that waits for no semaphore (R213). -/
def nearLs (l : LsF) : Instr → Bool
  | .vld _ _ _ _ => l.wait.isNone
  | .vldt _ _ _ _ => l.wait.isNone
  | _ => false

/-- A queued line-store word: its fault, or its command with the values that it read. -/
def queueLs (x : Ctx) (s : State) (i : Instr) (l : LsF) (vs : List Val) (bad : Option Word)
    (outs : List (Opnd × Option Val)) : Act :=
  freeQ x s .vec (match bad with
    | some info => Act.trap s 0x17 info
    | none =>
      let k := { Cmd.new x s .vec i vs with wait := l.wait.map (fun n => n.toNat), sig := l.sig.map (fun n => n.toNat), ord := l.ord }
      if outs.isEmpty then enqAct x s k else queueResult x s k outs (vecDue x (nearLs l i) 0))

def lsKv (l : LsF) : List Opnd := if l.kv then [.k l.kr] else []

/-- The registers of a group of eight, the first given. -/
def eightOf (d : Opnd) : List Opnd := (List.range 8).map (fun m => vAfter m d)

def execVld (h : Hdr) (l : LsF) (d a : Opnd) (s : State) : Out3 :=
  issue h (a :: (lsKv l ++ (if l.kv then [d] else []))) [d] s (fun x vs =>
    queueLs x s (.vld h l d a) l vs (lsAddrBad (s.lsTop x.w.pid x.w.qc) (wordAt vs 0) 256 256) [(d, none)])

def execVst (h : Hdr) (l : LsF) (a b : Opnd) (s : State) : Out3 :=
  issue h (a :: b :: lsKv l) [] s (fun x vs =>
    queueLs x s (.vst h l a b) l vs (lsAddrBad (s.lsTop x.w.pid x.w.qc) (wordAt vs 0) 256 256) [])

def execVldt (h : Hdr) (l : LsF) (d a : Opnd) (s : State) : Out3 :=
  issue h (a :: (lsKv l ++ (if l.kv then eightOf d else []))) (eightOf d) s (fun x vs =>
    queueLs x s (.vldt h l d a) l vs (lsAddrBad (s.lsTop x.w.pid x.w.qc) (wordAt vs 0) 2048 2048)
      ((eightOf d).map (fun o => (o, none))))

def execVstt (h : Hdr) (l : LsF) (a b : Opnd) (s : State) : Out3 :=
  issue h (a :: (eightOf b ++ lsKv l)) [] s (fun x vs =>
    queueLs x s (.vstt h l a b) l vs (lsAddrBad (s.lsTop x.w.pid x.w.qc) (wordAt vs 0) 2048 2048) [])

def execVgath (h : Hdr) (l : LsF) (d a : Opnd) (s : State) : Out3 :=
  issue h (a :: (lsKv l ++ (if l.kv then [d] else []))) [d] s (fun x vs =>
    queueLs x s (.vgath h l d a) l vs (lanesBad (s.lsTop x.w.pid x.w.qc) l (wordAt vs 1) (va vs 0)) [(d, none)])

def execVscat (h : Hdr) (l : LsF) (a b : Opnd) (s : State) : Out3 :=
  issue h (a :: b :: lsKv l) [] s (fun x vs =>
    queueLs x s (.vscat h l a b) l vs (lanesBad (s.lsTop x.w.pid x.w.qc) l (wordAt vs 2) (va vs 0)) [])

/-! ### Performing a queued word (R212) -/

/-- Loaded lanes under a mask. -/
def mergeLanes (l : LsF) (kv : Word) (old : Val) (f : Nat → Nat) : Val :=
  maskEls (LsMask l) [.w kv, old] 32 f

/-- One line-store lane as path v reads it. -/
def laneAt (s : State) (lc a : Nat) : Nat := leNat (s.lsGet lc .v a 4)

/-- Line-store addresses of the active lanes of a word at consecutive places. -/
def lanesOn (l : LsF) (kv : Word) : List Nat := (List.range 64).filter (fun i => VMaskOn (LsMask l) kv i)

/-- What a queued word reads from the line store, and the lanes it writes there: (address, value). -/
structure LsAcc where
  reads : List Nat
  puts  : List (Nat × Nat)
  deriving DecidableEq, Repr

/-- The accesses of a queued word. -/
def lsAccess (k : Cmd) : LsAcc :=
  let v (i : Nat) : Val := va k.ops i
  let a := (wordAt k.ops 0).toNat
  match k.ins with
  | .vld _ l _ _ => { reads := (lanesOn l (wordAt k.ops 1)).map (fun i => a + 4 * i), puts := [] }
  | .vldt _ l _ _ =>
    { reads := (List.range 8).flatMap (fun m => (lanesOn l (wordAt k.ops 1)).map (fun i => a + 256 * m + 4 * i)), puts := [] }
  | .vgath _ l _ _ => { reads := (lanesOn l (wordAt k.ops 1)).map (fun i => (v 0).el 32 i), puts := [] }
  | .vst _ l _ _ => { reads := [], puts := (lanesOn l (wordAt k.ops 2)).map (fun i => (a + 4 * i, (v 1).el 32 i)) }
  | .vstt _ l _ _ =>
    { reads := [],
      puts := (List.range 8).flatMap (fun m =>
        (lanesOn l (wordAt k.ops 9)).map (fun i => (a + 256 * m + 4 * i, (v (1 + m)).el 32 i))) }
  | .vscat _ l _ _ => { reads := [], puts := (lanesOn l (wordAt k.ops 2)).map (fun i => ((v 0).el 32 i, (v 1).el 32 i)) }
  | _ => { reads := [], puts := [] }

/-- The results of a queued word from the lanes that it has read, given by their addresses. -/
def lsVals (k : Cmd) (rd : Nat → Nat) : List Val :=
  let v (i : Nat) : Val := va k.ops i
  let a := (wordAt k.ops 0).toNat
  match k.ins with
  | .vld _ l _ _ => [mergeLanes l (wordAt k.ops 1) (v 2) (fun i => rd (a + 4 * i))]
  | .vldt _ l _ _ =>
    (List.range 8).map (fun m => mergeLanes l (wordAt k.ops 1) (v (2 + m)) (fun i => rd (a + 256 * m + 4 * i)))
  | .vgath _ l _ _ => [mergeLanes l (wordAt k.ops 1) (v 2) (fun i => rd ((v 0).el 32 i))]
  | .vst _ _ _ _ => []
  | .vstt _ _ _ _ => []
  | .vscat _ _ _ _ => []
  | _ => [v 0]

/-- A gather, which reads line by line, or a scatter, which writes lane by lane (R213, R233). -/
def inFrets : Instr → Bool
  | .vgath _ _ _ _ => true
  | .vscat _ _ _ _ => true
  | _ => false

/-- What is left of a queued word's accesses once it has begun. -/
def lsLeft (k : Cmd) : LsAcc :=
  let a := lsAccess k
  { reads := a.reads.filter (fun r => !k.marks.any (fun m => m.1 == r)), puts := a.puts.drop k.prog }

/-- The line-store blocks of the accesses of a queued word. -/
def LsAcc.foot (a : LsAcc) : Foot :=
  { rd := a.reads.map (fun x => x / 2048), wr := a.puts.map (fun p => p.1 / 2048), vrd := [], vwr := [] }

/-- A queued word may make the accesses that are left: its reads wait for the acquires before it, and the mapped blocks are
present (R69, R379). -/
def vecMay (s : State) (x : CmdCtx) : Bool :=
  let a := lsLeft x.k
  (a.reads.isEmpty || !s.engHeld x.c .v x.k) && x.c.footPresent a.foot

/-- Lanes read, with what poison they hold. -/
def State.readLanes (s : State) (x : CmdCtx) (as : List Nat) : State :=
  s.consume x.p.pid x.lc 4 (s.badKeys (.core x.lc) .v (as.flatMap (fun r => lsKeys x.lc r 4)))

/-- A queued word completes with its results (R59, R212). -/
def vecDone (s : State) (x : CmdCtx) (rd : Nat → Nat) : State :=
  (s.deliverTo x.p.pid x.qc .exe x.k.seq (lsVals x.k rd)).endCmd x.p.pid x.qc x.k

/-- A word of one fret performs its accesses and completes (R59, R212, R213). -/
def performVec (s : State) (x : CmdCtx) : State :=
  let a := lsAccess x.k
  let s1 := (s.readLanes x a.reads).putCells (.core x.lc) .v x.p.pid x.qc .r
    (a.puts.flatMap (fun p => keyCells (lsKeys x.lc p.1 4) (natLe 4 p.2))) [] none x.k.id
  vecDone (s1.updCore x.p.pid x.qc (fun c => dirtyBlks c (a.puts.map (fun p => p.1 / 2048)))) x (laneAt s x.lc)

/-- A line that a gather reads next, in no order. -/
def gathLine (s : State) (as : List Nat) : Nat × State :=
  let ls := (as.map (fun a => a / 64)).eraseDups
  let d := s.draw ls.length
  (ls.getD d.1 0, d.2)

/-- A gather reads one line; a scatter writes its next lane; after the last the word completes (R213, R233). -/
def fretStep (s : State) (x : CmdCtx) : State :=
  let a := lsLeft x.k
  match a.puts with
  | p :: ps =>
    let s1 := (s.lsPut x.lc .v x.p.pid x.qc x.k.id p.1 (natLe 4 p.2)).updCore x.p.pid x.qc (fun c => dirtyBlks c [p.1 / 2048])
    if ps.isEmpty then vecDone s1 x (fun _ => 0) else s1.stepDone x
  | [] =>
    let g := gathLine s a.reads
    let now := a.reads.filter (fun r => r / 64 == g.1)
    let got := x.k.marks ++ now.map (fun r => (r, laneAt s x.lc r))
    let s1 := g.2.readLanes x now
    if now.length = a.reads.length then vecDone s1 x (fun r => ((got.find? (fun m => m.1 == r)).map (fun m => m.2)).getD 0)
    else s1.updCmd x.p.pid x.qc x.k.id (fun k => { k with marks := got })

/-- The word of the vector engine that has left the queue and is not complete (R213). -/
def State.vecBegun (s : State) (pid qc : Nat) : Option CmdCtx :=
  match s.core? pid qc with
  | some c => (c.cmdsIn .vec .departed).head?.bind (fun k => s.cmdCtx pid qc k.id)
  | none => none

/-- R212: the wait, the flush, then the word; the words behind a gather or a scatter wait for it. -/
def execVectorQueuedPerform (pid qc : Nat) (s : State) : Out3 :=
  match s.vecBegun pid qc with
  | some x => .next (if vecMay s x then fretStep s x else s)
  | none =>
    match s.headCtx pid qc .vec with
    | none => .next s
    | some x =>
      let s1 := s.takeWait pid qc .v x.k
      match s1.headCtx pid qc .vec with
      | none => .next s
      | some y =>
        if y.k.wait.isSome || !vecMay s1 y then .next s1
        else
          let s2 := s1.departCmd pid qc .v y.k
          .next (if inFrets y.k.ins then s2 else performVec s2 { y with k := { y.k with ord := noOrd } })

/-! ### csplit -/

/-- The bytes of a split's list, line by line (R252, R253). -/
def splitLines (x : CmdCtx) (sh : KShape) : List (List Host.Cell) :=
  let a := wordAt x.k.ops 0
  let bs := (splitList sh a (wordAt x.k.ops 1) (wordAt x.k.ops 2)).2.2
  groupLines (keyCells (lsKeys x.lc (fld a 23 0) bs.length) bs)

/-- The split writes a line of its list on path s (R254); poison that it meets there is a machine check (R255). -/
def splitPut (s : State) (x : CmdCtx) (cells : List Host.Cell) : State :=
  let s1 := s.consume x.p.pid x.lc 5 (s.badKeys (.core x.lc) .s (cells.map (fun c => c.1)))
  (s1.putCells (.core x.lc) .s x.p.pid x.qc .r cells [] none x.k.id).updCore x.p.pid x.qc (fun c =>
    dirtyBlks c [((cells.headD (0, 0)).1 - lsKey x.lc 0) / 2048])

/-- Its list is written: the split delivers E and completes (R253). -/
def splitEnd (s : State) (x : CmdCtx) (e : Nat) : State :=
  let s1 := (s.deliverTo x.p.pid x.qc .exe x.k.seq [.w (w64 e)]).endCmd x.p.pid x.qc x.k
  s1.updCore x.p.pid x.qc (fun c => (c.exe.pend.filter (fun p => p.seq == x.k.seq)).foldl (fun c p => landPend c .exe p) c)

/-- The split writes one of the lines that are left, in no order, and completes with the last. -/
def splitStep (s : State) (x : CmdCtx) (sh : KShape) : State :=
  let ls := splitLines x sh
  let left := (List.range ls.length).filter (fun i => !x.k.marks.any (fun m => m.1 == i))
  let d := s.draw left.length
  let i := left.getD d.1 0
  let s1 := splitPut d.2 x (ls.getD i [])
  if left.length ≤ 1 then splitEnd s1 x (splitList sh (wordAt x.k.ops 0) (wordAt x.k.ops 1) (wordAt x.k.ops 2)).1
  else s1.updCmd x.p.pid x.qc x.k.id (fun k => { k with marks := (i, 0) :: k.marks })

/-- E of a split (R253). -/
def splitLen (k : Cmd) : Nat :=
  match k.ins with
  | .csplit _ sh _ _ _ _ => (splitList sh (wordAt k.ops 0) (wordAt k.ops 1) (wordAt k.ops 2)).1
  | _ => 0

/-- The blocks of a mapped region that the split writes: those of its header and its E entries. -/
def splitFoot (k : Cmd) : Foot :=
  { Foot.none with wr := blocksOf (fld (wordAt k.ops 0) 23 0) (16 + 16 * splitLen k) }

/-- The head of the curve queue leaves it when its wait is satisfied; it then writes its list, line by line. -/
def execCsplitComplete (pid qc : Nat) (s : State) : Out3 :=
  match s.core? pid qc with
  | none => .next s
  | some c =>
    match (c.cmdsIn .curve .departed).head? with
    | some k =>
      (match s.cmdCtx pid qc k.id, k.ins with
       | some x, .csplit _ sh _ _ _ _ =>
         let lands := (c.exe.pend.filter (fun p => p.seq == k.seq)).all (fun p => decide (p.issued + 9 ≤ s.cycle))
         if lands && c.footPresent (splitFoot k) then .next (splitStep s x sh) else .next s
       | _, _ => .next s)
    | none =>
      match s.headCtx pid qc .curve with
      | none => .next s
      | some x =>
        let s1 := s.takeWait pid qc .s x.k
        match s1.headCtx pid qc .curve with
        | none => .next s
        | some y => if y.k.wait.isSome then .next s1 else .next (s1.departCmd pid qc .s y.k)

end Sys2Proof.Machine
end

