-- ==== Sys2Proof/Machine/Matrix.lean ====
section
/-! DEFINITION. The matrix engine: format words, operands, the commands and their queue (spec/16_matrix_engine.md R256 to
R277, R429). -/

namespace Sys2Proof.Machine

/-! ### Format words (R259, R260) -/

def fwAF (w : Word) : Option Fmt := fmtOfNat (fld w 31 28)
def fwBF (w : Word) : Option Fmt := fmtOfNat (fld w 27 24)
def fwOF (w : Word) : Option Fmt := fmtOfNat (fld w 23 20)
def fwAT (w : Word) : Bool := w.getLsbD 19
def fwACC (w : Word) : Bool := w.getLsbD 18
def fwSAT (w : Word) : Bool := w.getLsbD 17
def fwCT (w : Word) : Nat := fld w 15 14

/-- A reserved bit is set. -/
def fwReserved (w : Word) : Bool := w.getLsbD 16 || fld w 13 0 != 0

def fpNarrow (f : Fmt) : Bool := f == .fp32 || f == .fp16 || f == .bf16 || f == .e4m3 || f == .e5m2

/-- The code of R260 for mmac. -/
def fmtMac (w : Word) : Option Nat :=
  if fwReserved w then some 1
  else
    match fwAF w, fwBF w with
    | some a, some b =>
      if (if fwAT w then a == .int8 && b == .int8 else (fpNarrow a && fpNarrow b) || (a == .b4 && b == .b4)) then none
      else some 3
    | _, _ => some 2

/-- A format that the array has under reduced service (R409). -/
def reducedFmt (f : Option Fmt) : Bool := f == some .e4m3 || f == some .e5m2 || f == some .bf16

/-- The code of R260 for mmac on a core whose die offers full service or reduced service (R409). -/
def fmtMacOn (full : Bool) (w : Word) : Option Nat :=
  (fmtMac w).orElse (fun _ => if full || (reducedFmt (fwAF w) && reducedFmt (fwBF w)) then none else some 3)

/-- The code of R260 for mld. -/
def fmtLd (w : Word) : Option Nat :=
  if fwReserved w then some 1
  else
    match fwOF w with
    | some f =>
      if (if fwAT w then f == .int32 || f == .int8 else f != .int32) then none else some 3
    | none => some 2

/-- The code of R260 for mst and mtr. -/
def fmtSt (w : Word) : Option Nat :=
  if fwReserved w then some 1 else if (fwOF w).isNone then some 2 else none

/-! ### Operands (R263 to R266) -/

/-- A line-store descriptor (R263). -/
structure Desc where
  bad  : Bool
  rot  : Nat
  tp   : Nat
  rp   : Nat
  addr : Nat
  deriving DecidableEq, Repr

def descOf (w : Word) : Desc :=
  { bad := fld w 63 57 != 0, rot := fld w 56 52, tp := fld w 51 36, rp := fld w 35 24, addr := fld w 23 0 }

/-- The start of row r before rotation (R264). -/
def Desc.row (d : Desc) (r : Nat) : Nat := d.addr + r / 32 * d.tp + r % 32 * d.rp

/-- The rows that a use of a descriptor touches, with the bytes of each. -/
structure Rows where
  nums : List Nat
  len  : Nat
  deriving DecidableEq, Repr

/-- The ranges that the line-store check covers: with a rotation, whole 2 KiB blocks (R265). The first component is where
the row begins. -/
def Desc.ranges (d : Desc) (rs : Rows) : List (Nat × Nat × Nat) :=
  rs.nums.map (fun r =>
    let a := d.row r
    if d.rot = 0 then (a, a, rs.len) else (a, a / 2048 * 2048, (a + rs.len + 2047) / 2048 * 2048 - a / 2048 * 2048))

/-- The line-store fault of a descriptor's rows; it names where the first refused row begins, before its rotation (DESIGN
CHOICE, notes/assumptions/63.md). -/
def Desc.lsBad (d : Desc) (rs : Rows) (top : Nat) : Option Word :=
  (d.ranges rs).findSome? (fun x => (lsReason top x.2.1 x.2.2 1).map (fun why => lsInfo why 0xFF x.1))

/-- The blocks that a descriptor's rows lie in. -/
def Desc.blocks (d : Desc) (rs : Rows) : List Nat := rs.nums.flatMap (fun r => blocksOf (d.row r) rs.len)

/-- The keys of the bytes of row r, rotated. -/
def Desc.keys (d : Desc) (lc : Nat) (rs : Rows) (r : Nat) : List Nat :=
  (List.range rs.len).map (fun o => lsKey lc (rotAddr d.rot r (d.row r + o)))

/-- Rows of an mmac operand of n indices and K steps (R264). -/
def macRows (f : Fmt) (n k : Nat) : Rows :=
  if f = .b4 then { nums := (List.range (k / 32)).map (fun p => 32 * p), len := 17 * n }
  else { nums := List.range k, len := fmtWidth f / 8 * n }

/-- Rows of mld and mst, and of mtr. -/
def tileRows (f : Fmt) (tr : Bool) : Rows :=
  let rows := if tr then 128 else 192
  let els := if tr then 192 else 128
  { nums := List.range rows, len := if f = .b4 then els / 32 * 17 else fmtWidth f / 8 * els }

/-- The matrix-operand fault (R265). -/
def opInfo (code opn : Nat) : Word := w64 (opn * 256 + code)

/-- The codes of R265 that a descriptor breaks. -/
def descCode (d : Desc) : Option Nat :=
  if d.bad then some 1
  else if d.addr % 64 != 0 || d.rp % 64 != 0 || d.tp % 64 != 0 then some 2
  else none

def macDescCode (d : Desc) (f : Fmt) (k : Nat) : Option Nat :=
  (descCode d).orElse (fun _ => if f = .b4 && d.rp != 0 then some 3 else if f = .b4 && decide (k < 32) then some 6 else none)

/-- A v operand (R266). -/
def macRegCode (n : Nat) (f : Fmt) (isB : Bool) (k : Nat) : Option Nat :=
  if n % 8 != 0 || k != 8 ||
      !(f == .e4m3 || f == .e5m2 || f == .int8 || (isB && (f == .fp16 || f == .bf16))) then some 4 else none

def macLen (isB : Bool) : Nat := if isB then 128 else 192

/-- The sources of an mmac operand (R266). -/
def macSrc : TOp → List Opnd
  | .reg (.v n) => eightOf (.v n)
  | .reg o => [o]
  | .tap t => tapSrc t

/-- The code of R265 that an operand breaks. -/
def macCode (p : Pass) (o : TOp) (vs : List Val) (f : Fmt) (isB : Bool) (k : Nat) : Option Nat :=
  match o with
  | .reg (.v n) => macRegCode n.val f isB k
  | .reg _ => macDescCode (descOf (wordAt vs 0)) f k
  | .tap t =>
    let a := tapArgs t (wordAt vs 0)
    let narrow := match p.sig? a.1 with
      | some g => decide (g.desc.rowBytes < fmtWidth f / 8 * macLen isB)
      | none => false
    if f = .b4 || decide (32 < a.2.2 + k) || narrow then some 5 else none

/-- The fault of a tap operand whose signal is not declared, or whose rows do not reach (R178, R266). -/
def macTapBad (p : Pass) (a : Nat × Nat × Nat) (k : Nat) : Option (BitVec 8 × Word) :=
  match p.sig? a.1 with
  | none => some (0x12, tapInfo a.1 a.2.1 a.2.2)
  | some g => if g.desc.rows < a.2.2 + k then some (0x13, tapInfo a.1 a.2.1 a.2.2) else none

/-- The line-store fault of an operand. -/
def macLs (top : Nat) (o : TOp) (vs : List Val) (f : Fmt) (isB : Bool) (k : Nat) : Option Word :=
  match o with
  | .reg (.v _) => none
  | .reg _ => (descOf (wordAt vs 0)).lsBad (macRows f (macLen isB) k) top
  | .tap _ => none

/-! ### Issue -/

/-- Semaphores of a matrix command (R262). -/
def matSems (x : Ctx) (k : Cmd) (w g : BitVec 4) : Cmd :=
  { k with wait := semOfCode x.c.sbase.toNat w, sig := semOfCode x.c.sbase.toNat g }

/-- The format word is popped (R258). -/
def popFq (x : Ctx) (s : State) : State := s.updCore x.w.pid x.w.qc (fun c => { c with fq := c.fq.tail })

/-- A format word at the head of fq that a check accepts, or the fault (R258, R260); the detail of an underflow, which no rule
gives, is 0 (DESIGN CHOICE, notes/assumptions/62.md). -/
def withFmt (x : Ctx) (s : State) (chk : Word → Option Nat) (k : Word → Act) : Act :=
  match x.c.fq with
  | [] => Act.trap s 0x18 0
  | w :: _ =>
    match chk w with
    | some c => Act.trap s 0x19 (w64 c)
    | none => k w

/-- R258. -/
def execMfmt (h : Hdr) (a : Opnd) (s : State) : Out3 :=
  issue h [a] [] s (fun x vs =>
    if 16 ≤ x.c.fq.length then Act.hold s
    else Act.done (s.updCore x.w.pid x.w.qc (fun c => { c with fq := c.fq ++ [wordAt vs 0] })))

/-- R267, R273: the words issued after it bind the mode. -/
def execMmodeRm (h : Hdr) (rm : RM) (s : State) : Out3 :=
  issue h [] [] s (fun x _ =>
    if x.c.qFull .mat then Act.hold s
    else Act.done ((s.enqueue x (Cmd.new x s .mat (.mmodeRm h rm) [])).updCore x.w.pid x.w.qc (fun c => { c with rm := rm })))

def execMmodeSb (h : Hdr) (n : BitVec 4) (s : State) : Out3 :=
  issue h [] [] s (fun x _ => Act.done (s.updCore x.w.pid x.w.qc (fun c => { c with sbase := n.zeroExtend 8 <<< 4 })))

def execMmodeFqclr (h : Hdr) (s : State) : Out3 :=
  issue h [] [] s (fun x _ => Act.done (s.updCore x.w.pid x.w.qc (fun c => { c with fq := [] })))

def execMzero (h : Hdr) (mask : BitVec 8) (wsem ssem : BitVec 4) (s : State) : Out3 :=
  issue h [] [] s (fun x _ => enqAct x s (matSems x (Cmd.new x s .mat (.mzero h mask wsem ssem) []) wsem ssem))

/-- K of a KC code (R261). -/
def stepsOf (kc : BitVec 3) : Nat := 2 ^ (kc.toNat + 3)

/-- The tap of an mmac word, with the value of its register. -/
def macTap (a b : TOp) (va vb : List Val) : Option (Tap × Word) :=
  match a, b with
  | .tap t, _ => some (t, wordAt va 0)
  | _, .tap t => some (t, wordAt vb 0)
  | _, _ => none

/-- The fault of an mmac's operands: the codes of R265, the line store, then the tap (R265, R266, R383). -/
def macBad (x : Ctx) (top : Nat) (a b : TOp) (va vb : List Val) (fa fb : Fmt) (k : Nat) : Option (BitVec 8 × Word) :=
  (((macCode x.p a va fa false k).map (fun c => (0x1A, opInfo c 0))).orElse
    (fun _ => (macCode x.p b vb fb true k).map (fun c => (0x1A, opInfo c 1)))).orElse (fun _ =>
  (((macLs top a va fa false k).orElse (fun _ => macLs top b vb fb true k)).map (fun i => (0x17, i))).orElse (fun _ =>
  (macTap a b va vb).bind (fun t => macTapBad x.p (tapArgs t.1 t.2) k)))

/-- R261, R265, R266, R270. -/
def execMmac (h : Hdr) (t kc : BitVec 3) (a b : TOp) (f : CmdF) (s : State) : Out3 :=
  issue h (macSrc a ++ macSrc b) [] s (fun x vs =>
    let va := vs.take (macSrc a).length
    let vb := vs.drop (macSrc a).length
    let tap := (macTap a b va vb).map (fun t => readTap x s (tapArgs t.1 t.2) 0)
    let held (k : Act) : Act := freeQ x s .mat (match tap with
      | some r => r.before k
      | none => k)
    held (withFmt x s (fmtMacOn (s.fullDies.getLsbD x.die)) (fun w =>
      let bad := macBad x (s.lsTop x.w.pid x.w.qc) a b va vb ((fwAF w).getD .fp32) ((fwBF w).getD .fp32) (stepsOf kc)
      match bad with
      | some e => Act.trap s e.1 e.2
      | none =>
        let c := { matSems x (Cmd.new x s .mat (.mmac h t kc a b f) vs) f.wsem f.ssem with fmt := w, ord := f.ord }
        match tap with
        | none => Act.done (popFq x (s.enqueue x c))
        | some r => r.run s (fun s rt => Act.done (popFq x (s.enqueue x { c with rpins := rt.pin, taps := [rt] }))))))

/-- The LS side of mld, mst and mtr: its checks, then the command. -/
def tileWord (h : Hdr) (i : Instr) (a : Opnd) (f : CmdF) (chk : Word → Option Nat) (st tr : Bool) (s : State) : Out3 :=
  issue h [a] [] s (fun x vs =>
    freeQ x s .mat (withFmt x s chk (fun w =>
      let d := descOf (wordAt vs 0)
      let rs := tileRows ((fwOF w).getD .fp32) tr
      let code := (descCode d).orElse (fun _ => if st && (decide (d.rp < rs.len) || decide (d.tp < 32 * d.rp)) then some 7 else none)
      match code with
      | some c => Act.trap s 0x1A (opInfo c 2)
      | none =>
        match d.lsBad rs (s.lsTop x.w.pid x.w.qc) with
        | some info => Act.trap s 0x17 info
        | none =>
          let c := { matSems x (Cmd.new x s .mat i vs) f.wsem f.ssem with fmt := w, ord := f.ord }
          Act.done (popFq x (s.enqueue x c)))))

def execMld (h : Hdr) (t : BitVec 3) (a : Opnd) (f : CmdF) (s : State) : Out3 :=
  tileWord h (.mld h t a f) a f fmtLd false false s
def execMst (h : Hdr) (t : BitVec 3) (a : Opnd) (f : CmdF) (s : State) : Out3 :=
  tileWord h (.mst h t a f) a f fmtSt true false s
def execMtr (h : Hdr) (t : BitVec 3) (a : Opnd) (f : CmdF) (s : State) : Out3 :=
  tileWord h (.mtr h t a f) a f fmtSt true true s


/-- R274. -/
def execMnot (h : Hdr) (ssem : BitVec 4) (s : State) : Out3 :=
  issue h [] [] s (fun x _ =>
    if x.c.qFull .mat then Act.hold s
    else Act.done (s.enqueueNot x (matSems x (Cmd.new x s .mat (.mnot h ssem) []) 0 ssem)))

def gapSrc : GapArg → List Opnd
  | .imm _ => []
  | .reg a => [a]

/-- The gap of mpace and cpace (R275, R318). -/
def gapVal (g : GapArg) (w : Word) : Nat :=
  match g with
  | .imm n => n.toNat
  | .reg _ => fld w 15 0

def execMpace (h : Hdr) (g : GapArg) (s : State) : Out3 :=
  issue h (gapSrc g) [] s (fun x vs => enqAct x s (Cmd.new x s .mat (.mpace h g) [.w (w64 (gapVal g (wordAt vs 0)))]))

/-- A request word that breaks R391. -/
def leaseBad (w : Word) : Bool :=
  fld w 47 32 != 0 || (fld w 63 48 != 0 && (fld w 31 16 == 0 || fld w 15 0 == 0))

/-- R276, R392. -/
def execMlease (h : Hdr) (a : Opnd) (ssem : BitVec 4) (s : State) : Out3 :=
  issue h [a] [] s (fun x vs =>
    freeQ x s .mat (if leaseBad (wordAt vs 0) then Act.trap s 0x22 (wordAt vs 0)
      else Act.done (s.enqueue x (matSems x (Cmd.new x s .mat (.mlease h a ssem) vs) 0 ssem))))

/-! ### The scoreboard (R268) -/

/-- The tiles that a command names. -/
def matTiles (k : Cmd) : List Nat :=
  match k.ins with
  | .mzero _ m _ _ => (List.range 8).filter (fun i => m.getLsbD i)
  | .mmac _ t _ _ _ _ => [t.toNat]
  | .mld _ t _ _ => [t.toNat]
  | .mst _ t _ _ => [t.toNat]
  | .mtr _ t _ _ => [t.toNat]
  | _ => []

def macOpFoot (o : TOp) (vs : List Val) (f : Fmt) (isB : Bool) (k : Nat) : List Nat :=
  match o with
  | .reg (.v _) => []
  | .reg _ => (descOf (wordAt vs 0)).blocks (macRows f (macLen isB) k)
  | .tap _ => []

/-- The line-store blocks of a matrix command. -/
def matFoot (k : Cmd) : Foot :=
  match k.ins with
  | .mmac _ _ kc a b _ =>
    let n := stepsOf kc
    let ra := macOpFoot a k.ops ((fwAF k.fmt).getD .fp32) false n
    let rb := macOpFoot b (k.ops.drop (macSrc a).length) ((fwBF k.fmt).getD .fp32) true n
    { Foot.none with rd := ra ++ rb }
  | .mld _ _ _ _ => { Foot.none with rd := (descOf (wordAt k.ops 0)).blocks (tileRows ((fwOF k.fmt).getD .fp32) false) }
  | .mst _ _ _ _ => { Foot.none with wr := (descOf (wordAt k.ops 0)).blocks (tileRows ((fwOF k.fmt).getD .fp32) false) }
  | .mtr _ _ _ _ => { Foot.none with wr := (descOf (wordAt k.ops 0)).blocks (tileRows ((fwOF k.fmt).getD .fp32) true) }
  | _ => Foot.none

def isMnot (k : Cmd) : Bool :=
  match k.ins with
  | .mnot _ _ => true
  | _ => false

/-- X waits for an earlier incomplete entry Y. -/
def matWaits (x y : Cmd) : Bool := isMnot x || meets (matTiles x) (matTiles y) || (matFoot x).clash (matFoot y)

/-! ### Tiles (R257, R270 to R272) -/

def tileKey (t i j : Nat) : Nat := t * 24576 + i * 128 + j

/-- A tile whose elements are given row by row. -/
def setTile (m : Map (BitVec 32)) (t : Nat) (f : Nat → Nat → BitVec 32) : Map (BitVec 32) :=
  let lo := tileKey t 0 0
  m.filter (fun e => decide (e.1 < lo)) ++
  ((List.range 192).flatMap (fun i => (List.range 128).map (fun j => (tileKey t i j, f i j)))).filter (fun e => e.2 != 0) ++
  m.filter (fun e => decide (lo + 24576 ≤ e.1))

/-- The elements of a tile, row by row. -/
def tileEls (m : Map (BitVec 32)) (t : Nat) : List (Nat × BitVec 32) :=
  m.filter (fun e => decide (tileKey t 0 0 ≤ e.1) && decide (e.1 < tileKey t 0 0 + 24576))

/-- The bytes of row r of an operand as path m, or the register group, or the tap gives them. -/
def macRowBytes (s : State) (x : CmdCtx) (o : TOp) (vs : List Val) (f : Fmt) (isB : Bool) (k r : Nat) : List Byte :=
  match o with
  | .reg (.v _) => vregLe (vecAt vs r)
  | .reg _ =>
    let d := descOf (wordAt vs 0)
    s.readKeys (.core x.lc) .m (d.keys x.lc (macRows f (macLen isB) k) (if f = .b4 then r / 32 * 32 else r))
  | .tap _ =>
    match x.k.taps.head? with
    | some t => x.p.tapBytes { t with row := t.row + r } 0 (fmtWidth f / 8 * macLen isB)
    | none => []

/-- Element (index, k) of a row's bytes (R264). -/
def macEl (f : Fmt) (bs : List Byte) (i k : Nat) : Rv :=
  if f = .b4 then b4Elem ((bs.drop (17 * i)).take 17) (k % 32)
  else fmtDec f (leNat ((bs.drop (fmtWidth f / 8 * i)).take (fmtWidth f / 8)))

def macInt (bs : List Byte) (i : Nat) : Int := sval 8 (bs.getD i 0).toNat

/-- The floating-point sum of R98 and R99 over steps given by their rows, from an accumulator value. -/
def macSum (fa fb : Fmt) (rows : List (Nat × List Byte × List Byte)) (i j : Nat) (acc : Nat) : Nat :=
  let prod (r : Nat × List Byte × List Byte) : Rv := Rv.mul (macEl fa r.2.1 i r.1) (macEl fb r.2.2 j r.1)
  if fa = .b4 then
    (List.range (rows.length / 2)).foldl (fun acc p =>
      match rows[2 * p]?, rows[2 * p + 1]? with
      | some r, some q =>
        fFP32.round Rc.rne 0 false (Rv.add .rne (Rv.add .rne (fFP32.dec acc) (prod r)) (prod q))
      | _, _ => acc) acc
  else rows.foldl (fun acc r => fFP32.round Rc.rne 0 false (Rv.add .rne (fFP32.dec acc) (prod r))) acc

/-- The integer sum of R100. -/
def macIntSum (rows : List (Nat × List Byte × List Byte)) (i j : Nat) (acc : Nat) : Nat :=
  ((rows.foldl (fun a r => a + macInt r.2.1 i * macInt r.2.2 j) (acc : Int)) % (2 ^ 32 : Int)).toNat

/-- The new accumulator value of an element after the rows of a step; the first step starts from zero with ACC 0
(R270). -/
def macAcc (w : Word) (fa fb : Fmt) (first : Bool) (rows : List (Nat × List Byte × List Byte)) (i j : Nat)
    (old : BitVec 32) : BitVec 32 :=
  let acc := if fwACC w || !first then old.toNat else 0
  BitVec.ofNat 32 (if fwAT w then macIntSum rows i j acc else macSum fa fb rows i j acc)

/-- The value of element (i, j) of an mld (R271). -/
def ldEl (w : Word) (f : Fmt) (bs : List Byte) (j : Nat) : BitVec 32 :=
  let v := macEl f bs (if f = .b4 then j / 32 else j) (j % 32)
  if fwAT w then
    BitVec.ofInt 32 (sval (fmtWidth f) (leNat ((bs.drop (fmtWidth f / 8 * j)).take (fmtWidth f / 8))))
  else BitVec.ofNat 32 (fFP32.round Rc.rne 0 false v)

/-- The value of an accumulator element as mst and mtr convert it. -/
def accVal (w : Word) (e : BitVec 32) : Rv := if fwAT w then .ofInt e.toInt else fFP32.dec e.toNat

/-- The conversion context of a command (R97, R267). -/
def Cmd.rcOf (k : Cmd) : Rc := { rm := k.rm, seed := BitVec.ofNat 32 (fld k.fmt 63 32), now := w64 k.ivl }

/-- The bytes of a row of mst or mtr: elements (i, j) with the coordinate of each (R272). -/
def stRow (k : Cmd) (f : Fmt) (tr : Bool) (els : List (Nat × BitVec 32)) (t r : Nat) : List Byte :=
  let w := k.fmt
  let n := if tr then 192 else 128
  let el (c : Nat) : BitVec 32 := mget 0 els (if tr then tileKey t c r else tileKey t r c)
  if f = .b4 then
    (List.range (n / 32)).flatMap (fun b =>
      b4Encode k.rcOf (fwCT w) (if tr then 6 * r + b else 4 * r + b)
        ((List.range 32).map (fun m => accVal w (el (32 * b + m)))))
  else
    (List.range n).flatMap (fun c =>
      natLe (fmtWidth f / 8) (
        if !fwAT w && f == .fp32 then fFP32.canon (el c).toNat
        else if fwAT w && f == .int32 then (el c).toNat
        else fmtEnc f k.rcOf (if tr then 128 * c + r else 128 * r + c) (fwSAT w) (accVal w (el c))))

/-- The K-steps of step j of an mmac: pairs for B4 (R99). -/
def macKs (f : Fmt) (j : Nat) : List Nat := if f = .b4 then [2 * j, 2 * j + 1] else [j]

/-- The rows of step j of an mmac, with the K-step of each. -/
def macRowsOf (s : State) (x : CmdCtx) (a b : TOp) (n j : Nat) : List (Nat × List Byte × List Byte) :=
  let fa := (fwAF x.k.fmt).getD .fp32
  let fb := (fwBF x.k.fmt).getD .fp32
  let va := x.k.ops.take (macSrc a).length
  let vb := x.k.ops.drop (macSrc a).length
  (macKs fa j).map (fun r => (r, macRowBytes s x a va fa false n r, macRowBytes s x b vb fb true n r))

def updTile (s : State) (x : CmdCtx) (t : Nat) (f : Map (BitVec 32) → Nat → Nat → BitVec 32) : State :=
  s.updCore x.p.pid x.qc (fun c => { c with tiles := setTile c.tiles t (f (tileEls c.tiles t)) })

/-- The mark of uncorrectable data of accumulator elements goes once they are written anew (R388). -/
def State.clearTile (s : State) (pid qc : Nat) (els : Nat → Bool) : State :=
  { s with poisonTiles := s.poisonTiles.filter (fun p => !(p.1 == pid && p.2.1 == qc && els p.2.2)) }

/-- What a step consumes of uncorrectable data in the accumulator elements that it reads (R388). -/
def State.tileBad (s : State) (pid qc : Nat) (els : Nat → Bool) : List Nat :=
  if s.poisonTiles.any (fun p => p.1 == pid && p.2.1 == qc && els p.2.2) then [0] else []

/-- The elements of a tile, of its row i, and of its column j. -/
def ofTile (t e : Nat) : Bool := e / 24576 == t
def ofRow (t i e : Nat) : Bool := e / 128 == t * 192 + i
def ofCol (t j e : Nat) : Bool := e / 24576 == t && e % 128 == j

/-- One row of mst or mtr; its write enters the m buffer (R269, R272). -/
def storeRow (s : State) (x : CmdCtx) (t : Nat) (tr : Bool) : State :=
  let d := descOf (wordAt x.k.ops 0)
  let f := (fwOF x.k.fmt).getD .fp32
  let rs := tileRows f tr
  let r := x.k.prog
  let s := s.consume x.p.pid x.lc 2 (s.tileBad x.p.pid x.qc (if tr then ofCol t r else ofRow t r))
  let s := s.putCells (.core x.lc) .m x.p.pid x.qc .r (keyCells (d.keys x.lc rs r) (stRow x.k f tr (tileEls x.c.tiles t) t r)) []
    none x.k.id
  s.updCore x.p.pid x.qc (fun c => dirtyBlks c (blocksOf (d.row r) rs.len))

/-- The line-store locations that row r of an operand reads. -/
def macRowKeys (lc : Nat) (o : TOp) (vs : List Val) (f : Fmt) (isB : Bool) (k r : Nat) : List Nat :=
  match o with
  | .reg (.v _) => []
  | .reg _ => (descOf (wordAt vs 0)).keys lc (macRows f (macLen isB) k) (if f = .b4 then r / 32 * 32 else r)
  | .tap _ => []

/-- Uncorrectable data that row r of an operand meets (R388). -/
def macRowBad (s : State) (x : CmdCtx) (o : TOp) (vs : List Val) (f : Fmt) (isB : Bool) (k r : Nat) : List Nat :=
  match o with
  | .tap _ => x.k.taps.flatMap (fun t => x.p.tapBad { t with row := t.row + r } 0 (fmtWidth f / 8 * macLen isB))
  | _ => s.badKeys (.core x.lc) .m (macRowKeys x.lc o vs f isB k r)

/-- Step `prog` of an mmac (R98 to R100, R270). -/
def macStep (s : State) (x : CmdCtx) (t n : Nat) (a b : TOp) : State :=
  let fa := (fwAF x.k.fmt).getD .fp32
  let fb := (fwBF x.k.fmt).getD .fp32
  let va := x.k.ops.take (macSrc a).length
  let vb := x.k.ops.drop (macSrc a).length
  let first := x.k.prog == 0
  let bad := (macKs fa x.k.prog).flatMap (fun r => macRowBad s x a va fa false n r ++ macRowBad s x b vb fb true n r) ++
    (if fwACC x.k.fmt || !first then s.tileBad x.p.pid x.qc (ofTile t) else [])
  let s := s.consume x.p.pid x.lc 2 bad
  let s := if first && !fwACC x.k.fmt then s.clearTile x.p.pid x.qc (ofTile t) else s
  let rows := macRowsOf s x a b n x.k.prog
  updTile s x t (fun els i j => macAcc x.k.fmt fa fb first rows i j (mget 0 els (tileKey t i j)))

/-- Row i of an mld (R271): the other rows of the tile stay. -/
def loadRow (s : State) (x : CmdCtx) (t : Nat) : State :=
  let d := descOf (wordAt x.k.ops 0)
  let f := (fwOF x.k.fmt).getD .fp32
  let ks := d.keys x.lc (tileRows f false) x.k.prog
  let s := (s.consume x.p.pid x.lc 2 (s.badKeys (.core x.lc) .m ks)).clearTile x.p.pid x.qc (ofRow t x.k.prog)
  let bs := s.readKeys (.core x.lc) .m ks
  updTile s x t (fun els i j => if i = x.k.prog then ldEl x.k.fmt f bs j else mget 0 els (tileKey t i j))

/-- The steps of a matrix command: K-steps, or rows of a tile. -/
def matSteps (k : Cmd) : Nat :=
  match k.ins with
  | .mmac _ _ kc _ _ _ => if (fwAF k.fmt).getD .fp32 = .b4 then stepsOf kc / 2 else stepsOf kc
  | .mld _ _ _ _ => 192
  | .mst _ _ _ _ => 192
  | .mtr _ _ _ _ => 128
  | _ => 1

/-- The step of a matrix command at which it stands. -/
def matStep (s : State) (x : CmdCtx) : State :=
  match x.k.ins with
  | .mzero _ m _ _ =>
    (s.clearTile x.p.pid x.qc (fun e => m.getLsbD (e / 24576))).updCore x.p.pid x.qc (fun c => { c with tiles := c.tiles.filter (fun e => !m.getLsbD (e.1 / 24576)) })
  | .mmac _ t kc a b _ => macStep s x t.toNat (stepsOf kc) a b
  | .mld _ t _ _ => loadRow s x t.toNat
  | .mst _ t _ _ => storeRow s x t.toNat false
  | .mtr _ t _ _ => storeRow s x t.toNat true
  | _ => s

/-- The line-store blocks that the step of a matrix command touches. -/
def matStepFoot (k : Cmd) : Foot :=
  let d := descOf (wordAt k.ops 0)
  let f := (fwOF k.fmt).getD .fp32
  let op (o : TOp) (vs : List Val) (f : Fmt) (isB : Bool) (n : Nat) : List Nat :=
    match o with
    | .reg (.v _) => []
    | .reg _ => (macKs ((fwAF k.fmt).getD .fp32) k.prog).flatMap (fun r =>
        blocksOf ((descOf (wordAt vs 0)).row (if f = .b4 then r / 32 * 32 else r)) (macRows f (macLen isB) n).len)
    | .tap _ => []
  match k.ins with
  | .mmac _ _ kc a b _ =>
    let ra := op a k.ops ((fwAF k.fmt).getD .fp32) false (stepsOf kc)
    let rb := op b (k.ops.drop (macSrc a).length) ((fwBF k.fmt).getD .fp32) true (stepsOf kc)
    { Foot.none with rd := ra ++ rb }
  | .mld _ _ _ _ => { Foot.none with rd := blocksOf (d.row k.prog) (tileRows f false).len }
  | .mst _ _ _ _ => { Foot.none with wr := blocksOf (d.row k.prog) (tileRows f false).len }
  | .mtr _ _ _ _ => { Foot.none with wr := blocksOf (d.row k.prog) (tileRows f true).len }
  | _ => Foot.none

/-- Half clocks of a K-step (R260). -/
def stepHalves (f : Fmt) : Nat :=
  match f with
  | .b4 => 1
  | .fp16 => 4
  | .bf16 => 4
  | .fp32 => 16
  | _ => 2

/-- What a step of an mmac uses of the array, in half clocks: by its slower format, and at least as many as the pacing gives a
K-step; the other commands have no rate (R260, R394, R399). -/
def matCost (k : Cmd) (pace : Nat) : Nat :=
  let step := Nat.max pace (Nat.max (stepHalves ((fwAF k.fmt).getD .fp32)) (stepHalves ((fwBF k.fmt).getD .fp32)))
  match k.ins with
  | .mmac _ _ _ _ _ _ => if (fwAF k.fmt).getD .fp32 = .b4 then 2 * step else step
  | _ => 0


/-! ### Events -/

/-- The gap since the last departure has passed, and the engine has room (R267, R315). -/
def mayLeave (s : State) (last : Option Nat) (gap room : Nat) (out : List Cmd) : Bool :=
  (match last with
   | some l => decide (l + gap ≤ s.cycle) && decide (l < s.cycle)
   | none => true) && decide (out.length < room)

/-- Entries of an engine that have left its queue and are not complete. -/
def CoreSt.leftOf (c : CoreSt) (e : Eng) : List Cmd := c.cmds.filter (fun k => k.eng == e && k.st != .queued)

/-- The head of the matrix queue takes its wait, then leaves when R267 admits it; at most one entry leaves in a cycle, also
with a gap of 0 (DESIGN CHOICE, notes/assumptions/73.md). -/
def execMatrixCommandDepart (pid qc : Nat) (s : State) : Out3 :=
  match s.headCtx pid qc .mat with
  | none => .next s
  | some x =>
    let s1 := s.takeWait pid qc .m x.k
    match s1.headCtx pid qc .mat with
    | none => .next s
    | some y =>
      if y.k.wait.isSome || !mayLeave s1 y.c.mlast y.c.mgap 8 (y.c.leftOf .mat) then .next s1
      else
        let s2 := (s1.departCmd pid qc .m y.k).updCore pid qc (fun c => { c with mlast := some s.cycle })
        match y.k.ins with
        | .mmodeRm _ _ => .next (s2.endCmd pid qc y.k)
        | .mpace _ _ => .next ((s2.updCore pid qc (fun c => { c with mgap := (wordAt y.k.ops 0).toNat })).endCmd pid qc y.k)
        | _ => .next s2

/-- A departed command starts when the scoreboard admits it; its steps follow (R268, R274). -/
def execMatrixCommandStart (pid qc n : Nat) (s : State) : Out3 :=
  match s.cmdCtx pid qc n with
  | none => .next s
  | some x =>
    if x.k.eng != .mat || x.k.st != .departed || x.earlier.any (matWaits x.k) then .next s
    else
      match x.k.ins with
      | .mlease _ _ _ => .next s
      | .mnot _ _ => .next (s.notify pid qc x.k)
      | _ => .next (s.updCmd pid qc n (fun k => { k with st := .started, begun := s.cycle }))

/-- A command takes of what the array may still do in this cycle; the steps of all started commands share it (R268). -/
def State.takeHalves (s : State) (x : CmdCtx) (need : Nat) : State :=
  let t := x.k.share need x.c.matLeft
  (s.updCmd x.p.pid x.qc x.k.id (fun k => { k with quota := k.quota + t })).updCore x.p.pid x.qc (fun c =>
    { c with matLeft := c.matLeft - t })

/-- A step that reads the line store waits for the acquires before its command (R69, R269). -/
def matHeld (s : State) (x : CmdCtx) : Bool := !(matStepFoot x.k).rd.isEmpty && s.engHeld x.c .m x.k

/-- The next step of a started command, once the array's rate allows it and the mapped blocks that it touches are present
(R260, R268, R379); with the last one its pins go (R179). -/
def State.matNext (s : State) (pid qc n : Nat) : State :=
  match s.cmdCtx pid qc n with
  | none => s
  | some x =>
    let need := matCost x.k (s.matPace x.p x.lc)
    if x.k.eng != .mat || x.k.st != .started || decide (matSteps x.k ≤ x.k.prog) || matHeld s x ||
        !x.c.footPresent (matStepFoot x.k) then s
    else
      let s0 := s.takeHalves x need
      if x.k.quota + x.k.share need x.c.matLeft < need then s0
      else
        let s1 := (matStep s0 x).stepDone x
        if x.k.prog + 1 = matSteps x.k then s1.freePins pid qc x.k else s1

def execMatrixCommandComplete (pid qc n : Nat) (s : State) : Out3 :=
  match s.cmdCtx pid qc n with
  | none => .next s
  | some x =>
    if x.k.eng == .mat && x.k.st == .started && decide (matSteps x.k ≤ x.k.prog) then .next (s.endCmd pid qc x.k) else .next s

end Sys2Proof.Machine
end

