-- ==== Sys2Proof/Machine/Copy.lean ====
section
/-! DEFINITION. The copy and gather engine: shapes, copies, index lists, the indexed reduce of the base dies, saves and
restores of signals, and map slots (spec/18_copy_gather_engine.md R301 to R320, R428, spec/11_signal_instructions.md R203 to
R206, spec/24_translation_and_faults.md R378, R379). -/

namespace Sys2Proof.Machine

/-! ### Shapes (R304 to R307) -/

/-- One side of a copy. -/
inductive Side
  | virt (base : Nat) (pitch : Int)
  | ls (base : Nat) (pitch : Int) (rot : Nat)
  | tap (t : RTap)
  deriving DecidableEq, Repr

def recW (ws : List Word) (i : Nat) : Word := ws.getD i 0

/-- The fields of a shape record. -/
def shRows (ws : List Word) : Nat := fld (recW ws 2) 47 24
def shLen (ws : List Word) : Nat := fld (recW ws 2) 15 0 + 1

/-- A reserved field of a record is nonzero, or it has no rows. -/
def shReserved (ws : List Word) : Bool :=
  fld (recW ws 0) 61 57 != 0 || fld (recW ws 1) 61 57 != 0 || fld (recW ws 2) 63 48 != 0 || fld (recW ws 2) 23 16 != 0 ||
  shRows ws == 0 || fld (recW ws 5) 63 13 != 0 || fld (recW ws 5) 7 5 != 0 || recW ws 6 != 0 || recW ws 7 != 0

def shKind (ws : List Word) (dst : Bool) : Nat := fld (recW ws (if dst then 1 else 0)) 63 62
def shBase (ws : List Word) (dst : Bool) : Nat := fld (recW ws (if dst then 1 else 0)) 56 0
def shPitch (ws : List Word) (dst : Bool) : Int := (recW ws (if dst then 4 else 3)).toInt
def shRot (ws : List Word) (dst : Bool) : Nat := if dst then fld (recW ws 5) 4 0 else fld (recW ws 5) 12 8

/-- A side of a record has a kind that is refused, or a base outside the line store. -/
def sideRefused (ws : List Word) (dst : Bool) : Bool :=
  decide (2 ≤ shKind ws dst) || (shKind ws dst == 1 && decide (2 ^ 24 ≤ shBase ws dst))

/-- A side of a record is not of the kind that its word needs, or has a rotation that it may not have; a flat word reads no
rotation. -/
def sideUnfit (ws : List Word) (dst flat virtOnly : Bool) : Bool :=
  (virtOnly && shKind ws dst != 0) || (shKind ws dst == 0 && !flat && shRot ws dst != 0)

/-- The code of R306 that the sides of a record break, in the order of its table; each side comes with whether it is the
destination and whether it must be virtual. -/
def sidesCode (ws : List Word) (flat : Bool) (l : List (Bool × Bool)) : Option Nat :=
  if l.any (fun x => sideRefused ws x.1) then some 4
  else if l.any (fun x => sideUnfit ws x.1 flat x.2) then some 5
  else none

/-- A side of a record (R307). -/
def sideOf (ws : List Word) (dst flat : Bool) : Side :=
  let p : Int := if flat then (shLen ws : Int) else shPitch ws dst
  if shKind ws dst = 1 then .ls (shBase ws dst) p (if flat then 0 else shRot ws dst) else .virt (shBase ws dst) p

/-- The start of row r of a side, exact. -/
def Side.row (d : Side) (r : Nat) : Int :=
  match d with
  | .virt b p => (b : Int) + r * p
  | .ls b p _ => (b : Int) + r * p
  | .tap _ => 0

/-- The line-store fault of a side over a list of rows of n bytes (R307). -/
def Side.lsBad (d : Side) (rows : List Nat) (n top : Nat) : Option Word :=
  match d with
  | .ls _ _ rot =>
    rows.findSome? (fun r =>
      let a := d.row r
      if a < 0 then some (lsInfo 0 0xFF (a % 2 ^ 24).toNat)
      else
        let a := a.toNat
        let lo := if rot = 0 then a else a / 2048 * 2048
        let hi := if rot = 0 then a + n else (a + n + 2047) / 2048 * 2048
        (lsReason top lo (hi - lo) 1).map (fun why => lsInfo why 0xFF a))
  | _ => none

/-- Line-store blocks and virtual 64-byte lines of a side over rows of n bytes (R316). -/
def Side.blocks (d : Side) (rows : List Nat) (n : Nat) : List Nat :=
  match d with
  | .ls _ _ _ => rows.flatMap (fun r => blocksOf (d.row r).toNat n)
  | _ => []

def linesOf (a n : Nat) : List Nat :=
  if n = 0 then [] else (List.range ((a + n - 1) / 64 - a / 64 + 1)).map (fun i => (a / 64 + i) % 2 ^ 51)

def Side.lines (d : Side) (rows : List Nat) (n : Nat) : List Nat :=
  match d with
  | .virt _ _ => rows.flatMap (fun r => linesOf (d.row r % 2 ^ 57).toNat n)
  | _ => []

/-! ### Issue of shape words -/

/-- The shape fault (R306). -/
def shapeFault (s : State) (h : Word) (code : Nat) : Act := Act.trap s 0x1B (w64 (fld h 31 0 * 2 ^ 32 + code))

/-- A shape word reads its slot and its record on path s at issue (R304); of the slot it does not read HOME, which fills bytes
8 and 9 and shares byte 10 with a field that it checks (R321). -/
def withShape (x : Ctx) (s : State) (h : Word) (k : State → List Word → Act) : Act :=
  let c := x.p.ctx
  let slot := fld h 19 0
  if slot = 0 || c.htl.toNat ≤ slot then shapeFault s h 1
  else
    withRead x s (c.htb + BitVec.ofNat 57 (16 * slot)) 16 (fun s ks =>
      let bs := s.readKeys x.ag .s ks
      let s := s.consume x.w.pid x.lc 1 (s.badKeys x.ag .s (ks.take 8 ++ ks.drop 10))
      let w0 := leWord (bs.take 8)
      let w1 := leWord (bs.drop 8)
      let adr := va57 w0
      if fld w1 51 50 != 2 || fld w0 63 57 != 0 || fld w1 49 21 != 0 || adr.toNat % 64 != 0 then shapeFault s h 1
      else if fld w1 63 52 != fld h 31 20 then shapeFault s h 2
      else
        withRead x s adr 64 (fun s ks =>
          let rs := s.readKeys x.ag .s ks
          let s := s.consume x.w.pid x.lc 1 (s.badKeys x.ag .s ks)
          let ws := (List.range 8).map (fun i => leWord ((rs.drop (8 * i)).take 8))
          if shReserved ws then shapeFault s h 3 else k s ws))

def firstBad : List (Option Word) → Option Word
  | [] => none
  | some c :: _ => some c
  | none :: r => firstBad r

/-- Semaphores of a copy command (R303). -/
def cpySems (x : Ctx) (k : Cmd) (f : CmdF) : Cmd :=
  { k with wait := semOfCode x.c.cbase.toNat f.wsem, sig := semOfCode x.c.cbase.toNat f.ssem, ord := f.ord }

/-- A shape word after its checks: a fault of a code, a line-store fault, or the command. -/
def shapeEnd (x : Ctx) (s : State) (h : Word) (code : Option Nat) (bad : Option Word) (k : Cmd) : Act :=
  match code, bad with
  | some c, _ => shapeFault s h c
  | none, some info => Act.trap s 0x17 info
  | none, none => Act.done (s.enqueue x k)

def cpySrc : CpyTap → List Opnd
  | .none _ => []
  | .src t => tapSrc t
  | .dst t => tapSrc t

/-- The tap-row fault of a copy (R308). -/
def cpyRowBad (x : Ctx) (a : Nat × Nat × Nat) (ws : List Word) : Bool :=
  match x.p.sig? a.1 with
  | some g => decide (g.desc.rows < a.2.2 + shRows ws) || decide (g.desc.rowBytes < shLen ws)
  | none => false

/-- The tap form of a copy: the checks of its other side, then those of the tap. -/
def cpyTapEnd (x : Ctx) (s : State) (ws : List Word) (h : Word) (code : Option Nat) (bad : Option Word) (dst : Bool) (t : Tap)
    (r : Word) (k : Cmd) : Act :=
  let a := tapArgs t r
  let q := if dst then writeTap x s a 0 else readTap x s a 0
  q.before (match code, bad with
    | some c, _ => shapeFault s h c
    | none, some info => Act.trap s 0x17 info
    | none, none =>
      if cpyRowBad x a ws then Act.trap s 0x13 (tapInfo a.1 a.2.1 a.2.2)
      else q.run s (fun s rt => Act.done (s.enqueue x
        (if dst then { k with taps := [rt], wpins := rt.pin } else { k with taps := [rt], rpins := rt.pin }))))

/-- What holds the tap of a copy holds the word before the faults of its shape (R122, R320). -/
def cpyTapFirst (x : Ctx) (s : State) (t : CpyTap) (r : Word) (k : Act) : Act :=
  match t with
  | .none _ => k
  | .src t => (readTap x s (tapArgs t r) 0).before k
  | .dst t => (writeTap x s (tapArgs t r) 0).before k

/-- R308, R309: `flat` for cpy, which reads no pitch and no rotation. -/
def copyWord (h : Hdr) (i : Instr) (flat : Bool) (a : Opnd) (t : CpyTap) (s : State) : Out3 :=
  issue h (a :: cpySrc t) [] s (fun x vs =>
    freeQ x s .copy (cpyTapFirst x s t (wordAt vs 1) (withShape x s (wordAt vs 0) (fun s ws =>
      let k := Cmd.new x s .copy i ([.w (wordAt vs 0), .w (wordAt vs 1)] ++ ws.map Val.w)
      let top := s.lsTop x.w.pid x.w.qc
      let rows := List.range (shRows ws)
      let n := shLen ws
      let src := (sideOf ws false flat).lsBad rows n top
      let dst := (sideOf ws true flat).lsBad rows n top
      let h := wordAt vs 0
      match t with
      | .none f =>
        shapeEnd x s h (sidesCode ws flat [(false, false), (true, false)]) (firstBad [src, dst]) (cpySems x k f)
      | .src t => cpyTapEnd x s ws h (sidesCode ws flat [(true, false)]) dst false t (wordAt vs 1) k
      | .dst t => cpyTapEnd x s ws h (sidesCode ws flat [(false, false)]) src true t (wordAt vs 1) k))))

def execCpy (h : Hdr) (a : Opnd) (t : CpyTap) (s : State) : Out3 := copyWord h (.cpy h a t) true a t s
def execCpy2d (h : Hdr) (a : Opnd) (t : CpyTap) (s : State) : Out3 := copyWord h (.cpy2d h a t) false a t s

/-- The line-store fault of a list of n bytes (R310, R312). -/
def listBad (a n al top : Nat) : Option Word := lsCheck top al [(a, n)]

/-- R310. -/
def gatherWord (h : Hdr) (i : Instr) (gat : Bool) (a b : Opnd) (f : CmdF) (s : State) : Out3 :=
  issue h [a, b] [] s (fun x vs =>
    freeQ x s .copy (withShape x s (wordAt vs 0) (fun s ws =>
      let l := wordAt vs 1
      let n := fld l 55 32
      let top := s.lsTop x.w.pid x.w.qc
      let all := List.range (shRows ws)
      let some_ := List.range n
      let src := (sideOf ws false false).lsBad (if gat then all else some_) (shLen ws) top
      let dst := (sideOf ws true false).lsBad (if gat then some_ else all) (shLen ws) top
      shapeEnd x s (wordAt vs 0) (sidesCode ws false [(false, false), (true, false)])
        (firstBad [listBad (fld l 23 0) (4 * n) 4 top, src, dst])
        (cpySems x (Cmd.new x s .copy i ([.w (wordAt vs 0), .w l] ++ ws.map Val.w)) f))))

def execCgat (h : Hdr) (a b : Opnd) (f : CmdF) (s : State) : Out3 := gatherWord h (.cgat h a b f) true a b f s
def execCscat (h : Hdr) (a b : Opnd) (f : CmdF) (s : State) : Out3 := gatherWord h (.cscat h a b f) false a b f s

/-- R311. -/
def execCfill (h : Hdr) (a b : Opnd) (f : CmdF) (s : State) : Out3 :=
  issue h [a, b] [] s (fun x vs =>
    freeQ x s .copy (withShape x s (wordAt vs 0) (fun s ws =>
      shapeEnd x s (wordAt vs 0) (sidesCode ws false [(true, false)])
        ((sideOf ws true false).lsBad (List.range (shRows ws)) (shLen ws) (s.lsTop x.w.pid x.w.qc))
        (cpySems x (Cmd.new x s .copy (.cfill h a b f) ([.w (wordAt vs 0), .w (wordAt vs 1)] ++ ws.map Val.w)) f))))

/-- Bytes of a table element. -/
def credW (ef : Fmt) : Nat := fmtWidth ef / 8

/-- R312. -/
def execCred (h : Hdr) (ef : Fmt) (a b : Opnd) (f : CmdF) (s : State) : Out3 :=
  issue h [a, b] [] s (fun x vs =>
    freeQ x s .copy (withShape x s (wordAt vs 0) (fun s ws =>
      let l := wordAt vs 1
      let n := shLen ws
      let top := s.lsTop x.w.pid x.w.qc
      let out := n / credW ef * 4
      shapeEnd x s (wordAt vs 0)
        ((sidesCode ws false [(false, true), (true, false)]).orElse (fun _ =>
          if n % credW ef != 0 || decide (4096 < n) then some 6 else none))
        (firstBad [listBad (fld l 23 0) (64 * fld l 39 24) 64 top,
                   (sideOf ws true false).lsBad (List.range (fld l 63 40)) out top])
        (cpySems x (Cmd.new x s .copy (.cred h ef a b f) ([.w (wordAt vs 0), .w l] ++ ws.map Val.w)) f))))

/-- R318. -/
def execCnot (h : Hdr) (ssem : BitVec 4) (s : State) : Out3 :=
  issue h [] [] s (fun x _ =>
    if x.c.qFull .copy then Act.hold s
    else Act.done (s.enqueueNot x { Cmd.new x s .copy (.cnot h ssem) [] with sig := semOfCode x.c.cbase.toNat ssem }))

def execCpace (h : Hdr) (g : GapArg) (s : State) : Out3 :=
  issue h (gapSrc g) [] s (fun x vs => enqAct x s (Cmd.new x s .copy (.cpace h g) [.w (w64 (gapVal g (wordAt vs 0)))]))

def execCpaceSb (h : Hdr) (n : BitVec 4) (s : State) : Out3 :=
  issue h [] [] s (fun x _ => Act.done (s.updCore x.w.pid x.w.qc (fun c => { c with cbase := n.zeroExtend 8 <<< 4 })))

/-! ### Map slots: issue (R378) -/

/-- The region of a descriptor: slot, blocks, address. -/
def regSlot (w : Word) : Nat := fld w 44 41
def regBlocks (w : Word) : Nat := fld w 36 24
def regAddr (w : Word) : Nat := fld w 23 0

/-- The line-store fault of a region: outside, slot area or another slot's region, misaligned. -/
def regBad (c : CoreSt) (w : Word) (top : Nat) : Option Word :=
  let la := regAddr w
  let n := 2048 * regBlocks w
  match lsReason top la n 1 with
  | some r => some (lsInfo r 0xFF la)
  | none =>
    if n != 0 && c.slots.any (fun m => m.1 != regSlot w && decide (m.2.la < la + n) && decide (la < m.2.la + 2048 * m.2.nb)) then
      some (lsInfo 1 0xFF la)
    else if la % 2048 != 0 then some (lsInfo 2 0xFF la)
    else none

/-- The virtual base of mapset is a multiple of 2,048: another is misaligned too (notes/assumptions/17.md). -/
def mapBaseBad (t : Word) : Bool := (va57 t).toNat % 2048 != 0

def execMapset (h : Hdr) (a b : Opnd) (sem : SigSem) (s : State) : Out3 :=
  issue h [a, b] [] s (fun x vs =>
    freeQ x s .copy (match regBad x.c (wordAt vs 0) (s.lsTop x.w.pid x.w.qc) with
      | some info => Act.trap s 0x17 info
      | none =>
        if mapBaseBad (wordAt vs 1) then Act.trap s 0x17 (lsInfo 2 0xFF (regAddr (wordAt vs 0)))
        else Act.done (s.enqueue x { Cmd.new x s .copy (.mapset h a b sem) vs with sig := sem.map (fun n => n.toNat) })))

def execMapflush (h : Hdr) (inv : Bool) (a : Opnd) (sem : SigSem) (s : State) : Out3 :=
  issue h [a] [] s (fun x vs =>
    enqAct x s { Cmd.new x s .copy (.mapflush h inv a sem) vs with sig := sem.map (fun n => n.toNat) })

/-! ### Footprints and order (R316) -/

/-- The record of a shape command. -/
def cmdRec (k : Cmd) : List Word := (k.ops.drop 2).map Val.word

/-- The sides of a shape command, a tap side in its place. -/
def cmdSides (k : Cmd) : Side × Side :=
  let ws := cmdRec k
  let tap : Side := match k.taps.head? with
    | some t => .tap t
    | none => .virt 0 0
  match k.ins with
  | .cpy _ _ (.src _) => (tap, sideOf ws true true)
  | .cpy _ _ (.dst _) => (sideOf ws false true, tap)
  | .cpy _ _ (.none _) => (sideOf ws false true, sideOf ws true true)
  | .cpy2d _ _ (.src _) => (tap, sideOf ws true false)
  | .cpy2d _ _ (.dst _) => (sideOf ws false false, tap)
  | _ => (sideOf ws false false, sideOf ws true false)

/-- Rows that a command can name on its source and its destination, and the bytes of a row there. -/
def cmdRows (k : Cmd) : (List Nat × Nat) × (List Nat × Nat) :=
  let ws := cmdRec k
  let l := wordAt k.ops 1
  let all := List.range (shRows ws)
  let n := shLen ws
  match k.ins with
  | .cgat _ _ _ _ => ((all, n), (List.range (fld l 55 32), n))
  | .cscat _ _ _ _ => ((List.range (fld l 55 32), n), (all, n))
  | .cred _ ef _ _ _ => ((all, n), (List.range (fld l 63 40), n / credW ef * 4))
  | .cfill _ _ _ _ => (([], n), (all, n))
  | _ => ((all, n), (all, n))

/-- The list of an indexed command in the line store. -/
def cmdList (k : Cmd) : List Nat :=
  let l := wordAt k.ops 1
  match k.ins with
  | .cgat _ _ _ _ => blocksOf (fld l 23 0) (4 * fld l 55 32)
  | .cscat _ _ _ _ => blocksOf (fld l 23 0) (4 * fld l 55 32)
  | .cred _ _ _ _ _ => blocksOf (fld l 23 0) (64 * fld l 39 24)
  | _ => []

/-- The number of the slot that a map command names. -/
def mapSlotOf (k : Cmd) : Nat :=
  match k.ins with
  | .mapset _ _ _ _ => regSlot (wordAt k.ops 0)
  | _ => fld (wordAt k.ops 0) 3 0

/-- The map slot of a number. -/
def CoreSt.slot? (c : CoreSt) (n : Nat) : Option MapSlot := (c.slots.find? (fun m => m.1 == n)).map (fun m => m.2)

/-- The lines of the backing range to which a save writes the samples of its window back (R204). -/
def winLines (x : CmdCtx) (sig : Nat) (lo n : Nat) : List Nat :=
  match x.p.sig? sig with
  | some g => if g.desc.backed then
      (List.range n).flatMap (fun i => linesOf (backVa g.desc (lo + i)).toNat g.desc.size) else []
  | none => []

/-- The footprint of a map slot's write-back. -/
def slotFoot (m : MapSlot) : Foot :=
  { Foot.none with rd := (List.range m.nb).map (fun j => m.la / 2048 + j), vwr := linesOf m.base.toNat (2048 * m.nb) }

/-- Lines of a save or restore record: its entry, and the folio of the LS and depot tiers. -/
def recLines (c : CmdCtx) (sig : Nat) (a : Word) (n : Nat) : List Nat :=
  let va := (va57 a).toNat
  match c.p.sig? sig with
  | some g => linesOf va (32 + (if g.desc.backed then 0 else n * g.desc.size))
  | none => linesOf va 32

def copyFoot (x : CmdCtx) (k : Cmd) : Foot :=
  match k.ins with
  | .cnot _ _ => Foot.none
  | .cpace _ _ => Foot.none
  | .ssave _ sig _ _ =>
    let n := (k.range.2 - k.range.1).toNat
    { Foot.none with vwr := recLines x sig.toNat (wordAt k.ops 0) n ++ winLines x sig.toNat k.range.1.toNat n }
  | .srest _ sig _ _ =>
    { Foot.none with vrd := recLines x sig.toNat (wordAt k.ops 0) (match x.p.sig? sig.toNat with
        | some g => g.desc.depth
        | none => 0) }
  | .mapset _ _ _ _ => (match x.c.slot? (mapSlotOf k) with
      | some m => slotFoot m
      | none => Foot.none)
  | .mapflush _ _ _ _ => (match x.c.slot? (mapSlotOf k) with
      | some m => slotFoot m
      | none => Foot.none)
  | _ =>
    let sd := cmdSides k
    let rw := cmdRows k
    { rd := sd.1.blocks rw.1.1 rw.1.2 ++ cmdList k, wr := sd.2.blocks rw.2.1 rw.2.2, vrd := sd.1.lines rw.1.1 rw.1.2,
      vwr := sd.2.lines rw.2.1 rw.2.2 }

/-- The signal that a copy command names. -/
def copySig (k : Cmd) : Option Nat :=
  match k.ins with
  | .ssave _ sig _ _ => some sig.toNat
  | .srest _ sig _ _ => some sig.toNat
  | _ => k.taps.head?.map (fun t => t.sig)

def isCnot (k : Cmd) : Bool :=
  match k.ins with
  | .cnot _ _ => true
  | _ => false

/-- Map commands of one slot keep their order. -/
def mapNum (k : Cmd) : Option Nat :=
  match k.ins with
  | .mapset _ _ _ _ => some (mapSlotOf k)
  | .mapflush _ _ _ _ => some (mapSlotOf k)
  | _ => none

def copyWaits (x : CmdCtx) (y : Cmd) : Bool :=
  isCnot x.k || ((copySig x.k).isSome && copySig x.k == copySig y) || ((mapNum x.k).isSome && mapNum x.k == mapNum y) ||
  (copyFoot x x.k).clash (copyFoot x y)

/-! ### Rows (R307 to R309) -/

def CmdCtx.ag (x : CmdCtx) : Agent := .core x.lc

/-- How a step of a command ends before it is done: at an access fault, at an engine fault of its own, or with a part of its
access still to be made. -/
inductive Stop
  | acc (f : AccFault)
  | eng (cause : BitVec 8) (info : Word)
  | again
  deriving DecidableEq, Repr

/-- Bytes at locations, as a class of an agent reads them, with their poison. -/
def State.rowAt (s : State) (ag : Agent) (cl : Cls) (ks : List Nat) : Row :=
  { bytes := s.readKeys ag cl ks, bad := badPos s ag cl ks }

/-- Rows one after another. -/
def joinRows (l : List Row) : Row :=
  l.foldl (fun a b => { bytes := a.bytes ++ b.bytes, bad := a.bad ++ b.bad.map (fun i => a.bytes.length + i) })
    { bytes := [], bad := [] }

/-- An access on several pages is read page by page, in no order (R64): the bytes once every half has been read. -/
def readHalves (s : State) (x : CmdCtx) (ag : Agent) (cl : Cls) (ps : List Part) : Except Stop Row × State :=
  if ps.length < 2 then (.ok (s.rowAt ag cl (partKeys ps)), s)
  else
    let left := (List.range ps.length).filter (fun i => !x.k.parts.any (fun h => h.1 == i))
    let d := s.draw left.length
    let i := left.getD d.1 0
    let got := (i, d.2.rowAt ag cl ((ps[i]?.map (fun p => p.keys)).getD [])) :: x.k.parts
    if left.length < 2 then
      (.ok (joinRows ((List.range ps.length).filterMap (fun j => (got.find? (fun h => h.1 == j)).map (fun h => h.2)))), d.2)
    else (.error .again, d.2.updCmd x.p.pid x.qc x.k.id (fun k => { k with parts := got }))

/-- Bytes read at a virtual address on path c. -/
def getVa (s : State) (x : CmdCtx) (va : VAddr) (n : Nat) : Except Stop Row × State :=
  let q := s.accessAs x.ag x.k.seq (dieOf x.lc) x.asid .rd va n
  match q.1 with
  | .error f => (.error (.acc f), q.2)
  | .ok ps => readHalves (q.2.drainS x.ag .c ps) x x.ag .c ps

/-- Row r of a side, read on path c. -/
def readRow (s : State) (x : CmdCtx) (d : Side) (r n : Nat) : Except Stop Row × State :=
  match d with
  | .ls _ _ rot =>
    let ks := (List.range n).map (fun o => lsKey x.lc (rotAddr rot r ((d.row r).toNat + o)))
    (.ok (s.rowAt x.ag .c ks), s)
  | .virt _ _ => getVa s x (BitVec.ofInt 57 (d.row r)) n
  | .tap t =>
    match s.pass? x.p.pid with
    | some p =>
      let t := { t with row := t.row + r }
      (.ok { bytes := p.tapBytes t 0 n, bad := (p.tapBad t 0 n).map (fun k => k - t.row * p.rowBytes t.sig) }, s)
    | none => (.ok { bytes := [], bad := [] }, s)

/-- Bytes written at virtual locations on path c. -/
def putParts (s : State) (x : CmdCtx) (ps : List Part) (w : Row) : State :=
  s.putParts x.ag .c x.p.pid x.qc x.k.id ps w

/-- Row r of a side, written; in the line store its page kind is R, where a map covers the region too (R61 to R64; DEDUCED,
notes/assumptions/67.md). -/
def writeRow (s : State) (x : CmdCtx) (d : Side) (r : Nat) (w : Row) : Except AccFault State × State :=
  match d with
  | .ls _ _ rot =>
    let ks := (List.range w.bytes.length).map (fun o => lsKey x.lc (rotAddr rot r ((d.row r).toNat + o)))
    let s1 := s.putCells x.ag .c x.p.pid x.qc .r (keyCells ks w.bytes) (w.bad.map (fun i => ks.getD i 0)) none x.k.id
    let s2 := s1.updCore x.p.pid x.qc (fun c => dirtyBlks c (blocksOf (d.row r).toNat w.bytes.length))
    (.ok s2, s2)
  | .virt _ _ =>
    let q := s.accessAs x.ag x.k.seq (dieOf x.lc) x.asid .wr (BitVec.ofInt 57 (d.row r)) w.bytes.length
    (match q.1 with
     | .error f => (.error f, q.2)
     | .ok ps =>
       let s1 := putParts q.2 x ps w
       (.ok s1, s1))
  | .tap t =>
    let off := (t.row + r) * x.p.rowBytes t.sig
    let s1 := s.updSig x.p.pid t.sig (fun g => g.writeSlot t.num.toNat off w.bytes (w.bad.map (fun i => off + i)))
    (.ok s1, s1)


/-- One row copied from row i of one side to row j of the other. -/
def copyRow (x : CmdCtx) (a b : Side) (i j n : Nat) (s : State) : Option Stop × State :=
  let r := readRow s x a i n
  match r.1 with
  | .error e => (some e, r.2)
  | .ok w =>
    let q := writeRow r.2 x b j w
    match q.1 with
    | .error f => (some (.acc f), q.2)
    | .ok s1 => (none, s1)

/-- A step of a command: the bytes of its rows that it moves, the line-store blocks that it touches, what it does, and
whether the command goes on to its next step (R309, R319, R428). Engine and line-store accesses are those of R pages, in a
mapped region too (DEDUCED, notes/assumptions/67.md). -/
structure Step where
  used : Nat
  foot : Foot
  run  : State → Option Stop × State
  last : Bool := true
  cls  : Option Cls := none             -- the class on which it reads locations (R69)

/-- A side whose rows are read as locations; a tap is none (R60). -/
def Side.located : Side → Bool
  | .tap _ => false
  | _ => true

/-- A row copied. -/
def rowStep (x : CmdCtx) (a b : Side) (i j n : Nat) : Step :=
  { used := n, foot := { Foot.none with rd := a.blocks [i] n, wr := b.blocks [j] n }, run := copyRow x a b i j n,
    cls := if a.located then some .c else none }

/-- A row written. -/
def putStep (x : CmdCtx) (b : Side) (j : Nat) (w : Row) : Step :=
  { used := w.bytes.length, foot := { Foot.none with wr := b.blocks [j] w.bytes.length },
    run := fun s =>
      let q := writeRow s x b j w
      match q.1 with
      | .error f => (some (.acc f), q.2)
      | .ok s1 => (none, s1) }

/-- A step that moves no bytes. -/
def quickStep (f : State → Option Stop × State) : Step := { used := 0, foot := Foot.none, run := f }

/-- The bytes that a command read when it started. -/
def CmdCtx.capBytes (x : CmdCtx) : List Byte := (x.k.cap.headD { bytes := [], bad := [] }).bytes

/-- Entry i of an index list (R310). -/
def idxAt (x : CmdCtx) (i : Nat) : Nat := leNat ((x.capBytes.drop (4 * i)).take 4)

/-- One position of an index list. -/
def idxStep (x : CmdCtx) (gat : Bool) : Option Step :=
  let ws := cmdRec x.k
  let sd := cmdSides x.k
  let i := x.k.prog
  let j := idxAt x i
  if fld (wordAt x.k.ops 1) 55 32 ≤ i then none
  else if j = 0xFFFFFFFF then some (quickStep (fun s => (none, s)))
  else if shRows ws ≤ j then some (quickStep (fun s => (some (.eng 0x24 (w64 (i * 2 ^ 32 + j))), s)))
  else some (rowStep x sd.1 sd.2 (if gat then j else i) (if gat then i else j) (shLen ws))

/-- A row of cfill (R311). -/
def fillRow (x : CmdCtx) : Row :=
  let v := wordAt x.k.ops 1
  { bytes := (List.range (shLen (cmdRec x.k))).map (fun o => v.extractLsb' (8 * (o % 8)) 8), bad := [] }

/-! ### The indexed reduce (R312 to R314) -/

/-- A packet: its first doubleword and its indices. -/
structure Packet where
  head : Word
  idx  : List Nat
  deriving DecidableEq, Repr

def Packet.bag (p : Packet) : Nat := fld p.head 55 32
def Packet.count (p : Packet) : Nat := fld p.head 3 0

/-- The packets of a list of bytes (R312). -/
def packets (bs : List Byte) (np : Nat) : List Packet :=
  (List.range np).map (fun i =>
    let hd := dwordAt bs (64 * i)
    { head := hd, idx := (List.range (fld hd 3 0)).map (fun m => leNat ((bs.drop (64 * i + 8 + 4 * m)).take 4)) })

/-- The packets that a cred read when it started. -/
def CmdCtx.packets (x : CmdCtx) : List Packet := Machine.packets x.capBytes (fld (wordAt x.k.ops 1) 39 24)

/-- The offsets of the list that are read: every header, and the index words below NIDX (R312). -/
def packetReads (ps : List Packet) (o : Nat) : Bool :=
  match ps[o / 64]? with
  | some p => decide (o % 64 < 8 + 4 * p.idx.length)
  | none => false

/-- The code of R387 of a packet header. -/
def packetCode (nb : Nat) (p : Packet) : Option Nat :=
  if nb ≤ p.bag then some 1
  else if p.count = 0 || decide (14 < p.count) then some 2
  else if fld p.head 63 56 != 0 || fld p.head 31 4 != 0 then some 3
  else none

/-- The first packet that breaks a rule, with its code. -/
def packetBad (nb : Nat) (ps : List Packet) : Option (Nat × Nat) :=
  (List.range ps.length).findSome? (fun i =>
    match ps[i]? with
    | some p => (packetCode nb p).map (fun c => (i, c))
    | none => none)

/-- The last packet that names a bag. -/
def lastPacket (ps : List Packet) (b : Nat) : Nat :=
  ((List.range ps.length).filter (fun i => match ps[i]? with
    | some p => p.bag == b
    | none => false)).getLastD 0

/-- The one stack of module HBM that locations lie in, if they do. -/
def stackOf (ks : List Nat) : Option Nat :=
  match ks with
  | [] => none
  | k :: r => if k < 2 ^ 52 && r.all (fun j => decide (j < 2 ^ 52) && j / 2 ^ 16 % 8 == k / 2 ^ 16 % 8) then some (k / 2 ^ 16 % 8) else none

/-- The virtual address of table row j. -/
def tableVa (x : CmdCtx) (j : Nat) : VAddr := BitVec.ofInt 57 ((cmdSides x.k).1.row j)

/-- The parts of a table row in the command's stack, or why the walk stops at it. -/
def tableRow (s : State) (x : CmdCtx) (stack i j : Nat) : Except Stop (List Part) × State :=
  if shRows (cmdRec x.k) ≤ j then (.error (.eng 0x24 (w64 (i * 2 ^ 32 + j))), s)
  else
    let q := s.accessAs x.ag x.k.seq (dieOf x.lc) x.asid .rd (tableVa x j) (shLen (cmdRec x.k))
    match q.1 with
    | .error f => (.error (.acc f), q.2)
    | .ok ps =>
      if stackOf (partKeys ps) = some stack then (.ok ps, q.2) else (.error (.eng 0x25 (vaWord (tableVa x j))), q.2)

/-- One element widened (R313). -/
def widen (ef : Fmt) (bits : Nat) : Nat :=
  match ef with
  | .int8 => (sval 8 bits % (2 ^ 32 : Int)).toNat
  | .int32 => bits
  | .fp32 => fFP32.canon bits
  | f => fFP32.round Rc.rne 0 false (fmtDec f bits)

def isIntFmt (ef : Fmt) : Bool := ef == .int8 || ef == .int32

/-- The running sums after one more row. -/
def addRow (ef : Fmt) (sum : Option (List Nat)) (bs : List Byte) : List Nat :=
  let w := credW ef
  let xs := (List.range (bs.length / w)).map (fun e => widen ef (leNat ((bs.drop (w * e)).take w)))
  match sum with
  | none => xs
  | some ys => List.zipWith (fun y z =>
      if isIntFmt ef then (y + z) % 2 ^ 32 else fFP32.round Rc.rne 0 false (Rv.add .rne (fFP32.dec y) (fFP32.dec z))) ys xs

/-- What the walk does in order: each index of each packet is added, and a bag is written after the last index of the last
packet that names it (R314). Each comes with the number of its packet. -/
def credActs (ps : List Packet) : List (Nat × Packet × Option Nat) :=
  (List.range ps.length).flatMap (fun i =>
    match ps[i]? with
    | some p => p.idx.map (fun j => (i, p, some j)) ++ (if lastPacket ps p.bag = i then [(i, p, none)] else [])
    | none => [])

/-- A table row is added into the running sum of its bag (R313, R314). -/
def addStep (x : CmdCtx) (ef : Fmt) (i j : Nat) (bag : Nat) : Step :=
  let q := quickStep (fun s =>
    let q := tableRow s x x.k.stack i j
    match q.1 with
    | .error e => (some e, q.2)
    | .ok ps =>
      let r := readHalves q.2 x (.base x.k.stack) .g ps
      match r.1 with
      | .error e => (some e, r.2)
      | .ok row =>
        let v := addRow ef ((x.k.sums.find? (fun e => e.1 == bag)).map (fun e => e.2)) row.bytes
        (none, (r.2.consume x.p.pid x.lc 3 row.bad).updCmd x.p.pid x.qc x.k.id (fun k =>
          { k with sums := (bag, v) :: k.sums.filter (fun e => e.1 != bag) })))
  { q with cls := some .g }

/-- The step of a cred at which it stands (R314). -/
def credStep (x : CmdCtx) (ef : Fmt) : Option Step :=
  ((credActs x.packets)[x.k.prog]?).map (fun a =>
    match a.2.2 with
    | some j => addStep x ef a.1 j a.2.1.bag
    | none =>
      let v := ((x.k.sums.find? (fun e => e.1 == a.2.1.bag)).map (fun e => e.2)).getD []
      putStep x (cmdSides x.k).2 a.2.1.bag { bytes := v.flatMap (natLe 4), bad := [] })

/-! ### Saves, restores and map slots -/

/-- Bytes written at a virtual address on path c. -/
def putVa (s : State) (x : CmdCtx) (va : VAddr) (w : Row) : Option Stop × State :=
  let q := s.accessAs x.ag x.k.seq (dieOf x.lc) x.asid .wr va w.bytes.length
  match q.1 with
  | .error f => (some (.acc f), q.2)
  | .ok ps => (none, putParts q.2 x ps w)

/-- The window of a save, newest sample first. -/
def saveWindow (k : Cmd) : List Nat :=
  ((List.range (k.range.2 - k.range.1).toNat).map (fun i => k.range.1.toNat + i)).reverse

/-- The bytes of a sample's slot. -/
def slotRow (g : Sig) (n : Nat) : Row :=
  match g.slot? n with
  | some q => { bytes := (List.range g.desc.size).map (fun i => mget 0 q.data i), bad := q.bad }
  | none => { bytes := (List.range g.desc.size).map (fun _ => 0), bad := [] }

/-- R204: the entry as it stood at issue, then each sample of the window into the folio, or back to its backing range. The
samples begin to drain as they are written back. -/
def saveStep (x : CmdCtx) (sig : Nat) : Option Step :=
  let va := va57 (wordAt x.k.ops 0)
  let put (va : VAddr) (w : Row) : Step := { used := w.bytes.length, foot := Foot.none, run := fun s => putVa s x va w }
  match x.k.prog, x.p.sig? sig with
  | 0, _ => some (put va { bytes := (x.k.ops.drop 1).flatMap (fun v => wordLe 8 v.word), bad := [] })
  | i + 1, some g =>
    (saveWindow x.k)[i]?.map (fun n =>
      if g.desc.backed then
        { used := g.desc.size, foot := Foot.none,
          run := fun s =>
            let r := s.writeBacks x.p.ctx x.p.pid x.qc x.lc x.k.seq x.asid g.desc (g.slot? n).toList
            match r.1 with
            | .error f => (some (.acc f), r.2)
            | .ok s1 => (none, s1) }
      else put (va + 32 + BitVec.ofNat 57 (i * g.desc.size)) (slotRow g n))
  | _, none => none

/-- An entry that R205 refuses: the code of R387. -/
def restCode (g : Sig) (w : List Word) : Option Nat :=
  let e := fld (recW w 3) 32 32
  let l := fld (recW w 3) 24 0
  let per := fld (recW w 1) 28 16
  if fld (recW w 1) 63 49 != 0 || fld (recW w 1) 47 29 != 0 || fld (recW w 1) 15 12 != 0 || fld (recW w 2) 63 57 != 0 ||
      fld (recW w 3) 63 33 != 0 || fld (recW w 3) 31 25 != 0 then some 1
  else if g.desc.depth < l || decide ((recW w 0).toNat < e + l) then some 2
  else if per = 0 || decide (4096 < per) || decide (per ≤ fld (recW w 1) 11 0) then some 3
  else none

/-- The doublewords of the entry that a restore has read. -/
def restEntry (k : Cmd) : List Word := (List.range 4).map (fun i => dwordAt (k.cap.headD { bytes := [], bad := [] }).bytes (8 * i))

/-- L of an entry, and the number of its last sample and one more. -/
def restL (w : List Word) : Nat := fld (recW w 3) 24 0
def restEnd (w : List Word) : Nat := (recW w 0).toNat - fld (recW w 3) 32 32

/-- A restore keeps what it has read. -/
def State.keepRow (s : State) (x : CmdCtx) (row : Row) : State :=
  s.updCmd x.p.pid x.qc x.k.id (fun k => { k with cap := k.cap ++ [row] })

/-- The entry of a restore is read and checked (R205). -/
def restHead (x : CmdCtx) (g : Sig) (s : State) : Option Stop × State :=
  let va := va57 (wordAt x.k.ops 0)
  let r := getVa s x va 32
  match r.1 with
  | .error e => (some e, r.2)
  | .ok row =>
    match restCode g (restEntry { x.k with cap := [row] }) with
    | some c => (some (.eng 0x27 (w64 (c * 2 ^ 60 + va.toNat))), r.2)
    | none => (none, (r.2.consume x.p.pid x.lc 3 row.bad).keepRow x row)

/-- Sample i of a restore, newest first, is read from the folio, or from the KV frame of its page. -/
def restSample (x : CmdCtx) (g : Sig) (i : Nat) (s : State) : Option Stop × State :=
  if isKv x.p.ctx g.desc then
    match (s.backKeys x.p.ctx x.lc x.k.seq x.asid g.desc (restEnd (restEntry x.k) - 1 - i) .rd).1 with
    | .ok ps => (none, s.keepRow x (s.rowAt x.ag .c (partKeys ps)))
    | .error f => (some (.acc f), s)
  else
    let r := getVa s x (va57 (wordAt x.k.ops 0) + 32 + BitVec.ofNat 57 (i * g.desc.size)) g.desc.size
    match r.1 with
    | .error e => (some e, r.2)
    | .ok row => (none, r.2.keepRow x row)

/-- R205: the entry, then each sample; those of a backed signal that is not a KV signal stay in the backing range. -/
def restStep (x : CmdCtx) (sig : Nat) : Option Step :=
  match x.k.prog, x.p.sig? sig with
  | _, none => none
  | 0, some g => some { used := 32, foot := Foot.none, run := restHead x g, cls := some .c }
  | i + 1, some g =>
    if (g.desc.backed && !isKv x.p.ctx g.desc) || decide (restL (restEntry x.k) ≤ i) then none
    else some { used := g.desc.size, foot := Foot.none, run := restSample x g i, cls := some .c }

/-- A restored slot: from what the command has read, or left in its backing range until it is touched. -/
def restSlot (g : Sig) (n : Nat) (row : Option Row) : Slot :=
  let t : Slot := { num := n, st := .ready, segs := 2 ^ g.desc.segs - 1, wp := 0, rp := 0, data := [], touched := true,
                    back := false, bad := [] }
  match row with
  | some r => { t with data := putData [] 0 r.bytes, bad := r.bad }
  | none => { t with touched := false, back := true }

/-- R205, at completion, on the signal that the number then names (DEDUCED, notes/assumptions/68.md). -/
def restRun (s : State) (x : CmdCtx) (sig : Nat) : State :=
  let w := restEntry x.k
  let l := restL w
  s.updSig x.p.pid sig (fun g =>
    { g with n := (restEnd w : Int) - 1, o := restEnd w - l, g := (recW w 1).getLsbD 48, rest := false,
             slots := (List.range l).map (fun i => restSlot g (restEnd w - l + i) x.k.cap[l - i]?),
             desc := { g.desc with period := fld (recW w 1) 28 16, phase := fld (recW w 1) 11 0 } })

/-- A restore that failed leaves n = -1 and no samples (R205). -/
def restFail (s : State) (pid sig : Nat) : State :=
  s.updSig pid sig (fun g => { g with n := -1, o := 0, slots := [], rest := false })

/-- A dirty block of a map slot is written back on path c (R379). -/
def wbBlock (x : CmdCtx) (m : MapSlot) (j : Nat) (s : State) : Option Stop × State :=
  let ks := lsKeys x.lc (m.la + 2048 * j) 2048
  putVa s x (m.base + BitVec.ofNat 57 (2048 * j)) { bytes := s.readKeys x.ag .c ks, bad := badPos s x.ag .c ks }

/-- A block of a slot that has been written back is clean. -/
def cleanBlk (n j : Nat) (c : CoreSt) : CoreSt :=
  { c with slots := c.slots.map (fun e => if e.1 == n then (e.1, { e.2 with dirty := e.2.dirty.filter (fun d => d != j) }) else e) }

/-- The slot that a command binds: none removes it. -/
def bindSlot (c : CoreSt) (n : Nat) (m : Option MapSlot) : CoreSt :=
  let rest := c.slots.filter (fun e => e.1 != n)
  match m with
  | none => { c with slots := rest }
  | some m => { c with slots := mins rest n m }

/-- What a map command does once the dirty blocks of its slot are written back: mapset binds the slot, mapflush.inv makes
its blocks absent (R378, R379). -/
def mapLast (x : CmdCtx) (s : State) : State :=
  let n := mapSlotOf x.k
  match x.k.ins with
  | .mapset _ _ _ _ =>
    let w := wordAt x.k.ops 0
    let m : Option MapSlot := if regBlocks w = 0 then none
      else some { la := regAddr w, nb := regBlocks w, base := va57 (wordAt x.k.ops 1), present := [], dirty := [] }
    s.updCore x.p.pid x.qc (fun c => bindSlot c n m)
  | .mapflush _ true _ _ =>
    s.updCore x.p.pid x.qc (fun c =>
      { c with slots := c.slots.map (fun e => if e.1 == n then (e.1, { e.2 with present := [] }) else e) })
  | _ => s

/-- R378, R379: the first dirty block is written back, or the command does its last step. -/
def mapStep (x : CmdCtx) : Option Step :=
  if x.k.prog != 0 then none
  else
    match x.c.slot? (mapSlotOf x.k) with
    | some { dirty := j :: js, la, nb, base, present } =>
      some { used := 0, foot := Foot.none, last := false, cls := some .c,
             run := fun s =>
               let q := wbBlock x { la := la, nb := nb, base := base, present := present, dirty := j :: js } j s
               match q.1 with
               | some e => (some e, q.2)
               | none => (none, q.2.updCore x.p.pid x.qc (cleanBlk (mapSlotOf x.k) j)) }
    | _ => some (quickStep (fun s => (none, mapLast x s)))

/-! ### Events -/

/-- The step of a started command at which it stands; none once its work is done (R309 to R314, R319). -/
def copyStep (x : CmdCtx) : Option Step :=
  let ws := cmdRec x.k
  let sd := cmdSides x.k
  let r := x.k.prog
  match x.k.ins with
  | .cpy _ _ _ => if r < shRows ws then some (rowStep x sd.1 sd.2 r r (shLen ws)) else none
  | .cpy2d _ _ _ => if r < shRows ws then some (rowStep x sd.1 sd.2 r r (shLen ws)) else none
  | .cgat _ _ _ _ => idxStep x true
  | .cscat _ _ _ _ => idxStep x false
  | .cfill _ _ _ _ => if r < shRows ws then some (putStep x sd.2 r (fillRow x)) else none
  | .cred _ ef _ _ _ => credStep x ef
  | .ssave _ sig _ _ => saveStep x sig.toNat
  | .srest _ sig _ _ => restStep x sig.toNat
  | .mapset _ _ _ _ => mapStep x
  | .mapflush _ _ _ _ => mapStep x
  | _ => none

/-- The command stops where an access or a check stopped it (R319). -/
def stopCmd (s : State) (x : CmdCtx) (e : Stop) : State :=
  match e with
  | .acc f => s.cmdAccFault x.p x.r x.qc x.lc x.k f
  | .eng c i => s.cmdFault x.p.pid x.qc x.k.id c i
  | .again => s

def execCopyCommandDepart (pid qc : Nat) (s : State) : Out3 :=
  match s.headCtx pid qc .copy with
  | none => .next s
  | some x =>
    let s1 := s.takeWait pid qc .c x.k
    match s1.headCtx pid qc .copy with
    | none => .next s
    | some y =>
      if y.k.wait.isSome || !mayLeave s1 y.c.clast y.c.cgap 16 (y.c.leftOf .copy) then .next s1
      else
        let s2 := (s1.departCmd pid qc .c y.k).updCore pid qc (fun c => { c with clast := some s.cycle })
        match y.k.ins with
        | .cpace _ _ => .next ((s2.updCore pid qc (fun c => { c with cgap := (wordAt y.k.ops 0).toNat })).endCmd pid qc y.k)
        | _ => .next s2

/-- A cred waits for the releases that name g (R71). -/
def credHeld (s : State) (x : CmdCtx) : Bool :=
  match x.k.ins with
  | .cred _ _ _ _ _ => !(s.relsNaming x.ag .g x.k.seq).isEmpty
  | _ => false

/-- The list of an indexed command is read, and its poison consumed (R310). -/
def listRead (s : State) (x : CmdCtx) (n : Nat) : State :=
  let row := s.lsRow x.lc .c (lsKeys x.lc (fld (wordAt x.k.ops 1) 23 0) n)
  (s.consume x.p.pid x.lc 3 row.bad).updCmd x.p.pid x.qc x.k.id (fun k => { k with cap := [row] })

/-- A cred fixes the stack of its table, reads its packets and checks them (R314). -/
def credOpen (s : State) (x : CmdCtx) : Option Stop × State :=
  let l := wordAt x.k.ops 1
  let q := s.accessAs x.ag x.k.seq (dieOf x.lc) x.asid .rd (tableVa x 0) 1
  match q.1 with
  | .error f => (some (.acc f), q.2)
  | .ok ps =>
    match stackOf (ps.flatMap (fun p => p.keys)) with
    | none => (some (.eng 0x25 (vaWord (tableVa x 0))), q.2)
    | some stack =>
      let row := q.2.lsRow x.lc .c (lsKeys x.lc (fld l 23 0) (64 * fld l 39 24))
      let pk := packets row.bytes (fld l 39 24)
      let s1 := (q.2.consume x.p.pid x.lc 3 (row.bad.filter (packetReads pk))).updCmd x.p.pid x.qc x.k.id (fun k =>
        { k with cap := [row], stack := stack })
      match packetBad (fld l 63 40) pk with
      | some (i, c) => (some (.eng 0x26 (w64 (i * 2 ^ 32 + c))), s1)
      | none => (none, s1)

/-- Pins of a copy go with its last access; a save keeps them, its samples draining, until it completes (R179, R204). -/
def keepsPins (k : Cmd) : Bool :=
  match k.ins with
  | .ssave _ _ _ _ => true
  | _ => false

/-- What a command does when it starts: it reads its list, or its samples begin to drain (R174, R204, R310, R314). -/
def copyOpen (s : State) (x : CmdCtx) : Option Stop × State :=
  let l := wordAt x.k.ops 1
  match x.k.ins with
  | .cgat _ _ _ _ => (none, listRead s x (4 * fld l 55 32))
  | .cscat _ _ _ _ => (none, listRead s x (4 * fld l 55 32))
  | .cred _ _ _ _ _ => credOpen s x
  | .ssave _ sig _ _ => (none, s.updSig x.p.pid sig.toNat (fun g => g.drainOn (fun n => (saveWindow x.k).contains n)))
  | _ => (none, s)

/-- Pins on a sample that a save's drain need not wait for: those of saves, which go with them, and those of the commands
that wait behind it in its own queue (R204, R316). -/
def CmdCtx.savePins (x : CmdCtx) (sig n : Nat) : Nat :=
  (x.p.cores.map (fun c => ((c.cmds.filter (fun k =>
    keepsPins k || (c.lcore == x.lc && k.eng == .copy && decide (x.k.seq ≤ k.seq)))).map (fun k =>
      k.rpins.count (sig, n))).sum)).sum

/-- A save does not start, so that nothing drains, while a sample of its window has pins of other words (R179;
notes/assumptions/29.md). -/
def saveHeld (x : CmdCtx) : Bool :=
  match x.k.ins with
  | .ssave _ sig _ _ =>
    (match x.p.sig? sig.toNat with
     | some g => (saveWindow x.k).any (fun n => (g.slot? n).any (fun q => decide (x.savePins sig.toNat n < q.rp)))
     | none => false)
  | _ => false

/-- A departed command starts when no earlier one holds it (R316); where its table does not translate it starts later
(R314, R319). -/
def execCopyCommandStart (pid qc n : Nat) (s : State) : Out3 :=
  match s.cmdCtx pid qc n with
  | none => .next s
  | some x =>
    if x.k.eng != .copy || x.k.st != .departed || x.k.held || x.earlier.any (copyWaits x) || credHeld s x || saveHeld x ||
        (!(cmdList x.k).isEmpty && s.engHeld x.c .c x.k) || !x.c.footPresent { Foot.none with rd := cmdList x.k } then .next s
    else if isCnot x.k then .next (s.notify pid qc x.k)
    else
      let r := copyOpen s x
      let s1 := match r.1 with
        | none => r.2
        | some e => stopCmd r.2 x e
      .next (s1.updCmd pid qc n (fun k => if k.held then k else { k with st := .started, begun := s.cycle }))


/-- A command takes of what its engine may still move in this cycle; more than a cycle's bytes are gathered over cycles
(R428). -/
def State.takeBytes (s : State) (x : CmdCtx) (need : Nat) : State :=
  let t := x.k.share need x.c.copyLeft
  (s.updCmd x.p.pid x.qc x.k.id (fun k => { k with quota := k.quota + t })).updCore x.p.pid x.qc (fun c =>
    { c with copyLeft := c.copyLeft - t })

/-- The next step of a started command, once the engine's rate allows it, the mapped blocks that it touches are present, the
acquires before what it reads are complete and no release that names walks is held before it (R69, R71, R319, R379, R428). -/
def State.copyNext (s : State) (pid qc n : Nat) : State :=
  match s.cmdCtx pid qc n with
  | none => s
  | some x =>
    if x.k.eng != .copy || x.k.st != .started || x.k.held || x.k.flt.isSome then s
    else
      match copyStep x with
      | none => s
      | some t =>
        if !x.c.footPresent t.foot || t.cls.any (fun cl => s.engHeld x.c cl x.k) || s.walkHeld x.ag x.k.seq then s
        else
          let s0 := s.takeBytes x t.used
          if x.k.quota + x.k.share t.used x.c.copyLeft < t.used then s0
          else
            let r := t.run s0
            match r.1 with
            | some e => stopCmd r.2 x e
            | none =>
              let s1 := if t.last then r.2.stepDone x else r.2
              match s1.cmdCtx pid qc n with
              | some y => if (copyStep y).isNone && !keepsPins y.k then s1.freePins pid qc y.k else s1
              | none => s1

/-- A command that has done its work, or has stopped at an engine fault, completes (R59, R319); a restore acts here
(R205), and the samples of a save are ready again (R174). -/
def execCopyCommandComplete (pid qc n : Nat) (s : State) : Out3 :=
  match s.cmdCtx pid qc n with
  | none => .next s
  | some x =>
    if x.k.eng != .copy || x.k.st != .started || x.k.held then .next s
    else
      match x.k.ins with
      | .srest _ sig _ _ =>
        if x.k.flt.isSome then .next ((restFail s pid sig.toNat).endCmd pid qc x.k)
        else if (copyStep x).isNone then .next ((restRun s x sig.toNat).endCmd pid qc x.k)
        else .next s
      | .ssave _ sig _ _ =>
        if x.k.flt.isSome || (copyStep x).isNone then
          .next ((s.updSig pid sig.toNat (fun g => g.drainOff (fun n => (saveWindow x.k).contains n))).endCmd pid qc x.k)
        else .next s
      | _ => if x.k.flt.isSome || (copyStep x).isNone then .next (s.endCmd pid qc x.k) else .next s
/-- Block j of map slot n holds a row of its virtual range: every class of the core reads it from then on (R379). -/
def State.fillRow (s : State) (pid qc lc n j : Nat) (m : MapSlot) (row : Row) : State :=
  let ks := lsKeys lc (m.la + 2048 * j) 2048
  let s1 := allClasses.foldl (fun s cl => s.pushBelow 2 (s.chain (.core lc) cl)) s
  let s2 := (s1.append (some (.core lc)) { seq := s1.seq, pk := .r, cells := keyCells ks row.bytes,
                                           bad := row.bad.map (fun i => ks.getD i 0) }).tickSeq
  s2.updCore pid qc (fun c =>
    { c with slots := c.slots.map (fun e => if e.1 == n then (e.1, { e.2 with present := e.2.present ++ [j] }) else e) })

/-- The virtual address of a block of a mapped region. -/
def MapSlot.blkVa (m : MapSlot) (j : Nat) : VAddr := m.base + BitVec.ofNat 57 (2048 * j)

/-- The MU fills an absent block of a mapped region that an engine's access waits for (R379). -/
def fillBlock (s : State) (x : CmdCtx) (n j : Nat) (m : MapSlot) : State :=
  let q := getVa s x (m.blkVa j) 2048
  match q.1 with
  | .error e => stopCmd q.2 x e
  | .ok row => q.2.fillRow x.p.pid x.qc x.lc n j m row

/-- A word that reads blocks of its line store at issue holds while the MU fills those of a mapped region that are absent, one
after another, each in a cycle that is drawn; a fill that faults is a fault of the word (R379). -/
def wordFill (x : Ctx) (s : State) (bs : List Nat) (k : Act) : Act :=
  match (bs.findSome? (absentBlk x.c)).bind (fun b => (x.c.slot? b.1).map (fun m => (b, m))) with
  | none => k
  | some ((n, j), m) =>
    let d := s.draw 2
    let s := d.2
    if d.1 = 0 || s.barred x.ag .c s.seq || s.walkHeld x.ag s.seq then Act.hold s
    else
      let r := s.accessAs x.ag s.seq x.die x.asid .rd (m.blkVa j) 2048
      match r.1 with
      | .error f => .page r.2 f
      | .ok ps =>
        let s1 := r.2.drainS x.ag .c ps
        Act.hold (s1.fillRow x.w.pid x.w.qc x.lc n j m (s1.rowAt x.ag .c (partKeys ps)))

end Sys2Proof.Machine
end

