-- ==== Sys2Proof/Machine/Attention.lean ====
section
/-! DEFINITION. Stack attention, the layer barrier, KV pages and their moves, and parking
(spec/22_stack_attention.md R344 to R363, R425, R426, spec/23_program_park_and_wake.md R364). -/

namespace Sys2Proof.Machine

/-! ### Issue: faults (R349) -/

def attFault (s : State) (code sg i : Nat) : Act := Act.trap s 0x1C (w64 (i * 2 ^ 32 + sg * 256 + code))

/-- A check of a word: nothing, an attention fault with a code, a signal and an entry, or another trap. -/
inductive Chk
  | ok
  | att (code sg i : Nat)
  | trap (cause : BitVec 8) (info : Word)
  deriving DecidableEq, Repr

/-- The first check of a list that fails. -/
def Chk.first : List Chk → Chk
  | [] => .ok
  | .ok :: r => Chk.first r
  | c :: _ => c

def Chk.run (c : Chk) (s : State) (k : Unit → Act) : Act :=
  match c with
  | .ok => k ()
  | .att code sg i => attFault s code sg i
  | .trap cause info => Act.trap s cause info

def Chk.when (b : Bool) (c : Chk) : Chk := if b then c else .ok

/-- A named signal is declared and is a KV signal (R178, R344). -/
def chkKv (a : AsidCtx) (p : Pass) (sg i : Nat) : Chk :=
  match p.sig? sg with
  | none => .trap 0x12 (tapInfo sg 0 0)
  | some g => if isKv a g.desc then .ok else .att 2 sg i

/-- K and V signals differ, or have no format of attention. -/
def chkPair (p : Pass) (sk sv i : Nat) : Chk :=
  match p.sig? sk, p.sig? sv with
  | some k, some v =>
    if k.desc.rows != v.desc.rows || k.desc.rw != v.desc.rw || k.desc.fmt != v.desc.fmt || k.desc.depth != v.desc.depth ||
        decide (4 < k.desc.fmt.toNat) then .att 3 sk i else .ok
  | _, _ => .ok

/-- A line-store area of n bytes below a top. -/
def chkLs (top al a n : Nat) : Chk :=
  match lsCheck top al [(a, n)] with
  | some info => .trap 0x17 info
  | none => .ok

def sigSize (p : Pass) (sg : Nat) : Nat :=
  match p.sig? sg with
  | some g => g.desc.size
  | none => 0

/-! ### kvapp at issue (R350, R351) -/

/-- One entry of a list: its doublewords. -/
structure KvWord where
  w0 : Word
  w1 : Word
  deriving DecidableEq, Repr

def KvWord.k (e : KvWord) : Nat := fld e.w0 8 0
def KvWord.v (e : KvWord) : Nat := fld e.w0 24 16
def KvWord.ka (e : KvWord) : Nat := fld e.w1 23 0
def KvWord.va (e : KvWord) : Nat := fld e.w1 47 24
def KvWord.reserved (e : KvWord) : Bool := fld e.w0 63 25 != 0 || fld e.w0 15 9 != 0 || fld e.w1 63 48 != 0

/-- The entries of a list with their numbers. -/
def kvList (bs : List Byte) (n : Nat) : List (Nat × KvWord) :=
  (List.range n).map (fun i => (i, { w0 := dwordAt bs (16 * i), w1 := dwordAt bs (16 * i + 8) }))

/-- Entries that name a signal again (R349, code 0x05). -/
def chkTwice : List Nat → List (Nat × KvWord) → Chk
  | _, [] => .ok
  | seen, (i, e) :: r =>
    if seen.contains e.k then .att 5 e.k i
    else if seen.contains e.v || e.v == e.k then .att 5 e.v i
    else chkTwice (e.k :: e.v :: seen) r

/-- The checks of R349 on a list, code by code. -/
def kvChecks (x : Ctx) (s : State) (layer : Nat) (es : List (Nat × KvWord)) : Chk :=
  let top := s.lsTop x.w.pid x.w.qc
  let a := x.p.ctx
  Chk.first (
    es.map (fun e => Chk.when e.2.reserved (.att 1 e.2.k e.1)) ++
    es.flatMap (fun e => [chkKv a x.p e.2.k e.1, chkKv a x.p e.2.v e.1]) ++
    es.map (fun e => chkPair x.p e.2.k e.2.v e.1) ++
    [Chk.when (x.c.attqs.contains layer) (.att 4 0 0), chkTwice [] es] ++
    es.flatMap (fun e => [chkLs top 256 e.2.ka (sigSize x.p e.2.k), chkLs top 256 e.2.va (sigSize x.p e.2.v)]))

/-- The lag-0 slot of a signal as R177 admits it; the word names no tap, so nothing else is checked (R350). -/
def lagZero (p : Pass) (sg : Nat) : Chk :=
  match p.resolveW sg 0 0 with
  | .ok _ => .ok
  | .error _ => .trap 0x15 (tapInfo sg 0 0)

/-- The served entry of a list word. -/
def kvEnt (p : Pass) (e : KvWord) : KvEnt :=
  let n (sg : Nat) : Nat := match p.sig? sg with
    | some g => g.n.toNat
    | none => 0
  { sigK := e.k, numK := n e.k, ka := e.ka, sigV := e.v, numV := n e.v, va := e.va }

def KvEnt.pins (e : KvEnt) : List (Nat × Nat) := [(e.sigK, e.numK), (e.sigV, e.numV)]

/-- The blocks of the pages of an entry. -/
def KvEnt.blocks (e : KvEnt) (a : AsidCtx) (p : Pass) : List Nat :=
  e.pins.filterMap (fun x => (p.sig? x.1).map (fun g => kvBlk a g.desc x.2))

/-- Entries served in list order until the pools lack a frame (R350). -/
def kvServe (x : Ctx) : List KvEnt → State → List KvEnt × State
  | [], s => ([], s)
  | e :: es, s =>
    let a := x.p.ctx
    match s.allocPages x.asid a.kpb x.w.pid (e.blocks a x.p) with
    | none => ([], s)
    | some s1 =>
      let r := kvServe x es s1
      (e :: r.1, r.2)

/-- Wait, signal and acquire of an attention command (R348). -/
def attSems (k : Cmd) (f : CmdF) : Cmd :=
  { k with wait := semOfCode 240 f.wsem, sig := semOfCode 240 f.ssem, ord := f.ord }

def execKvapp (h : Hdr) (layer : BitVec 6) (d a : Opnd) (f : CmdF) (s : State) : Out3 :=
  issue h [a] [d] s (fun x vs =>
    let w := wordAt vs 0
    let n := fld w 40 32
    let la := fld w 23 0
    freeQ x s .att ((Chk.first [Chk.when (n == 0) (.att 1 0 0), chkLs (s.lsTop x.w.pid x.w.qc) 16 la (16 * n)]).run s (fun _ =>
      if x.readHeld s then Act.hold s else
      wordFill x s (blocksOf la (16 * n)) (
      let es := kvList (s.lsGet x.lc .s la (16 * n)) n
      let s := s.consume x.w.pid x.lc 1 (s.badKeys x.ag .s (lsKeys x.lc la (16 * n)))
      let ents := es.map (fun e => kvEnt x.p e.2)
      if (ents.flatMap KvEnt.pins).any (x.p.pinFull true) then Act.hold s
      else
        (Chk.first [kvChecks x s layer.toNat es,
                    Chk.first (es.flatMap (fun e => [lagZero x.p e.2.k, lagZero x.p e.2.v]))]).run s (fun _ =>
          let r := kvServe x ents s
          let c := r.1.length
          let k := { attSems (Cmd.new x r.2 .att (.kvapp h layer d a f) [.w w]) f with
                     kvs := r.1, wpins := r.1.flatMap KvEnt.pins }
          let s1 := r.2.enqueue x k
          let s2 := if c < n then s1.updStream x.w.pid x.w.qc x.w.st (fun t =>
              { t with nextTrap := t.nextTrap ++ [.pagePool (w64 (n * 2 ^ 32 + c))] }) else s1
          Act.fixed x s2 d (.w (w64 c)))))))

/-! ### attq and prom at issue (R353, R356) -/

/-- Lowest and highest lag, and the signal, of a lag-range register. -/
def lagLo (w : Word) : Nat := fld w 23 0
def lagHi (w : Word) : Nat := fld w 47 24
def lagSig (w : Word) : Nat := fld w 63 55

def chkLags (w : Word) (sg : Nat) : Chk := Chk.when (fld w 54 48 != 0 || decide (lagHi w < lagLo w)) (.att 1 sg 0)

/-- The highest lag lies at or above the depth. -/
def chkOver (p : Pass) (sg : Nat) (w : Word) : Chk :=
  match p.sig? sg with
  | some g => Chk.when (decide (g.desc.depth ≤ lagHi w)) (.trap 0x14 (tapInfo sg (lagHi w) 0))
  | none => .ok

/-- The newest samples differ. -/
def chkNewest (p : Pass) (sk sv : Nat) : Chk :=
  match p.sig? sk, p.sig? sv with
  | some k, some v => Chk.when (k.n != v.n) (.att 6 sv 0)
  | _, _ => .ok

/-- The samples of S: from the greatest of 0, o and n − LHI to n − LLO. -/
def lagSamples (g : Sig) (o : Nat) (w : Word) : List Nat :=
  let hi : Int := g.n - lagLo w
  let lo : Int := max (g.n - lagHi w) (o : Int)
  if hi < lo then [] else (List.range (hi - lo + 1).toNat).map (fun i => lo.toNat + i)

/-- Bytes of a result triple: 16 + 4 D (R354). -/
def tripleLen (d : SigDesc) : Nat := 16 + 4 * (d.rowBytes / elemBytes d.fmt)

/-- A slot that a query reads is ready. -/
def slotReady (p : Pass) (x : Nat × Nat) : Bool := p.tapReady { sig := x.1, num := x.2, row := 0 }

/-- The samples of S of a query, signal by signal: its reader pins (R353). -/
def attPins (p : Pass) (sk sv : Nat) (lr : Word) : List (Nat × Nat) :=
  match p.sig? sk, p.sig? sv with
  | some gk, some gv =>
    let nums := lagSamples gk (max gk.o gv.o) lr
    nums.map (fun n => (sk, n)) ++ nums.map (fun n => (sv, n))
  | _, _ => []

def execAttq (h : Hdr) (layer : BitVec 6) (d a b : Opnd) (f : CmdF) (s : State) : Out3 :=
  issue h [a, b] [] s (fun x vs =>
    let qa := wordAt vs 0
    let lr := wordAt vs 1
    let sk := fld qa 63 55
    let sv := lagSig lr
    let ac := x.p.ctx
    let top := s.lsTop x.w.pid x.w.qc
    let pins := attPins x.p sk sv lr
    freeQ x s .att (if !pins.all (slotReady x.p) || pins.any (x.p.pinFull false) then Act.hold s else
      (Chk.first [Chk.when (fld qa 54 52 != 0) (.att 1 sk 0), chkLags lr sk, chkKv ac x.p sk 0,
        chkKv ac x.p sv 0, chkPair x.p sk sv 0, chkNewest x.p sk sv, chkOver x.p sk lr]).run s (fun _ =>
      match x.p.sig? sk, x.p.sig? sv with
      | some gk, some gv =>
        let nums := lagSamples gk (max gk.o gv.o) lr
        (Chk.first [chkLs top 256 (fld qa 23 0) (256 + gk.desc.size),
                    chkLs top 16 (fld qa 47 24) (8 * gk.desc.rows * tripleLen gk.desc)]).run s (fun _ =>
          let k := { attSems (Cmd.new x s .att (.attq h layer d a b f) [.w qa, .w lr]) f with
                     rpins := pins, outs := [.chan d 0],
                     range := ((nums.headD 0 : Nat), ((nums.headD 0 + nums.length : Nat) : Int)) }
          Act.done ((s.enqueue x k).updCore x.w.pid x.w.qc (fun c => { c with attqs := c.attqs ++ [layer.toNat] })))
      | _, _ => Act.hold s)))

def execProm (h : Hdr) (a : Opnd) (ssem : BitVec 4) (s : State) : Out3 :=
  issue h [a] [] s (fun x vs =>
    let w := wordAt vs 0
    let sg := lagSig w
    freeQ x s .att ((Chk.first [chkLags w sg, chkKv (x.p.ctx) x.p sg 0, chkOver x.p sg w]).run s (fun _ =>
      match x.p.sig? sg with
      | some g =>
        let nums := lagSamples g g.o w
        Act.done (s.enqueue x { Cmd.new x s .att (.prom h a ssem) [.w w] with
                     sig := semOfCode 240 ssem,
                     range := ((nums.headD 0 : Nat), ((nums.headD 0 + nums.length : Nat) : Int)) })
      | none => Act.hold s)))

/-- PS as R345 codes it. -/
def psCode : PageSt → Nat
  | .none => 0
  | .hbm => 1
  | .down => 2
  | .tier2 => 3
  | .tier3 => 4
  | .up => 5

/-- R356: the page state of a sample, and its stack when hbm. -/
def pstatVal (s : State) (a : AsidCtx) (asid : BitVec 16) (d : SigDesc) (n : Int) : Word :=
  if n < 0 then 0
  else
    match s.page? asid (kvBlk a d n.toNat) with
    | none => 0
    | some k => w64 (psCode k.ps + (if k.ps == .hbm then frameStack k.frame * 16 else 0))

def execPstat (h : Hdr) (d : Opnd) (t : Tap) (s : State) : Out3 :=
  issue h (tapSrc t) [d] s (fun x vs =>
    let a := tapArgs t (wordAt vs 0)
    match x.p.resolve a.1 a.2.1 a.2.2 with
    | .error e => Act.trap s e.1 e.2
    | .ok r =>
      match x.p.sig? a.1 with
      | some g =>
        if isKv (x.p.ctx) g.desc then Act.var x s d (.w (pstatVal s x.p.ctx x.asid g.desc r.num)) 9 none
        else attFault s 2 a.1 0
      | none => Act.hold s)

/-! ### park at issue (R357, R358) -/

def parkFault (s : State) (code : Nat) : Act := Act.trap s 0x1D (w64 code)

/-- The fields of a park record. -/
structure ParkRec where
  wake : VAddr
  t1   : Nat
  t2   : Nat
  nkv  : Nat
  wm   : Nat
  list : List Nat
  bad  : Bool                           -- a reserved field or a field after the list is nonzero
  deriving DecidableEq, Repr

def parkRec (bs : List Byte) : ParkRec :=
  let w0 := dwordAt bs 0
  let w1 := dwordAt bs 8
  let w2 := dwordAt bs 16
  let nkv := fld w2 28 24
  let ls := (List.range 20).map (fun i => leNat ((bs.drop (24 + 2 * i)).take 2))
  { wake := va57 w0, t1 := fld w1 31 0, t2 := fld w1 63 32, nkv := nkv, wm := fld w2 23 0, list := ls.take nkv,
    bad := fld w0 63 57 != 0 || fld w2 63 29 != 0 || ls.any (fun x => decide (512 ≤ x)) || (ls.drop nkv).any (fun x => x != 0) }

def hasTwice : List Nat → Bool
  | [] => false
  | x :: r => r.contains x || hasTwice r

/-- The code of R358 that a record breaks. -/
def parkCode (a : AsidCtx) (p : Pass) (r : ParkRec) : Option Nat :=
  if r.wake = 0 || r.wake.toNat % 8 != 0 then some 1
  else if r.bad || r.nkv = 0 || decide (20 < r.nkv) || (r.t1 != 0 && r.t2 != 0 && decide (r.t2 < r.t1)) then some 2
  else if hasTwice r.list || r.list.any (fun i => match p.sig? i with
      | some g => !isKv a g.desc
      | none => true) then some 3
  else if p.parkPend.isSome then some 4
  else none

def execPark (h : Hdr) (a : Opnd) (s : State) : Out3 :=
  issue h [a] [] s (fun x vs =>
    let va := va57 (wordAt vs 0)
    if va = 0 || va.toNat % 64 != 0 then parkFault s 1
    else
      withRead x s va 64 (fun s ks =>
        let r := parkRec (s.readKeys x.ag .s ks)
        let s := s.consume x.w.pid x.lc 1 (s.badKeys x.ag .s ks)
        match parkCode (x.p.ctx) x.p r with
        | some c => parkFault s c
        | none =>
          withParts x s .wr r.wake 8 (fun s ps =>
            let k : Park := { wake := (ps.flatMap (fun p => p.keys)).headD 0, wakeVa := r.wake, t1 := r.t1, t2 := r.t2,
                              sigs := r.list, wm := r.wm, since := 0, woken := false, order := none, t1on := r.t1 != 0,
                              t2on := r.t2 != 0, dem1 := false, dem2 := false }
            Act.done (s.updPass x.w.pid (fun p =>
              { r.list.foldl (fun p i => p.updSig i (fun g => { g with g := false })) p with parkPend := some k })))))

/-! ### Page moves (R345, R346, R359 to R364) -/

/-- The offset of a location in a frame. -/
def frameOff (f size k : Nat) : Option Nat :=
  let lin := if f / 2 ^ 52 = 5 then k / 2 ^ 19 * 2 ^ 16 + k % 2 ^ 16 else k
  let lo := if f / 2 ^ 52 = 5 then f % 2 ^ 36 else f
  if (f / 2 ^ 52 != 5 || (decide (k < 2 ^ 39) && k / 2 ^ 16 % 8 == frameStack f)) && decide (lo ≤ lin) &&
      decide (lin < lo + size) then some (lin - lo) else none

/-- The location that takes the place of one in a frame that moves. -/
def moveKey (old new size k : Nat) : Nat :=
  match frameOff old size k with
  | some o => canonPa (new + o)
  | none => k

def Wr.moved (w : Wr) (old new size : Nat) : Wr :=
  { w with cells := w.cells.map (fun c => (moveKey old new size c.1, c.2)), bad := w.bad.map (moveKey old new size) }

/-- The bytes of a frame move: those in memory are copied, and writes on their way to the old frame reach the new one. All
that comes from a region that has failed is poisoned (R407). -/
def State.moveFrame (s : State) (old new size : Nat) : State :=
  let src := s.mem.filterMap (fun c => (frameOff old size c.1).map (fun o => (canonPa (new + o), c.2)))
  let bad := if s.badRegions.contains (old / 2 ^ 52) then paKeys new size
    else s.poison.filterMap (fun k => (frameOff old size k).map (fun o => canonPa (new + o)))
  { s with mem := memCells (s.mem.filter (fun c => (frameOff new size c.1).isNone)) src,
           poison := s.poison.filter (fun k => (frameOff new size k).isNone) ++ bad,
           stores := s.stores.map (fun t => { t with ws := t.ws.map (fun w => w.moved old new size) }),
           bufs := s.bufs.map (fun b => { b with ents := b.ents.map (fun e => { e with wr := e.wr.moved old new size }) }) }

/-- The newest sample that a page of a signal holds; none counts as the oldest. -/
def pageTop (a : AsidCtx) (g : Sig) (blk : Nat) : Int :=
  g.slots.foldl (fun m t => if kvBlk a g.desc t.num == blk && decide (m < (t.num : Int)) then (t.num : Int) else m) (-1)

/-- A list put in order by a key, least first, equal keys in their old order. -/
def insBy (f : Nat → Int) (x : Nat) : List Nat → List Nat
  | [] => [x]
  | y :: ys => if f x ≤ f y then x :: y :: ys else y :: insBy f x ys

def sortBy (f : Nat → Int) (l : List Nat) : List Nat := l.foldr (insBy f) []

/-- The allocated pages of a listed signal in a set of states, oldest first. -/
def State.pagesOf (s : State) (asid : BitVec 16) (p : Pass) (sg : Nat) (sel : PageSt → Bool) : List Nat :=
  match p.sig? sg with
  | none => []
  | some g =>
    let a := p.ctx
    sortBy (pageTop a g) ((kvBlocks a g.desc).filter (fun b => match s.page? asid b with
      | some k => sel k.ps
      | none => false))

/-- Rounds: round r takes the r-th page of each list (R359, R361). -/
def roundsOf (ls : List (List Nat)) : List Nat :=
  (List.range (ls.foldl (fun m l => max m l.length) 0)).flatMap (fun r => ls.filterMap (fun l => l[r]?))

/-- A page starts to move to a state, in a frame of the pools; none while they have no frame. The samples of a page that moves
down drain, which pins put off (R174, R179); those of one that moves up stay ready, so that a query waits for the page after it
has issued (R355; DEDUCED, notes/assumptions/29.md). -/
def State.startMove (s : State) (asid : BitVec 16) (blk pid : Nat) (tgt : PageSt) : Option State :=
  match s.page? asid blk with
  | none => none
  | some k =>
    let f := match tgt with
      | .hbm => s.hbmFrame blk k.size
      | .tier2 => s.freeFrame 8 k.size
      | _ => s.freeFrame 9 k.size
    if tgt != .hbm && s.pagePinned asid blk then none
    else f.map (fun f =>
      let t := s.updPage asid blk (fun k =>
        { k with ps := if tgt == .hbm then .up else .down, dest := some (tgt, f), mover := pid,
                 want := if tgt == .hbm then none else k.want })
      if tgt == .hbm then t else t.drainPage asid blk true)

/-- The promotion asked for first by a pass. -/
def firstWant (pid : Nat) (ps : List KvPage) : Option KvPage :=
  ps.foldl (fun m k => match k.want with
    | some (n, q) =>
      if q != pid then m
      else (match m with
        | some j => (match j.want with
            | some (i, _) => if n < i then some k else m
            | none => some k)
        | none => some k)
    | none => m) none

/-- Where the rounds of a parked pass take a page (R359). -/
def demoteTo (k : Park) (ps : PageSt) : Option PageSt :=
  if k.dem2 then (if ps == .hbm || ps == .tier2 then some .tier3 else none)
  else if k.dem1 then (if ps == .hbm then some .tier2 else none)
  else none

/-- The rounds of a pass: the first promotion that is due begins or waits; the first demotion that finds a frame begins. -/
def State.roundMove (s : State) (asid : BitVec 16) (p : Pass) (k : Park) : State :=
  let ord := k.order.getD []
  let st (b : Nat) : PageSt := match s.page? asid b with
    | some q => q.ps
    | none => .none
  if k.woken then
    match ord.find? (fun b => st b == .tier2 || st b == .tier3 || st b == .down) with
    | some b => if st b == .down then s else (s.startMove asid b p.pid .hbm).getD s
    | none => s
  else if p.st == .parked then
    (ord.findSome? (fun b => match demoteTo k (st b) with
      | some tgt => s.startMove asid b p.pid tgt
      | none => none)).getD s
  else s

/-- The next move of a pass begins, when none of its moves is in progress (R364). -/
def State.nextMove (s : State) (pid : Nat) : State :=
  match s.pass? pid with
  | none => s
  | some p =>
    match s.run? p.rid with
    | none => s
    | some r =>
      let asid := r.rcd.asid
      if s.pages.any (fun k => k.dest.isSome && k.mover == pid) then s
      else
        match firstWant pid (s.pages.filter (fun k => k.asid == asid)) with
        | some k => if k.ps == .tier2 || k.ps == .tier3 then (s.startMove asid k.blk pid .hbm).getD s else s
        | none =>
          match p.park with
          | some k => s.roundMove asid p k
          | none => s

/-- The newest WM pages of every listed signal are hbm (R361). -/
def State.watermark (s : State) (asid : BitVec 16) (p : Pass) (k : Park) : Bool :=
  k.sigs.all (fun sg =>
    let ps := (s.pagesOf asid p sg (fun _ => true)).reverse
    (if k.wm = 0 then ps else ps.take k.wm).all (fun b => match s.page? asid b with
      | some q => q.ps == .hbm
      | none => true))

/-- A wake draws up its rounds, newest page first; a woken pass whose watermark is met is queued again (R360, R361). -/
def State.settleWake (s : State) (pid : Nat) : State :=
  match s.pass? pid with
  | none => s
  | some p =>
    match p.park, s.run? p.rid with
    | some k, some r =>
      if !k.woken then s
      else
        let ord := match k.order with
          | some o => o
          | none => roundsOf (k.sigs.map (fun sg =>
              (s.pagesOf r.rcd.asid p sg (fun q => q == .tier2 || q == .tier3 || q == .down)).reverse))
        let up := p.st == .parked && s.watermark r.rcd.asid p k
        s.updPass pid (fun p => { p with park := some { k with order := some ord }, st := if up then .saved else p.st })
    | _, _ => s

/-- Wakes, watermarks and moves that are due take effect for every pass (R361, R364). -/
def State.kvSettle (s : State) : State :=
  let s := (s.passes.filter (fun p => p.park.isSome)).foldl (fun s p => s.settleWake p.pid) s
  s.passes.foldl (fun s p => s.nextMove p.pid) s

/-! ### Events of pages and parked passes -/

/-- A timer of a parked pass expires: demotion rounds, oldest page first (R359). -/
def State.demote (s : State) (pid : Nat) (second : Bool) : State :=
  match s.pass? pid with
  | none => s
  | some p =>
    match p.park, s.run? p.rid with
    | some k, some r =>
      let ord := roundsOf (k.sigs.map (fun sg => s.pagesOf r.rcd.asid p sg (fun _ => true)))
      (s.updPass pid (fun p => { p with park := some (
        if second then { k with order := some ord, dem2 := true, t2on := false }
        else { k with order := some ord, dem1 := true, t1on := false }) })).nextMove pid
    | _, _ => s

/-- A timer has run its time in microseconds. -/
def timerDue (s : State) (since t : Nat) : Bool := decide (since + t * Config.cyclesPerUs ≤ s.cycle)

def execParkT1Expiry (pid : Nat) (s : State) : Out3 :=
  match s.pass? pid with
  | none => .next s
  | some p =>
    match p.park with
    | some k => if p.st == .parked && k.t1on && timerDue s k.since k.t1 then .next (s.demote pid false) else .next s
    | none => .next s

def execParkT2Expiry (pid : Nat) (s : State) : Out3 :=
  match s.pass? pid with
  | none => .next s
  | some p =>
    match p.park with
    | some k => if p.st == .parked && k.t2on && timerDue s k.since k.t2 then .next (s.demote pid true) else .next s
    | none => .next s

/-- Samples of a page that lies in a region that has failed: all their bytes are poisoned (R363, R388, R407). -/
def Sig.spoil (g : Sig) (sel : Nat → Bool) : Sig :=
  { g with slots := g.slots.map (fun q => if sel q.num then { q with bad := List.range g.desc.size } else q) }

/-- A page comes to lie in a frame: where its region has failed its samples are poisoned. -/
def State.arrive (s : State) (k : KvPage) (f : Nat) : State :=
  if s.badRegions.contains (f / 2 ^ 52) then
    s.mapKv k.asid (fun a g => g.spoil (fun n => kvBlk a g.desc n == k.blk))
  else s

/-- R364: the page reaches its tier, its old frame returns to its pool, and the next move begins. -/
def execPageMoveComplete (pid : Nat) (s : State) : Out3 :=
  match s.pages.find? (fun k => k.dest.isSome && k.mover == pid) with
  | none => .next s
  | some k =>
    match k.dest with
    | none => .next s
    | some (tgt, f) =>
      let s1 := ((s.moveFrame k.frame f k.size).updPage k.asid k.blk (fun k =>
        { k with ps := tgt, frame := f, dest := none })).arrive k f
      let s2 := if k.ps == .down then s1.drainPage k.asid k.blk false else s1
      .next ((s2.nextMove pid).kvSettle)

/-! ### The attention queue (R348, R350, R352 to R356) -/

def layerOf (i : Instr) : Nat :=
  match i with
  | .kvapp _ l _ _ _ => l.toNat
  | .attq _ l _ _ _ _ => l.toNat
  | _ => 64

def isKvapp (i : Instr) : Bool :=
  match i with
  | .kvapp _ _ _ _ _ => true
  | _ => false

def isAttq (i : Instr) : Bool :=
  match i with
  | .attq _ _ _ _ _ _ => true
  | _ => false

/-- A core has done its part of the append phase of a layer in the current interval (R352). -/
def phaseDone (c : CoreSt) (l : Nat) : Bool := c.attqs.contains l || c.ticked.isSome || c.exe.exited

/-- The append phase of a layer in an interval has closed, and every kvapp of it has completed (R352). -/
def layerClosed (p : Pass) (ivl l : Nat) : Bool :=
  (p.now.toNat != ivl || p.cores.all (fun c => phaseDone c l)) &&
  p.cores.all (fun c => !c.cmds.any (fun k => isKvapp k.ins && k.ivl == ivl && layerOf k.ins == l))

/-- The sample numbers of a query or a prom. -/
def Cmd.nums (k : Cmd) : List Nat := (List.range (k.range.2 - k.range.1).toNat).map (fun i => k.range.1.toNat + i)

/-- The blocks that a command's samples of a signal lie on, once each. -/
def Cmd.blocksOn (k : Cmd) (a : AsidCtx) (p : Pass) (sg : Nat) : List Nat :=
  match p.sig? sg with
  | some g => (k.nums.map (kvBlk a g.desc)).eraseDups
  | none => []

/-- Pages of a prom that are not hbm, newest first (R356). -/
def promPages (s : State) (x : CmdCtx) (sg : Nat) : List Nat :=
  let a := x.p.ctx
  match x.p.sig? sg with
  | none => []
  | some g =>
    (sortBy (pageTop a g) ((x.k.blocksOn a x.p sg).filter (fun b => match s.page? x.asid b with
      | some k => k.ps != .hbm
      | none => false))).reverse

/-- An attention command waits for the releases of its core that name a (R71). -/
def attHeld (s : State) (x : CmdCtx) : Bool :=
  match x.k.ins with
  | .prom _ _ _ => false
  | _ => !(s.relsNaming x.ag .a x.k.seq).isEmpty

/-- The head of the attention queue leaves it: its wait, its acquire, and what it starts (R348, R356). -/
def execAttentionCommandDepart (pid qc : Nat) (s : State) : Out3 :=
  match s.headCtx pid qc .att with
  | none => .next s
  | some x =>
    let s1 := s.takeWait pid qc .c x.k
    match s1.headCtx pid qc .att with
    | none => .next s
    | some y =>
      if y.k.wait.isSome || attHeld s1 y then .next s1
      else
        let s2 := s1.departCmd pid qc .c y.k
        match y.k.ins with
        | .prom _ _ _ =>
          let bs := promPages s2 y (lagSig (wordAt y.k.ops 0))
          .next ((bs.foldl (fun s b => s.wantPage y.asid b pid)
            (s2.updCmd pid qc y.k.id (fun k => { k with blks := some bs }))).nextMove pid)
        | _ => .next s2

/-- The line-store ranges that an append or a query reads when it starts (R348): of an append, the new K and V samples entry
by entry. -/
def attReads (x : CmdCtx) : List (Nat × Nat) :=
  match x.k.ins with
  | .kvapp _ _ _ _ _ => x.k.kvs.flatMap (fun e => [(e.ka, sigSize x.p e.sigK), (e.va, sigSize x.p e.sigV)])
  | .attq _ _ _ _ _ _ => [(fld (wordAt x.k.ops 0) 23 0, 256 + sigSize x.p (fld (wordAt x.k.ops 0) 63 55))]
  | _ => []

/-- The line-store range that a query writes when it completes. -/
def attWrites (x : CmdCtx) : List (Nat × Nat) :=
  match x.k.ins, x.p.sig? (fld (wordAt x.k.ops 0) 63 55) with
  | .attq _ _ _ _ _ _, some g => [(fld (wordAt x.k.ops 0) 47 24, 8 * g.desc.rows * tripleLen g.desc)]
  | _, _ => []

def rangeBlocks (l : List (Nat × Nat)) : List Nat := l.flatMap (fun r => blocksOf r.1 r.2)

/-- Line-store blocks of an attention command at the state it is in. -/
def attFoot (x : CmdCtx) : Foot :=
  if x.k.st == .departed then { Foot.none with rd := rangeBlocks (attReads x) }
  else { Foot.none with wr := rangeBlocks (attWrites x) }

/-- A departed append or query may start: no acquire holds its reads, and a query's layer has closed (R352). -/
def attMay (s : State) (x : CmdCtx) : Bool :=
  !s.engHeld x.c .c x.k && (if isAttq x.k.ins then layerClosed x.p x.k.ivl (layerOf x.k.ins) else isKvapp x.k.ins)

/-- An append or a query starts: it reads its rows from the line store (R348); the wait bound of a query is counted from
here (R355). -/
def State.attBegin (s : State) (pid qc n : Nat) : State :=
  match s.cmdCtx pid qc n with
  | none => s
  | some x =>
    if x.k.st == .departed && attMay s x && x.c.footPresent (attFoot x) then
      let rows := (attReads x).map (fun r => s.lsRow x.lc .c (lsKeys x.lc r.1 r.2))
      let s1 := if isAttq x.k.ins then s.consume pid x.lc 6 (rows.flatMap Row.bad) else s
      s1.updCmd pid qc n (fun k => { k with st := .started, begun := s.cycle, cap := rows })
    else s

/-- The new samples of an append: signal, number, and the row read for it (R350). -/
def appendRows (k : Cmd) : List ((Nat × Nat) × Row) := (k.kvs.flatMap KvEnt.pins).zip k.cap

/-- The pages of an append that are not hbm. -/
def appendAway (s : State) (x : CmdCtx) : List Nat :=
  let a := x.p.ctx
  (x.k.kvs.flatMap (fun e => e.blocks a x.p)).filter (fun b => match s.page? x.asid b with
    | some k => k.ps != .hbm
    | none => false)

/-- R350: an append that meets a page that is not hbm asks for its promotion; else it copies and completes. -/
def execKvappAppendComplete (pid qc n : Nat) (s : State) : Out3 :=
  match s.cmdCtx pid qc n with
  | none => .next s
  | some x =>
    if !isKvapp x.k.ins || x.k.st != .started then .next s
    else
      let away := appendAway s x
      if !away.isEmpty then .next ((away.foldl (fun s b => s.wantPage x.asid b pid) s).nextMove pid)
      else
        let s1 := (appendRows x.k).foldl (fun s e => s.updSig pid e.1.1 (fun g => g.writeSlot e.1.2 0 e.2.bytes e.2.bad)) s
        .next (s1.endCmd pid qc x.k)

/-- The pages of a query that are not hbm. -/
def attqAway (s : State) (x : CmdCtx) : List Nat :=
  let a := x.p.ctx
  (x.k.blocksOn a x.p (fld (wordAt x.k.ops 0) 63 55) ++ x.k.blocksOn a x.p (lagSig (wordAt x.k.ops 1))).filter
    (fun b => match s.page? x.asid b with
      | some k => k.ps != .hbm
      | none => false)

/-- R355: at the bound, the pages that are not hbm are absent. -/
def execAttqPageWaitExpiry (pid qc n : Nat) (s : State) : Out3 :=
  match s.cmdCtx pid qc n with
  | none => .next s
  | some x =>
    if isAttq x.k.ins && x.k.st == .started && x.k.blks.isNone &&
        decide (x.k.begun + 2 ^ (fld (wordAt x.k.ops 0) 51 48 + 6) ≤ s.cycle) then
      .next (s.updCmd pid qc n (fun k => { k with blks := some (attqAway s x) }))
    else .next s

/-! ### The triple of R354 -/

/-- Exact value of an FP32 code, and the code of a value rounded by RNE. -/
def f32 (b : Nat) : Rv := fFP32.dec b
def rne32 (v : Rv) : Nat := fFP32.round Rc.rne 0 false v

/-- The elements of a row in the format of a signal. -/
def attEls (fmt : BitVec 4) (bs : List Byte) : List Rv :=
  let w := elemBytes fmt
  (List.range (bs.length / w)).map (fun i => fmtDec ((fmtOfNat fmt.toNat).getD .fp32) (leNat ((bs.drop (w * i)).take w)))

/-- The score of a K row. -/
def attScore (q : List Rv) (scale : Nat) (k : List Rv) : Nat :=
  rne32 (Rv.mul (f32 ((List.zip q k).foldl (fun x e => rne32 (Rv.fma .rne e.1 e.2 (f32 x))) 0)) (f32 scale))

/-- m, s and acc over the samples of a stack, in increasing order of number: scores with their V rows. -/
def attTriple (d : Nat) (l : List (Nat × List Rv)) : Nat × Nat × List Nat :=
  match l with
  | [] => (fFP32.infOf true, 0, List.replicate d 0)
  | e :: r =>
    let m := r.foldl (fun m y => rne32 (Rv.max (f32 m) (f32 y.1))) e.1
    let z := l.foldl (fun (a : Nat × List Nat) y =>
      let w := rne32 (Rv.exp2 (f32 (rne32 (Rv.add .rne (f32 y.1) (f32 m).neg))))
      (rne32 (Rv.add .rne (f32 a.1) (f32 w)),
       List.zipWith (fun c v => rne32 (Rv.fma .rne (f32 w) v (f32 c))) a.2 y.2)) (0, List.replicate d 0)
    (m, z.1, z.2)

/-- The stack whose units form a sample: of its K page's HBM frame, else the stack from which a frame for the block is
taken first (R346, R354). -/
def kStack (s : State) (asid : BitVec 16) (blk : Nat) : Nat :=
  match s.page? asid blk with
  | some k => if k.frame / 2 ^ 52 = 5 then frameStack k.frame else blk % 8
  | none => blk % 8

/-- One row of a sample's slot. -/
def attRow (p : Pass) (sg num row len : Nat) : List Byte := p.tapBytes { sig := sg, num := num, row := row } 0 len

/-- A sample is left out of a query: one of its two pages is absent (R355). -/
def leftOut (x : CmdCtx) (gk gv : Sig) (n : Nat) : Bool :=
  let away := x.k.blks.getD []
  away.contains (kvBlk x.p.ctx gk.desc n) || away.contains (kvBlk x.p.ctx gv.desc n)

/-- The results of a query: the mask of stacks with absent pages, and the bytes of every triple with its stack and
offset. -/
def attResults (s : State) (x : CmdCtx) (gk gv : Sig) (sk sv : Nat) : Nat × List (Nat × Nat × List Byte) :=
  let a := x.p.ctx
  let d := gk.desc
  let w := d.rowBytes
  let q := (x.k.cap.headD { bytes := [], bad := [] }).bytes
  let out (n : Nat) : Bool := leftOut x gk gv n
  let st (n : Nat) : Nat := kStack s x.asid (kvBlk a gk.desc n)
  let mask := (List.range 8).foldl (fun m t => if x.k.nums.any (fun n => st n == t && out n) then m + 2 ^ t else m) 0
  let one (h t : Nat) : Nat × Nat × List Byte :=
    let ns := x.k.nums.filter (fun n => st n == t && !out n)
    let qr := attEls d.fmt ((q.drop (256 + h * w)).take w)
    let tr := attTriple (w / elemBytes d.fmt) (ns.map (fun n =>
      (attScore qr (leNat (q.take 4)) (attEls d.fmt (attRow x.p sk n h w)), attEls d.fmt (attRow x.p sv n h w))))
    (t, (8 * h + t) * tripleLen d,
     natLe 4 tr.1 ++ natLe 4 tr.2.1 ++ natLe 4 (mask / 2 ^ t % 2) ++ natLe 4 0 ++ tr.2.2.flatMap (natLe 4))
  (mask, (List.range d.rows).flatMap (fun h => (List.range 8).map (one h)))

/-- Poison of the samples that a query reads. -/
def attBad (x : CmdCtx) (gk gv : Sig) (sk sv : Nat) : List Nat :=
  (x.k.nums.filter (fun n => !leftOut x gk gv n)).flatMap (fun (n : Nat) => x.p.tapBad { sig := sk, num := (n : Int), row := 0 } 0 gk.desc.size ++
    x.p.tapBad { sig := sv, num := (n : Int), row := 0 } 0 gk.desc.size)

/-- The channel that a query pushes its entry into. -/
def Cmd.pushTo (k : Cmd) : Opnd :=
  match k.ins with
  | .attq _ _ d _ _ _ => d
  | _ => .q 0 false

/-- R354: the triples are written on path a of their base dies, the entry is pushed, and the command completes. -/
def execAttqComplete (pid qc n : Nat) (s : State) : Out3 :=
  match s.cmdCtx pid qc n with
  | none => .next s
  | some x =>
    let sk := fld (wordAt x.k.ops 0) 63 55
    let sv := lagSig (wordAt x.k.ops 1)
    if !isAttq x.k.ins || x.k.st != .started || !x.c.footPresent (attFoot x) || !chRoom x.c x.k.pushTo ||
        (x.k.blks.isNone && !(attqAway s x).isEmpty) then .next s
    else
      match x.p.sig? sk, x.p.sig? sv with
      | some gk, some gv =>
        let r := attResults s x gk gv sk sv
        let ra := fld (wordAt x.k.ops 0) 47 24
        let s1 := s.consume pid x.lc 6 (attBad x gk gv sk sv)
        let s2 := r.2.foldl (fun s e =>
          s.putCells (.base e.1) .a pid qc .r (keyCells (lsKeys x.lc (ra + e.2.1) e.2.2.length) e.2.2) []) s1
        let s3 := s2.updCore pid qc (fun c =>
          let c := dirtyBlks c (attFoot x).wr
          chPush c (chIdx x.k.pushTo) { id := s2.seq * 4, ty := .data, val := some (w64 (r.1 + x.k.nums.length * 256)) })
        .next ((s3.tickSeq).endCmd pid qc x.k)
      | _, _ => .next s

/-- R356: every page that the prom named is hbm, or is no more. -/
def execPromComplete (pid qc n : Nat) (s : State) : Out3 :=
  match s.cmdCtx pid qc n with
  | none => .next s
  | some x =>
    match x.k.ins with
    | .prom _ _ _ =>
      if x.k.st == .departed && (x.k.blks.getD []).all (fun b => match s.page? x.asid b with
          | some k => k.ps == .hbm
          | none => true) then .next (s.endCmd pid qc x.k)
      else .next s
    | _ => .next s

end Sys2Proof.Machine
end

