-- ==== Sys2Proof/Machine/Control.lean ====
section
/-! DEFINITION. Control flow, loops, exit, traps, control registers, semaphores and spill banks
(spec/08_sequencer_instructions.md R155 to R165, spec/07_sequencers.md R131 to R136, spec/06_instruction_word.md R128). -/

namespace Sys2Proof.Machine

/-! ### Transfers -/

/-- A register or channel names the next word; an address that is not a word address faults (R106, R155). -/
def gotoAddr (s : State) (a : VAddr) : Act :=
  if isWordAddr a then Act.goto s (.transfer a) else Act.trap s 0x02 (vaWord a)

def execBr (h : Hdr) (cc : BCond) (a : Opnd) (off : BitVec 22) (s : State) : Out3 :=
  issue h [a] [] s (fun x vs =>
    if bcondHolds cc (wordAt vs 0) then Act.goto s (.transfer (relAddr x.t.pc off)) else Act.done s)

def execJmp (h : Hdr) (off : BitVec 22) (s : State) : Out3 :=
  issue h [] [] s (fun x _ => Act.goto s (.transfer (relAddr x.t.pc off)))

/-- d ← the address of the next word in sequence; the loops stay open (R158). -/
def execJal (h : Hdr) (d : Opnd) (off : BitVec 22) (s : State) : Out3 :=
  issue h [] [d] s (fun x _ =>
    .go { st := s, outs := [(d, some (.w (vaWord (nextAddr x.t.pc))))], due := .exact (x.w.cycle + x.h.pd.val), req := .none,
          pin := none, arg := 0, next := .plain (relAddr x.t.pc off) })

def execJr (h : Hdr) (a : Opnd) (s : State) : Out3 :=
  issue h [a] [] s (fun _ vs => gotoAddr s (va57 (wordAt vs 0)))

/-- The oldest entry of a channel. -/
def headOf (x : Ctx) (q : Opnd) : Option ChEnt := (mget [] x.c.ch (chIdx q)).head?

/-- The condition-type fault: the entry is consumed unless the queue was peeked, and nothing else changes (R43, R156). -/
def typeFault (x : Ctx) (q : Opnd) (s : State) : Act :=
  Act.trap (s.updCore x.w.pid x.w.qc (fun c => { c with ch := popSrc c.ch q })) 0x03 0

def execBcq (h : Hdr) (neg : Bool) (q : Opnd) (off : BitVec 22) (s : State) : Out3 :=
  issue h [q] [] s (fun x vs =>
    match headOf x q with
    | none => Act.hold s
    | some e =>
      if e.ty == .token then typeFault x q s
      else if (wordAt vs 0).getLsbD 0 != neg then Act.goto s (.transfer (relAddr x.t.pc off))
      else Act.done s)

def execJcq (h : Hdr) (q : Opnd) (s : State) : Out3 :=
  issue h [q] [] s (fun x vs =>
    match headOf x q with
    | none => Act.hold s
    | some e => if e.ty == .token then gotoAddr s (va57 (wordAt vs 0)) else typeFault x q s)

/-- An entry of a condition queue, present in the cycle the word issues (R156). -/
def pushCond (x : Ctx) (q : Opnd) (ty : EntTy) (v : Word) (s : State) : Act :=
  Act.done ((s.updCore x.w.pid x.w.qc (fun c => chPush c (chIdx q) { id := s.seq * 4, ty := ty, val := some v })).tickSeq)

def execPcq (h : Hdr) (q a : Opnd) (s : State) : Out3 :=
  issue h [a] [q] s (fun x vs => pushCond x q .bit (boolWord ((wordAt vs 0).getLsbD 0)) s)

def execPtok (h : Hdr) (q : Opnd) (t : TokArg) (s : State) : Out3 :=
  match t with
  | .target off => issue h [] [q] s (fun x _ => pushCond x q .token (vaWord (relAddr x.t.pc off)) s)
  | .reg a => issue h [a] [q] s (fun x vs => pushCond x q .token (vaWord (va57 (wordAt vs 0))) s)

/-! ### Loops and exit -/

/-- R157 with the count read. -/
def loopBody (x : Ctx) (off : BitVec 12) (count : BitVec 32) (s : State) : Act :=
  let t := x.t
  let w := wordIdx t.pc
  let top := mget loopZero t.loops (t.ldepth - 1)
  let fin := w + off.toNat
  if t.ldepth = 4 then Act.trap s 0x04 0
  else if t.ldepth > 0 && top.holds t.pc && (t.pc == top.fin || decide (wordIdx top.fin < fin)) then Act.trap s 0x05 0
  else if count = 0 then Act.goto s (.plain (idxAddr (fin + 1)))
  else
    Act.goto (s.updStream x.w.pid x.w.qc x.w.st (fun t =>
      { t with loops := mset loopZero t.loops t.ldepth { cnt := count, beg := nextAddr t.pc, fin := idxAddr fin },
               ldepth := t.ldepth + 1 })) (.plain (nextAddr t.pc))

def execLoop (h : Hdr) (cnt : LoopCnt) (off : BitVec 12) (s : State) : Out3 :=
  match cnt with
  | .reg a => issue h [a] [] s (fun x vs => loopBody x off ((wordAt vs 0).truncate 32) s)
  | .imm n => issue h [] [] s (fun x _ => loopBody x off (n.zeroExtend 32) s)

def execExit (h : Hdr) (s : State) : Out3 :=
  issue h [] [] s (fun x _ =>
    Act.goto (s.updStream x.w.pid x.w.qc x.w.st (fun t => { t with exited := true })) .stay)

/-! ### Traps -/

/-- The software trap (R164). -/
def execTrap (h : Hdr) (code : BitVec 16) (s : State) : Out3 :=
  issue h [] [] s (fun _ _ => Act.trap s 0x08 (code.zeroExtend 64))

/-- The return of R165: the word at epc, or the one after it. Where cr.epc holds no word address, which a csrw can put there,
both forms raise the instruction-address fault with cr.epc itself (DESIGN CHOICE, notes/assumptions/70.md). -/
def eretBody (x : Ctx) (skip : Bool) (s : State) : Act :=
  if isWordAddr x.t.epc then Act.goto s (.plain (eretTarget x.t skip)) else Act.trap s 0x02 (vaWord x.t.epc)

def execEret (h : Hdr) (s : State) : Out3 := issue h [] [] s (fun x _ => eretBody x false s)
def execEretN (h : Hdr) (s : State) : Out3 := issue h [] [] s (fun x _ => eretBody x true s)

/-! ### Control registers -/

/-- Active cores in service (R2, R3). -/
def State.coreCount (s : State) : Nat :=
  ((List.range 64).filter (fun lc => s.dies.getLsbD (dieOf lc) && !s.outCores.contains lc)).length

/-- cr.devid (R2): part 0x4E34, architecture 1.0, stepping C0, cores and dies in service. -/
def State.devid (s : State) : Word :=
  w64 (0x4E34 * 2 ^ 48 + 0x01 * 2 ^ 40 + 0xC0 * 2 ^ 24 + s.coreCount * 2 ^ 16 + s.dies.toNat * 2 ^ 8)

/-- A control register as the stream reads it (R131, R132). -/
def crRead (s : State) (x : Ctx) (num : Nat) : Word :=
  let t := x.t
  match num with
  | 0x000 => s.devid
  | 0x001 => w64 x.c.lcore
  | 0x002 => w64 x.w.qc
  | 0x003 => w64 (x.p.qd * 16 + x.p.qc)
  | 0x004 => vaWord x.r.addr
  | 0x005 => x.r.rcd.param
  | 0x006 => x.asid.zeroExtend 64
  | 0x010 => x.p.now
  | 0x011 => w64 x.p.sched
  | 0x012 => x.c.slstall
  | 0x013 => x.c.replays
  | 0x014 => x.c.semsat
  | 0x020 => t.srdseed.zeroExtend 64
  | 0x021 => x.p.lease
  | 0x030 => vaWord t.tvec
  | 0x031 => vaWord t.epc
  | 0x032 => t.tcause
  | 0x033 => t.tinfo
  | 0x04C => w64 t.ldepth
  | n =>
    if 0x040 ≤ n && n ≤ 0x043 then (mget loopZero t.loops (n - 0x040)).cnt.zeroExtend 64
    else if 0x044 ≤ n && n ≤ 0x047 then vaWord (mget loopZero t.loops (n - 0x044)).beg
    else if 0x048 ≤ n && n ≤ 0x04B then vaWord (mget loopZero t.loops (n - 0x048)).fin
    else 0

/-- A write to a stream's own control register; a read-only one ignores it (R132, R136). -/
def crWriteStream (t : StreamSt) (num : Nat) (v : Word) : StreamSt :=
  match num with
  | 0x020 => { t with srdseed := v.truncate 32 }
  | 0x030 => { t with tvec := va57 v }
  | 0x031 => { t with epc := va57 v }
  | n =>
    if 0x040 ≤ n && n ≤ 0x043 then
      { t with loops := mset loopZero t.loops (n - 0x040) { mget loopZero t.loops (n - 0x040) with cnt := v.truncate 32 } }
    else t

/-- A counter that the streams of a core share. -/
def isCounter (num : Nat) : Bool := num == 0x012 || num == 0x013 || num == 0x014

/-- A write to a control register of a core or a stream (R131, R132, R162). A shared counter reads as before to the other
stream's word of the same cycle, and takes its new value, with what it counts in the cycle, at the cycle's end (R163). -/
def crWrite (c : CoreSt) (st : Stream) (num : Nat) (v : Word) : CoreSt :=
  if isCounter num then { c with crNew := (num, v) :: c.crNew } else c.updStream st (fun t => crWriteStream t num v)

def execCsrr (h : Hdr) (d : Opnd) (num : BitVec 12) (s : State) : Out3 :=
  issue h [] [d] s (fun x _ => Act.fixed x s d (.w (crRead s x num.toNat)))

def execCsrw (h : Hdr) (num : BitVec 12) (a : Opnd) (s : State) : Out3 :=
  issue h [a] [] s (fun x vs =>
    Act.done (s.updCore x.w.pid x.w.qc (fun c => crWrite c x.w.st num.toNat (wordAt vs 0))))

/-! ### Semaphores -/

/-- A wait: above zero it decrements and issues, at zero the stream holds (R133, R134). -/
def semwBody (x : Ctx) (n : Nat) (pops : List Opnd) (s : State) : Act :=
  if semVal x.c n = 0 then
    Act.hold (s.updStream x.w.pid x.w.qc x.w.st (fun t => { t with semWait := some (n, pops) }))
  else Act.done (s.updCore x.w.pid x.w.qc (fun c => semDec c n))

def execSemw (h : Hdr) (n : SemArg) (s : State) : Out3 :=
  match n with
  | .imm n => issue h [] [] s (fun x _ => semwBody x n.toNat [] s)
  | .reg a => issue h [a] [] s (fun x vs => semwBody x ((wordAt vs 0).toNat % 256) [a] s)

def execSemi (h : Hdr) (n : SemArg) (s : State) : Out3 :=
  match n with
  | .imm n => issue h [] [] s (fun x _ => Act.done (s.updCore x.w.pid x.w.qc (fun c => semInc c n.toNat)))
  | .reg a => issue h [a] [] s (fun x vs =>
      Act.done (s.updCore x.w.pid x.w.qc (fun c => semInc c ((wordAt vs 0).toNat % 256))))

/-! ### Spill banks -/

/-- The bank address, or the fault of R161 with the computed address (R382). -/
def spillAddr (base : Word) (off : BitVec 22) (sz : Sz) : Except (BitVec 8 × Word) Nat :=
  let a := base + off.signExtend 64
  if 4096 - szBytes sz < a.toNat then .error (0x06, a)
  else if a.toNat % szBytes sz ≠ 0 then .error (0x07, a)
  else .ok a.toNat

/-- Bytes of a spill bank. -/
def spillBytes (m : Map Byte) (a n : Nat) : List Byte := (List.range n).map (fun i => mget 0 m (a + i))

def execSpld (h : Hdr) (sz : Sz) (d : Opnd) (base : Option Opnd) (off : BitVec 22) (s : State) : Out3 :=
  issue h (optList base) [d] s (fun x vs =>
    match spillAddr (if base.isSome then wordAt vs 0 else 0) off sz with
    | .error e => Act.trap s e.1 e.2
    | .ok a =>
      let bad := (List.range (szBytes sz)).filter (fun i => x.t.spillBad.contains (a + i))
      Act.fixed x (s.consume x.w.pid x.lc (if x.w.st == .acc then 0 else 1) bad) d
        (.w (leWord (spillBytes x.t.spill a (szBytes sz)))))

def execSpst (h : Hdr) (sz : Sz) (base : Option Opnd) (off : BitVec 22) (b : Opnd) (s : State) : Out3 :=
  issue h (optList base ++ [b]) [] s (fun x vs =>
    match spillAddr (if base.isSome then wordAt vs 0 else 0) off sz with
    | .error e => Act.trap s e.1 e.2
    | .ok a => Act.done (s.updStream x.w.pid x.w.qc x.w.st (fun t =>
        { t with spill := putData t.spill a (wordLe (szBytes sz) (wordAt vs (if base.isSome then 1 else 0))),
                 spillBad := t.spillBad.filter (fun k => decide (k < a) || decide (a + szBytes sz ≤ k)) })))

/-- An idle issue slot (R128). -/
def execNop (h : Hdr) (s : State) : Out3 := issue h [] [] s (fun _ _ => Act.done s)

end Sys2Proof.Machine
end

