-- ==== Sys2Proof/Machine/Float.lean ====
section
/-! DEFINITION. The scalar floating-point instructions (spec/08_sequencer_instructions.md R150 to R154). -/

namespace Sys2Proof.Machine

/-- The format of a scalar word (R150). -/
def fwFmt : FW → FFmt
  | .s => fFP32
  | .h => fFP16

/-- A source of a format: the low bits, the others ignored (R130). -/
def fpIn (f : FW) (w : Word) : Rv := (fwFmt f).dec w.toNat

/-- A result of a format, the upper bits zero (R130), rounded once with SRD coordinate 0 (R97, R151). -/
def fpOut (f : FW) (c : Rc) (v : Rv) : Word := w64 ((fwFmt f).round c 0 false v)

/-- An arithmetic word of fixed latency. -/
def fpArith (h : Hdr) (f : FW) (rm : RM) (d : Opnd) (srcs : List Opnd) (op : List Rv → Rv) (s : State) : Out3 :=
  issue h srcs [d] s (fun x vs => Act.fixed x s d (.w (fpOut f (x.rc rm) (op (vs.map (fun v => fpIn f v.word))))))

/-- Least and greatest latency of fdiv and fsqrt (R150). -/
def fpLat : FW → Nat × Nat
  | .s => (10, 28)
  | .h => (6, 16)

/-- An arithmetic word of variable latency. -/
def fpSlow (h : Hdr) (f : FW) (rm : RM) (d : Opnd) (srcs : List Opnd) (op : List Rv → Rv) (s : State) : Out3 :=
  issue h srcs [d] s (fun x vs =>
    Act.var x s d (.w (fpOut f (x.rc rm) (op (vs.map (fun v => fpIn f v.word))))) (fpLat f).1 (some (fpLat f).2))

def rvAt (vs : List Rv) (i : Nat) : Rv := vs.getD i .nan

def execFadd (h : Hdr) (f : FW) (rm : RM) (d a b : Opnd) (s : State) : Out3 :=
  fpArith h f rm d [a, b] (fun v => Rv.add rm (rvAt v 0) (rvAt v 1)) s
def execFsub (h : Hdr) (f : FW) (rm : RM) (d a b : Opnd) (s : State) : Out3 :=
  fpArith h f rm d [a, b] (fun v => Rv.add rm (rvAt v 0) (rvAt v 1).neg) s
def execFmul (h : Hdr) (f : FW) (rm : RM) (d a b : Opnd) (s : State) : Out3 :=
  fpArith h f rm d [a, b] (fun v => Rv.mul (rvAt v 0) (rvAt v 1)) s
def execFfma (h : Hdr) (f : FW) (rm : RM) (d a b c : Opnd) (s : State) : Out3 :=
  fpArith h f rm d [a, b, c] (fun v => Rv.fma rm (rvAt v 0) (rvAt v 1) (rvAt v 2)) s
def execFdiv (h : Hdr) (f : FW) (rm : RM) (d a b : Opnd) (s : State) : Out3 :=
  fpSlow h f rm d [a, b] (fun v => Rv.div (rvAt v 0) (rvAt v 1)) s
def execFsqrt (h : Hdr) (f : FW) (rm : RM) (d a : Opnd) (s : State) : Out3 :=
  fpSlow h f rm d [a] (fun v => Rv.sqrt (rvAt v 0)) s

/-- Exact, without rounding (R152). -/
def execFmin (h : Hdr) (f : FW) (d a b : Opnd) (s : State) : Out3 :=
  fpArith h f .rne d [a, b] (fun v => Rv.min (rvAt v 0) (rvAt v 1)) s
def execFmax (h : Hdr) (f : FW) (d a b : Opnd) (s : State) : Out3 :=
  fpArith h f .rne d [a, b] (fun v => Rv.max (rvAt v 0) (rvAt v 1)) s

def execFcmp (h : Hdr) (f : FW) (cc : FCond) (d a b : Opnd) (s : State) : Out3 :=
  issue h [a, b] [d] s (fun x vs =>
    Act.fixed x s d (.w (boolWord (fcondHolds cc (fpIn f (wordAt vs 0)) (fpIn f (wordAt vs 1))))))

/-- The value of a conversion's source (R154). -/
def cvtIn (t : CvtTy) (w : Word) : Rv :=
  match t with
  | .s => fFP32.dec w.toNat
  | .h => fFP16.dec w.toNat
  | .w => .ofInt (sval 32 w.toNat)
  | .l => .ofInt w.toInt

/-- The result of a conversion (R154). -/
def cvtOut (t : CvtTy) (c : Rc) (sat : Bool) (v : Rv) : Word :=
  match t with
  | .s => w64 (fFP32.round c 0 sat v)
  | .h => w64 (fFP16.round c 0 sat v)
  | .w => BitVec.ofInt 64 (v.toS c 0 32)
  | .l => BitVec.ofInt 64 (v.toS c 0 64)

def execFcvt (h : Hdr) (dt st : CvtTy) (sat : Bool) (rm : RM) (d a : Opnd) (s : State) : Out3 :=
  issue h [a] [d] s (fun x vs =>
    Act.fixed x s d (.w (cvtOut dt (x.rc rm) (sat && !(dt == .s && st == .h)) (cvtIn st (wordAt vs 0)))))

end Sys2Proof.Machine
end

