-- ==== Sys2Proof/Machine/Integer.lean ====
section
/-! DEFINITION. The integer and address instructions (spec/08_sequencer_instructions.md R143 to R149). -/

namespace Sys2Proof.Machine

/-! ### Shared shapes -/

/-- Two sources, one result of fixed latency. -/
def alu2 (h : Hdr) (d a b : Opnd) (f : Word → Word → Word) (s : State) : Out3 :=
  issue h [a, b] [d] s (fun x vs => Act.fixed x s d (.w (f (wordAt vs 0) (wordAt vs 1))))

/-- One source, one result of fixed latency. -/
def alu1 (h : Hdr) (d a : Opnd) (f : Word → Word) (s : State) : Out3 :=
  issue h [a] [d] s (fun x vs => Act.fixed x s d (.w (f (wordAt vs 0))))

/-- A shift by a register's bits [5:0] or by a number (R145). -/
def aluSh (h : Hdr) (d a : Opnd) (n : ShAmt) (f : Word → Nat → Word) (s : State) : Out3 :=
  match n with
  | .reg b => issue h [a, b] [d] s (fun x vs => Act.fixed x s d (.w (f (wordAt vs 0) ((wordAt vs 1).toNat % 64))))
  | .imm n => issue h [a] [d] s (fun x vs => Act.fixed x s d (.w (f (wordAt vs 0) n.val)))

/-- A division: variable latency, 6 to 70 cycles (R143, R147). -/
def aluDiv (h : Hdr) (d a b : Opnd) (f : Word → Word → Word) (s : State) : Out3 :=
  issue h [a, b] [d] s (fun x vs => Act.var x s d (.w (f (wordAt vs 0) (wordAt vs 1))) 6 (some 70))

/-! ### Functions -/

/-- The high half of a signed product (R144). -/
def mulHi (a b : Word) : Word := ((a.signExtend 128) * (b.signExtend 128)).extractLsb' 64 64

/-- The high half of an unsigned product (R144). -/
def mulHiU (a b : Word) : Word := ((a.zeroExtend 128) * (b.zeroExtend 128)).extractLsb' 64 64

/-- Quotient rounded toward zero; division by zero gives all ones; −2^63 / −1 gives −2^63 (R147). -/
def divS (a b : Word) : Word := if b = 0 then BitVec.allOnes 64 else a.sdiv b
def divU (a b : Word) : Word := if b = 0 then BitVec.allOnes 64 else a.udiv b

/-- The remainder takes the sign of the dividend (R147). -/
def remS (a b : Word) : Word := if b = 0 then a else a.srem b
def remU (a b : Word) : Word := if b = 0 then a else a.umod b

/-- Leading zeros of the low k bits (R144). -/
def clzGo (x : Nat) : Nat → Nat
  | 0 => 0
  | k + 1 => if x.testBit k then 0 else clzGo x k + 1

/-- Trailing zeros among k bits from bit i (R144). -/
def ctzGo (x i : Nat) : Nat → Nat
  | 0 => 0
  | k + 1 => if x.testBit i then 0 else ctzGo x (i + 1) k + 1

/-- One bits among the low k bits. -/
def popGo (x : Nat) : Nat → Nat
  | 0 => 0
  | k + 1 => (if x.testBit k then 1 else 0) + popGo x k

def minS (a b : Word) : Word := if b.slt a then b else a
def maxS (a b : Word) : Word := if a.slt b then b else a
def minU (a b : Word) : Word := if b.ult a then b else a
def maxU (a b : Word) : Word := if a.ult b then b else a

/-- Bits [lo+w−1:lo] of a word. -/
def bitsAt (a : Word) (lo w : Nat) : Nat := a.toNat / 2 ^ lo % 2 ^ w

/-- A field of w bits widened with its sign (R149). -/
def sextField (a : Word) (lo w : Nat) : Word := BitVec.ofInt 64 (sval w (bitsAt a lo w))
def zextField (a : Word) (lo w : Nat) : Word := w64 (bitsAt a lo w)

/-- d[lo+w−1:lo] ← a[w−1:0] (R149). -/
def insField (d a : Word) (lo w : Nat) : Word :=
  let m : Word := w64 ((2 ^ w - 1) * 2 ^ lo)
  (d &&& ~~~m) ||| ((a <<< lo) &&& m)

/-- d[43:22] ← imm, d[63:44] filled with imm[21] (R148). -/
def luiVal (d : Word) (imm : BitVec 22) : Word := imm.signExtend 42 ++ d.extractLsb' 0 22

/-- d[63:44] ← imm (R148). -/
def luiHiVal (d : Word) (imm : BitVec 20) : Word := imm ++ d.extractLsb' 0 44

/-! ### Meanings -/

def execAdd (h : Hdr) (d a b : Opnd) (s : State) : Out3 := alu2 h d a b (fun x y => x + y) s
def execSub (h : Hdr) (d a b : Opnd) (s : State) : Out3 := alu2 h d a b (fun x y => x - y) s
def execAddi (h : Hdr) (d a : Opnd) (imm : BitVec 22) (s : State) : Out3 := alu1 h d a (fun x => x + imm.signExtend 64) s
def execMul (h : Hdr) (d a b : Opnd) (s : State) : Out3 := alu2 h d a b (fun x y => x * y) s
def execMulh (h : Hdr) (d a b : Opnd) (s : State) : Out3 := alu2 h d a b mulHi s
def execMulhu (h : Hdr) (d a b : Opnd) (s : State) : Out3 := alu2 h d a b mulHiU s
def execDiv (h : Hdr) (d a b : Opnd) (s : State) : Out3 := aluDiv h d a b divS s
def execDivu (h : Hdr) (d a b : Opnd) (s : State) : Out3 := aluDiv h d a b divU s
def execRem (h : Hdr) (d a b : Opnd) (s : State) : Out3 := aluDiv h d a b remS s
def execRemu (h : Hdr) (d a b : Opnd) (s : State) : Out3 := aluDiv h d a b remU s
def execAnd (h : Hdr) (d a b : Opnd) (s : State) : Out3 := alu2 h d a b (fun x y => x &&& y) s
def execOr (h : Hdr) (d a b : Opnd) (s : State) : Out3 := alu2 h d a b (fun x y => x ||| y) s
def execXor (h : Hdr) (d a b : Opnd) (s : State) : Out3 := alu2 h d a b (fun x y => x ^^^ y) s
def execAndn (h : Hdr) (d a b : Opnd) (s : State) : Out3 := alu2 h d a b (fun x y => x &&& ~~~y) s
def execShl (h : Hdr) (d a : Opnd) (n : ShAmt) (s : State) : Out3 := aluSh h d a n (fun x k => x <<< k) s
def execShr (h : Hdr) (d a : Opnd) (n : ShAmt) (s : State) : Out3 := aluSh h d a n (fun x k => x >>> k) s
def execSra (h : Hdr) (d a : Opnd) (n : ShAmt) (s : State) : Out3 := aluSh h d a n (fun x k => x.sshiftRight k) s
def execRol (h : Hdr) (d a : Opnd) (n : ShAmt) (s : State) : Out3 :=
  aluSh h d a n (fun x k => if k = 0 then x else (x <<< k) ||| (x >>> (64 - k))) s
def execClz (h : Hdr) (d a : Opnd) (s : State) : Out3 := alu1 h d a (fun x => w64 (clzGo x.toNat 64)) s
def execCtz (h : Hdr) (d a : Opnd) (s : State) : Out3 := alu1 h d a (fun x => w64 (ctzGo x.toNat 0 64)) s
def execPopc (h : Hdr) (d a : Opnd) (s : State) : Out3 := alu1 h d a (fun x => w64 (popGo x.toNat 64)) s
def execMin (h : Hdr) (d a b : Opnd) (s : State) : Out3 := alu2 h d a b minS s
def execMax (h : Hdr) (d a b : Opnd) (s : State) : Out3 := alu2 h d a b maxS s
def execMinu (h : Hdr) (d a b : Opnd) (s : State) : Out3 := alu2 h d a b minU s
def execMaxu (h : Hdr) (d a b : Opnd) (s : State) : Out3 := alu2 h d a b maxU s

/-- sel d, c, a, b: a if c is not zero, else b; c is source C (R144). -/
def execSel (h : Hdr) (d a b c : Opnd) (s : State) : Out3 :=
  issue h [a, b, c] [d] s (fun x vs => Act.fixed x s d (.w (if wordAt vs 2 ≠ 0 then wordAt vs 0 else wordAt vs 1)))

def execCmp (h : Hdr) (cc : ICond) (d a : Opnd) (b : CmpArg) (s : State) : Out3 :=
  match b with
  | .reg b => alu2 h d a b (fun x y => boolWord (icondHolds cc x y)) s
  | .imm i => alu1 h d a (fun x => boolWord (icondHolds cc x (i.signExtend 64))) s

def execLi (h : Hdr) (d : Opnd) (imm : BitVec 22) (s : State) : Out3 :=
  issue h [] [d] s (fun x _ => Act.fixed x s d (.w (imm.signExtend 64)))

/-- The destination is an implicit source, read with the value before the word (R148, R112). -/
def execLui (h : Hdr) (d : Opnd) (imm : BitVec 22) (s : State) : Out3 :=
  issue h [d] [d] s (fun x vs => Act.fixed x s d (.w (luiVal (wordAt vs 0) imm)))

def execLuiHi (h : Hdr) (d : Opnd) (imm : BitVec 20) (s : State) : Out3 :=
  issue h [d] [d] s (fun x vs => Act.fixed x s d (.w (luiHiVal (wordAt vs 0) imm)))

def execMov (h : Hdr) (d a : Opnd) (s : State) : Out3 := alu1 h d a (fun x => x) s

def execExt (h : Hdr) (u : Bool) (d a : Opnd) (w : BitVec 7) (s : State) : Out3 :=
  alu1 h d a (fun x => if u then zextField x 0 w.toNat else sextField x 0 w.toNat) s

/-- The destination is an implicit source (R149). -/
def execIns (h : Hdr) (d a : Opnd) (lo : BitVec 6) (w : BitVec 7) (s : State) : Out3 :=
  issue h [a, d] [d] s (fun x vs => Act.fixed x s d (.w (insField (wordAt vs 1) (wordAt vs 0) lo.toNat w.toNat)))

def execBfx (h : Hdr) (sg : Bool) (d a : Opnd) (lo : BitVec 6) (w : BitVec 7) (s : State) : Out3 :=
  alu1 h d a (fun x => if sg then sextField x lo.toNat w.toNat else zextField x lo.toNat w.toNat) s

end Sys2Proof.Machine
end

