-- ==== Sys2Proof/Machine/Launch.lean ====
section
/-! DEFINITION. Launch and futures: spawn, graph versions, fres and freg, yield and migr
(spec/20_launch_engine.md R326 to R342). -/

namespace Sys2Proof.Machine

/-! ### Holds of a step performed at issue -/

/-- A release entry of the word's stream that is earlier in program order has not drained (R68, R327). -/
def relsLeft (x : Ctx) (s : State) : Bool :=
  (s.agEntries x.ag).any (fun e => isRel e.2.ord && (x.w.st == .acc) == (e.1 == .s))

/-- A step that a word performs while it is held at issue waits for acquires before it, for what its release must follow,
and for earlier entries and reads of its path at its locations, or on S pages where it is on one (R58, R61, R69, R331). -/
def stepHeld (x : Ctx) (s : State) (rel : Bool) (ps : BitVec 8) (pts : List Part) : Bool :=
  s.barred x.ag .s s.seq || (rel && s.relBarred x.ag .s ps s.seq) ||
  (bufOf s.bufs x.ag .s).any (fun e => meet (partKeys pts) (s.entFoot x.ag e).1 ||
    (partsPk pts == .s && (s.entFoot x.ag e).2 == .s)) ||
  x.t.pend.any (fun p => (loadParts p).any (fun r => r.got.isNone &&
    (meet (partKeys pts) r.keys || (partsPk pts == .s && r.pk == .s))))

/-- The path set of the release of fres and freg (R331). -/
def futSet : BitVec 8 := 0x0F

def runRecFault (s : State) (a : VAddr) : Act := Act.trap s 0x0D (vaWord a)

/-! ### spawn (R327) -/

def execSpawn (h : Hdr) (a : Opnd) (s : State) : Out3 :=
  issue h [a] [] s (fun x vs =>
    let va := va57 (wordAt vs 0)
    if relsLeft x s then Act.hold s
    else
      let r := s.readRec 0 x.asid va
      match r.1 with
      | .page f => .page r.2 f
      | .refuse _ => runRecFault s va
      | .ok rcd => if r.2.runRoom then Act.done (r.2.acceptRun va rcd none) else Act.hold r.2)

/-! ### Graph objects (R328, R329) -/

/-- The versions of a graph record after its template: parameter block and the reserved fields of each. -/
structure GraphRec where
  nv    : Nat
  pblks : List VAddr
  bad   : Bool
  deriving DecidableEq, Repr

/-- The bytes of a graph record from 0x080 on. -/
def graphRec (bs : List Byte) : GraphRec :=
  let nv := fld (dwordAt bs 0) 6 0
  let w (v i : Nat) : Word := dwordAt bs (0x80 + 16 * v + 8 * i)
  { nv := nv, pblks := (List.range nv).map (fun v => va57 (w v 0)),
    bad := fld (dwordAt bs 0) 63 7 != 0 || nv = 0 || decide (64 < nv) ||
      (List.range 15).any (fun i => dwordAt bs (8 + 8 * i) != 0) ||
      (List.range nv).any (fun v => fld (w v 0) 63 57 != 0 || fld (w v 1) 63 17 != 0) }

/-- Reads and checks a graph record for a version; goes on with the template and the version's parameter block. -/
def withGraph (x : Ctx) (s : State) (va : VAddr) (v : Nat) (k : State → RunRec → VAddr → Act) : Act :=
  let h := s.leRead 0 x.asid va 256
  match h.1 with
  | .error f => .page h.2 f
  | .ok hb =>
    let nv := fld (dwordAt hb 0x80) 6 0
    let b := h.2.leRead 0 x.asid (va + 256) (16 * nv)
    match b.1 with
    | .error f => .page b.2 f
    | .ok vb =>
      let g := graphRec (hb.drop 0x80 ++ vb)
      if g.bad then runRecFault s va
      else
        let r := b.2.checkRec 0 x.asid va (hb.take 128)
        match r.1 with
        | .page f => .page r.2 f
        | .refuse _ => runRecFault s va
        | .ok rcd => if g.nv ≤ v then runRecFault s va else k r.2 rcd (g.pblks.getD v 0)

/-- The address of a version's doubleword. -/
def versionVa (va : VAddr) (v : Nat) : VAddr := va + BitVec.ofNat 57 (0x108 + 16 * v)

/-- The patch-busy fault: HOLD, the version and a code. -/
def patchBusy (s : State) (hold v code : Nat) : Act := Act.trap s 0x0E (w64 (hold % 2 ^ 16 * 2 ^ 16 + v * 2 ^ 8 + code))

def holdOf (w : Word) : Nat := fld w 15 0
def patching (w : Word) : Bool := w.getLsbD 16

/-- The three graph words up to their step on the version's doubleword. -/
def graphWord (h : Hdr) (a b : Opnd) (rel : Bool) (s : State)
    (step : Ctx → State → List Nat → VAddr → Nat → RunRec → VAddr → Act) : Out3 :=
  issue h [a, b] [] s (fun x vs =>
    let va := va57 (wordAt vs 0)
    let v := fld (wordAt vs 1) 5 0
    if relsLeft x s then Act.hold s
    else
      withGraph x s va v (fun s rcd pb =>
        withParts x s .wr (versionVa va v) 8 (fun s ps =>
          let ks := ps.flatMap (fun p => p.keys)
          if stepHeld x s rel allCls ps then Act.hold s
          else step x (s.consume x.w.pid x.lc 0 (s.badKeys x.ag .s ks)) ks va v rcd pb)))

/-- The doubleword of a version as the core's step finds it at module scope (R57). -/
def versionStep (x : Ctx) (s : State) (ks : List Nat) (f : Word → Option Word) : Word × State :=
  let r := s.atomicAt x.ag .s 5 ks .r (fun o => (f (leWord o)).map (fun w => wordLe 8 w))
  (leWord r.1, r.2)

def execSpawnG (h : Hdr) (a b : Opnd) (s : State) : Out3 :=
  graphWord h a b false s (fun x s ks va v rcd pb =>
    if !s.runRoom then Act.hold s
    else
      let r := versionStep x s ks (fun w => if patching w || holdOf w = 65535 then none else some (w + 1))
      if patching r.1 then patchBusy s (holdOf r.1) v 2
      else if holdOf r.1 = 65535 then Act.hold s
      else Act.done (r.2.acceptRun va { rcd with param := vaWord pb } (some (ks.headD 0))))

def execSpawnPb (h : Hdr) (a b : Opnd) (s : State) : Out3 :=
  graphWord h a b false s (fun x s ks _ v _ _ =>
    let r := versionStep x s ks (fun w => if patching w || holdOf w != 0 then none else some (w ||| 0x10000))
    if patching r.1 then patchBusy s (holdOf r.1) v 3
    else if holdOf r.1 != 0 then patchBusy s (holdOf r.1) v 1
    else Act.done (r.2.acquire x.ag x.w.pid x.w.qc r.2.seq allCls 5))

def execSpawnPe (h : Hdr) (a b : Opnd) (s : State) : Out3 :=
  graphWord h a b true s (fun x s ks _ v _ _ =>
    let r := versionStep x (s.releaseNow x.ag allCls 5) ks (fun w => if patching w then some (w &&& ~~~0x10000) else none)
    if patching r.1 then Act.done r.2 else patchBusy s (holdOf r.1) v 4)

/-! ### Futures (R330 to R334) -/

/-- A word on the future at va: misalignment, translation as a write, then its step at the home scope. -/
def withFuture (x : Ctx) (s : State) (va : VAddr) (k : State → Nat → Nat → Act) : Act :=
  if va.toNat % 8 != 0 then Act.trap s 0x09 (vaWord va)
  else
    withParts x s .wr va 8 (fun s ps =>
      let ks := ps.flatMap (fun p => p.keys)
      let key := ks.headD 0
      if stepHeld x s true futSet ps then Act.hold s
      else k (s.consume x.w.pid x.lc 0 (s.badKeys x.ag .s ks)) key (homeScope key))

def payload62 (w : Word) : BitVec 62 := w.truncate 62

/-- R332. -/
def fresWord (h : Hdr) (a b : Opnd) (tag : Nat) (s : State) : Out3 :=
  issue h [a, b] [] s (fun x vs =>
    let va := va57 (wordAt vs 0)
    withFuture x s va (fun s key lvl =>
      let r := (s.releaseNow x.ag futSet lvl).resolve x.w.pid x.w.qc 0 x.asid x.ag key lvl tag (payload62 (wordAt vs 1))
      if r.1 then Act.trap s 0x0F (vaWord va) else Act.done r.2))

def execFres (h : Hdr) (a b : Opnd) (s : State) : Out3 := fresWord h a b 1 s
def execFresF (h : Hdr) (a b : Opnd) (s : State) : Out3 := fresWord h a b 3 s

/-- R334: arms the future; the step and its release wait for the completion event. -/
def execFresN (h : Hdr) (a b : Opnd) (s : State) : Out3 :=
  issue h [a, b] [] s (fun x vs =>
    let va := va57 (wordAt vs 0)
    if va.toNat % 8 != 0 then Act.trap s 0x09 (vaWord va)
    else
      withParts x s .wr va 8 (fun s ps =>
        if 8 ≤ x.c.armed.length then Act.hold s
        else
          let e : Armed := { key := (ps.flatMap (fun p => p.keys)).headD 0, va := va, payload := payload62 (wordAt vs 1) }
          Act.done (s.updCore x.w.pid x.w.qc (fun c => { c with armed := c.armed ++ [e] }))))

/-- The word that registers a continuation (R330). -/
def regWord (b : VAddr) (j : Bool) : Word := w64 (b.toNat / 8 * 8 + (if j then 4 else 0) + 2)

/-- The status of R333 for the old state of a future. -/
def fregCode (old : Nat) : Nat :=
  match old % 4 with
  | 0 => 0
  | 1 => 1
  | 2 => 2
  | _ => 3

/-- The step of R333, with what starting the continuation now does. -/
def fregStep (x : Ctx) (s : State) (d : Opnd) (va b : VAddr) (j room : Bool) (start : State → State) : Act :=
  withFuture x s va (fun s key lvl =>
    let r := (s.releaseNow x.ag futSet lvl).atomicAt x.ag .s lvl ((List.range 8).map (fun i => key + i)) .r
      (fun o => if leNat o % 4 = 0 then some (wordLe 8 (regWord b j)) else none)
    let code := fregCode (leNat r.1)
    let now := code == 1 || code == 3
    if now && !room then Act.hold s
    else Act.var x (if now then start r.2 else r.2) d (.w (w64 code)) 20 none)

def execFreg (h : Hdr) (d a b : Opnd) (s : State) : Out3 :=
  issue h [a, b] [d] s (fun x vs =>
    let va := va57 (wordAt vs 0)
    let rb := va57 (wordAt vs 1)
    let r := s.readRec 0 x.asid rb
    match r.1 with
    | .page f => .page r.2 f
    | .refuse _ => runRecFault s rb
    | .ok rcd => fregStep x r.2 d va rb false r.2.runRoom (fun s => s.acceptRun rb rcd none))

def execFregJ (h : Hdr) (d a b : Opnd) (s : State) : Out3 :=
  issue h [a, b] [d] s (fun x vs =>
    let va := va57 (wordAt vs 0)
    let jb := va57 (wordAt vs 1)
    if jb.toNat % 8 != 0 then Act.trap s 0x09 (vaWord jb)
    else fregStep x s d va jb true true (fun s => s.joinBump x.asid jb))

/-! ### yield and migr (R337, R339) -/

def execYield (h : Hdr) (s : State) : Out3 :=
  issue h [] [] s (fun x _ => Act.done (s.updPass x.w.pid (fun p => { p with yield := true })))

def execMigr (h : Hdr) (a : Opnd) (s : State) : Out3 :=
  issue h [a] [] s (fun x vs =>
    Act.done (s.updPass x.w.pid (fun p => { p with migr := (wordAt vs 0).truncate 8 })))

end Sys2Proof.Machine
end

