-- ==== Sys2Proof/Machine/Memory.lean ====
section
/-! DEFINITION. Loads, stores, atomics, threshold waits and memory queues (spec/17_memory_path.md R278 to R300). -/

namespace Sys2Proof.Machine

/-! ### Addresses and entries -/

/-- The address of R278. -/
def memAddr (base : Word) (off : BitVec 8) : VAddr := va57 (base + off.signExtend 64)

/-- An annotation of a plain access; on a U page it has none (R63). -/
def plainOrd (o : Ord14) (ps : List Part) : Ord14 :=
  if ps.all (fun p => p.pk == .u) then { kind := .none, scope := 0, paths := 0 } else o

/-- A write of one page enters the path buffer; the halves of one store carry its serial number (R53, R64). -/
def issuePart (ag : Agent) (pid qc : Nat) (o : Ord14) (half : Option Nat) (s : State) (p : Part) (bs : List Byte) : State :=
  let ord := if p.pk == .u then { kind := .none, scope := 0, paths := 0 } else o
  let wr : Wr := { seq := s.seq, pk := p.pk, cells := keyCells p.keys bs, half := half, page := some p.page }
  (s.issueEntry ag .s { seq := s.seq, wr := wr, act := .write, key := 0, hist := 0, ord := ord, asc := 0, pid := pid,
                        qc := qc }).tickSeq

/-- The writes of a store, one for each page. -/
def issueParts (ag : Agent) (pid qc : Nat) (o : Ord14) (half : Option Nat) : State → List Part → List Byte → State
  | s, [], _ => s
  | s, p :: ps, bs =>
    issueParts ag pid qc o half (issuePart ag pid qc o half s p (bs.take p.keys.length)) ps (bs.drop p.keys.length)

/-- The serial number that the halves of an access share. -/
def halfOf (s : State) (ps : List Part) : Option Nat := if 1 < ps.length then some s.seq else none

/-! ### Loads and stores -/

/-- A load: its read is performed by a later step, and its result lands 12 cycles after issue at the earliest (R281). -/
def execLd (h : Hdr) (sx : Bool) (sz : Sz) (ord : Ord14) (d a : Opnd) (off : BitVec 8) (s : State) : Out3 :=
  issue h [a] [d] s (fun x vs =>
    withParts x s .rd (memAddr (wordAt vs 0) off) (szBytes sz) (fun s ps =>
      .go { st := s, outs := [(d, none)], due := .least (x.w.cycle + 12),
            req := .load (ps.map Part.read) sz sx (plainOrd ord ps),
            pin := none, arg := 0, next := .seq }))

/-- A store enters the s buffer, one entry for each page (R281, R64). -/
def execSt (h : Hdr) (sz : Sz) (ord : Ord14) (a : Opnd) (off : BitVec 8) (b : Opnd) (s : State) : Out3 :=
  issue h [a, b] [] s (fun x vs =>
    withParts x s .wr (memAddr (wordAt vs 0) off) (szBytes sz) (fun s ps =>
      Act.done (issueParts x.ag x.w.pid x.w.qc ord (halfOf s ps) s ps (wordLe (szBytes sz) (wordAt vs 1)))))

/-! ### Atomics -/

/-- An atomic that enters the s buffer: misalignment, then translation as a write, then the entry with the serial number
under which its results come back (R285, R53). -/
def atomIssue (x : Ctx) (s : State) (base : Word) (wd : AW) (act : EAct) (ord : Ord14) (asc : BitVec 4)
    (outs : List (Opnd × Option Val)) : Act :=
  let va := memAddr base 0
  if va.toNat % awBytes wd ≠ 0 then Act.trap s 0x09 (vaWord va)
  else
    withParts x s .wr va (awBytes wd) (fun s ps =>
      let ks := ps.flatMap (fun p => p.keys)
      let pk := match ps with
        | p :: _ => p.pk
        | [] => .r
      let wr : Wr := { seq := s.seq, pk := pk, cells := ks.map (fun k => (k, 0)), page := ps.head?.map Part.page }
      let e : Entry := { seq := s.seq, wr := wr, act := act, key := ks.headD 0, hist := 0, ord := ord, asc := asc,
                         pid := x.w.pid, qc := x.w.qc }
      let s' := s.issueEntry x.ag .s e
      if outs.isEmpty then Act.done s'.tickSeq
      else .go { st := s', outs := outs, due := .least (x.w.cycle + 20), req := .entry, pin := none, arg := 0, next := .seq })

def execAmo (h : Hdr) (op : AOpc) (wd : AW) (ord : Ord14) (asc : BitVec 4) (d a b : Opnd) (s : State) : Out3 :=
  issue h [a, b] [d] s (fun x vs => atomIssue x s (wordAt vs 0) wd (.amo op wd (wordAt vs 1)) ord asc [(d, none)])

/-- The destination is an implicit source with the expected value (R283). -/
def execCas (h : Hdr) (wd : AW) (ord : Ord14) (asc : BitVec 4) (d a b : Opnd) (s : State) : Out3 :=
  issue h [a, b, d] [d] s (fun x vs =>
    atomIssue x s (wordAt vs 0) wd (.cas wd (wordAt vs 2) (wordAt vs 1)) ord asc [(d, none)])

/-- The sources of a threshold. -/
def thrSrc : Thr → List Opnd
  | .imm _ => []
  | .reg a => [.r ⟨a.val, by omega⟩]

def thrVal (t : Thr) (w : Word) : Word :=
  match t with
  | .imm n => n.zeroExtend 64
  | .reg _ => w

def execFaddw (h : Hdr) (wd : AW) (ord : Ord14) (asc : BitVec 4) (d a b : Opnd) (thr : Thr) (s : State) : Out3 :=
  issue h ([a, b] ++ thrSrc thr) [d] s (fun x vs =>
    atomIssue x s (wordAt vs 0) wd (.faddw wd (wordAt vs 1) (thrVal thr (wordAt vs 2))) ord asc [(d, none)])

/-- Completes at issue, once its request has entered the s buffer (R284). -/
def execRamo (h : Hdr) (op : AOpc) (wd : AW) (ord : Ord14) (asc : BitVec 4) (a b : Opnd) (s : State) : Out3 :=
  issue h [a, b] [] s (fun x vs => atomIssue x s (wordAt vs 0) wd (.amo op wd (wordAt vs 1)) ord asc [])

/-! ### Waiting on a word -/

/-- The registration of a stream's wwait. -/
def State.waiter? (s : State) (pid qc : Nat) : Option WaitReg := s.waiters.find? (fun w => w.w == .core pid qc)

/-- A wwait that read below its threshold sleeps (R290). -/
def State.sleepAgain (s : State) (pid qc : Nat) : State :=
  { s with waiters := s.waiters.map (fun w => if w.w == .core pid qc then
      { w with woken := false, awake := false, full := w.full.map (fun _ => s.cycle) } else w) }

/-- R290 with the keys and the kind of the word's page. An acquire takes effect also where the page is of kind U, on which R63
has a plain load ignore its annotation (DEDUCED, notes/assumptions/67.md). -/
def wwaitBody (x : Ctx) (s : State) (wd : AW) (ord : Ord14) (ks : List Nat) (pk : PK) (thr : Word) : Act :=
  let pid := x.w.pid
  let qc := x.w.qc
  let asleep := match s.waiter? pid qc with
    | some w => !w.awake
    | none => false
  if asleep then Act.hold s
  else
    let s1 := if (s.waiter? pid qc).isSome then s else s.register (ks.headD 0) (.core pid qc)
    if !s1.mayRead x.lc s1.seq ks pk x.t.pend then
      Act.hold { s1 with waiters := s1.waiters.map (fun w => if w.w == .core pid qc then { w with awake := true } else w) }
    else if !(s1.badKeys x.ag .s ks).isEmpty then Act.hold (s1.consume pid x.lc 0 (s1.badKeys x.ag .s ks))
    else
      let v := leNat (s1.readKeys x.ag .s ks)
      if thr.toNat % 2 ^ awBitsOf wd ≤ v then
        let s2 := s1.unregister (.core pid qc)
        if isAcq ord then
          Act.done (s2.acquire x.ag pid qc s2.seq (pathSet ord.paths .s) (s2.scopeLvl x.ag ord.scope.toNat))
        else Act.done s2
      else Act.hold (s1.sleepAgain pid qc)

def execWwait (h : Hdr) (wd : AW) (ord : Ord14) (a : Opnd) (thr : Thr) (s : State) : Out3 :=
  issue h (a :: thrSrc thr) [] s (fun x vs =>
    let va := memAddr (wordAt vs 0) 0
    if va.toNat % awBytes wd ≠ 0 then Act.trap s 0x09 (vaWord va)
    else
      withParts x s .rd va (awBytes wd) (fun s ps =>
        wwaitBody x s wd ord (ps.flatMap (fun p => p.keys)) (match ps with
          | p :: _ => p.pk
          | [] => .r) (thrVal thr (wordAt vs 1))))

/-! ### Queues -/

/-- A queue step as an entry of path s (R53, R292). -/
def queueEnt (x : Ctx) (s : State) (hd : Word) (act : EAct) (ord : Ord14) (asc : BitVec 4) : Entry :=
  { seq := s.seq, wr := { seq := s.seq, pk := .r, cells := [] }, act := act, key := hd.toNat % 2 ^ 32,
    hist := x.asid.toNat, ord := ord, asc := asc, pid := x.w.pid, qc := x.w.qc }

/-- A queue step that enters the s buffer and delivers its status at its drain (R293, R294). -/
def queueIssue (x : Ctx) (s : State) (hd : Word) (act : EAct) (ord : Ord14) (asc : BitVec 4)
    (outs : List (Opnd × Option Val)) : Act :=
  .go { st := s.issueEntry x.ag .s (queueEnt x s hd act ord asc), outs := outs, due := .least (x.w.cycle + 20),
        req := .entry, pin := none, arg := 0, next := .seq }

/-- The register after an even register (R294). -/
def oddOf : Opnd → Opnd
  | .r n => .r (n + 1)
  | o => o

def execEnq (h : Hdr) (ord : Ord14) (asc : BitVec 4) (d a b : Opnd) (s : State) : Out3 :=
  issue h [a, b] [d] s (fun x vs => queueIssue x s (wordAt vs 0) (.enq (wordAt vs 1)) ord asc [(d, none)])

def execDeq (h : Hdr) (ord : Ord14) (asc : BitVec 4) (d a : Opnd) (s : State) : Out3 :=
  issue h [a] [d, oddOf d] s (fun x vs => queueIssue x s (wordAt vs 0) .deq ord asc [(d, none), (oddOf d, none)])

/-- The tinfo of the queue-wait trap (R295). -/
def queueInfo (hd head tail : Word) : Word := w64 (fld hd 31 0 * 2 ^ 32 + fld head 15 0 * 2 ^ 16 + fld tail 15 0)

/-- The detail of the trap with the handle as the word now reads it. -/
def LimSt.withHandle (l : LimSt) (hd : Word) : Word := w64 (fld hd 31 0 * 2 ^ 32 + fld l.info 31 0)

/-- One attempt of enqw or deqw at issue (R295): full or empty holds the word, any other status issues it. -/
def queueWait (x : Ctx) (s : State) (hd : Word) (enq : Option Word) (ord : Ord14) (lim asc : BitVec 4)
    (outs : QRes → List (Opnd × Option Val)) : Act :=
  let ps := pathSet ord.paths .s
  let e := queueEnt x s hd (enq.elim .deq .enq) ord asc
  let lvl := s.scopeLvl x.ag e.scope
  let keep (s : State) (info : Word) (tried : Bool) : State :=
    s.updStream x.w.pid x.w.qc x.w.st (fun t =>
      { t with limFrom := some { since := (match t.limFrom with
            | some l => l.since
            | none => x.w.cycle), bound := 2 ^ (lim.toNat + 6), info := info, deq := enq.isNone, tried := tried } })
  if !s.mayDrain x.ag .s e then Act.hold (match x.t.limFrom with
    | some l => keep s (l.withHandle hd) l.tried
    | none => keep s (queueInfo hd 0 0) false)
  else
    let s0 := s.forceLoads x.lc s.seq (s.entFoot x.ag e).1
    let s1 := if isRel ord then s0.releaseNow x.ag ps lvl else s0
    let q := s1.queueStep x.ag x.asid lvl hd enq
    if q.1.code = 1 then Act.hold (keep q.2 (queueInfo hd q.1.head q.1.tail) true)
    else
      let s2 := if isAcq ord then q.2.acquire x.ag x.w.pid x.w.qc q.2.seq ps lvl else q.2
      .go { st := s2, outs := outs q.1, due := .least (x.w.cycle + 20), req := .none, pin := none, arg := 0, next := .seq }

def execEnqw (h : Hdr) (ord : Ord14) (lim asc : BitVec 4) (d a b : Opnd) (s : State) : Out3 :=
  issue h [a, b] [d] s (fun x vs =>
    queueWait x s (wordAt vs 0) (some (wordAt vs 1)) ord lim asc (fun q => [(d, some (.w (w64 q.code)))]))

def execDeqw (h : Hdr) (ord : Ord14) (lim asc : BitVec 4) (d a : Opnd) (s : State) : Out3 :=
  issue h [a] [d, oddOf d] s (fun x vs =>
    queueWait x s (wordAt vs 0) none ord lim asc
      (fun q => [(d, some (.w (w64 q.code))), (oddOf d, some (.w q.val))]))

end Sys2Proof.Machine
end

