-- ==== Sys2Proof/Machine/System.lean ====
section
/-! DEFINITION. Translation invalidation, fault replay and leases (spec/24_translation_and_faults.md R372, R375,
spec/25_power_fabric_host.md R391, R392). -/

namespace Sys2Proof.Machine

/-! ### tlbinv (R372) -/

/-- A cached translation that an invalidation covers: of one address, or of the whole address space. -/
def TlbEnt.covered (t : TlbEnt) (asid : BitVec 16) (va : Option Nat) : Bool :=
  t.asid == asid && (match va with
    | some a => a / 2 ^ t.lg == t.va / 2 ^ t.lg
    | none => true)

def WalkEnt.covered (t : WalkEnt) (asid : BitVec 16) (va : Option Nat) : Bool :=
  t.asid == asid && (match va with
    | some a => t.va == walkKey t.lvl a
    | none => true)

/-- An access that was translated on a page is one that an invalidation covers: any, or one on the page of an address. -/
def onPage (va : Option Nat) (pg : Nat × Nat) : Bool :=
  match va with
  | some a => a / 2 ^ pg.2 == pg.1 / 2 ^ pg.2
  | none => true

/-- Passes of an address space. -/
def State.passesOf (s : State) (asid : BitVec 16) : List Pass :=
  s.passes.filter (fun p => match s.run? p.rid with
    | some r => r.rcd.asid == asid
    | none => false)

/-- The pages through which accesses of an address space have been translated that are not yet performed: reads of loads in
flight, and entries in path buffers. -/
def State.openPages (s : State) (asid : BitVec 16) : List (Nat × Nat) :=
  let ps := s.passesOf asid
  ps.flatMap (fun p => p.cores.flatMap (fun c =>
    c.acc.pend.flatMap (fun q => ((loadParts q).filter (fun r => r.got.isNone)).map (fun r => r.page)))) ++
  s.bufs.flatMap (fun b => (b.ents.filter (fun e => ps.any (fun p => p.pid == e.pid))).filterMap (fun e => e.wr.page))

/-- The word holds until the releases before it have drained, the covered entries are gone, and what was translated
through them has been performed; it then issues. -/
def tlbinv (x : Ctx) (s : State) (va : Option Nat) : Act :=
  if relsLeft x s then Act.hold s
  else if (s.openPages x.asid).any (onPage va) then Act.hold s
  else Act.done { s with tlb := s.tlb.filter (fun t => !t.covered x.asid va),
                         walks := s.walks.filter (fun t => !t.covered x.asid va) }

def execTlbinvVa (h : Hdr) (a : Opnd) (s : State) : Out3 :=
  issue h [a] [] s (fun x vs => tlbinv x s (some (va57 (wordAt vs 0)).toNat))

def execTlbinvAs (h : Hdr) (s : State) : Out3 := issue h [] [] s (fun x _ => tlbinv x s none)

/-! ### pfrep (R375) -/

/-- The outstanding fault of an address space with a record number. -/
def State.faultOf (s : State) (asid : BitVec 16) (n : Word) : Option PFault :=
  s.faults.find? (fun f => f.asid == asid && f.logId == some n.toNat)

/-- The replay is asked for once the releases of the core that name w have drained (R71). -/
def execPfrep (h : Hdr) (d a : Opnd) (s : State) : Out3 :=
  issue h [a] [d] s (fun x vs =>
    if !(s.relsNaming x.ag .w s.seq).isEmpty then Act.hold s
    else
      match s.faultOf x.asid (wordAt vs 0) with
      | none => Act.var x s d (.w 1) 20 none
      | some f =>
        let by_ := (x.w.pid, x.lc, s.seq)
        Act.var x { s with faults := s.faults.map (fun g => if g.id == f.id then { g with asked := some by_ } else g) }
          d (.w 0) 20 none)

/-! ### lease (R392) -/

/-- The request goes to the capo, whose answer lands in d. -/
def execLease (h : Hdr) (d a : Opnd) (s : State) : Out3 :=
  issue h [a] [d] s (fun x vs =>
    let w := wordAt vs 0
    if leaseBad w then Act.trap s 0x22 w
    else .go { st := s, outs := [(d, none)], due := .least (x.w.cycle + 20), req := .lease, pin := none, arg := w,
               next := .seq })

end Sys2Proof.Machine
end

