-- ==== Sys2Proof/Machine/Events.lean ====
section
/-! DEFINITION. Events of cores and of the ordering machine: results that land, slot writes, wakes, polls and limits of
waits, drains, propagation, and requests of other modules (spec/04_ordering_machine.md R52 to R63,
spec/06_instruction_word.md R119, spec/11_signal_instructions.md R194, spec/17_memory_path.md R289 to R299). An event whose
conditions do not hold changes nothing. -/

namespace Sys2Proof.Machine

/-! ### Results that land (R116, R119, R281) -/

/-- A result may land in a cycle. -/
def Due.open (d : Due) (cycle : Nat) : Bool :=
  match d with
  | .exact _ => false
  | .least lo => decide (lo ≤ cycle)
  | .within lo _ => decide (lo ≤ cycle)

def replaceAt {α : Type} (l : List α) (i : Nat) (x : α) : List α := l.set i x

/-- The value of a load whose reads have all been performed (R281). -/
def loadVal (parts : List ReadPart) (sz : Sz) (sx : Bool) : Word :=
  let bs := parts.flatMap (fun r => r.got.getD [])
  let n := leNat bs
  if sx then BitVec.ofInt 64 (sval (8 * szBytes sz) n) else w64 n

def allRead (parts : List ReadPart) : Bool := parts.all (fun r => r.got.isSome)

/-- Part i of a load is read when the order of its path allows it (R56, R58, R61, R69); the halves are in no order, and on a
page that is not U the flush of an acquire follows each (R63, R64, R69). -/
def State.performPart (s : State) (pid qc n i : Nat) : State :=
  match s.core? pid qc with
  | none => s
  | some c =>
    match c.acc.pend.find? (fun p => p.seq == n) with
    | none => s
    | some p =>
      match p.req with
      | .load parts sz sx ord =>
        (match parts[i]? with
         | none => s
         | some r =>
           if r.got.isSome || !s.mayRead c.lcore n r.keys r.pk c.acc.pend then s
           else
             let ag := Agent.core c.lcore
             let got := r.keys.map (s.readBefore ag .s n)
             let parts' := replaceAt parts i { r with got := some got }
             let s1 := (s.consume pid c.lcore 0 (s.badKeys ag .s r.keys)).updStream pid qc .acc (fun t =>
               { t with pend := t.pend.map (fun q => if q.seq == n then { q with req := .load parts' sz sx ord } else q) })
             if r.pk != .u && isAcq ord then
               s1.acquire ag pid qc n (pathSet ord.paths .s) (s1.scopeLvl ag ord.scope.toNat)
             else s1)
      | _ => s

/-- A result reaches its destinations and its reader pin goes. -/
def State.landNow (s : State) (pid qc : Nat) (st : Stream) (p : Pend) : State :=
  (s.updCore pid qc (fun c => landPend c st p)).unpinsR pid p.pin.toList

/-- A pending result of a stream. -/
def State.pend? (s : State) (pid qc : Nat) (st : Stream) (n : Nat) : Option Pend :=
  match s.core? pid qc with
  | some c => (c.stream st).pend.find? (fun p => p.seq == n)
  | none => none

/-- The reads of a load that are left, in order. -/
def State.performParts (s : State) (pid qc n k : Nat) : State :=
  (List.range k).foldl (fun s i => s.performPart pid qc n i) s

def execTaggedResultLand (pid qc : Nat) (st : Stream) (n : Nat) (s : State) : Out3 :=
  match s.pend? pid qc st n with
  | none => .next s
  | some p =>
    if !p.due.open s.cycle then .next s
    else
      match p.req with
      | .none => .next (s.landNow pid qc st p)
      | .load parts _ _ _ =>
        let s1 := s.performParts pid qc n parts.length
        (match s1.pend? pid qc st n with
         | some q =>
           (match q.req with
            | .load ps sz sx _ =>
              if allRead ps then .next (s1.landNow pid qc st { q with outs := fillOuts q.outs [.w (loadVal ps sz sx)] })
              else .next s1
            | _ => .next s1)
         | none => .next s1)
      | .entry => .next s
      | .lease => .next s

/-! ### Writes to slots (R176, R194) -/

def execSlotWritePerformed (pid n : Nat) (s : State) : Out3 :=
  match s.pass? pid with
  | none => .next s
  | some p =>
    match p.writes.find? (fun w => w.id == n) with
    | none => .next s
    | some w =>
      if (match w.due with
          | some d => decide (s.cycle < d)
          | none => false) then .next s
      else .next ((s.updSig pid w.sig (fun g => (g.writeSlot w.num w.off w.data []).unpinW w.num)).updPass pid (fun p =>
        { p with writes := p.writes.filter (fun v => v.id != n) }))

/-! ### Waits on words and queues (R289, R290, R295) -/

def execWwaitWake (pid qc : Nat) (s : State) : Out3 :=
  .next { s with waiters := s.waiters.map (fun x =>
    if x.w == .core pid qc && x.woken then { x with awake := true, woken := false } else x) }

/-- The registration of a waiter. -/
def State.waiting? (s : State) (w : Waiter) : Option WaitReg := s.waiters.find? (fun x => x.w == w)

/-- 1,024 cycles have passed since a waiter that found the table full last read its word. -/
def WaitReg.pollDue (x : WaitReg) (cycle : Nat) : Bool :=
  match x.full with
  | some c => decide (c + 1024 ≤ cycle)
  | none => false

def execWaiterTablePoll (w : Waiter) (s : State) : Out3 :=
  match s.waiting? w with
  | none => .next s
  | some x =>
    if !x.pollDue s.cycle then .next s
    else
      match w with
      | .core _ _ => .next { s with waiters := s.waiters.map (fun y => if y.w == w then { y with awake := true } else y) }
      | .join rid => .next (s.joinRead rid)

def execLeJoinWake (rid : Nat) (s : State) : Out3 :=
  match s.waiting? (.join rid) with
  | none => .next s
  | some x => if x.woken then .next (s.joinRead rid) else .next s

/-- The limit of a repeating enqw or deqw has run out while its quire is not stalled. -/
def State.limitDue (s : State) (pid qc : Nat) : Option LimSt :=
  match s.pass? pid, s.core? pid qc with
  | some p, some c =>
    match c.acc.limFrom with
    | some l => if p.st == .resident && !s.stalled p && decide (l.since + l.bound ≤ s.cycle) then some l else none
    | none => none
  | _, _ => none

def execQueueWaitLimitExpiry (pid qc : Nat) (s : State) : Out3 :=
  match s.limitDue pid qc, s.core? pid qc with
  | some l, some c => .next (s.takeTrap pid qc .acc c.acc.pc (if l.deq then 0x11 else 0x10) l.info)
  | _, _ => .next s

/-! ### Drain and propagate (R54, R55) -/

def execOrdDrain (ag : Agent) (cl : Cls) (i : Nat) (s : State) : Out3 :=
  match (bufOf s.bufs ag cl)[i]? with
  | none => .next s
  | some e => if s.mayDrain ag cl e then .next (s.drain ag cl e) else .next s

/-- Two atomics that a router may merge: plain, of one address, width, function and scope, and no swap (R287). -/
def Entry.merges (a b : Entry) : Bool :=
  match a.act, b.act with
  | .amo op wd _, .amo op' wd' _ =>
    op == op' && wd == wd' && op != .swap && a.ord.kind == .none && b.ord.kind == .none && a.asc == b.asc &&
    a.wr.cells.map (fun c => c.1) == b.wr.cells.map (fun c => c.1)
  | _, _ => false

/-- A request of a merge group comes before another: by requester, then in issue order (R287). -/
def keyBefore (a b : Agent × Cls × Entry) : Bool :=
  decide (agCore a.1 < agCore b.1) || (agCore a.1 == agCore b.1 && decide (a.2.2.seq < b.2.2.seq))

def insKey (x : Agent × Cls × Entry) : List (Agent × Cls × Entry) → List (Agent × Cls × Entry)
  | [] => [x]
  | y :: ys => if keyBefore y x then y :: insKey x ys else x :: y :: ys

/-- The requests that may be merged with an entry, itself among them, at the store where it is performed, in the order of their
keys (R287). -/
def State.groupOf (s : State) (ag : Agent) (cl : Cls) (e : Entry) : List (Agent × Cls × Entry) :=
  let at_ (ag : Agent) (cl : Cls) (x : Entry) : Option StoreId := storeAt (s.scopeLvl ag x.scope) (s.chain ag cl)
  (s.bufs.flatMap (fun b => (b.ents.filter (fun x => e.merges x && at_ b.ag b.cl x == at_ ag cl e)).map (fun x =>
    (b.ag, b.cl, x)))).foldr insKey []

/-- A router merges some of the requests of a group: they are performed one after another in the order of their keys (R287). -/
def State.mergeAt (s : State) (ag : Agent) (cl : Cls) (i : Nat) : State :=
  match (bufOf s.bufs ag cl)[i]? with
  | none => s
  | some e =>
    (s.groupOf ag cl e).foldl (fun s x =>
      let d := s.draw 2
      if d.1 = 0 && d.2.mayDrain x.1 x.2.1 x.2.2 then d.2.drain x.1 x.2.1 x.2.2 else d.2) s

/-- The store into which a store drains (R51, R52). -/
def State.nextStore (s : State) (i : StoreId) : Option StoreId :=
  match i with
  | .stream ag cl => ((s.chain ag cl).drop 1).head?
  | .core lc => ((s.chain (.core lc) .s).drop 2).head?
  | .quire pid =>
    (match s.pass? pid with
     | some p => some (.die (p.pos.dies.headD 0))
     | none => some .module)
  | .die _ => some .module
  | .module => some .node
  | .node => some .domain
  | .domain => some .region
  | .region => none

/-- A write may leave its store: no older write to one of its locations remains, but for two writes on U pages, and writes
on S pages leave in order, but for the halves of one access (R55, R61, R64). -/
def mayLeaveStore (older : List Wr) (w : Wr) : Bool :=
  !older.any (fun o => overlaps o.cells w.cells && !(o.pk == .u && w.pk == .u)) &&
  !(w.pk == .s && older.any (fun o => o.pk == .s && !o.twin w))

def execOrdPropagate (st : StoreId) (i : Nat) (s : State) : Out3 :=
  let ws := storeOf s.stores st
  match ws[i]? with
  | none => .next s
  | some w =>
    if mayLeaveStore (ws.take i) w then
      .next (({ s with stores := setStore s.stores st (ws.take i ++ ws.drop (i + 1)) } : State).append (s.nextStore st) w)
    else .next s

/-! ### Requests of other modules (R297 to R299) -/

/-- The replies kept for the source's acknowledgement. -/
def dedupeRoom : Nat := 4096

/-- A location that this module is the home of. -/
def isHome (pa n : Nat) : Bool := (paKeys pa n).all (fun k => decide (k < 2 ^ 39))

/-- A request performed at its home, at a scope from that of the first store that its agent shares with the module up; the
request does not name it, so it is a free choice (R52, R297; notes/assumptions/34.md): its reply. What a release or an
acquire of that scope pushes goes with it. -/
def State.remoteDo (s : State) (src : Nat) (r : RemoteReq) : Option (List Word × State) :=
  let ag := Agent.remote src
  let base := if Config.sameNode src then 6 else 7
  let d := s.draw (10 - base)
  let lvl := base + d.1
  let s := d.2
  let ch := s.chain ag .s
  let amo (wd : AW) (pa : Nat) (f : List Byte → Option (List Byte)) : Option (List Byte × State) :=
    if isHome pa (awBytes wd) && pa % awBytes wd == 0 then some (s.atomicAt ag .s lvl (paKeys pa (awBytes wd)) .r f) else none
  match r with
  | .load pa n =>
    if isHome pa n then some ([leWord (s.readFrom ag .s base (paKeys pa n))], s.pushBelow lvl ch) else none
  | .store pa bs =>
    if isHome pa bs.length then
      some ([], ((s.pushBelow lvl ch).append (storeAt lvl ch)
        { seq := s.seq, pk := .r, cells := keyCells (paKeys pa bs.length) bs }).tickSeq)
    else none
  | .amo op wd pa b =>
    (amo wd pa (fun o => some (natLe (awBytes wd) (amoFun op (awBitsOf wd) (leNat o) b.toNat)))).map
      (fun x => ([leWord x.1], x.2))
  | .cas wd pa want b =>
    (amo wd pa (fun o => if leNat o = want.toNat % 2 ^ awBitsOf wd then some (natLe (awBytes wd) b.toNat) else none)).map
      (fun x => ([leWord x.1], x.2))
  | .faddw wd pa b thr =>
    (amo wd pa (fun o => some (natLe (awBytes wd) (amoFun .add (awBitsOf wd) (leNat o) b.toNat)))).map (fun x =>
      ([leWord x.1], if faddwReaches (awBitsOf wd) (leNat x.1) b.toNat thr.toNat then
        x.2.wakeAll ((paKeys pa 1).headD 0) else x.2))
  | .enq asid h b =>
    let q := s.queueStep ag asid lvl (h.zeroExtend 64) (some b)
    some ([w64 q.1.code], q.2)
  | .deq asid h =>
    let q := s.queueStep ag asid lvl (h.zeroExtend 64) none
    some ([w64 q.1.code, q.1.val], q.2)

/-- A request already performed has its reply repeated, and one that finds the table full is refused; neither changes
anything here (R298, R299). -/
def execRemoteRequestArrival (src sq : Nat) (r : RemoteReq) (s : State) : Out3 :=
  if s.dedupe.any (fun d => d.src == src && d.sq == sq) || decide (dedupeRoom ≤ s.dedupe.length) then .next s
  else
    match s.remoteDo src r with
    | none => .next s
    | some (rep, s1) => .next { s1 with dedupe := s1.dedupe ++ [{ src := src, sq := sq, reply := rep }] }

def execRemoteReplyAcknowledge (src sq : Nat) (s : State) : Out3 :=
  .next { s with dedupe := s.dedupe.filter (fun d => !(d.src == src && d.sq == sq)) }

/-! ### Blocks of mapped regions (R379) -/

/-- The footprint of a command that may make its accesses now; none while it may not. -/
def openFoot (s : State) (x : CmdCtx) : Option Foot :=
  let on (b : Bool) (f : Foot) : Option Foot := if b && !x.k.held then some f else none
  match x.k.eng with
  | .mat => on (x.k.st == .started && decide (x.k.prog < matSteps x.k)) (matStepFoot x.k)
  | .copy =>
    if x.k.st == .started then on x.k.flt.isNone ((copyStep x).elim Foot.none Step.foot)
    else on (x.k.st == .departed && !x.earlier.any (copyWaits x) && !credHeld s x && !saveHeld x) { Foot.none with rd := cmdList x.k }
  | .att => on (x.k.st == .started || (x.k.st == .departed && attMay s x)) (attFoot x)
  | .vec =>
    on (x.k.st == .departed || (x.k.wait.isNone && (x.c.cmdsIn .vec .departed).isEmpty &&
      (x.c.cmdsIn .vec .queued).head? == some x.k)) (lsLeft x.k).foot
  | .curve => on (x.k.st == .departed) (splitFoot x.k)

/-- A command waits for an absent block. -/
def wantsBlock (s : State) (x : CmdCtx) (slot blk : Nat) : Bool :=
  match openFoot s x with
  | some f => (f.rd ++ f.wr).any (fun b => absentBlk x.c b == some (slot, blk))
  | none => false

/-- A command whose block cannot be filled ends with its engine fault (R319, R379): a split delivers E, although R255 gives an
issued csplit no later fault (DESIGN CHOICE, notes/assumptions/57.md), and vector results still owed are free values
(notes/assumptions/12.md). -/
def fillEnd (s : State) (pid qc n : Nat) : State :=
  match s.cmdCtx pid qc n with
  | none => s
  | some x =>
    if x.k.flt.isNone then s
    else
      match x.k.eng with
      | .vec => (s.deliverTo pid qc .exe x.k.seq ((List.range 8).map (fun i =>
          Val.v (Config.undefV s.cycle pid qc (128 + x.k.seq) i)))).endCmd pid qc x.k
      | .curve => (s.deliverTo pid qc .exe x.k.seq [.w (w64 (splitLen x.k))]).endCmd pid qc x.k
      | _ => s.endCmd pid qc x.k

/-- The commands of a core that wait for a block. -/
def waitersOfBlock (s : State) (pid qc slot blk : Nat) : List CmdCtx :=
  match s.core? pid qc with
  | none => []
  | some c => (c.cmds.filterMap (fun k => s.cmdCtx pid qc k.id)).filter (fun x => wantsBlock s x slot blk)

def execMapBlockFill (pid qc slot blk : Nat) (s : State) : Out3 :=
  match (waitersOfBlock s pid qc slot blk).head? with
  | none => .next s
  | some x =>
    match x.c.slot? slot with
    | none => .next s
    | some m => .next (fillEnd (fillBlock s x slot blk m) pid qc x.k.id)

/-! ### Replays (R375) -/

/-- What an access needed, from the detail of its fault (R382). -/
def infoAcc (w : Word) : Acc := if w.getLsbD 63 then .wr else if w.getLsbD 62 then .fetch else .rd

def faultUnit (f : PFault) : Nat :=
  match f.who with
  | .stream .acc => 0
  | .stream .exe => 1
  | .cmd _ => 2
  | .event e => engNo e
  | .save => 7

/-- The unit that a record of a fault names (R374). -/
def State.unitOf (s : State) (f : PFault) : Nat :=
  match f.who with
  | .cmd n => (match s.cmd? f.pid f.qc n with
      | some k => engNo k.eng
      | none => 7)
  | _ => faultUnit f

/-- The access goes on: a command takes up its work where it stopped. -/
def State.resume (s : State) (f : PFault) : State :=
  match f.who with
  | .cmd n => s.updCmd f.pid f.qc n (fun k => { k with held := false })
  | _ => s

/-- A fault is over. -/
def State.endFault (s : State) (f : PFault) : State :=
  ({ s with faults := s.faults.filter (fun g => g.id != f.id) } : State).resume f

/-- A replay that met the fault again: it counts, and a new record is logged. -/
def State.faultAgain (s : State) (f : PFault) (reason : Nat) : State :=
  let info := accInfo (infoAcc f.info) reason f.va
  let lc := match s.core? f.pid f.qc with
    | some c => c.lcore
    | none => 0
  let run := match s.pass? f.pid with
    | some p => (match s.run? p.rid with
        | some r => vaWord r.addr
        | none => 0)
    | none => 0
  let s1 : State := { s with faults := s.faults.map (fun g =>
    if g.id == f.id then { g with logId := none, info := info, reason := reason, asked := none } else g) }
  (s1.updCore f.pid f.qc (fun c => { c with replays := c.replays + 1 })).log
    { asid := f.asid, w0 := logHead 1 (BitVec.ofNat 8 reason) lc (s.unitOf f) f.asid, info := info, run := run,
      ctx := (match s.pass? f.pid with
        | some p => p.ctx
        | none => s.asidCtx f.asid), flt := some f.id }

def execFaultReplayWalk (id : Nat) (s : State) : Out3 :=
  match s.faults.find? (fun f => f.id == id && f.asked.isSome) with
  | none => .next s
  | some f =>
    let lc := match s.core? f.pid f.qc with
      | some c => c.lcore
      | none => 0
    let t := s.translate (dieOf lc) f.asid f.va (infoAcc f.info)
    match t.1 with
    | .trans r => .next (t.2.faultAgain f r)
    | _ => .next (t.2.endFault f)

/-! ### The notify combiner (R21, R334) -/

/-- The event at the head of a core's completion events is done. -/
def State.popEvent (s : State) (pid qc : Nat) : State := s.updCore pid qc (fun c => { c with events := c.events.tail })

/-- A translation fault at the resolution step of an event stalls the quire, as a fres in the event's cycle would, and the event
waits for its replay (R334, R373). -/
def State.stallEvent (s : State) (x : Ctx) (e : Eng) (f : AccFault) : State :=
  let pf : PFault := { id := s.nextId, logId := none, asid := x.asid, pid := x.w.pid, qc := x.w.qc, who := .event e,
                       va := f.va, info := f.info, reason := f.reason }
  ({ s with faults := s.faults ++ [pf], nextId := s.nextId + 1 } : State).log
    { asid := x.asid, w0 := logHead 1 (BitVec.ofNat 8 f.reason) x.lc (engNo e) x.asid, info := f.info, run := vaWord x.r.addr,
      ctx := x.p.ctx, flt := some pf.id }

/-- The oldest completion event resolves its armed future as by a fres of the core, with its release (R331, R332, R334). -/
def State.fireFuture (s : State) (x : Ctx) (e : NotEvt) : State :=
  let a := e.armed
  let en := engNo e.eng
  let t := s.accessAs x.ag s.seq x.die x.asid .wr a.va 8
  match t.1 with
  | .error f =>
    if f.cause = 0x0A && x.p.ctx.flb != 0 then t.2.stallEvent x e.eng f
    else (t.2.popEvent x.w.pid x.w.qc).logEngine x.w.pid x.w.qc en f.cause f.info
  | .ok ps =>
    let key := (ps.flatMap (fun p => p.keys)).headD 0
    let lvl := homeScope key
    let s1 := (t.2.popEvent x.w.pid x.w.qc).releaseNow x.ag futSet lvl
    let r := s1.resolve x.w.pid x.w.qc en x.asid x.ag key lvl (if e.flt then 3 else 1) (if e.flt then 1 else a.payload)
    if r.1 then r.2.logEngine x.w.pid x.w.qc en 0x0F (vaWord a.va) else r.2

/-- The place of a core for an event of its units. -/
def State.unitCtx (s : State) (pid qc : Nat) : Option Ctx :=
  match s.pass? pid with
  | some p =>
    if p.st == .resident then
      match p.cores[qc]?, s.run? p.rid with
      | some c, some r =>
        some { w := { cycle := s.cycle, pid := pid, qc := qc, st := .exe },
               h := { st := .exe, pd := 0, ta := 0, tc := 0 }, p := p, r := r, c := c, t := c.exe }
      | _, _ => none
    else none
  | none => none

/-- The fault is one that an event of the core's notify combiner has met. -/
def PFault.ofEvent (f : PFault) (pid qc : Nat) : Bool :=
  f.pid == pid && f.qc == qc && (match f.who with
    | .event _ => true
    | _ => false)

/-- The resolution step of an event may be performed: no acquire holds what its release must follow, and it waits for no
replay. -/
def State.eventReady (s : State) (x : Ctx) : Bool :=
  !s.relBarred x.ag .s futSet s.seq && !s.walkHeld x.ag s.seq && !s.faults.any (fun f => f.ofEvent x.w.pid x.w.qc)

/-- The resolution step of the oldest completion event that found an armed future (R334). -/
def execNotifyCompletionEvent (pid qc : Nat) (s : State) : Out3 :=
  match s.unitCtx pid qc with
  | none => .next s
  | some x =>
    match x.c.events with
    | [] => .next s
    | e :: _ => if s.eventReady x then .next (s.fireFuture x e) else .next s

end Sys2Proof.Machine
end

