-- ==== Sys2Proof/Machine/Quires.lean ====
section
/-! DEFINITION. Where passes may be placed: quires, their keys, runs with work to place, targets, the power limit and
pre-emption (spec/03_execution_model.md R29 to R32, spec/20_launch_engine.md R323 to R325, R336, R337,
spec/25_power_fabric_host.md R396 to R399). -/

namespace Sys2Proof.Machine

/-! ### Positions (R32) -/

/-- The ascending lists of k numbers of a list. -/
def choose : Nat → List Nat → List (List Nat)
  | 0, _ => [[]]
  | _ + 1, [] => []
  | k + 1, x :: xs => (choose k xs).map (fun r => x :: r) ++ choose (k + 1) xs

/-- Every quire of a shape. -/
def allPos (qc qd : Nat) : List Pos :=
  (choose qd (List.range 8)).flatMap (fun ds => (List.range (9 - qc)).map (fun i => { dies := ds, core := i }))


def railOf (s : State) (lc : Nat) : BitVec 2 := mget 0 s.mg.rail lc

def oneRail (s : State) (lcs : List Nat) : Bool := lcs.all (fun lc => railOf s lc == railOf s (lcs.headD 0))

/-- A core is in service and stays so. -/
def State.coreUp (s : State) (lc : Nat) : Bool :=
  s.dies.getLsbD (dieOf lc) && !s.leaving.contains (dieOf lc) && !s.sparing.contains lc && !s.outCores.contains lc


/-- Cores of the targets of blocking runs but one (R323). -/
def State.targets (s : State) (rid : Nat) : List Nat :=
  s.runs.flatMap (fun r => match r.target with
    | some d => if r.rid != rid && r.st == .active then posCores d r.rcd.qc else []
    | none => [])

/-- Depot bytes that a run's passes need on each die of the quire (R171). -/
def depotNeed (r : RunRec) (m : Nat) : Nat :=
  r.sigs.foldl (fun a d => if d.isDepot && d.home == m then a + d.foot else a) 0

/-- Depot bytes that a run's pass at a position needs on a die. -/
def needAt (r : RunRec) (pos : Pos) (d : Nat) : Nat :=
  match pos.dies.findIdx? (fun x => x == d) with
  | some m => depotNeed r m
  | none => 0

/-- Depot bytes of a die that its passes use, or that wait there for a migrating pass (R171, R339), once the passes `gone`
have left. -/
def State.depotUse (s : State) (d : Nat) (gone : List Nat := []) : Nat :=
  (s.passes.map (fun p => match s.run? p.rid with
    | some r => Nat.max (if p.st == .resident && !gone.contains p.pid then needAt r.rcd p.pos d else 0) (match p.dest with
        | some q => needAt r.rcd q d
        | none => 0)
    | none => 0)).sum

def State.depotRoom (s : State) (r : RunRec) (pos : Pos) (gone : List Nat := []) : Bool :=
  (List.range pos.dies.length).all (fun m => decide (s.depotUse (pos.dies.getD m 0) gone + depotNeed r m ≤ 2 ^ 27))

/-- A quire of a run's shape that could serve it: in service, on one rail, none of its cores reserved or targeted for
another run. -/
def State.fits (s : State) (r : Run) (pos : Pos) : Bool :=
  let lcs := posCores pos r.rcd.qc
  let no := s.reserved ++ s.targets r.rid
  lcs.all (fun lc => s.coreUp lc && !no.contains lc) && oneRail s lcs

/-- The quire is free. -/
def State.posFree (s : State) (r : Run) (pos : Pos) (gone : List Nat := []) : Bool :=
  (posCores pos r.rcd.qc).all (fun lc => (s.holder lc).isNone) && s.depotRoom r.rcd pos gone

/-! ### Pass indices (R29, R30) -/

def countProd (l : List Level) : Nat := l.foldl (fun a x => a * x.count) 1

def spatialLevels (r : RunRec) : List Level := r.levels.filter (fun l => l.kind != 1)

/-- Passes of a run. -/
def RunRec.total (r : RunRec) : Nat := countProd (spatialLevels r)

/-- The indices of pass n, outermost first. -/
def spatialIdx : List Level → Nat → List Nat
  | [], _ => []
  | l :: ls, n => n / countProd ls % l.count :: spatialIdx ls n

/-- The indices of the spatial-die levels of a pass. -/
def dieIdx (r : RunRec) (n : Nat) : List Nat :=
  ((spatialLevels r).zip (spatialIdx (spatialLevels r) n)).filterMap (fun x => if x.1.kind == 3 then some x.2 else none)

/-- Dies that hold passes of the run with another spatial-die index. -/
def State.otherDies (s : State) (r : Run) (num : Nat) : List Nat :=
  (s.passes.filter (fun p => p.rid == r.rid && p.st == .resident && dieIdx r.rcd p.num != dieIdx r.rcd num)).flatMap
    (fun p => p.pos.dies)

/-- The quires that R30 allows among a list. -/
def State.spread (s : State) (r : Run) (num : Nat) (l : List Pos) : List Pos :=
  let o := s.otherDies r num
  let l' := l.filter (fun p => p.dies.all (fun d => !o.contains d))
  if l'.isEmpty then l else l'

/-! ### Keys (R325) -/

/-- The rail of the lease of a run's pass. -/
def State.leaseRail (s : State) (r : Run) : Option Nat :=
  (s.passes.find? (fun p => p.rid == r.rid && fld p.lease 41 40 != 0)).map (fun p => fld p.lease 43 42)

/-- The keys of a quire: what comes first is smaller. -/
def State.posKey (s : State) (r : Run) (pos : Pos) : List Int :=
  let lcs := posCores pos r.rcd.qc
  let margin := lcs.foldl (fun m lc => Nat.min m (Config.thermal s.cycle lc)) (Config.thermal s.cycle (lcs.headD 0))
  let leak := lcs.foldl (fun a lc => a + Config.leakage lc) 0
  let rail : Int := match s.leaseRail r with
    | some x => if (railOf s (lcs.headD 0)).toNat = x then 0 else 1
    | none => 0
  [-(margin : Int), leak, rail, (lcs.headD 0 : Nat)]

def lexLt : List Int → List Int → Bool
  | x :: xs, y :: ys => decide (x < y) || (x == y && lexLt xs ys)
  | [], _ :: _ => true
  | _, [] => false

/-- The first quire by its keys. -/
def bestBy (key : Pos → List Int) : List Pos → Option Pos
  | [] => none
  | p :: ps =>
    match bestBy key ps with
    | some q => if lexLt (key q) (key p) then some q else some p
    | none => some p

/-- The free quire that the launch engine would choose for a pass, on a set of dies; `own` is the pass that migrates there
(R325, R339). -/
def State.findQuire (s : State) (r : Run) (num : Nat) (mask : BitVec 8) (own : List Nat := []) : Option Pos :=
  bestBy (s.posKey r) (s.spread r num ((allPos r.rcd.qc r.rcd.qd).filter (fun p =>
    p.dies.all (fun d => mask.getLsbD d) && s.fits r p && s.posFree r p own)))

/-- The target quire of a run that becomes blocking: fewest cores holding a pass, then the keys (R323). -/
def State.findTarget (s : State) (r : Run) (num : Nat) : Option Pos :=
  let busy (pos : Pos) : Int := (((posCores pos r.rcd.qc).filter (fun lc => (s.holder lc).isSome)).length : Int)
  bestBy (fun p => busy p :: s.posKey r p) (s.spread r num ((allPos r.rcd.qc r.rcd.qd).filter (s.fits r)))

/-! ### Runs with work to place (R323, R337) -/

/-- The saved passes of a run that are in its queue; one that goes to a reserved target is not (R323, R339). -/
def State.savedOf (s : State) (rid : Nat) : List Pass :=
  s.passes.filter (fun p => p.rid == rid && p.st == .saved && p.dest.isNone)

/-- The run has a pass to create or to restore. -/
def State.pending (s : State) (r : Run) : Bool :=
  r.st == .active && (decide (r.made < r.rcd.total) || !(s.savedOf r.rid).isEmpty)

/-- The runs that a yielded pass waits for have all placed a pass, or have none to place. -/
def State.yielded (s : State) (p : Pass) : Bool :=
  p.after.any (fun rid => match s.run? rid with
    | some r => s.pending r
    | none => false)

/-- One run before another: higher effective priority, then older stamp. -/
def Run.before (a b : Run) : Bool := decide (b.eff < a.eff) || (a.eff == b.eff && decide (a.stamp < b.stamp))

def insRun (x : Run) : List Run → List Run
  | [] => [x]
  | y :: ys => if y.before x then y :: insRun x ys else x :: y :: ys

/-- The runs to serve, in order. -/
def State.queue (s : State) : List Run := (s.runs.filter s.pending).foldr insRun []

/-- The pass number that a run places next, and the saved pass it restores; none while all its saved passes have yielded. -/
def State.nextPass (s : State) (r : Run) : Option (Nat × Option Pass) :=
  match s.savedOf r.rid with
  | [] => if r.made < r.rcd.total then some (r.made, none) else none
  | l => (l.find? (fun p => !s.yielded p)).map (fun p => (p.num, some p))

/-- The launch engine may place a pass of a power class now: no new pass below 300 W, and none of class 2 or 3 while step 5
or 6 acts (R399). -/
def State.mayPlace (s : State) (powc : Nat) : Bool := decide (300 ≤ s.powerLimit) && (decide (s.mg.level < 17) || decide (powc < 2))

/-! ### Pre-emption (R336) -/

/-- The passes on a quire. -/
def State.passesOn (s : State) (pos : Pos) (qc : Nat) : List Pass :=
  let lcs := posCores pos qc
  s.passes.filter (fun p => p.st == .resident && p.cores.any (fun c => lcs.contains c.lcore))

def State.effOf (s : State) (p : Pass) : Nat :=
  match s.run? p.rid with
  | some r => r.eff
  | none => 0

def State.stampOf (s : State) (p : Pass) : Nat :=
  match s.run? p.rid with
  | some r => r.stamp
  | none => 0

/-- The order of the sets of passes that would free a quire: lowest effective priority, youngest stamp, fewest passes. -/
def State.freeKey (s : State) (r : Run) (pos : Pos) : List Int :=
  let ps := s.passesOn pos r.rcd.qc
  let eff := ps.foldl (fun m p => Nat.max m (s.effOf p)) 0
  let old := ps.foldl (fun m p => Nat.min m (s.stampOf p)) s.cycle
  [(eff : Int), -(old : Int), (ps.length : Nat)]

/-- The quires that pre-emption would free for a run: every pass on them stands below it, and the home depots have room once
those passes have left (R171, R336). -/
def State.freeable (s : State) (r : Run) (pos : Pos) : Bool :=
  let ps := s.passesOn pos r.rcd.qc
  s.fits r pos && !ps.isEmpty && ps.all (fun p => decide (s.effOf p < r.eff)) && s.depotRoom r.rcd pos (ps.map (fun p => p.pid))

/-- The passes to pre-empt for a run that finds no quire; none when none helps. A run for which a free quire exists and that waits
for room in a depot alone (R171, R323) asks for nothing (DEDUCED, notes/assumptions/54.md). -/
def State.freeFor (s : State) (r : Run) : List Nat :=
  match s.nextPass r with
  | none => []
  | some (num, _) =>
    let all := allPos r.rcd.qc r.rcd.qd
    if all.any (fun pos => s.fits r pos && (s.passesOn pos r.rcd.qc).isEmpty) then []
    else
      match bestBy (s.freeKey r) (s.spread r num (all.filter (s.freeable r))) with
      | some pos => (s.passesOn pos r.rcd.qc).map (fun p => p.pid)
      | none => []

/-- One pass is pre-empted before another for power: the higher class, then the younger stamp (R399). -/
def State.shedFirst (s : State) (a b : Pass) : Bool :=
  decide (s.powcOf b < s.powcOf a) || (s.powcOf a == s.powcOf b && decide (s.stampOf b < s.stampOf a))

def State.insShed (s : State) (x : Pass) : List Pass → List Pass
  | [] => [x]
  | y :: ys => if s.shedFirst y x then y :: s.insShed x ys else x :: y :: ys

/-- The resident passes in the order of pre-emption under a limit below 300 W (R399). -/
def State.shedOrder (s : State) : List Pass := (s.passes.filter (fun p => p.st == .resident)).foldr s.insShed []

/-- The passes that pre-emption for power has saved, in the reverse of its order: they are placed again first (R399). -/
def State.shedBack (s : State) : List Pass :=
  ((s.passes.filter (fun p => p.st == .saved && p.shed && p.dest.isNone)).foldr s.insShed []).reverse

/-- The passes of which pre-emption is asked: those of each run in the queue that some resident pass stands below and that
finds no quire (R336); and, under a limit below 300 W that is not met, the first passes in the order of R399. -/
def State.wanted (s : State) : List Nat :=
  if s.powerShort then (s.shedOrder.map (fun p => p.pid)).take (1 + Config.shedAhead s.cycle)
  else if decide (s.powerLimit < 300) then []
  else (s.queue.flatMap s.freeFor).eraseDups

end Sys2Proof.Machine
end

