-- ==== Sys2Proof/Machine/Passes.lean ====
section
/-! DEFINITION. Events of the launch engine: ticks and their boundaries, saves, finishes, placement and restore, ageing,
pre-emption, deadlines, the tick watchdog, core exchanges and machine checks (spec/03_execution_model.md R13, R29 to R50,
spec/10_signals.md R180 to R186, spec/20_launch_engine.md R322 to R341, spec/22_stack_attention.md R359, R360,
spec/24_translation_and_faults.md R388, R403). -/

namespace Sys2Proof.Machine

/-! ### Ticks (R34, R180) -/

/-- Every core has issued its tick, or its execute stream has exited, and at least one has issued it (R34). -/
def Pass.ticked (p : Pass) : Bool :=
  p.cores.all (fun c => c.ticked.isSome || c.exe.exited) && p.cores.any (fun c => c.ticked.isSome)

/-- The number of the interval that the tick opens. -/
def Pass.nextIvl (p : Pass) : Nat := p.now.toNat + 1

/-- The signal is due in the interval that the tick opens, with its gate as it stands. -/
def Sig.dueNext (g : Sig) (k : Nat) : Bool := g.live && sigDue g.desc g.g k

/-- Conditions 2 and 3 of R180 for one signal. -/
def Sig.tickOk (g : Sig) (k : Nat) : Bool :=
  let now := match g.slot? g.n.toNat with
    | some q => q.st == .ready && !g.rest
    | none => false
  let old : Int := g.n + 1 - g.desc.depth
  let reuse := if old < 0 then true else
    match g.slot? old.toNat with
    | some q => q.rp == 0 && !q.freed && q.st != .draining
    | none => true
  !g.live || ((!g.due || now) && (!g.dueNext k || (reuse && !g.rest)))

/-- The conditions of R180 hold now. -/
def Pass.tickMet (p : Pass) : Bool :=
  p.ticked && p.sigs.all (fun x => match x.2 with
    | some g => g.tickOk p.nextIvl
    | none => true)

/-- The numbers of the signals that the tick makes due. -/
def Pass.dueList (p : Pass) : List Nat :=
  p.sigs.filterMap (fun x => match x.2 with
    | some g => if g.dueNext p.nextIvl then some x.1 else none
    | none => none)

/-- The signal at a tick completion (R172, R173, R180). -/
def Sig.open (g : Sig) (due : Bool) : Sig :=
  if !due then { g with due := false }
  else
    let n := g.n + 1
    let o := Nat.max g.o (n + 1 - g.desc.depth).toNat
    { g with n := n, o := o, g := if g.desc.gm = 2 then false else g.g, due := true,
             slots := g.slots.filter (fun q => decide (o ≤ q.num)) ++ [freshSlot g.desc n.toNat] }

/-- The lease after a tick completion (R393). -/
def leaseTick (w : Word) : Word :=
  if fld w 41 40 = 0 then w
  else if fld w 63 48 ≤ 1 then w64 (fld w 43 42 * 2 ^ 42) else w - w64 (2 ^ 48)

/-- The core at a tick completion. -/
def CoreSt.tickDone (c : CoreSt) : CoreSt := { c with ticked := none, attqs := [], exe := { c.exe with tickWait := none } }

/-- The deadlines of the commands of the interval that ends, by the slack of each core's own tick (R46). -/
def Pass.newDeadlines (p : Pass) (cycle : Nat) : List Deadline :=
  (List.range p.cores.length).filterMap (fun i =>
    match p.cores[i]? with
    | some c =>
      (match c.ticked with
       | some sl => if c.cmds.any (fun k => k.ivl == p.now.toNat) then
           some { qc := i, ivl := p.now.toNat, at_ := cycle + sl } else none
       | none => none)
    | none => none)

/-- The pass at a tick completion (R180). -/
def Pass.tickDone (p : Pass) (cycle : Nat) (due : List Nat) : Pass :=
  let lease := leaseTick p.lease
  let leased := fld lease 41 40 != 0
  { p with now := p.now + 1, sched := 0, wd := 0, tick := none, lease := lease, exhausted := false,
           granted := if leased then p.granted else none,
           deadlines := p.deadlines ++ p.newDeadlines cycle,
           cores := p.cores.map CoreSt.tickDone,
           sigs := p.sigs.map (fun x => (x.1, x.2.map (fun g => if g.live then g.open (due.contains x.1) else g))) }

/-- Intervals of the tick space; none without a temporal level (R31). -/
def RunRec.ticks (r : RunRec) : Option Nat :=
  let t := r.levels.filter (fun l => l.kind == 1)
  if t.isEmpty then none else some (countProd t)

def StreamSt.halt (t : StreamSt) : StreamSt := { t.unhold with exited := true, nextTrap := [] }

/-- Every stream of the pass has executed exit. -/
def Pass.allExited (p : Pass) : Bool := p.cores.all (fun c => c.exe.exited && c.acc.exited)

/-- The pass ends as though every stream had executed exit (R31). -/
def Pass.endSpace (p : Pass) : Pass :=
  { p with ended := true, cores := p.cores.map (fun c => { c with exe := c.exe.halt, acc := c.acc.halt }) }

/-- Requests that a pass that ends discards (R49). -/
def Pass.discard (p : Pass) : Pass :=
  { p with preempt := false, yield := false, migr := 0, phoavo := none, parkPend := none }

/-- A core of the pass is being exchanged, or is on a die that leaves service (R13, R410). -/
def State.mustMove (s : State) (p : Pass) : Bool := p.cores.any (fun c => s.leaving.contains (dieOf c.lcore))
def State.mustSwap (s : State) (p : Pass) : Bool := p.cores.any (fun c => s.sparing.contains c.lcore)

/-- The dies that a migration request allows; Phoavo's wins (R339). -/
def Pass.migrMask (p : Pass) : BitVec 8 :=
  match p.phoavo with
  | some m => m
  | none => p.migr

/-- The target of a migration that the boundary honours (R13, R339, R410). -/
def State.migrTarget (s : State) (p : Pass) (r : Run) : Option Pos :=
  if s.mustSwap p && !s.mustMove p then some p.pos
  else if s.mustMove p then s.findQuire r p.num 0xFF [p.pid]
  else if p.migrMask = 0 then none
  else s.findQuire r p.num p.migrMask [p.pid]

/-- The runs that a yielding pass goes behind (R337). -/
def State.peers (s : State) (r : Run) : List Nat :=
  ((s.runs.filter (fun q => q.rid != r.rid && s.pending q && decide (r.eff ≤ q.eff))).map (fun q => q.rid))

/-- What a boundary does: the launch engine holds the quire for a save, or the pass goes on (R48, R49, R337, R339). -/
def State.decideBoundary (s : State) (pid : Nat) : State :=
  match s.pass? pid with
  | none => s
  | some p =>
    match s.run? p.rid with
    | none => s
    | some r =>
      let hold (f : Pass → Pass) : State := s.updPass pid (fun q => f { q with boundary := some s.cycle, yield := false })
      if p.parkPend.isSome then hold (fun q => { q with migr := 0, phoavo := none })
      else
        match s.migrTarget p r with
        | some d => hold (fun q => { q with dest := some d, migr := 0, phoavo := none })
        | none =>
          if s.mustMove p || (p.preempt && s.wanted.contains pid) then hold (fun q => { q with shed := s.powerShort })
          else if p.yield then
            (match s.peers r with
             | [] => s.updPass pid (fun q => { q with yield := false, preempt := false })
             | l => hold (fun q => { q with after := l, preempt := false }))
          else s.updPass pid (fun q => { q with preempt := false })

/-- The completion of a tick, and what its boundary decides. -/
def State.finishTick (s : State) (p : Pass) (r : Run) (due : List Nat) : State :=
  let s1 := s.updPass p.pid (fun q => q.tickDone s.cycle due)
  let isOver := match r.rcd.ticks with
    | some n => decide (n ≤ p.nextIvl)
    | none => false
  if isOver then
    { s1.updPass p.pid (fun q => q.endSpace.discard) with
      waiters := s1.waiters.filter (fun x => match x.w with
        | .core q _ => q != p.pid
        | .join _ => true) }
  else if p.allExited then s1.updPass p.pid Pass.discard
  else s1.decideBoundary p.pid

/-- The cycles from the first in which the conditions of a tick hold to its completion: 108 over the module tick bus (R34);
on a quire of one die two where it has several cores, none on one core (DEDUCED from the traces of R47 and R181,
notes/assumptions/56.md). -/
def Pass.tickLat (p : Pass) : Nat := if p.qd != 1 then 108 else if 1 < p.cores.length then 2 else 0

/-- The tick is on its way, with the signals due as they stand. -/
def Pass.tickHeld (p : Pass) (cycle : Nat) : Pass := { p with tick := some { at_ := cycle + p.tickLat, due := p.dueList } }

/-- What sends a tick on its way: on a die-spanning quire all its conditions, on one die that every core has issued it, for
the others are tested as it completes (R34, R180). -/
def Pass.tickSent (p : Pass) : Bool := if p.qd = 1 && p.tickLat != 0 then p.ticked else p.tickMet

/-- The tick may make progress now: it sets out, or its time has passed and on one die its conditions hold. -/
def State.tickDue (s : State) (p : Pass) : Bool :=
  p.st == .resident && !s.stalled p && !p.ended &&
  (match p.tick with
   | some w => decide (w.at_ ≤ s.cycle) && (p.qd != 1 || p.tickMet)
   | none => p.tickSent)

/-- The signals that a tick on its way makes due: those of the cycle in which it set out on a die-spanning quire, else those
of the current gates (R180). -/
def Pass.dueAt (p : Pass) (w : TickWait) : List Nat := if p.qd = 1 then p.dueList else w.due

/-- After the slots of a cycle, the ticks that set out now and complete later (R34). -/
def State.noteTicks (s : State) : State :=
  { s with passes := s.passes.map (fun p =>
      if s.tickDue p && p.tick.isNone && p.tickLat != 0 then p.tickHeld s.cycle else p) }

/-- R180: the conditions of a cycle complete the tick then, or as many cycles later as its quire takes (R34). -/
def execTickComplete (pid : Nat) (s : State) : Out3 :=
  match s.pass? pid with
  | none => .next s
  | some p =>
    match s.run? p.rid with
    | none => .next s
    | some r =>
      if !s.tickDue p then .next s
      else
        match p.tick with
        | some w => .next (s.finishTick p r (p.dueAt w))
        | none =>
          if p.tickLat = 0 then .next (s.finishTick p r p.dueList)
          else .next (s.updPass pid (fun q => q.tickHeld s.cycle))

/-! ### Write-backs of a save or a finish (R183, R185, R377, R379) -/

/-- A write of the map unit failed: a translation fault with a fault log delays what it does; any other failure is an
engine fault. -/
def State.muFault (s : State) (p : Pass) (r : Run) (qc lc : Nat) (f : AccFault) : Bool × State :=
  if f.cause = 0x0A && p.ctx.flb != 0 then
    let id := s.nextId
    let pf : PFault := { id := id, logId := none, asid := r.rcd.asid, pid := p.pid, qc := qc, who := .save, va := f.va,
                         info := f.info, reason := f.reason }
    (true, (({ s with faults := s.faults ++ [pf], nextId := id + 1 } : State).log
      { asid := r.rcd.asid, w0 := logHead 1 (BitVec.ofNat 8 f.reason) lc 7 r.rcd.asid, info := f.info, run := vaWord r.addr,
        ctx := p.ctx, flt := some id }))
  else (false, s.logEngine p.pid qc 7 f.cause f.info)

/-- A list of write-backs, up to the first that is delayed. -/
def untilDelay {α : Type} (f : α → State → Bool × State) : List α → State → Bool × State
  | [], s => (false, s)
  | x :: xs, s =>
    let q := f x s
    if q.1 then q else untilDelay f xs q.2

/-- Every dirty block of a core's map slots, with its slot. -/
def CoreSt.dirtyList (c : CoreSt) : List (Nat × MapSlot × Nat) :=
  c.slots.flatMap (fun m => m.2.dirty.map (fun j => (m.1, m.2, j)))

/-- One dirty block is written back on path c. -/
def State.wbMap (p : Pass) (r : Run) (qc : Nat) (c : CoreSt) (e : Nat × MapSlot × Nat) (s : State) : Bool × State :=
  let ag := Agent.core c.lcore
  let q := s.accessAs ag s.seq (dieOf c.lcore) r.rcd.asid .wr (e.2.1.base + BitVec.ofNat 57 (2048 * e.2.2)) 2048
  match q.1 with
  | .error f => q.2.muFault p r qc c.lcore f
  | .ok ps =>
    let s1 := q.2.putParts ag .c p.pid qc 0 ps (q.2.lsRow c.lcore .c (lsKeys c.lcore (e.2.1.la + 2048 * e.2.2) 2048))
    (false, s1.updCore p.pid qc (fun c => { c with slots := c.slots.map (fun x =>
      if x.1 == e.1 then (x.1, { x.2 with dirty := x.2.dirty.filter (fun d => d != e.2.2) }) else x) }))

/-- Every dirty block of the pass. -/
def State.wbMaps (s : State) (p : Pass) (r : Run) : Bool × State :=
  untilDelay (fun i s => match p.cores[i]? with
    | some c => untilDelay (State.wbMap p r i c) c.dirtyList s
    | none => (false, s)) (List.range p.cores.length) s

/-- A sample is written back by the launch engine, released over every class at the home scope (R185): that of its first byte,
also where its slot spans regions (DESIGN CHOICE, notes/assumptions/74.md). -/
def State.leBack (p : Pass) (r : Run) (d : SigDesc) (q : Slot) (s : State) : Bool × State :=
  if q.back then (false, s)
  else
    let lc := match p.cores[0]? with
      | some c => c.lcore
      | none => 0
    let b := s.backKeys p.ctx lc s.seq r.rcd.asid d q.num .wr
    match b.1 with
    | .error f => b.2.muFault p r 0 lc f
    | .ok ps =>
      let ks := ps.flatMap (fun a => a.keys)
      let cells := keyCells ks ((List.range ks.length).map (fun i => mget 0 q.data i))
      let bad := q.bad.map (fun i => ks.getD i 0)
      let s1 := ps.foldl (fun s a =>
        (s.append (some .module) { seq := s.seq, pk := a.pk, cells := cells.filter (fun c => a.keys.contains c.1),
                                   bad := bad.filter (fun k => a.keys.contains k) }).tickSeq) b.2
      (false, s1.leRelease (homeScope (ks.headD 0)))

/-- The ready samples of the backed signals of a pass, those of moving pages among them. -/
def Pass.backList (p : Pass) : List (SigDesc × Slot) :=
  p.sigs.flatMap (fun x => match x.2 with
    | some g =>
      if g.live && g.desc.backed then
        (g.slots.filter (fun q => q.st == .ready || q.st == .draining)).map (fun q => (g.desc, q)) else []
    | none => [])

def State.wbSigs (s : State) (p : Pass) (r : Run) : Bool × State := untilDelay (fun e s => State.leBack p r e.1 e.2 s) p.backList s

/-! ### Saving (R48, R184 to R186, R403) -/

/-- No command, result, slot write or notify of the pass is left (R48). -/
def Pass.quiet (p : Pass) : Bool :=
  p.writes.isEmpty && p.cores.all (fun c =>
    c.cmds.isEmpty && c.exe.pend.isEmpty && c.acc.pend.isEmpty && c.nots.isEmpty && c.events.isEmpty)

/-- The send channels are drained (R403). -/
def CoreSt.sendsEmpty (c : CoreSt) : Bool := (List.range 32).all (fun i => (mget [] c.ch (16 + i)).isEmpty)

def State.saveReady (s : State) (p : Pass) : Bool :=
  p.st == .resident && p.boundary.isSome && p.quiet && p.cores.all CoreSt.sendsEmpty && !s.faults.any (fun f => f.pid == p.pid)

/-- Poisoned bytes of a core's free line store, as its die's chain shows them. -/
def State.lsBads (s : State) (lc lim : Nat) : List Nat :=
  let lo := lsKey lc 0
  let ks := s.poison ++ s.stores.flatMap (fun x => x.ws.flatMap (fun w => w.bad))
  ((ks.filter (fun k => decide (lo ≤ k) && decide (k < lo + lim) &&
    s.badChain k (.die (dieOf lc) :: upperChain))).map (fun k => k - lo)).eraseDups

/-- A stream at a save: what waits on it starts afresh after the restore (R290, R295). -/
def StreamSt.saved (t : StreamSt) : StreamSt := { t.unhold with line := none }

/-- A core at a save: mapped blocks are absent after it (R379). -/
def CoreSt.saved (c : CoreSt) : CoreSt :=
  { c with exe := c.exe.saved, acc := c.acc.saved, acqs := [],
           slots := c.slots.map (fun m => (m.1, { m.2 with present := [], dirty := [] })) }

/-- A backed sample is translated again after a restore (R377). -/
def Sig.saved (g : Sig) : Sig :=
  if g.desc.backed then { g with slots := g.slots.map (fun q => { q with touched := false }) } else g

/-- The pass once its save is complete. -/
def Pass.saved (p : Pass) (st : PassSt) (park : Option Park) (ls : List (Nat × Host.Cell)) (bad : List (Nat × Nat)) : Pass :=
  { p with st := st, cores := p.cores.map CoreSt.saved, sigs := p.sigs.map (fun x => (x.1, x.2.map Sig.saved)),
           sched := 0, deadlines := [], badLines := [], tick := none, boundary := none, late := false, lines := [], preempt := false,
           park := match park with
             | some k => some k
             | none => p.park,
           parkPend := none, lsSave := ls, lsBad := bad }

/-- The wake word of a parked pass is armed at its home and read (R360). -/
def State.armWake (s : State) (pid : Nat) (r : Run) : State :=
  match s.pass? pid with
  | none => s
  | some p =>
    match p.park with
    | none => s
    | some k =>
      let wake (s : State) : State := s.updPass pid (fun q => { q with park := some { k with woken := true, t1on := false, t2on := false, order := none } })
      let w := s.leWordKey 0 r.rcd.asid .wr k.wakeVa
      match w.1 with
      | .error f => wake (w.2.logLe r.rcd.asid r.rid (vaWord r.addr) f)
      | .ok (key, lvl) =>
        let twice := s.passes.any (fun q => q.pid != pid && q.st == .parked && (match q.park with
          | some j => !j.woken && j.wake == key
          | none => false))
        if twice then wake (w.2.report (.doubleArm pid))
        else if leNat (w.2.readFrom .le .s lvl ((List.range 8).map (fun i => key + i))) != 0 then wake w.2
        else w.2.updPass pid (fun q => { q with park := some { k with wake := key } })


/-- The save: write-backs, then the cores are left and the pass waits in its queue, parks, or goes to its target. -/
def State.doSave (s : State) (p : Pass) (r : Run) : State :=
  let a := s.wbMaps p r
  if a.1 then a.2
  else
    let b := a.2.wbSigs p r
    if b.1 then b.2
    else
      let s1 := b.2.quiesce p
      let lim (i : Nat) : Nat := lsLimit r.rcd.sigs i
      let ix := (List.range p.cores.length).filterMap (fun i => (p.cores[i]?).map (fun c => (i, c.lcore)))
      let ls := ix.flatMap (fun x => (s1.lsImage x.2 (lim x.1)).map (fun c => (x.1, c)))
      let bad := ix.flatMap (fun x => (s1.lsBads x.2 (lim x.1)).map (fun k => (x.1, k)))
      let s2 := s1.leave p.pid
      match p.parkPend with
      | some k => (s2.updPass p.pid (fun q => q.saved .parked (some { k with since := s.cycle }) ls bad)).armWake p.pid r
      | none => s2.updPass p.pid (fun q => q.saved .saved none ls bad)

def execPassSave (pid : Nat) (s : State) : Out3 :=
  match s.pass? pid with
  | none => .next s
  | some p =>
    match s.run? p.rid with
    | none => .next s
    | some r => if s.saveReady p then .next (s.doSave p r) else .next s

/-! ### Finishing (R38) -/

def State.finishReady (s : State) (p : Pass) : Bool :=
  p.st == .resident && p.allExited && p.quiet && !s.faults.any (fun f => f.pid == p.pid)

/-- The run finishes with its last pass: done word, then the hold of a replay (R38, R329). -/
def State.endRun (s : State) (rid : Nat) : State :=
  match s.run? rid with
  | none => s
  | some r =>
    if decide (r.made < r.rcd.total) || s.passes.any (fun p => p.rid == rid && p.st != .finished) then s
    else
      let s1 := s.doneUpdate rid
      let s2 := s1.dropHold r
      s2.updRun rid (fun r => { r with st := .finished, target := none })

/-- A finished pass keeps its signals without their samples: the frames of its KV signals return to their pools should its run
be terminated (R345, notes/assumptions/39.md). -/
def Pass.finished (p : Pass) : Pass :=
  { p with st := .finished, cores := [], writes := [], lease := 0, lsSave := [], lsBad := [], held := [],
           sigs := p.sigs.map (fun x => (x.1, x.2.map (fun g => { g with slots := [], due := false, rest := false }))),
           lines := [], badLines := [], park := none, parkPend := none, tick := none, deadlines := [], boundary := none, late := false }

def execPassFinish (pid : Nat) (s : State) : Out3 :=
  match s.pass? pid with
  | none => .next s
  | some p =>
    match s.run? p.rid with
    | none => .next s
    | some r =>
      if !s.finishReady p then .next s
      else
        let a := s.wbMaps p r
        if a.1 then .next a.2
        else
          let s1 := a.2.leave pid
          let s2 := { s1 with poisonTiles := s1.poisonTiles.filter (fun t => t.1 != pid) }
          .next ((s2.updPass pid Pass.finished).endRun p.rid)

/-! ### Placement and restore (R29, R35, R50, R323 to R325, R393) -/

def newStream (prog : VAddr) : StreamSt :=
  { pc := prog, regs := [], exited := false, pend := [], spill := [], srdseed := 0, tvec := 0, epc := 0, tcause := 0,
    tinfo := 0, loops := [], ldepth := 0, semWait := none, limFrom := none, settle := false, nextTrap := [],
    tickWait := none }

/-- The index registers of a pass (R29). -/
def idxRegs (l : List Nat) : Map Word := (List.range 4).foldl (fun m i => mset 0 m i (w64 (l.getD i 0))) []

/-- A core at the start of a pass (R138). -/
def newCore (prog : VAddr) (idx : List Nat) (lc : Nat) : CoreSt :=
  { lcore := lc, exe := newStream prog, acc := { newStream prog with regs := idxRegs idx }, v := [], k := [], ch := [],
    sems := [], waitNow := [], slstall := 0, replays := 0, semsat := 0, satNow := 0, cmds := [], tiles := [], fq := [], rm := .rne, sbase := 0,
    mgap := 0, cbase := 0, cgap := 0, mlast := none, clast := none, slots := [], armed := [], nots := [], flts := [],
    events := [], evAt := none, crNew := [], attqs := [], ticked := none, acqs := [] }

/-- The signals of a run's table at the start of a pass. -/
def initSigs (ds : List SigDesc) : Map (Option Sig) :=
  (List.range ds.length).filterMap (fun i => (ds[i]?).map (fun d => (i, some (initSig d))))

/-- A lease word with no lease, on a rail. -/
def noLease (rail : BitVec 2) : Word := w64 (rail.toNat * 2 ^ 42)

/-- A new pass on a quire: its lease word is 0 (R131). -/
def newPass (pid : Nat) (r : Run) (pos : Pos) (ctx : AsidCtx) : Pass :=
  let idx := spatialIdx (spatialLevels r.rcd) r.made
  { pid := pid, rid := r.rid, num := r.made, ctx := ctx, st := .resident, pos := pos, qc := r.rcd.qc, qd := r.rcd.qd,
    cores := (posCores pos r.rcd.qc).map (newCore r.rcd.prog idx), now := 0, sched := 0, wd := 0, lease := 0,
    sigs := initSigs r.rcd.sigs, writes := [], deadlines := [], badLines := [], tick := none, boundary := none, late := false, lines := [],
    preempt := false, yield := false, after := [], migr := 0, phoavo := none, dest := none, park := none, parkPend := none,
    lsSave := [], held := [], ended := false, exhausted := false }


/-- The headroom of a rail: what it has in this cycle, less what has been granted of it in the cycle (R392). -/
def State.headroom (s : State) (rail : BitVec 2) : Nat × Nat :=
  let g := s.capo.filter (fun a => a.1 == rail.toNat)
  ((Config.headroomI rail.toNat s.cycle).toNat - (g.map (fun a => a.2.2.1)).sum,
   (Config.headroomJ rail.toNat s.cycle).toNat - (g.map (fun a => a.2.2.2)).sum)

/-- A lease of ticks at figures, granted in full, at the headroom, or not at all (R392, R393). -/
def State.grant (s : State) (rail : BitVec 2) (ln li lj : Nat) : Option Word :=
  let h := s.headroom rail
  if li ≤ h.1 && lj ≤ h.2 then some (leaseWord ln rail 1 li lj)
  else if 0 < h.1 && 0 < h.2 then some (leaseWord ln rail 2 h.1 h.2)
  else none

/-- A lease is held against the headroom for the rest of the cycle. -/
def State.booked (s : State) (lc : Nat) (w : Word) : State :=
  { s with capo := s.capo ++ [(fld w 43 42, lc, fld w 31 16, fld w 15 0)] }

/-- A saved lease checked against the rail of the pass's new quire (R393). -/
def State.checkLease (s : State) (w : Word) (rail : BitVec 2) : Word :=
  if fld w 41 40 = 0 then noLease rail
  else (s.grant rail (fld w 63 48) (fld w 31 16) (fld w 15 0)).getD (noLease rail)


/-- Messages held for a pass reach their channels in order, as far as there is room (R403). -/
def deliverHeld : List (Nat × Nat × Word) → Pass → Pass
  | [], p => p
  | (i, ch, v) :: r, p =>
    match p.cores[i]? with
    | none => deliverHeld r p
    | some c =>
      if p.held.any (fun h => h.1 == i && h.2.1 == ch) || decide (16 ≤ (mget [] c.ch ch).length) then
        deliverHeld r { p with held := p.held ++ [(i, ch, v)] }
      else deliverHeld r (p.updCore i (fun c => chPush c ch { id := 0, ty := .data, val := some v }))

def Pass.takeHeld (p : Pass) : Pass := deliverHeld p.held { p with held := [] }

/-- A saved pass on its new quire (R50). -/
def Pass.restored (p : Pass) (pos : Pos) (lease : Word) (ctx : AsidCtx) : Pass :=
  ({ p with st := .resident, pos := pos, ctx := ctx, dest := none, lease := lease, sched := 0, wd := 0, boundary := none, after := [],
            lsSave := [], lsBad := [], granted := none, shed := false,
            cores := (p.cores.zip (posCores pos p.qc)).map (fun x => { x.1 with lcore := x.2, satNow := 0, waitNow := [] }) } : Pass).takeHeld

/-- The saved line-store bytes come back (R139). -/
def State.loadLs (s : State) (p : Pass) (pos : Pos) : State :=
  let lcs := posCores pos p.qc
  let key (x : Nat × Nat) : Nat := lsKey (lcs.getD x.1 0) x.2
  { s with mem := memCells s.mem (p.lsSave.map (fun x => (key (x.1, x.2.1), x.2.2))),
           poison := s.poison ++ p.lsBad.map key }

/-- Entries of the remap table that lead to a core lead on to another. -/
def remapOn (m : Map (Nat × Nat)) (old new : Nat) : Map (Nat × Nat) :=
  m.map (fun e => if e.2.1 = old then (e.1, (new, e.2.2)) else e)

/-- Requests for the old cores of a migrated pass follow it, where some from before the migration have not been delivered
(R340). -/
def State.setRemap (s : State) (p : Pass) (pos : Pos) : State :=
  match p.dest with
  | none => s
  | some _ =>
    { s with remap := (p.cores.zip (posCores pos p.qc)).foldl (fun m x =>
        if x.1.lcore = x.2 then m
        else
          let m := remapOn m x.1.lcore x.2
          if s.msgs.any (fun y => y.lcore == x.1.lcore) then mset (64, 0) m x.1.lcore (x.2, s.nextId) else m) s.remap }

/-- Gated cores of a quire wake (R395). -/
def State.wakeCores (s : State) (lcs : List Nat) : State :=
  { s with gated := s.gated.filter (fun u => match u with
      | .core lc => !lcs.contains lc
      | _ => true) }

/-- What a placement changes in the queues: the run's priority and ageing restart, and passes that yielded to it go on
(R324, R337). -/
def State.placed (s : State) (rid : Nat) : State :=
  { s.updRun rid (fun r => { r with eff := r.rcd.prio, aged := s.cycle, target := none }) with
    passes := s.passes.map (fun p => { p with after := p.after.filter (fun x => x != rid) }) }

/-- A new pass is created and placed. -/
def State.create (s : State) (r : Run) (pos : Pos) : State :=
  let lcs := posCores pos r.rcd.qc
  let p := newPass s.nextId r pos (s.asidCtx r.rcd.asid)
  let s1 := { s with passes := s.passes ++ [p], nextId := s.nextId + 1 }
  ((s1.updRun r.rid (fun r => { r with made := r.made + 1 })).placed r.rid).wakeCores lcs

/-- A saved pass is restored. -/
def State.restore (s : State) (p : Pass) (pos : Pos) : State :=
  let lcs := posCores pos p.qc
  let lease := s.checkLease p.fullLease (railOf s (lcs.headD 0))
  let ctx := match s.run? p.rid with
    | some r => s.asidCtx r.rcd.asid
    | none => p.ctx
  let s1 := (s.loadLs p pos).setRemap p pos
  let s2 := (s1.updPass p.pid (fun q => s.throttled (q.restored pos lease ctx))).booked 0 lease
  (s2.placed p.rid).wakeCores lcs


/-- Every core of a reserved target still serves, those of a die that is leaving service and of an exchange among them: they
wait for the pass (R13, R339, R410). -/
def State.destUp (s : State) (p : Pass) (d : Pos) : Bool :=
  (posCores d p.qc).all (fun lc => s.dies.getLsbD (dieOf lc) && !s.outCores.contains lc)

/-- A core of a reserved target has failed or left service for good: no spare can replace it (R13). -/
def State.destLost (s : State) (p : Pass) (d : Pos) : Bool :=
  (posCores d p.qc).any (fun lc => !s.dies.getLsbD (dieOf lc) || (s.outCores.contains lc && s.spared.contains (dieOf lc)))

/-- A saved pass that goes to its reserved target, or that has lost it; one whose target waits for a spare stays (R13, R339). -/
def State.migrating (s : State) : Option (Pass × Pos) :=
  s.passes.findSome? (fun p => match p.dest with
    | some d => if p.st == .saved && (s.destUp p d || s.destLost p d) then some (p, d) else none
    | none => none)

/-- A run's next placement: the saved pass or none, and the quire. -/
def State.placement (s : State) (r : Run) : Option (Option Pass × Pos) :=
  if !s.mayPlace r.rcd.powc then none
  else
    match s.nextPass r with
    | none => none
    | some (num, p) => (s.findQuire r num 0xFF).map (fun d => (p, d))

/-- A pass that pre-emption for power has saved goes back (R399). -/
def State.placeBack (s : State) (p : Pass) : Option (Run × Option Pass × Pos) :=
  match s.run? p.rid with
  | some r => if s.mayPlace r.rcd.powc then (s.findQuire r p.num 0xFF).map (fun d => (r, some p, d)) else none
  | none => none

/-- The next placement: passes saved for power in the reverse of that order, then the queues (R323, R399;
notes/assumptions/54.md). -/
def State.nextPlace (s : State) : Option (Run × Option Pass × Pos) :=
  (s.shedBack.findSome? s.placeBack).orElse (fun _ =>
    s.queue.findSome? (fun r => (s.placement r).map (fun x => (r, x.1, x.2))))

/-- A migrating pass goes to its target; one whose target can no longer serve joins its queue. -/
def execPassPlace (s : State) : Out3 :=
  match s.migrating with
  | some (p, d) =>
    if s.destUp p d then .next (s.restore p d)
    else .next ((s.updPass p.pid (fun q => { q with dest := none })).railFree (posCores d p.qc))
  | none =>
    match s.nextPlace with
    | none => .next s
    | some (r, none, d) => .next (s.create r d)
    | some (_, some p, d) => .next (s.restore p d)

/-! ### Ageing, pre-emption and migration requests (R324, R336, R339) -/

/-- The ageing period in cycles. -/
def State.agePeriod (s : State) : Nat := s.mg.ageper.toNat * 270000

def State.ageDue (s : State) (r : Run) : Bool := s.pending r && r.target.isNone && decide (r.aged + s.agePeriod ≤ s.cycle)

/-- The target of a run's next pass: the saved pass that it restores, or the new one (R30, R323). -/
def State.targetOf (s : State) (r : Run) : Option Pos := (s.nextPass r).bind (fun x => s.findTarget r x.1)

/-- An older run has become blocking and chooses its target first (R323). -/
def State.olderBlocks (s : State) (r : Run) : Bool :=
  s.runs.any (fun q => q.rid != r.rid && decide (7 ≤ q.eff) && s.ageDue q && decide (q.stamp < r.stamp) &&
    (s.targetOf q).isSome)

def execAgeingPeriodExpiry (rid : Nat) (s : State) : Out3 :=
  match s.run? rid with
  | none => .next s
  | some r =>
    if !s.ageDue r then .next s
    else if r.eff < 7 then .next (s.updRun rid (fun r => { r with eff := r.eff + 1, aged := s.cycle }))
    else if s.olderBlocks r then .next s
    else
      match s.targetOf r with
      | none => .next s
      | some d => .next (s.updRun rid (fun q => { q with target := some d, aged := s.cycle }))

/-- A request asked for is made, and one no longer needed is withdrawn. -/
def execPreemptionRequest (s : State) : Out3 :=
  let w := s.wanted
  .next { s with passes := s.passes.map (fun p =>
    if p.st == .resident then { p with preempt := w.contains p.pid } else p) }

def execPhoavoMigrationRequest (pid : Nat) (dies : BitVec 8) (s : State) : Out3 :=
  .next (s.updPass pid (fun p => if p.st == .resident then { p with phoavo := if dies = 0 then none else some dies } else p))

/-! ### Deadlines and the tick watchdog (R46, R338) -/

/-- A command of a passed deadline is not complete. -/
def Pass.overdue (p : Pass) (cycle : Nat) (d : Deadline) : Bool :=
  decide (d.at_ ≤ cycle) && (match p.cores[d.qc]? with
    | some c => c.cmds.any (fun k => k.ivl == d.ivl)
    | none => false)

def execSlackDeadlineExpiry (pid : Nat) (s : State) : Out3 :=
  match s.pass? pid with
  | none => .next s
  | some p =>
    if p.st == .resident && p.deadlines.any (p.overdue s.cycle) then .next (s.updPass pid (fun p => { p with late := true }))
    else .next s

/-- The stream is to take the watchdog's trap (R338). -/
def StreamSt.watched (t : StreamSt) : Bool :=
  t.nextTrap.any (fun x => match x with
    | .watchdog _ => true
    | _ => false)

/-- The count of the watchdog has reached the budget, and no stream has the trap of an earlier expiry before it: the count
restarts when the handlers are entered (R338). -/
def State.watchDue (s : State) (p : Pass) : Bool :=
  p.st == .resident && !p.cores.any (fun c => c.exe.watched || c.acc.watched) && (match s.run? p.rid with
    | some r => decide (r.rcd.budget ≤ p.wd)
    | none => false)

def StreamSt.watch (t : StreamSt) (b : Nat) : StreamSt :=
  if t.exited || t.watched then t else { t with nextTrap := t.nextTrap ++ [.watchdog b] }

def execTickWatchdogExpiry (pid : Nat) (s : State) : Out3 :=
  match s.pass? pid with
  | none => .next s
  | some p =>
    match s.run? p.rid with
    | none => .next s
    | some r =>
      if !s.watchDue p then .next s
      else if p.allExited then
        .next (s.terminate p.rid 0x1F (match p.cores[0]? with
          | some c => c.lcore
          | none => 0) 0 (w64 r.rcd.budget))
      else .next (s.updPass pid (fun p => { p with cores := p.cores.map (fun c =>
        { c with exe := c.exe.watch r.rcd.budget, acc := c.acc.watch r.rcd.budget }) }))

/-! ### Core exchange and machine checks (R13, R388) -/

/-- The one spare core of a die takes the place and the number of a core (R11, R13): of a healthy one at once when it is free,
and at a boundary of its pass when it is not. A core that has failed is out of service, its run terminated, until the spare
replaces it; a core whose exchange waits when it fails is replaced then. With the spare in use a healthy core stays, and a failed
one is out of service for good. -/
def execSpareCoreExchange (lc : Nat) (healthy : Bool) (s : State) : Out3 :=
  let d := dieOf lc
  let spare := !s.spared.contains d
  if 64 ≤ lc then .next s
  else if s.outCores.contains lc then
    .next (if spare then { s with spared := s.spared ++ [d], outCores := s.outCores.erase lc } else s)
  else
    match s.holder lc, healthy with
    | some _, true => .next (if spare then { s with spared := s.spared ++ [d], sparing := s.sparing ++ [lc] } else s)
    | none, true => .next (if spare then { s with spared := s.spared ++ [d] } else s)
    | h, false =>
      let s1 := match h with
        | some (p, _) => s.terminate p.rid 0x20 lc 0 0
        | none => s
      .next (if s.sparing.contains lc then s1 else { s1 with outCores := s1.outCores ++ [lc] })

def execMachineCheck (pid : Nat) (s : State) : Out3 :=
  match s.pass? pid with
  | none => .next s
  | some p =>
    match p.mchk with
    | none => .next s
    | some (lc, en) => .next (s.terminate p.rid 0x20 lc en 0)

/-! ### Runs deferred at the limit (R322) -/

/-- The unit number that marks a submission of the host. -/
def hostUnit : Nat := 8

/-- The status word of a submission (R405). -/
def subStat (code reason : Nat) : Word := w64 (reason * 256 + code)

def State.setStat (s : State) (w : Word) : State := { s with mg := { s.mg with substat := w } }

/-- A submission of the host is accepted: its record is read and checked now (R26, R27, R405). -/
def State.submit (s : State) (asid : BitVec 16) (addr : VAddr) : State :=
  if (s.asidCtx asid).ast != 1 then s.setStat (subStat 2 2)
  else
    let r := s.readRec 0 asid addr
    match r.1 with
    | .page _ => r.2.setStat (subStat 2 3)
    | .refuse n => r.2.setStat (subStat 2 n)
    | .ok rcd => (r.2.acceptRun addr rcd none).setStat (subStat 0 0)

/-- The host's submissions held until now are no longer the last one, whose status the window shows (R406). -/
def State.staleHeld (s : State) : State :=
  { s with runs := s.runs.map (fun r =>
      if r.st == .deferred && r.from_.2.1 == hostUnit then { r with from_ := (r.from_.1, hostUnit, 1) } else r) }

/-- The oldest deferred run is accepted when there is room: its record is read and checked at that moment (R26, R322). -/
def execRunDeferredAccept (rid : Nat) (s : State) : Out3 :=
  match s.runs.find? (fun r => r.st == .deferred) with
  | none => .next s
  | some r =>
    if r.rid != rid || decide (65536 ≤ s.runCount) then .next s
    else
      let s1 := { s with runs := s.runs.filter (fun q => q.rid != rid) }
      if r.from_.2.1 = hostUnit then
        let t := s1.submit r.rcd.asid r.addr
        .next (if r.from_.2.2 = 0 then t else t.setStat s.mg.substat)
      else .next (s1.startNow r.from_ r.rcd.asid r.addr)

end Sys2Proof.Machine
end

