-- ==== Sys2Proof/Machine/Service.lean ====
section
/-! DEFINITION. Events of power, the grid, the fabric, the host and bring-up, and the management window
(spec/24_translation_and_faults.md R369, R370, R388 to R390, spec/25_power_fabric_host.md R391 to R410,
spec/04_ordering_machine.md R76). -/

namespace Sys2Proof.Machine

/-! ### Leases (R391 to R394) -/

/-- What the capo grants a request on a rail that does not return the lease. -/
def State.leaseGrant (s : State) (rail : BitVec 2) (req : Word) : Option Word :=
  if fld req 63 48 = 0 then none else s.grant rail (fld req 63 48) (fld req 31 16) (fld req 15 0)

/-- The lease after a request is answered (R392). -/
def State.answerLease (s : State) (rail : BitVec 2) (cur req : Word) : Word :=
  if fld req 63 48 = 0 then noLease rail else (s.leaseGrant rail req).getD cur


/-- The pass holds a new lease, shown as a step that acts on it leaves it (R393, R399). -/
def State.setLease (s : State) (pid : Nat) (w : Word) : State :=
  s.updPass pid (fun p => s.throttled { p with lease := w, granted := none })

/-- The request word of a pending lease, or of an mlease that has left its queue. -/
def State.leaseReq (s : State) (pid qc n : Nat) : Option (Word × Option Stream) :=
  match s.core? pid qc with
  | none => none
  | some c =>
    let find (t : StreamSt) : Option Pend := t.pend.find? (fun p => p.req == .lease && p.seq == n)
    match find c.exe, find c.acc, c.cmds.find? (fun k => k.id == n) with
    | some p, _, _ => some (p.arg, some .exe)
    | none, some p, _ => some (p.arg, some .acc)
    | none, none, some k =>
      (match k.ins with
       | .mlease _ _ _ => if k.st == .departed then some (wordAt k.ops 0, none) else none
       | _ => none)
    | none, none, none => none

/-- The answer reaches its word, or completes its command. -/
def State.giveLease (s : State) (pid qc n : Nat) (tgt : Option Stream) (w : Word) : State :=
  match tgt with
  | some st => s.updStream pid qc st (fun t => { t with pend := t.pend.map (fun p =>
      if p.req == .lease && p.seq == n then { p with outs := fillOuts p.outs [.w w], req := .none } else p) })
  | none =>
    (match s.cmd? pid qc n with
     | some k => s.endCmd pid qc k
     | none => s)

/-- A request that reaches the capo is answered; those of one cycle on one rail in increasing order of their cores. -/
def execCapoLeaseAnswer (pid qc n : Nat) (s : State) : Out3 :=
  match s.pass? pid, s.leaseReq pid qc n with
  | some p, some (req, tgt) =>
    let lc := match p.cores[qc]? with
      | some c => c.lcore
      | none => 0
    let rail := railOf s lc
    if p.st != .resident || s.capo.any (fun a => a.1 == rail.toNat && decide (lc < a.2.1)) then .next s
    else
      let w := s.answerLease rail p.fullLease req
      let s1 := s.booked lc ((s.leaseGrant rail req).getD (noLease rail))
      .next ((s1.setLease pid w).giveLease pid qc n tgt (s.throttled { p with lease := w, granted := none }).lease)
  | _, _ => .next s

def execLeaseEnergyExhausted (pid : Nat) (s : State) : Out3 :=
  .next (s.updPass pid (fun p => if p.st == .resident && fld p.lease 41 40 != 0 then { p with exhausted := true } else p))

/-! ### Gating (R395) -/

/-- A core that holds a pass is not gated. -/
def State.mayGate (s : State) (u : PowerUnit) : Bool :=
  !s.gated.contains u && (match u with
    | .core lc => (s.holder lc).isNone
    | _ => true)

def execUnitPowerGate (u : PowerUnit) (s : State) : Out3 := .next (if s.mayGate u then { s with gated := s.gated ++ [u] } else s)

def execUnitPowerWake (u : PowerUnit) (s : State) : Out3 := .next { s with gated := s.gated.filter (fun v => v != u) }

/-! ### Fabric messages (R402, R403, R340, R389, R390) -/

/-- The channel of a receive number: q12 to q15, then n32 to n47. -/
def rchIdx (r : Nat) : Nat := if r < 4 then 12 + r else 44 + r

/-- The core that a message goes to, through the remap table (R340). -/
def State.target (s : State) (m : Msg) : Nat :=
  let e := mget (64, 0) s.remap m.lcore
  if e.1 = 64 then m.lcore else e.1

def State.asidOf (s : State) (p : Pass) : BitVec 16 :=
  match s.run? p.rid with
  | some r => r.rcd.asid
  | none => 0

/-- What delivery of a message finds: room in the receive channel, a channel that is full, a pass being saved or saved
that holds the message, or no pass. -/
inductive MsgTo
  | chan (pid qc : Nat)
  | full
  | keep (pid qc : Nat)
  | absent
  deriving DecidableEq, Repr

def State.findTo (s : State) (m : Msg) : MsgTo :=
  let lc := s.target m
  match (s.holder lc).filter (fun x => s.asidOf x.1 == m.asid) with
  | some (p, i) =>
    if p.held.any (fun h => h.1 == i && h.2.1 == rchIdx m.rch) then .full
    else
      (match p.cores[i]? with
       | some c => if (mget [] c.ch (rchIdx m.rch)).length < 16 then .chan p.pid i else .full
       | none => .absent)
  | none =>
    match s.passes.find? (fun p => (p.st == .saved || p.st == .parked) && s.asidOf p == m.asid &&
        p.cores.any (fun c => c.lcore == lc)) with
    | some p => .keep p.pid ((p.cores.findIdx? (fun c => c.lcore == lc)).getD 0)
    | none => .absent

/-- A message before it from the same sender channel, of which another module shows the target only, is still on its way
(R402). -/
def State.msgBehind (s : State) (m : Msg) : Bool :=
  s.msgs.any (fun x => decide (x.id < m.id) && x.from_ == m.from_ &&
    (m.from_.isSome || (x.asid == m.asid && x.lcore == m.lcore && x.rch == m.rch)))

/-- The message leaves those on their way; the entry of the remap table goes once every request from before the migration
has been delivered (R340). -/
def State.dropMsg (s : State) (m : Msg) : State :=
  let rest := s.msgs.filter (fun x => x.id != m.id)
  let e := mget (64, 0) s.remap m.lcore
  { s with msgs := rest,
           remap := if rest.any (fun x => x.lcore == m.lcore && decide (x.id < e.2)) then s.remap
             else mset (64, 0) s.remap m.lcore (64, 0) }

/-- One attempt to deliver a message. A target that holds a pass ends a refusal, also where its channel is full (R390). -/
def State.tryMsg (s : State) (m : Msg) : State :=
  if s.msgBehind m then s
  else
    match s.findTo m with
    | .chan pid qc =>
      (s.dropMsg m).updCore pid qc (fun c => chPush c (rchIdx m.rch) { id := 0, ty := .data, val := some m.val })
    | .keep pid qc => (s.dropMsg m).updPass pid (fun p => { p with held := p.held ++ [(qc, rchIdx m.rch, m.val)] })
    | .full => { s with msgs := s.msgs.map (fun x => if x.id == m.id then { x with since := none } else x) }
    | .absent =>
      { s with msgs := s.msgs.map (fun x => if x.id == m.id then
          { x with since := some (x.since.getD s.cycle), last := s.cycle } else x) }

/-- A message for a core of this module sets out. -/
def State.postMsg (s : State) (asid : BitVec 16) (lc rch : Nat) (v : Word) (from_ : Option (Nat × Nat × Nat)) : State :=
  let m : Msg := { id := s.nextId, asid := asid, lcore := lc, rch := rch, val := v, since := none, last := s.cycle, from_ := from_ }
  ({ s with msgs := s.msgs ++ [m], nextId := s.nextId + 1 } : State).tryMsg m

/-- The oldest entry of a send channel goes to the target of its binding. -/
def State.sendMsg (s : State) (p : Pass) (qc ch : Nat) (v : Word) : State :=
  let asid := s.asidOf p
  let b := mget 0 s.binds (asid.toNat * 32 + ch)
  if !b.getLsbD 0 then s
  else
    let s1 := s.updCore p.pid qc (fun c => { c with ch := mset [] c.ch (16 + ch) (mget [] c.ch (16 + ch)).tail })
    if fld b 63 43 = Config.moduleId.toNat then
      s1.postMsg asid (fld b 42 37) (fld b 36 32) v (some (p.pid, qc, ch))
    else { s1 with sent := s1.sent ++ [{ module := BitVec.ofNat 21 (fld b 63 43), lcore := fld b 42 37, rch := fld b 36 32,
                                         asid := asid, val := v }] }

def execFabricMessageDelivery (m : FabricMsg) (s : State) : Out3 :=
  match m with
  | .send pid qc ch =>
    (match s.pass? pid with
     | some p =>
       (match p.cores[qc]? with
        | some c =>
          (match (mget [] c.ch (16 + ch)).head?.bind (fun e => e.val) with
           | some v => .next (if decide (ch < 32) && p.st == .resident then s.sendMsg p qc ch v else s)
           | none => .next s)
        | none => .next s)
     | none => .next s)
  | .receive asid lc rch v => .next (if decide (lc < 64) && decide (rch < 20) then s.postMsg asid lc rch v none else s)

/-- A refused request is repeated after 1 µs (R389). -/
def Msg.retryDue (m : Msg) (cycle : Nat) : Bool := m.since.isSome && decide (m.last + Config.cyclesPerUs ≤ cycle)

def execRefusedRequestRetry (n : Nat) (s : State) : Out3 :=
  match s.msgs.find? (fun m => m.id == n) with
  | none => .next s
  | some m => if m.retryDue s.cycle then .next (s.tryMsg m) else .next s

/-- A request still refused 1 ms after its first refusal is given up (R390). -/
def Msg.absentDue (m : Msg) (cycle : Nat) : Bool :=
  match m.since with
  | some c => decide (c + 1000 * Config.cyclesPerUs ≤ cycle)
  | none => false

def execTargetAbsentExpiry (n : Nat) (s : State) : Out3 :=
  match s.msgs.find? (fun m => m.id == n) with
  | none => .next s
  | some m =>
    if !m.absentDue s.cycle || s.findTo m != .absent then .next s
    else
      let s1 := s.dropMsg m
      match m.from_ with
      | some (pid, qc, _) =>
        .next (s1.logEngine pid qc 0 0x21 (w64 (Config.moduleId.toNat * 2 ^ 32 + m.lcore * 2 ^ 24)))
      | none => .next s1

/-! ### Requests lost with a module (R404) -/

/-- A location on a module: region 4 names the modules of this module's domain (R18, R368). -/
def onModule (m : BitVec 21) (k : Nat) : Bool :=
  k / 2 ^ 52 == 4 && k / 2 ^ 44 % 256 == m.toNat % 256 && m.toNat / 256 == Config.moduleId.toNat / 256

def Entry.onMod (e : Entry) (m : BitVec 21) : Bool := e.wr.cells.any (fun c => onModule m c.1)

/-- A load with a part that a module has not answered. -/
def Pend.lostOn (p : Pend) (m : BitVec 21) : Bool := (loadParts p).any (fun r => r.got.isNone && r.keys.any (onModule m))

/-- A result lands zero. -/
def Pend.zeroed (p : Pend) : Pend := { p with outs := p.outs.map (fun o => { o with val := some (.w 0) }), req := .none }

/-- The module to which a queue step goes, when its handle names a queue (R292). -/
def State.queueHome (s : State) (ag : Agent) (asid : BitVec 16) (lvl : Nat) (h : Word) : Option Nat :=
  match (s.handleSlot ag asid lvl h).1 with
  | some (_, w0, w1) =>
    if fld w0 63 57 = 0 && fld w1 49 21 = 0 && fld w1 51 50 = 1 then some (fld w1 20 0) else none
  | none => none

/-- An entry whose request goes to a module: by its locations, or by the handle of its queue (R297). -/
def State.goesTo (s : State) (ag : Agent) (m : BitVec 21) (e : Entry) : Bool :=
  let q : Bool := s.queueHome ag (BitVec.ofNat 16 e.hist) (s.scopeLvl ag e.scope) (w64 e.key) == some m.toNat
  match e.act with
  | .enq _ => q
  | .deq => q
  | _ => e.onMod m

/-- The requests of a core's access stream that are lost: loads, and entries that its words wait for or not. -/
def State.lostOf (s : State) (c : CoreSt) (m : BitVec 21) : List Pend × List Entry :=
  let es := (bufOf s.bufs (.core c.lcore) .s).filter (s.goesTo (.core c.lcore) m)
  (c.acc.pend.filter (fun p => p.lostOn m || (p.req == .entry && es.any (fun e => e.seq == p.seq))), es)

/-- The number of lost requests of a stream: loads, and every entry once. -/
def lostCount (l : List Pend × List Entry) : Nat := (l.1.filter (fun p => p.req != .entry)).length + l.2.length

/-- An enqw or deqw of the core that has attempted its step repeats it on a queue whose home is the module. -/
def State.queueOn (s : State) (pid qc : Nat) (m : BitVec 21) : Bool :=
  match s.pass? pid, s.core? pid qc with
  | some p, some c =>
    (match c.acc.limFrom with
     | some l =>
       l.tried && s.queueHome (.core c.lcore) (s.asidOf p) 5 (w64 (fld l.info 63 32)) == some m.toNat
     | none => false)
  | _, _ => false

/-- A held word of a stream waits on a word or a queue of the module. -/
def State.waitsOn (s : State) (pid qc : Nat) (m : BitVec 21) : Bool :=
  s.waiters.any (fun x => x.w == .core pid qc && onModule m x.key) || s.queueOn pid qc m

/-- The losses of a stream that no trap has reported yet: a module and their number. -/
def StreamSt.losses (t : StreamSt) : Option (BitVec 21 × Nat) :=
  t.nextTrap.findSome? (fun x => match x with
    | .linkLost k n => some (k, n)
    | _ => none)

/-- One trap for all the losses since the last one. -/
def StreamSt.lose (t : StreamSt) (m : BitVec 21) (n : Nat) : StreamSt :=
  { t with nextTrap := (t.nextTrap.filter (fun x => match x with
      | .linkLost _ _ => false
      | _ => true)) ++ [.linkLost m n] }

/-- The stream meets its losses: one trap on its next word, which counts those of every module since the last trap, or a log
record once it has exited (R404). Which of several modules it names is free (notes/assumptions/36.md). -/
def State.linkLost (s : State) (pid qc : Nat) (m : BitVec 21) (n : Nat) : State :=
  match s.core? pid qc with
  | none => s
  | some c =>
    if n = 0 then s
    else if c.acc.exited then s.logEngine pid qc 0 0x23 (w64 (m.toNat * 2 ^ 32))
    else
      match c.acc.losses with
      | none => s.updStream pid qc .acc (fun t => t.lose m n)
      | some (k, j) =>
        let d := s.draw 2
        d.2.updStream pid qc .acc (fun t => t.lose (if d.1 = 0 then m else k) (j + n))

/-- Copy commands with a write that the module loses end with an engine fault; no other engine's command reaches a module
(R387, R404). -/
def State.lostCmds (s : State) (pid qc : Nat) (c : CoreSt) (m : BitVec 21) : State :=
  let lost := (bufOf s.bufs (.core c.lcore) .c).filter (fun e => e.onMod m)
  (c.cmds.filter (fun k => k.eng == .copy && lost.any (fun e => e.key == k.id))).foldl (fun s k =>
    s.cmdFault pid qc k.id 0x23 (w64 (m.toNat * 2 ^ 32))) s

/-- What one core of a resident pass loses. -/
def State.lostCore (s : State) (pid qc : Nat) (m : BitVec 21) : State :=
  match s.core? pid qc with
  | none => s
  | some c =>
    let l := s.lostOf c m
    let w := if s.waitsOn pid qc m then 1 else 0
    let s1 := s.lostCmds pid qc c m
    let ag := Agent.core c.lcore
    let s2 := allClasses.foldl (fun s cl =>
      let es := (bufOf s.bufs ag cl).filter (fun e => !s.goesTo ag m e)
      { s with bufs := setBuf s.bufs ag cl es }) s1
    let s3 := l.1.foldl (fun s p => s.landNow pid qc .acc p.zeroed) s2
    s3.linkLost pid qc m (lostCount l + w)

def execModuleReset (m : BitVec 21) (s : State) : Out3 :=
  .next ((s.passes.filter (fun p => p.st == .resident)).foldl (fun s p =>
    (List.range p.cores.length).foldl (fun s i => s.lostCore p.pid i m) s) s)

/-! ### The power limit (R397 to R399) -/

def execRaloreInputChange (step : Bool) (s : State) : Out3 :=
  .next (({ s with mg := { s.mg with step := step } } : State).limitFrom s)

def State.raloreAnswer (s : State) (sq : BitVec 32) (st : BitVec 16) : State :=
  s.report (.ralore { sq := sq, status := st, draw := BitVec.ofNat 16 s.drawNow })

/-- The limit that a message sets: 0 clears the grid limit, and less than 200 W is taken as 200 W (R397). -/
def msgLimit (limw : BitVec 16) : Nat := if limw = 0 then 1700 else floor200 limw.toNat

/-- The sequence number is newer than the last accepted one (R397). -/
def seqNewer (sq last : BitVec 32) : Bool := decide (1 ≤ (sq - last).toNat) && decide ((sq - last).toNat < 2 ^ 31)

/-- A message that is stale or refused is answered at once; one that is accepted waits for its answer, of `raloreLimitMet`. -/
def execRaloreMessage (sq : BitVec 32) (limw rsv : BitVec 16) (s : State) : Out3 :=
  if rsv != 0 then .next (s.raloreAnswer sq 3)
  else if s.mg.ralOk && !seqNewer sq s.mg.ralSeq then .next (s.raloreAnswer sq 2)
  else
    .next (({ s with mg := { s.mg with gridLim := limw, ralSeq := sq, ralOk := true,
                                       ralWait := some (sq, msgLimit limw, false) } } : State).limitFrom s)

/-- The accepted message is answered once its limit is met; below 300 W it is answered with status 1 first where every step
of the throttle order stands at its floor and the draw is still above the limit (R398, R399). -/
def execRaloreLimitMet (s : State) : Out3 :=
  match s.mg.ralWait with
  | some (sq, limit, told) =>
    if s.limitMet limit then .next (({ s with mg := { s.mg with ralWait := none } } : State).raloreAnswer sq 0)
    else if limit < 300 && s.mg.level == topLevel && !told then
      .next (({ s with mg := { s.mg with ralWait := some (sq, limit, true) } } : State).raloreAnswer sq 1)
    else .next s
  | none => .next s

/-! ### Power fail (R400) -/

/-- The resident runs in the order of their images. -/
def State.imageOrder (s : State) : List Run :=
  (s.runs.filter (fun r => s.passes.any (fun p => p.rid == r.rid && p.st == .resident))).foldr insRun []


/-- The control state of a core that an image holds (R400). -/
def CoreSt.image (c : CoreSt) : CoreImg :=
  { exe := c.exe.regs, acc := c.acc.regs, v := c.v, k := c.k, ch := c.ch, sems := c.sems,
    exeLoops := (c.exe.loops, c.exe.ldepth), accLoops := (c.acc.loops, c.acc.ldepth) }

/-- The bytes of a sample in an image: those of its slot, or of its backing slot where they still lie there (R205). -/
def State.imageRow (s : State) (p : Pass) (g : Sig) (n : Nat) : List Byte :=
  let lc := match p.cores.head? with
    | some c => c.lcore
    | none => 0
  match g.slot? n with
  | some q =>
    if q.back then
      (match (s.backKeys p.ctx lc s.seq (s.asidOf p) g.desc n .rd).1 with
       | .ok ps => s.readKeys (.core lc) .c (partKeys ps)
       | .error _ => (slotRow g n).bytes)
    else (slotRow g n).bytes
  | none => (slotRow g n).bytes

/-- The entry and the folio of a kept signal, newest sample first; where the image puts the folio of a signal that is not
backed is free (R184, R400; notes/assumptions/36.md). -/
def State.sigImage (s : State) (p : Pass) (n : Nat) (g : Sig) : SigImg :=
  let e := g.emptyHead
  let win := (List.range ((g.n + 1).toNat - e - g.o)).map (fun i => g.o + i)
  let at_ := if g.desc.backed then g.desc.base else va57 (Config.unstated 7 (w64 p.pid) (w64 n))
  { num := n, entry := saveEntry g e at_, folio := win.reverse.flatMap (s.imageRow p g) }

/-- The images of a run's resident passes: their control state, or the kept signals (R400). -/
def State.imagesOf (s : State) (sigs : Bool) (r : Run) : List Image :=
  (s.passes.filter (fun p => p.rid == r.rid && p.st == .resident)).flatMap (fun p =>
    if !sigs then [.control r.addr p.num p.now (p.cores.map CoreSt.image)]
    else p.sigs.filterMap (fun x => match x.2 with
      | some g => if g.desc.keep then some (.signal r.addr p.num (s.sigImage p x.1 g)) else none
      | none => none))

/-- Every image in the order in which it is written (R400). -/
def State.allImages (s : State) (rs : List Run) : List Image :=
  rs.flatMap (s.imagesOf false) ++ rs.flatMap (s.imagesOf true)

/-- The bytes of an image in flash: of a signal its entry and its folio. -/
def Image.size : Image → Nat
  | .control _ _ _ cores => Config.controlBytes cores.length
  | .signal _ _ g => 8 * g.entry.length + g.folio.length

/-- The images that a budget holds, written in order until one does not fit; the rest is lost (R400; DESIGN CHOICE,
notes/assumptions/36.md). -/
def fitImages (left : Nat) : List Image → List Image
  | [] => []
  | i :: is => if i.size ≤ left then i :: fitImages (left - i.size) is else []

/-- The entry of an image in the directory: its run record, its pass, its signal if it holds one, and whether it was
written. -/
def Image.entry (kept : Bool) : Image → VAddr × Nat × Option Nat × Bool
  | .control run num _ _ => (run, num, none, kept)
  | .signal run num g => (run, num, some g.num, kept)

/-- The directory: the images written, then those that are lost. -/
def imageDir (all : List Image) (n : Nat) : List (VAddr × Nat × Option Nat × Bool) :=
  (all.take n).map (Image.entry true) ++ (all.drop n).map (Image.entry false)

/-- Resident passes stop: commands are discarded, and writes in the path buffers drain and propagate. -/
def State.stopAll (s : State) : State :=
  (s.passes.filter (fun p => p.st == .resident)).foldl (fun s p =>
    (s.quiesce p).updPass p.pid (fun p => { p with writes := [], cores := p.cores.map (fun c => { c with cmds := [] }) })) s

def execPowerFail (s : State) : Out3 :=
  if !s.powered then .next s
  else
    let s1 := s.stopAll
    let all := s1.allImages s.imageOrder
    let is := fitImages Config.flashBudget all
    .next { s1.report (.imageDir (imageDir all is.length)) with
      powered := false, images := is, mg := { s1.mg with pfdir := Config.flashDir } }

/-! ### Memory accesses of the host and of the devices on port M (R76) -/

/-- A pass number that no pass has. -/
def noPass : Nat := 2 ^ 64

def hostPa (pa n : Nat) : Bool := (List.range n).all (fun i => !paReserved (pa + i) && decide (pa + i < 2 ^ 56))

def execHostWrite (pa : ExtAddr) (bytes : List Byte) (relaxed : Bool) (s : State) : Out3 :=
  if !hostPa pa.pa bytes.length || bytes.isEmpty then .next s
  else
    let ord : Ord14 := if relaxed then noOrd else { kind := .rel, scope := 6, paths := 0x80 }
    let wr : Wr := { seq := s.seq, pk := .r, cells := keyCells (paKeys pa.pa bytes.length) bytes }
    .next (s.issueEntry pa.port.agent .h { seq := s.seq, wr := wr, act := .write, key := 0, hist := 0, ord := ord, asc := 0,
                                           pid := noPass, qc := 0 }).tickSeq

def execHostRead (pa : ExtAddr) (n : Nat) (s : State) : Out3 :=
  if !hostPa pa.pa n then .next s
  else
    let ks := paKeys pa.pa n
    .next { s with reads := s.reads ++ [{ pa := pa, bytes := s.readKeys pa.port.agent .h ks,
                                          poison := !(s.badKeys pa.port.agent .h ks).isEmpty }] }

/-! ### The management window (R369, R370, R405, R406) -/

/-- Bit 2 of mg.asidack after a write: its value was out of range. -/
def State.mgRange (s : State) (bad : Bool) : State :=
  { s with mg := { s.mg with asidack := (s.mg.asidack &&& 2) ||| (if bad then 4 else 0) } }

def State.mgRefuse (s : State) : State := { s with mg := { s.mg with asidack := s.mg.asidack ||| 2 } }
def State.mgAllow (s : State) : State := { s with mg := { s.mg with asidack := s.mg.asidack &&& 4 } }

/-- A submission is accepted or refused now; at the limit it is held, and its record is read when it is accepted (R26,
R322, R405). -/
def execMgSubasidWrite (v : Word) (s : State) : Out3 :=
  let asid : BitVec 16 := v.truncate 16
  let s := (s.mgRange false).staleHeld
  if s.runRoom then .next (s.submit asid s.mg.subrec)
  else .next ((s.deferRun s.mg.subrec asid (0, hostUnit, 0)).setStat (subStat 1 0))

/-- A context with one doubleword written; none where a field is out of range (R369). -/
def ctxWrite (c : AsidCtx) (dw : Nat) (v : Word) : Option AsidCtx :=
  match dw with
  | 0 => if fld v 55 0 % 2 ^ 21 != 0 || fld v 63 62 = 3 then none
      else some { c with ast := BitVec.ofNat 2 (fld v 63 62), root := BitVec.ofNat 56 (fld v 55 0) }
  | 1 => if fld v 56 0 % 16 != 0 then none else some { c with htb := va57 v }
  | 2 => if 2 ^ 20 < fld v 20 0 then none else some { c with htl := BitVec.ofNat 21 (fld v 20 0) }
  | 3 => some { c with kwb := va57 v }
  | 4 => if 8 < fld v 47 44 then none
      else some { c with lkp := BitVec.ofNat 4 (fld v 47 44), kws := BitVec.ofNat 41 (fld v 40 0) }
  | 5 => some { c with pst := BitVec.ofNat 56 (fld v 55 0) }
  | 6 => if fld v 56 0 % 32 != 0 || (fld v 56 0 != 0 && (fld v 63 59 = 0 || decide (16 < fld v 63 59))) then none
      else some { c with fln := BitVec.ofNat 5 (fld v 63 59), flb := va57 v }
  | _ => some { c with flp := va57 v }

/-- A move of AST that R370 admits. -/
def astMove (old new : BitVec 2) : Bool :=
  old == new || (old == 0 && new == 1) || (old == 1 && new == 2)

def zeroCtx : AsidCtx :=
  { ast := 0, root := 0, htb := 0, htl := 0, kwb := 0, lkp := 0, kws := 0, pst := 0, fln := 0, flb := 0, flp := 0 }

def execMgAsidctxWrite (off : Nat) (v : Word) (s : State) : Out3 :=
  if off < 0x40 || 0x80 ≤ off || off % 8 != 0 then .next s
  else
    let a := s.mg.asidsel
    let c := s.asidCtx a
    match ctxWrite c ((off - 0x40) / 8) v with
    | none => .next (s.mgRange true)
    | some c' =>
      let s := s.mgRange false
      if !astMove c.ast c'.ast then .next s.mgRefuse
      else
        let s1 : State := { s with asids := mset zeroCtx s.asids a.toNat c' }
        let s2 := if off = 0x40 then s1.mgAllow else s1
        .next (if c.ast = 1 && c'.ast = 2 then { s2 with inval := s2.inval ++ [a] } else s2)

def execAsidInvalidationComplete (asid : BitVec 16) (s : State) : Out3 :=
  if !s.inval.contains asid then .next s
  else
    .next { s with inval := s.inval.filter (fun a => a != asid),
                   tlb := s.tlb.filter (fun t => t.asid != asid), walks := s.walks.filter (fun t => t.asid != asid),
                   asids := mset zeroCtx s.asids asid.toNat { s.asidCtx asid with ast := 0 } }

def execMgKill (v : Word) (s : State) : Out3 :=
  let s := s.mgRange false
  .next ((s.runs.filter (fun r => r.live && r.rcd.asid == BitVec.ofNat 16 (fld v 63 48) && r.addr == va57 v)).foldl
    (fun s r => s.terminate r.rid 0x28 0 7 0) s)

def execMgRalseqWrite (v : Word) (s : State) : Out3 :=
  let s := s.mgRange false
  if v.getLsbD 32 then .next s
  else .next (({ s with mg := { s.mg with ralOk := false, ralSeq := 0, gridLim := 0 } } : State).limitFrom s)

/-- A pool's base lies in its place (R406). -/
def poolBase (pool base : Nat) : Bool :=
  base % 2 ^ 22 == 0 && (
    if pool < 8 then base / 2 ^ 52 == 5 && base / 2 ^ 36 % 2 ^ 16 == pool
    else if pool = 8 then base / 2 ^ 52 == 2 else base / 2 ^ 52 == 3)

/-- A pool holds an allocated frame. -/
def State.poolUsed (s : State) (pool : Nat) : Bool :=
  let p := mget (0, 0) s.mg.kvpool pool
  p.2 != 0 && s.frameUsed p.1 p.2

def execMgKvpoolWrite (pool dw : Nat) (v : Word) (s : State) : Out3 :=
  let p := mget (0, 0) s.mg.kvpool pool
  if 10 ≤ pool || 2 ≤ dw then .next s
  else
    let base := fld v 55 0
    let len := fld v 47 0
    let ok := if dw = 0 then poolBase pool base
      else len % 2 ^ 22 == 0 && (8 ≤ pool || decide (p.1 % 2 ^ 36 + len ≤ 2 ^ 36))
    if !ok || s.poolUsed pool then .next (s.mgRange true)
    else
      .next (({ s with mg := { s.mg with kvpool := mset (0, 0) s.mg.kvpool pool (if dw = 0 then (base, p.2) else (p.1, len)) } }
        : State).mgRange false)

/-- One core's rail: at once while it is free and not reserved, else once it frees (R396, R406). -/
def State.setRail (s : State) (lc : Nat) (r : BitVec 2) : State :=
  let rest := s.mg.railNew.filter (fun x => x.1 != lc)
  if (s.holder lc).isSome || s.reserved.contains lc then { s with mg := { s.mg with railNew := mins rest lc r } }
  else { s with mg := { s.mg with rail := mset 0 s.mg.rail lc r, railNew := rest } }

def execMgRailWrite (off : Nat) (v : Word) (s : State) : Out3 :=
  if off < 0x200 || 0x240 ≤ off || off % 8 != 0 then .next s
  else .next (((List.range 8).foldl (fun s i => s.setRail (off - 0x200 + i) (BitVec.ofNat 2 (fld v (8 * i + 1) (8 * i)))) s).mgRange false)

/-- The bits of a binding entry (R402). -/
def bindMask : Word := w64 (2 ^ 64 - 2 ^ 32 + 1)

def wattsOk (n : Nat) : Bool := decide (200 ≤ n) && decide (n ≤ 1700)

/-- A register of the window without a behaviour of its own: its new value, or none where out of range. -/
def State.mgPlain (s : State) (off : Nat) (v : Word) : Option State :=
  if off = 0x08 then some { s with mg := { s.mg with subrec := va57 v } }
  else if off = 0x20 then some { s with mg := { s.mg with asidsel := v.truncate 16 } }
  else if off = 0x240 then
    (if wattsOk (fld v 15 0) then some (({ s with mg := { s.mg with hostlim := v.truncate 16 } } : State).limitFrom s) else none)
  else if off = 0x248 then
    (if wattsOk (fld v 15 0) then some (({ s with mg := { s.mg with caps := v.truncate 16 } } : State).limitFrom s) else none)
  else if off = 0x258 then
    (if 1 ≤ fld v 9 0 && fld v 9 0 ≤ 1000 then some { s with mg := { s.mg with ageper := v.truncate 10 } } else none)
  else if 0x100 ≤ off && off < 0x200 then
    (if 20 ≤ fld v 36 32 then none
     else some { s with binds := mset 0 s.binds (s.mg.asidsel.toNat * 32 + (off - 0x100) / 8) (v &&& bindMask) })
  else some s

/-- A write of the window: registers with a behaviour of their own act as their events do (R406). -/
def execMgRegisterWrite (off : Nat) (v : Word) (s : State) : Out3 :=
  if off % 8 != 0 then .next s
  else if off = 0x10 then execMgSubasidWrite v s
  else if 0x40 ≤ off && off < 0x80 then execMgAsidctxWrite off v s
  else if 0x200 ≤ off && off < 0x240 then execMgRailWrite off v s
  else if off = 0x250 then execMgRalseqWrite v s
  else if off = 0x260 then execMgKill v s
  else if 0x300 ≤ off && off < 0x3A0 then execMgKvpoolWrite ((off - 0x300) / 16) ((off - 0x300) / 8 % 2) v s
  else if off = 0x08 || off = 0x20 || off = 0x240 || off = 0x248 || off = 0x258 || (0x100 ≤ off && off < 0x200) then
    match s.mgPlain off v with
    | some s1 => .next (s1.mgRange false)
    | none => .next (s.mgRange true)
  else .next s

/-- The pass that an exchange or a retirement waits for (R406). -/
def State.svcWait (s : State) : Word :=
  match s.passes.find? (fun p => p.st == .resident && (s.mustMove p || s.mustSwap p)) with
  | some p => (match s.run? p.rid with
      | some r => w64 (2 ^ 63 + r.addr.toNat)
      | none => 0)
  | none => 0

def ctxRead (c : AsidCtx) (dw : Nat) : Word :=
  match dw with
  | 0 => w64 (c.ast.toNat * 2 ^ 62 + c.root.toNat)
  | 1 => vaWord c.htb
  | 2 => w64 c.htl.toNat
  | 3 => vaWord c.kwb
  | 4 => w64 (c.lkp.toNat * 2 ^ 44 + c.kws.toNat)
  | 5 => w64 c.pst.toNat
  | 6 => w64 (c.fln.toNat * 2 ^ 59 + c.flb.toNat)
  | _ => vaWord c.flp

/-- The fused counter of the identity key has no signature left: the 1,024 of its parameter set are used (R408). -/
def Mg.certOver (m : Mg) : Bool := decide (1024 ≤ m.attest)

/-- A read of the window at an offset (R406). -/
def State.mgRead (s : State) (off : Nat) : Word :=
  if off % 8 != 0 then 0
  else if off = 0x00 then s.devid
  else if off = 0x08 then vaWord s.mg.subrec
  else if off = 0x18 then s.mg.substat
  else if off = 0x20 then s.mg.asidsel.zeroExtend 64
  else if 0x40 ≤ off && off < 0x80 then ctxRead (s.asidCtx s.mg.asidsel) ((off - 0x40) / 8)
  else if off = 0x80 then (s.mg.asidack.zeroExtend 64 &&& 6) ||| (if s.inval.isEmpty then 0 else 1)
  else if 0x100 ≤ off && off < 0x200 then mget 0 s.binds (s.mg.asidsel.toNat * 32 + (off - 0x100) / 8)
  else if 0x200 ≤ off && off < 0x240 then
    w64 ((List.range 8).foldl (fun a i => a + (railOf s (off - 0x200 + i)).toNat * 256 ^ i) 0)
  else if off = 0x240 then s.mg.hostlim.zeroExtend 64
  else if off = 0x248 then s.mg.caps.zeroExtend 64
  else if off = 0x250 then w64 ((if s.mg.ralOk then 2 ^ 32 else 0) + s.mg.ralSeq.toNat)
  else if off = 0x258 then s.mg.ageper.zeroExtend 64
  else if off = 0x268 then s.svcWait
  else if off = 0x270 then s.mg.pfdir
  else if off = 0x278 then
    w64 ((if s.mg.fwVerified then 1 else 0) + (if s.mg.certOver then 2 else 0) + s.fullDies.toNat * 256)
  else if 0x300 ≤ off && off < 0x3A0 then
    let p := mget (0, 0) s.mg.kvpool ((off - 0x300) / 16)
    w64 (if (off - 0x300) / 8 % 2 = 0 then p.1 else p.2)
  else if 0x1000 ≤ off && off < 0x2000 then (if s.mg.attest = 0 then 0 else Config.attest s.mg.attest ((off - 0x1000) / 8))
  else 0

/-! ### Bring-up and service (R388, R407 to R410) -/

/-- Locations that a loss of power or a reset of the module leaves alone: those of other devices. -/
def offModule (k : Nat) : Bool := decide (2 ^ 52 ≤ k) && decide (k < 2 ^ 60)

/-- The identity key certifies a new attestation key, while its counter lasts (R408). -/
def Mg.newKey (m : Mg) : Mg := if m.certOver then m else { m with attest := m.attest + 1, keySigs := 0 }

/-- Firmware starts: a new attestation key where there is none or the firmware has changed (R408). -/
def Mg.certify (m : Mg) (cycle : Nat) : Mg := if m.attest == 0 || Config.newFirmware cycle then m.newKey else m

/-- The attestation key signs once more; one that has used its 1,024 signatures gives way to a new one (R408). -/
def Mg.sign (m : Mg) : Mg :=
  if m.attest == 0 then m else if m.keySigs < 1024 then { m with keySigs := m.keySigs + 1 } else m.newKey

/-- What the module keeps of its keys and of the images in flash across a start. -/
def Mg.kept (m r : Mg) : Mg := { r with attest := m.attest, keySigs := m.keySigs, pfdir := m.pfdir }

/-- At a start the module is as after reset, with no die calibrated; firmware that fails its check is not run (R408). -/
def execModulePowerOn (verified : Bool) (s : State) : Out3 :=
  let r : State := State.reset
  .next { r with cycle := s.cycle, script := s.script, free := s.free, inputs := s.inputs, seq := s.seq, nextId := s.nextId,
                 mem := s.mem.filter (fun c => offModule c.1), poison := s.poison.filter offModule,
                 badRegions := s.badRegions, dies := 0, fullDies := 0, sent := s.sent, reads := s.reads,
                 spared := s.spared, outCores := s.outCores, links := s.links, images := s.images,
                 reports := s.reports ++ [.firmware verified], powered := verified,
                 mg := { (if verified then s.mg.certify s.cycle else s.mg).kept r.mg with fwVerified := verified } }

def dieBit (d : Nat) : BitVec 8 := BitVec.ofNat 8 (2 ^ d)

/-- The first die offers reduced service; a calibrated die enters full service (R409). -/
def execDieCalibrationComplete (d : Nat) (full : Bool) (s : State) : Out3 :=
  if 8 ≤ d then .next s
  else
    let t := if !s.dies.getLsbD d && Config.dieReplaced s.cycle d then
        { s with spared := s.spared.filter (fun x => x != d), outCores := s.outCores.filter (fun c => dieOf c != d) } else s
    if full then .next { t with dies := s.dies ||| dieBit d, fullDies := s.fullDies ||| dieBit d }
    else if s.dies = 0 then .next { t with dies := dieBit d }
    else .next s

/-- A pass is resident on a die, or a migrating pass has its target there (R339, R410). -/
def State.dieBusy (s : State) (d : Nat) : Bool :=
  s.passes.any (fun p => (p.st == .resident && p.pos.dies.contains d) || (match p.dest with
    | some q => q.dies.contains d
    | none => false))

/-- A die that leaves is out of service once no pass is on it or on its way to it (R410). -/
def State.dieSettle (s : State) : State :=
  s.leaving.foldl (fun s d =>
    if s.dieBusy d then s
    else { s with dies := s.dies &&& ~~~dieBit d, fullDies := s.fullDies &&& ~~~dieBit d,
                  leaving := s.leaving.filter (fun x => x != d) }) s

def execDieRetire (d : Nat) (s : State) : Out3 :=
  if !s.dies.getLsbD d || s.leaving.contains d then .next s.dieSettle
  else .next ({ s with leaving := s.leaving ++ [d] } : State).dieSettle

/-- One of the 24 links leaves service (R17). -/
def execLinkRetire (l : Nat) (s : State) : Out3 :=
  .next (if 24 ≤ l || s.links.contains l then s else { s with links := s.links ++ [l] })

/-- A verified image takes over and no run, queue or future changes (R410). -/
def execFirmwareHandover (verified : Bool) (s : State) : Out3 :=
  let s1 := s.report (.firmware verified)
  if !verified then .next s1
  else .next { s1 with mg := { s1.mg.certify s.cycle with fwVerified := true } }

/-- The locations that an error at some locations leaves poisoned. In a page that moves, bytes that the move has already copied
are struck in their new frame only, the others in their old one (R363). -/
def State.struckKeys (s : State) (copied : Bool) (ks : List Nat) : List Nat :=
  if !copied then ks
  else ks.flatMap (fun k =>
    match s.pages.findSome? (fun q => q.dest.bind (fun d => (frameOff d.2 q.size k).map (fun o => canonPa (q.frame + o)))) with
    | some j => [k, j]
    | none => if s.pages.any (fun q => q.dest.isSome && (frameOff q.frame q.size k).isSome) then [] else [k])

/-- The bytes of a KV sample that an error strikes in its page's frame (R345, R363). -/
def Slot.struck (ks : List Nat) (k : KvPage) (d : SigDesc) (q : Slot) : Slot :=
  let at_ := paKeys (k.frame + q.num % d.depth % 64 * d.size) d.size
  let off := ((at_.zip (List.range at_.length)).filter (fun x => ks.contains x.1)).map (fun x => x.2)
  { q with bad := q.bad ++ off.filter (fun i => !q.bad.contains i) }

/-- The samples of a KV signal that an error strikes, in whatever tier their pages are. -/
def State.strikeSig (s : State) (p : Pass) (ks : List Nat) (g : Sig) : Sig :=
  if isKv p.ctx g.desc then
    { g with slots := g.slots.map (fun q => match s.page? (s.asidOf p) (kvBlk p.ctx g.desc q.num) with
        | some k => q.struck ks k g.desc
        | none => q) }
  else g

/-- An error at locations strikes the KV samples whose frames hold them. -/
def State.strikeKv (s : State) (ks : List Nat) : State :=
  { s with passes := s.passes.map (fun p => { p with sigs := p.sigs.map (fun x => (x.1, x.2.map (s.strikeSig p ks))) }) }

/-- The KV samples of the pages in a region that fails; those of a moving page are where the move has put them. -/
def State.strikeRegion (s : State) (copied : Bool) (r : Nat) : State :=
  s.pages.foldl (fun s k =>
    let at_ := match k.dest with
      | some (_, f) => if copied then f else k.frame
      | none => k.frame
    if at_ / 2 ^ 52 = r then s.mapKv k.asid (fun a g => g.spoil (fun n => kvBlk a g.desc n == k.blk)) else s) s

/-- Data is marked poisoned and Phoavo is told (R388, R407). How far the moves of KV pages have come is drawn. -/
def execUncorrectableError (at_ : PoisonAt) (s : State) : Out3 :=
  match at_ with
  | .loc key n =>
    let d := s.draw 2
    let s := d.2
    let ks := s.struckKeys (d.1 == 1) ((List.range n).map (fun i => key + i))
    .next ((({ s with poison := s.poison ++ ks.filter (fun k => !s.poison.contains k) } : State).strikeKv ks).report (.poison key))
  | .slot pid sig num off n =>
    let bs := (List.range n).map (fun i => off + i)
    .next ((s.updSig pid sig (fun g => { g with slots := g.slots.map (fun q =>
      if q.num = num then { q with bad := q.bad ++ bs.filter (fun i => !q.bad.contains i) } else q) })).report (.poison (2 ^ 60 + sig)))
  | .spill pid qc st off n =>
    let bs := (List.range n).map (fun i => off + i)
    .next ((s.updStream pid qc st (fun t => { t with spillBad := t.spillBad ++ bs.filter (fun i => !t.spillBad.contains i) })).report
      (.poison (2 ^ 59 + pid)))
  | .tile pid qc t =>
    .next (({ s with poisonTiles := if s.poisonTiles.contains (pid, qc, t) then s.poisonTiles
                       else s.poisonTiles ++ [(pid, qc, t)] } : State).report (.poison (2 ^ 61 + t)))
  | .region r =>
    let d := s.draw 2
    let s := d.2.strikeRegion (d.1 == 1) r
    .next (({ s with badRegions := if s.badRegions.contains r then s.badRegions else s.badRegions ++ [r] } : State).report
      (.poison (r * 2 ^ 52)))

end Sys2Proof.Machine
end

