-- ==== Sys2Proof/Machine/Dispatch.lean ====
section
/-! DEFINITION. The dispatch: one arm for every constructor of Instr, each a direct call of its meaning. -/

namespace Sys2Proof.Machine

def exec (i : Instr) (s : State) : Host.Outcome State Fault Refusal :=
  match i with
  | .add h d a b => Sys2Proof.Machine.execAdd h d a b s
  | .sub h d a b => Sys2Proof.Machine.execSub h d a b s
  | .addi h d a imm => Sys2Proof.Machine.execAddi h d a imm s
  | .mul h d a b => Sys2Proof.Machine.execMul h d a b s
  | .mulh h d a b => Sys2Proof.Machine.execMulh h d a b s
  | .mulhu h d a b => Sys2Proof.Machine.execMulhu h d a b s
  | .div h d a b => Sys2Proof.Machine.execDiv h d a b s
  | .divu h d a b => Sys2Proof.Machine.execDivu h d a b s
  | .rem h d a b => Sys2Proof.Machine.execRem h d a b s
  | .remu h d a b => Sys2Proof.Machine.execRemu h d a b s
  | .and h d a b => Sys2Proof.Machine.execAnd h d a b s
  | .or h d a b => Sys2Proof.Machine.execOr h d a b s
  | .xor h d a b => Sys2Proof.Machine.execXor h d a b s
  | .andn h d a b => Sys2Proof.Machine.execAndn h d a b s
  | .shl h d a n => Sys2Proof.Machine.execShl h d a n s
  | .shr h d a n => Sys2Proof.Machine.execShr h d a n s
  | .sra h d a n => Sys2Proof.Machine.execSra h d a n s
  | .rol h d a n => Sys2Proof.Machine.execRol h d a n s
  | .clz h d a => Sys2Proof.Machine.execClz h d a s
  | .ctz h d a => Sys2Proof.Machine.execCtz h d a s
  | .popc h d a => Sys2Proof.Machine.execPopc h d a s
  | .min h d a b => Sys2Proof.Machine.execMin h d a b s
  | .max h d a b => Sys2Proof.Machine.execMax h d a b s
  | .minu h d a b => Sys2Proof.Machine.execMinu h d a b s
  | .maxu h d a b => Sys2Proof.Machine.execMaxu h d a b s
  | .sel h d a b c => Sys2Proof.Machine.execSel h d a b c s
  | .cmp h cc d a b => Sys2Proof.Machine.execCmp h cc d a b s
  | .li h d imm => Sys2Proof.Machine.execLi h d imm s
  | .lui h d imm => Sys2Proof.Machine.execLui h d imm s
  | .luiHi h d imm => Sys2Proof.Machine.execLuiHi h d imm s
  | .mov h d a => Sys2Proof.Machine.execMov h d a s
  | .ext h u d a w => Sys2Proof.Machine.execExt h u d a w s
  | .ins h d a lo w => Sys2Proof.Machine.execIns h d a lo w s
  | .bfx h sg d a lo w => Sys2Proof.Machine.execBfx h sg d a lo w s
  | .fadd h f rm d a b => Sys2Proof.Machine.execFadd h f rm d a b s
  | .fsub h f rm d a b => Sys2Proof.Machine.execFsub h f rm d a b s
  | .fmul h f rm d a b => Sys2Proof.Machine.execFmul h f rm d a b s
  | .ffma h f rm d a b c => Sys2Proof.Machine.execFfma h f rm d a b c s
  | .fmin h f d a b => Sys2Proof.Machine.execFmin h f d a b s
  | .fmax h f d a b => Sys2Proof.Machine.execFmax h f d a b s
  | .fcmp h f cc d a b => Sys2Proof.Machine.execFcmp h f cc d a b s
  | .fcvt h dt st sat rm d a => Sys2Proof.Machine.execFcvt h dt st sat rm d a s
  | .fdiv h f rm d a b => Sys2Proof.Machine.execFdiv h f rm d a b s
  | .fsqrt h f rm d a => Sys2Proof.Machine.execFsqrt h f rm d a s
  | .br h cc a off => Sys2Proof.Machine.execBr h cc a off s
  | .jmp h off => Sys2Proof.Machine.execJmp h off s
  | .jal h d off => Sys2Proof.Machine.execJal h d off s
  | .jr h a => Sys2Proof.Machine.execJr h a s
  | .bcq h neg q off => Sys2Proof.Machine.execBcq h neg q off s
  | .jcq h q => Sys2Proof.Machine.execJcq h q s
  | .pcq h q a => Sys2Proof.Machine.execPcq h q a s
  | .ptok h q t => Sys2Proof.Machine.execPtok h q t s
  | .loop h cnt off => Sys2Proof.Machine.execLoop h cnt off s
  | .exit h => Sys2Proof.Machine.execExit h s
  | .trap h code => Sys2Proof.Machine.execTrap h code s
  | .eret h => Sys2Proof.Machine.execEret h s
  | .eretN h => Sys2Proof.Machine.execEretN h s
  | .csrr h d num => Sys2Proof.Machine.execCsrr h d num s
  | .csrw h num a => Sys2Proof.Machine.execCsrw h num a s
  | .semw h n => Sys2Proof.Machine.execSemw h n s
  | .semi h n => Sys2Proof.Machine.execSemi h n s
  | .spld h sz d base off => Sys2Proof.Machine.execSpld h sz d base off s
  | .spst h sz base off b => Sys2Proof.Machine.execSpst h sz base off b s
  | .nop h => Sys2Proof.Machine.execNop h s
  | .ld h sx sz ord d a off => Sys2Proof.Machine.execLd h sx sz ord d a off s
  | .st h sz ord a off b => Sys2Proof.Machine.execSt h sz ord a off b s
  | .amo h op wd ord asc d a b => Sys2Proof.Machine.execAmo h op wd ord asc d a b s
  | .cas h wd ord asc d a b => Sys2Proof.Machine.execCas h wd ord asc d a b s
  | .faddw h wd ord asc d a b thr => Sys2Proof.Machine.execFaddw h wd ord asc d a b thr s
  | .wwait h wd ord a thr => Sys2Proof.Machine.execWwait h wd ord a thr s
  | .enq h ord asc d a b => Sys2Proof.Machine.execEnq h ord asc d a b s
  | .deq h ord asc d a => Sys2Proof.Machine.execDeq h ord asc d a s
  | .enqw h ord lim asc d a b => Sys2Proof.Machine.execEnqw h ord lim asc d a b s
  | .deqw h ord lim asc d a => Sys2Proof.Machine.execDeqw h ord lim asc d a s
  | .ramo h op wd ord asc a b => Sys2Proof.Machine.execRamo h op wd ord asc a b s
  | .tick h slack => Sys2Proof.Machine.execTick h slack s
  | .tld h seg d t => Sys2Proof.Machine.execTld h seg d t s
  | .tst h seg t a => Sys2Proof.Machine.execTst h seg t a s
  | .tldx h sz d t b => Sys2Proof.Machine.execTldx h sz d t b s
  | .sdecl h sig a => Sys2Proof.Machine.execSdecl h sig a s
  | .sbind h sig a => Sys2Proof.Machine.execSbind h sig a s
  | .sdrop h sig => Sys2Proof.Machine.execSdrop h sig s
  | .sgate h sig g => Sys2Proof.Machine.execSgate h sig g s
  | .sfill h sig a => Sys2Proof.Machine.execSfill h sig a s
  | .snow h d sig => Sys2Proof.Machine.execSnow h d sig s
  | .slag h d t => Sys2Proof.Machine.execSlag h d t s
  | .ssave h sig a sem => Sys2Proof.Machine.execSsave h sig a sem s
  | .srest h sig a sem => Sys2Proof.Machine.execSrest h sig a sem s
  | .srebase h sig a => Sys2Proof.Machine.execSrebase h sig a s
  | .ckey h sh d a => Sys2Proof.Machine.execCkey h sh d a s
  | .cunk h sh d a => Sys2Proof.Machine.execCunk h sh d a s
  | .cadd h sh sat fl d a b => Sys2Proof.Machine.execCadd h sh sat fl d a b s
  | .csub h sh sat fl d a b => Sys2Proof.Machine.execCsub h sh sat fl d a b s
  | .ccmp h sh cc d a b => Sys2Proof.Machine.execCcmp h sh cc d a b s
  | .cbox h sh d a b => Sys2Proof.Machine.execCbox h sh d a b s
  | .csplit h sh sm d a b => Sys2Proof.Machine.execCsplit h sh sm d a b s
  | .cnext h sh incl d a b => Sys2Proof.Machine.execCnext h sh incl d a b s
  | .cprev h sh incl d a b => Sys2Proof.Machine.execCprev h sh incl d a b s
  | .cclamp h sh d a b => Sys2Proof.Machine.execCclamp h sh d a b s
  | .cmask h sh m d a => Sys2Proof.Machine.execCmask h sh m d a s
  | .vadd h t m d a b mk => Sys2Proof.Machine.execVadd h t m d a b mk s
  | .vsub h t m d a b mk => Sys2Proof.Machine.execVsub h t m d a b mk s
  | .vmul h t m d a b mk => Sys2Proof.Machine.execVmul h t m d a b mk s
  | .vfma h t rm d a b c mk => Sys2Proof.Machine.execVfma h t rm d a b c mk s
  | .vmin h t d a b mk => Sys2Proof.Machine.execVmin h t d a b mk s
  | .vmax h t d a b mk => Sys2Proof.Machine.execVmax h t d a b mk s
  | .vabs h t m d a mk => Sys2Proof.Machine.execVabs h t m d a mk s
  | .vneg h t m d a mk => Sys2Proof.Machine.execVneg h t m d a mk s
  | .vrcp h t rm d a mk => Sys2Proof.Machine.execVrcp h t rm d a mk s
  | .vrsq h t rm d a mk => Sys2Proof.Machine.execVrsq h t rm d a mk s
  | .vexp2 h t rm d a mk => Sys2Proof.Machine.execVexp2 h t rm d a mk s
  | .vlog2 h t rm d a mk => Sys2Proof.Machine.execVlog2 h t rm d a mk s
  | .vsqrt h t rm d a mk => Sys2Proof.Machine.execVsqrt h t rm d a mk s
  | .vclamp h t d a b c mk => Sys2Proof.Machine.execVclamp h t d a b c mk s
  | .vcvt h dt st ct sat part rm d a mk => Sys2Proof.Machine.execVcvt h dt st ct sat part rm d a mk s
  | .vcmp h t cc d a b mk => Sys2Proof.Machine.execVcmp h t cc d a b mk s
  | .vsel h d a b kr => Sys2Proof.Machine.execVsel h d a b kr s
  | .vand h d a b mk => Sys2Proof.Machine.execVand h d a b mk s
  | .vor h d a b mk => Sys2Proof.Machine.execVor h d a b mk s
  | .vxor h d a b mk => Sys2Proof.Machine.execVxor h d a b mk s
  | .vshl h t d a n mk => Sys2Proof.Machine.execVshl h t d a n mk s
  | .vshr h t d a n mk => Sys2Proof.Machine.execVshr h t d a n mk s
  | .vsra h t d a n mk => Sys2Proof.Machine.execVsra h t d a n mk s
  | .vpopc h t d a mk => Sys2Proof.Machine.execVpopc h t d a mk s
  | .vclz h t d a mk => Sys2Proof.Machine.execVclz h t d a mk s
  | .vredsum h t m d a mk => Sys2Proof.Machine.execVredsum h t m d a mk s
  | .vredmax h t d a mk => Sys2Proof.Machine.execVredmax h t d a mk s
  | .vredmin h t d a mk => Sys2Proof.Machine.execVredmin h t d a mk s
  | .vscan h t m op d a mk => Sys2Proof.Machine.execVscan h t m op d a mk s
  | .vperm h t d a b mk => Sys2Proof.Machine.execVperm h t d a b mk s
  | .vbcast h t d a idx mk => Sys2Proof.Machine.execVbcast h t d a idx mk s
  | .vslide h t dn d a b idx mk => Sys2Proof.Machine.execVslide h t dn d a b idx mk s
  | .vmov h d a mk => Sys2Proof.Machine.execVmov h d a mk s
  | .vmovs h t toV d a idx => Sys2Proof.Machine.execVmovs h t toV d a idx s
  | .vld h l d a => Sys2Proof.Machine.execVld h l d a s
  | .vst h l a b => Sys2Proof.Machine.execVst h l a b s
  | .vldt h l d a => Sys2Proof.Machine.execVldt h l d a s
  | .vstt h l a b => Sys2Proof.Machine.execVstt h l a b s
  | .vgath h l d a => Sys2Proof.Machine.execVgath h l d a s
  | .vscat h l a b => Sys2Proof.Machine.execVscat h l a b s
  | .vsort h t desc d a b => Sys2Proof.Machine.execVsort h t desc d a b s
  | .vtri h rm d a b => Sys2Proof.Machine.execVtri h rm d a b s
  | .kand h d a b => Sys2Proof.Machine.execKand h d a b s
  | .kor h d a b => Sys2Proof.Machine.execKor h d a b s
  | .kxor h d a b => Sys2Proof.Machine.execKxor h d a b s
  | .knot h d a => Sys2Proof.Machine.execKnot h d a s
  | .kpop h d a => Sys2Proof.Machine.execKpop h d a s
  | .kmov h d a => Sys2Proof.Machine.execKmov h d a s
  | .mfmt h a => Sys2Proof.Machine.execMfmt h a s
  | .mmodeRm h rm => Sys2Proof.Machine.execMmodeRm h rm s
  | .mmodeSb h n => Sys2Proof.Machine.execMmodeSb h n s
  | .mmodeFqclr h => Sys2Proof.Machine.execMmodeFqclr h s
  | .mzero h mask wsem ssem => Sys2Proof.Machine.execMzero h mask wsem ssem s
  | .mmac h t kc a b f => Sys2Proof.Machine.execMmac h t kc a b f s
  | .mld h t a f => Sys2Proof.Machine.execMld h t a f s
  | .mst h t a f => Sys2Proof.Machine.execMst h t a f s
  | .mtr h t a f => Sys2Proof.Machine.execMtr h t a f s
  | .mnot h ssem => Sys2Proof.Machine.execMnot h ssem s
  | .mpace h g => Sys2Proof.Machine.execMpace h g s
  | .mlease h a ssem => Sys2Proof.Machine.execMlease h a ssem s
  | .cpy h a t => Sys2Proof.Machine.execCpy h a t s
  | .cpy2d h a t => Sys2Proof.Machine.execCpy2d h a t s
  | .cgat h a b f => Sys2Proof.Machine.execCgat h a b f s
  | .cscat h a b f => Sys2Proof.Machine.execCscat h a b f s
  | .cred h ef a b f => Sys2Proof.Machine.execCred h ef a b f s
  | .cfill h a b f => Sys2Proof.Machine.execCfill h a b f s
  | .cnot h ssem => Sys2Proof.Machine.execCnot h ssem s
  | .cpace h g => Sys2Proof.Machine.execCpace h g s
  | .cpaceSb h n => Sys2Proof.Machine.execCpaceSb h n s
  | .kvapp h layer d a f => Sys2Proof.Machine.execKvapp h layer d a f s
  | .attq h layer d a b f => Sys2Proof.Machine.execAttq h layer d a b f s
  | .park h a => Sys2Proof.Machine.execPark h a s
  | .prom h a ssem => Sys2Proof.Machine.execProm h a ssem s
  | .pstat h d t => Sys2Proof.Machine.execPstat h d t s
  | .spawn h a => Sys2Proof.Machine.execSpawn h a s
  | .spawnG h a b => Sys2Proof.Machine.execSpawnG h a b s
  | .spawnPb h a b => Sys2Proof.Machine.execSpawnPb h a b s
  | .spawnPe h a b => Sys2Proof.Machine.execSpawnPe h a b s
  | .fres h a b => Sys2Proof.Machine.execFres h a b s
  | .fresF h a b => Sys2Proof.Machine.execFresF h a b s
  | .fresN h a b => Sys2Proof.Machine.execFresN h a b s
  | .freg h d a b => Sys2Proof.Machine.execFreg h d a b s
  | .fregJ h d a b => Sys2Proof.Machine.execFregJ h d a b s
  | .yield h => Sys2Proof.Machine.execYield h s
  | .migr h a => Sys2Proof.Machine.execMigr h a s
  | .tlbinvVa h a => Sys2Proof.Machine.execTlbinvVa h a s
  | .tlbinvAs h => Sys2Proof.Machine.execTlbinvAs h s
  | .mapset h a b sem => Sys2Proof.Machine.execMapset h a b sem s
  | .mapflush h inv a sem => Sys2Proof.Machine.execMapflush h inv a sem s
  | .pfrep h d a => Sys2Proof.Machine.execPfrep h d a s
  | .lease h d a => Sys2Proof.Machine.execLease h d a s
  | .taggedResultLand pid qc st n => Sys2Proof.Machine.execTaggedResultLand pid qc st n s
  | .slotWritePerformed pid n => Sys2Proof.Machine.execSlotWritePerformed pid n s
  | .wwaitWake pid qc => Sys2Proof.Machine.execWwaitWake pid qc s
  | .waiterTablePoll w => Sys2Proof.Machine.execWaiterTablePoll w s
  | .queueWaitLimitExpiry pid qc => Sys2Proof.Machine.execQueueWaitLimitExpiry pid qc s
  | .ordDrain ag cl n => Sys2Proof.Machine.execOrdDrain ag cl n s
  | .ordPropagate st n => Sys2Proof.Machine.execOrdPropagate st n s
  | .remoteRequestArrival src sq r => Sys2Proof.Machine.execRemoteRequestArrival src sq r s
  | .remoteReplyAcknowledge src sq => Sys2Proof.Machine.execRemoteReplyAcknowledge src sq s
  | .tickComplete pid => Sys2Proof.Machine.execTickComplete pid s
  | .csplitComplete pid qc => Sys2Proof.Machine.execCsplitComplete pid qc s
  | .vectorQueuedPerform pid qc => Sys2Proof.Machine.execVectorQueuedPerform pid qc s
  | .matrixCommandDepart pid qc => Sys2Proof.Machine.execMatrixCommandDepart pid qc s
  | .matrixCommandStart pid qc n => Sys2Proof.Machine.execMatrixCommandStart pid qc n s
  | .matrixCommandComplete pid qc n => Sys2Proof.Machine.execMatrixCommandComplete pid qc n s
  | .copyCommandDepart pid qc => Sys2Proof.Machine.execCopyCommandDepart pid qc s
  | .copyCommandStart pid qc n => Sys2Proof.Machine.execCopyCommandStart pid qc n s
  | .copyCommandComplete pid qc n => Sys2Proof.Machine.execCopyCommandComplete pid qc n s
  | .attentionCommandDepart pid qc => Sys2Proof.Machine.execAttentionCommandDepart pid qc s
  | .kvappAppendComplete pid qc n => Sys2Proof.Machine.execKvappAppendComplete pid qc n s
  | .attqPageWaitExpiry pid qc n => Sys2Proof.Machine.execAttqPageWaitExpiry pid qc n s
  | .attqComplete pid qc n => Sys2Proof.Machine.execAttqComplete pid qc n s
  | .promComplete pid qc n => Sys2Proof.Machine.execPromComplete pid qc n s
  | .parkT1Expiry pid => Sys2Proof.Machine.execParkT1Expiry pid s
  | .parkT2Expiry pid => Sys2Proof.Machine.execParkT2Expiry pid s
  | .pageMoveComplete pid => Sys2Proof.Machine.execPageMoveComplete pid s
  | .notifyCompletionEvent pid qc => Sys2Proof.Machine.execNotifyCompletionEvent pid qc s
  | .mapBlockFill pid qc slot blk => Sys2Proof.Machine.execMapBlockFill pid qc slot blk s
  | .faultReplayWalk id => Sys2Proof.Machine.execFaultReplayWalk id s
  | .leJoinWake rid => Sys2Proof.Machine.execLeJoinWake rid s
  | .runDeferredAccept rid => Sys2Proof.Machine.execRunDeferredAccept rid s
  | .passPlace => Sys2Proof.Machine.execPassPlace s
  | .ageingPeriodExpiry rid => Sys2Proof.Machine.execAgeingPeriodExpiry rid s
  | .preemptionRequest => Sys2Proof.Machine.execPreemptionRequest s
  | .phoavoMigrationRequest pid dies => Sys2Proof.Machine.execPhoavoMigrationRequest pid dies s
  | .passSave pid => Sys2Proof.Machine.execPassSave pid s
  | .passFinish pid => Sys2Proof.Machine.execPassFinish pid s
  | .slackDeadlineExpiry pid => Sys2Proof.Machine.execSlackDeadlineExpiry pid s
  | .tickWatchdogExpiry pid => Sys2Proof.Machine.execTickWatchdogExpiry pid s
  | .spareCoreExchange lc healthy => Sys2Proof.Machine.execSpareCoreExchange lc healthy s
  | .machineCheck pid => Sys2Proof.Machine.execMachineCheck pid s
  | .capoLeaseAnswer pid qc n => Sys2Proof.Machine.execCapoLeaseAnswer pid qc n s
  | .leaseEnergyExhausted pid => Sys2Proof.Machine.execLeaseEnergyExhausted pid s
  | .unitPowerGate u => Sys2Proof.Machine.execUnitPowerGate u s
  | .unitPowerWake u => Sys2Proof.Machine.execUnitPowerWake u s
  | .refusedRequestRetry n => Sys2Proof.Machine.execRefusedRequestRetry n s
  | .targetAbsentExpiry n => Sys2Proof.Machine.execTargetAbsentExpiry n s
  | .raloreInputChange step => Sys2Proof.Machine.execRaloreInputChange step s
  | .raloreMessage sq limw rsv => Sys2Proof.Machine.execRaloreMessage sq limw rsv s
  | .raloreLimitMet => Sys2Proof.Machine.execRaloreLimitMet s
  | .powerFail => Sys2Proof.Machine.execPowerFail s
  | .fabricMessageDelivery m => Sys2Proof.Machine.execFabricMessageDelivery m s
  | .moduleReset m => Sys2Proof.Machine.execModuleReset m s
  | .hostWrite pa bytes relaxed => Sys2Proof.Machine.execHostWrite pa bytes relaxed s
  | .hostRead pa n => Sys2Proof.Machine.execHostRead pa n s
  | .mgSubasidWrite v => Sys2Proof.Machine.execMgSubasidWrite v s
  | .mgAsidctxWrite off v => Sys2Proof.Machine.execMgAsidctxWrite off v s
  | .asidInvalidationComplete asid => Sys2Proof.Machine.execAsidInvalidationComplete asid s
  | .mgKill v => Sys2Proof.Machine.execMgKill v s
  | .mgRalseqWrite v => Sys2Proof.Machine.execMgRalseqWrite v s
  | .mgKvpoolWrite pool dw v => Sys2Proof.Machine.execMgKvpoolWrite pool dw v s
  | .mgRailWrite off v => Sys2Proof.Machine.execMgRailWrite off v s
  | .mgRegisterWrite off v => Sys2Proof.Machine.execMgRegisterWrite off v s
  | .modulePowerOn verified => Sys2Proof.Machine.execModulePowerOn verified s
  | .dieCalibrationComplete d full => Sys2Proof.Machine.execDieCalibrationComplete d full s
  | .dieRetire d => Sys2Proof.Machine.execDieRetire d s
  | .linkRetire l => Sys2Proof.Machine.execLinkRetire l s
  | .firmwareHandover verified => Sys2Proof.Machine.execFirmwareHandover verified s
  | .uncorrectableError at_ => Sys2Proof.Machine.execUncorrectableError at_ s

end Sys2Proof.Machine
end

