-- ==== Sys2Proof/Machine/Cycle.lean ====
section
/-! DEFINITION. One cycle of the module: events that are due, free moves of the units, the issue slot of a stream with the
fetch of its line, and the end of a cycle (spec/03_execution_model.md R33 to R47, spec/04_ordering_machine.md R54 to R58,
spec/06_instruction_word.md R105 to R107, R122, R123, spec/07_sequencers.md R133, R134, spec/20_launch_engine.md R338,
spec/24_translation_and_faults.md R376, R383). -/

namespace Sys2Proof.Machine

/-! ### Events that are due -/

/-- The state after an event that changes something. -/
def State.tryEvent (s : State) (i : Instr) : Option State :=
  match exec i s with
  | .next t => if t = s then none else some t
  | _ => none

/-- A result whose greatest latency has passed (R119). -/
def Due.forced (d : Due) (cycle : Nat) : Bool :=
  match d with
  | .within _ hi => decide (hi ≤ cycle)
  | _ => false

/-- A split that has reached the bound of R253: 40 cycles, and 8 for each entry of its list. -/
def splitOver (cycle : Nat) (k : Cmd) : Bool :=
  k.eng == .curve && k.st == .departed && decide (k.begun + 40 + 8 * splitLen k ≤ cycle)

/-- The word at the head of the vector queue has reached the bound of its result (R213). -/
def vecOver (cycle : Nat) (c : CoreSt) : Bool :=
  match (c.cmdsIn .vec .queued).head? with
  | some k => c.exe.pend.any (fun q => q.seq == k.seq && q.due.forced cycle)
  | none => false

/-- The absent mapped blocks that the departed split of a core waits for: their fills keep its bound too (R253, R379). -/
def splitFills (pid i : Nat) (c : CoreSt) : List Instr :=
  (c.cmdsIn .curve .departed).flatMap (fun k => ((splitFoot k).wr.filterMap (absentBlk c)).map (fun b => .mapBlockFill pid i b.1 b.2))

/-- Events of one core that are due when they change anything. -/
def dueCore (s : State) (p : Pass) (i : Nat) (c : CoreSt) : List Instr :=
  let land (st : Stream) : List Instr :=
    ((c.stream st).pend.filter (fun q => q.due.forced s.cycle)).map (fun q => .taggedResultLand p.pid i st q.seq)
  let att (k : Cmd) : Option Instr := if isAttq k.ins then some (.attqPageWaitExpiry p.pid i k.id) else none
  (if vecOver s.cycle c then [.vectorQueuedPerform p.pid i] else []) ++ land .exe ++ land .acc ++ (if c.cmds.any (splitOver s.cycle) then .csplitComplete p.pid i :: splitFills p.pid i c else []) ++
  c.cmds.filterMap att ++ [.notifyCompletionEvent p.pid i, .queueWaitLimitExpiry p.pid i]

/-- Events of one pass that are due when they change anything. -/
def duePass (s : State) (p : Pass) : List Instr :=
  let slot (w : SlotWrite) : Option Instr := match w.due with
    | some d => if d ≤ s.cycle then some (.slotWritePerformed p.pid w.id) else none
    | none => none
  let cores : List Instr := (List.range p.cores.length).flatMap (fun i => match p.cores[i]? with
    | some c => dueCore s p i c
    | none => [])
  p.writes.filterMap slot ++ cores ++ [.tickComplete p.pid, .machineCheck p.pid, .parkT1Expiry p.pid, .parkT2Expiry p.pid]

/-- Every event that the spec lets happen no later than now, and that is due when it changes anything. -/
def State.dueEvents (s : State) : List Instr :=
  (s.passes.filter (fun p => p.st != .finished && p.st != .terminated)).flatMap (duePass s) ++
  s.runs.map (fun r => .ageingPeriodExpiry r.rid) ++
  s.waiters.map (fun w => .waiterTablePoll w.w) ++
  s.msgs.map (fun m => .refusedRequestRetry m.id) ++ s.msgs.map (fun m => .targetAbsentExpiry m.id) ++ [.raloreLimitMet]

/-- Slack stalls end with the last late command (R46). -/
def Pass.unlate (p : Pass) (cycle : Nat) : Pass :=
  if p.late && !p.deadlines.any (p.overdue cycle) then { p with late := false } else p

/-- What follows at once from the state: slack stalls that end, messages held for a resident pass, wakes and page moves, dies
that are free to leave. -/
def State.settleAll (s : State) : State :=
  let s : State := { s with passes := s.passes.map (fun p =>
    if p.st == .resident then (if p.held.isEmpty then p.unlate s.cycle else (p.unlate s.cycle).takeHeld) else p) }
  s.kvSettle.dieSettle

/-- The next thing that is due. -/
def State.forced (s : State) : Option State :=
  let t := s.settleAll
  if t = s then s.dueEvents.findSome? s.tryEvent else some t

/-! ### Free moves -/

/-- What may happen next of its own accord. -/
inductive Move
  | event (i : Instr)
  | read (pid qc n i : Nat)             -- a part of a load is read (R56, R58)
  | row (pid qc n : Nat)                -- a started matrix or copy command does its next step (R268, R309)
  | begin (pid qc n : Nat)              -- an append or a query begins its reads (R348, R352)
  | log (r : LogRec)                    -- the oldest record of an address space is written (R374)
  | deliver (n : Nat)                   -- a message tries its channel (R403)
  | fetch (pid qc : Nat)                -- a core fetches some line and holds it (R107)
  | merge (ag : Agent) (cl : Cls) (i : Nat) -- a router merges atomics of one location (R287)
  | drop (pid qc : Nat) (st : Stream)   -- a stream fetches its line again, at either of its words (R107)
  | inval (asid : BitVec 16)            -- an invalidation completes (R370)
  | sign                                -- the attestation key signs (R408)
  | input                               -- the next input from outside the module
  deriving DecidableEq, Repr

/-- First address of the line of a word address (R105). -/
def lineOf (a : VAddr) : Nat := a.toNat / 32 * 32

/-- The locations, the bytes and the poison of a line as a fetch reads it: the module store and the stores above (R107). -/
def State.lineBytes (s : State) (lc : Nat) (ks : List Nat) : List Byte × List Nat :=
  let ch := chainFrom 5 (s.chain (.core lc) .s)
  (ks.map (fun k => s.readChain k ch), ks.filter (fun k => s.badChain k ch))

/-- A fetched line is held by the pass, with its poison (R107, R388). -/
def Pass.addLine (p : Pass) (la : Nat) (f : List Byte × List Nat) : Pass :=
  let e := (la, f.1)
  let q := if p.lines.contains e then p else { p with lines := p.lines ++ [e] }
  if f.2.isEmpty || q.badLines.contains e then q else { q with badLines := q.badLines ++ [e] }

/-- A core fetches a line of its choice; where it does not translate nothing is held. -/
def State.fetchSome (s : State) (pid qc : Nat) : State :=
  match s.unitCtx pid qc with
  | none => s
  | some x =>
    let d := s.draw (2 ^ 52)
    let r := d.2.access x.die x.asid .fetch (BitVec.ofNat 57 (d.1 * 32)) 20
    match r.1 with
    | .error _ => r.2
    | .ok ps => r.2.updPass pid (fun p => p.addLine (d.1 * 32) (r.2.lineBytes x.lc (partKeys ps)))

def State.doMove (s : State) (m : Move) : Out3 :=
  match m with
  | .event i => exec i s
  | .read pid qc n i => .next (s.performPart pid qc n i)
  | .row pid qc n => .next ((s.matNext pid qc n).copyNext pid qc n)
  | .begin pid qc n => .next (s.attBegin pid qc n)
  | .log r => (match s.logWrite r with
      | some t => .next { t with logq := t.logq.erase r }
      | none => .next s)
  | .deliver n => (match s.msgs.find? (fun m => m.id == n) with
      | some m => .next (s.tryMsg m)
      | none => .next s)
  | .fetch pid qc => .next (s.fetchSome pid qc)
  | .drop pid qc st => .next (s.updStream pid qc st (fun t => { t with line := none }))
  | .merge ag cl i => .next (s.mergeAt ag cl i)
  | .inval a => execAsidInvalidationComplete a s
  | .sign => .next { s with mg := s.mg.sign }
  | .input => (match s.inputs with
      | i :: r => exec i { s with inputs := r }
      | [] => .next s)

/-- Moves of the results in flight of a stream. -/
def pendMoves (cycle pid i : Nat) (st : Stream) (l : List Pend) : List Move :=
  l.flatMap (fun q =>
    (if q.due.open cycle then [.event (.taggedResultLand pid i st q.seq)] else []) ++
    (match q.req with
     | .load parts _ _ _ => (List.range parts.length).map (fun j => Move.read pid i q.seq j)
     | .lease => [.event (.capoLeaseAnswer pid i q.seq)]
     | _ => []))

/-- Moves of the commands that have left their queues. -/
def cmdMoves (pid i : Nat) (k : Cmd) : List Move :=
  match k.eng, k.st with
  | .mat, .departed => [.event (match k.ins with
      | .mlease _ _ _ => .capoLeaseAnswer pid i k.id
      | _ => .matrixCommandStart pid i k.id)]
  | .mat, .started => [.row pid i k.id, .event (.matrixCommandComplete pid i k.id)]
  | .copy, .departed => [.event (.copyCommandStart pid i k.id)]
  | .copy, .started => [.row pid i k.id, .event (.copyCommandComplete pid i k.id)]
  | .att, .departed => if isKvapp k.ins || isAttq k.ins then [.begin pid i k.id] else [.event (.promComplete pid i k.id)]
  | .att, .started => [.event (if isKvapp k.ins then .kvappAppendComplete pid i k.id else .attqComplete pid i k.id)]
  | .vec, .departed => [.event (.vectorQueuedPerform pid i)]
  | .curve, .departed => [.event (.csplitComplete pid i)]
  | _, _ => []

/-- The head of a queue leaves it once its wait has been granted (R134). -/
def headMoves (pid i : Nat) (c : CoreSt) (e : Eng) : List Move :=
  match (c.cmdsIn e .queued).head? with
  | none => []
  | some k =>
    if k.wait.isSome then []
    else [.event (match e with
      | .mat => .matrixCommandDepart pid i
      | .copy => .copyCommandDepart pid i
      | .vec => .vectorQueuedPerform pid i
      | .curve => .csplitComplete pid i
      | .att => .attentionCommandDepart pid i)]

def allEng : List Eng := [.mat, .copy, .vec, .curve, .att]

/-- Absent blocks of mapped regions that a command waits for. -/
def fillMoves (s : State) (pid i : Nat) (c : CoreSt) : List Move :=
  c.slots.flatMap (fun m => ((List.range m.2.nb).filter (fun j =>
    !m.2.present.contains j && !(waitersOfBlock s pid i m.1 j).isEmpty)).map (fun j => .event (.mapBlockFill pid i m.1 j)))

def sendMoves (pid i : Nat) (c : CoreSt) : List Move :=
  ((List.range 32).filter (fun ch => !(mget [] c.ch (16 + ch)).isEmpty)).map (fun ch =>
    .event (.fabricMessageDelivery (.send pid i ch)))

def coreMoves (s : State) (p : Pass) (i : Nat) (c : CoreSt) : List Move :=
  pendMoves s.cycle p.pid i .exe c.exe.pend ++ pendMoves s.cycle p.pid i .acc c.acc.pend ++
  c.cmds.flatMap (cmdMoves p.pid i) ++ allEng.flatMap (headMoves p.pid i c) ++ fillMoves s p.pid i c ++ sendMoves p.pid i c ++
  [.fetch p.pid i, .drop p.pid i .exe, .drop p.pid i .acc]

def passMoves (s : State) (p : Pass) : List Move :=
  (if p.st == .resident then
    p.writes.map (fun w => .event (.slotWritePerformed p.pid w.id)) ++
    (List.range p.cores.length).flatMap (fun i => match p.cores[i]? with
      | some c => coreMoves s p i c
      | none => []) ++
    (if s.saveReady p then [.event (.passSave p.pid)] else []) ++
    (if s.finishReady p then [.event (.passFinish p.pid)] else []) ++
    (if fld p.lease 41 40 != 0 && !p.exhausted then [.event (.leaseEnergyExhausted p.pid)] else [])
   else []) ++
  (if s.pages.any (fun k => k.dest.isSome && k.mover == p.pid) then [.event (.pageMoveComplete p.pid)] else [])

/-- Moves of the ordering machine: drains, of merged atomics together, and propagations (R54, R55, R287). -/
def orderMoves (s : State) : List Move :=
  s.bufs.flatMap (fun b => (List.range b.ents.length).map (fun i => .event (.ordDrain b.ag b.cl i))) ++
  s.bufs.flatMap (fun b => ((List.range b.ents.length).filter (fun i => (b.ents[i]?).any (fun e =>
    decide (2 ≤ (s.groupOf b.ag b.cl e).length)))).map (fun i => .merge b.ag b.cl i)) ++
  s.stores.flatMap (fun x => (List.range x.ws.length).map (fun i => .event (.ordPropagate x.id i)))

def waitMoves (s : State) : List Move :=
  (s.waiters.filter (fun x => x.woken)).map (fun x => .event (match x.w with
    | .core pid qc => .wwaitWake pid qc
    | .join rid => .leJoinWake rid))

/-- The first record of each address space that waits to be written. -/
def logMoves : List LogRec → List (BitVec 16) → List Move
  | [], _ => []
  | r :: rs, seen => if seen.contains r.asid then logMoves rs seen else .log r :: logMoves rs (r.asid :: seen)

/-- Moves of the launch engine. -/
def leMoves (s : State) : List Move :=
  (if s.migrating.isSome || s.nextPlace.isSome then [.event .passPlace] else []) ++ [.event .preemptionRequest] ++
  ((s.runs.find? (fun r => r.st == .deferred)).toList).map (fun r => .event (.runDeferredAccept r.rid))

/-- Failed cores that a spare may replace (R13), and units that may be gated or woken (R395). -/
def powerMoves (s : State) : List Move :=
  (s.outCores.filter (fun lc => !s.spared.contains (dieOf lc))).map (fun lc => .event (.spareCoreExchange lc true)) ++
  let all : List PowerUnit := (List.range 64).map PowerUnit.core ++ (List.range 8).map PowerUnit.sau ++ (List.range 8).map PowerUnit.adder
  (all.filter s.mayGate).map (fun u => .event (.unitPowerGate u)) ++ s.gated.map (fun u => .event (.unitPowerWake u))

/-- Every free move of a state, in a fixed order. -/
def State.moves (s : State) : List Move :=
  s.passes.flatMap (passMoves s) ++ orderMoves s ++ waitMoves s ++
  (s.faults.filter (fun f => f.asked.isSome)).map (fun f => .event (.faultReplayWalk f.id)) ++ logMoves s.logq [] ++
  (s.msgs.filter (fun m => m.since.isNone)).map (fun m => .deliver m.id) ++ leMoves s ++
  s.inval.map Move.inval ++ (if s.mg.attest = 0 then [] else [.sign]) ++ (if s.inputs.isEmpty then [] else [.input]) ++ powerMoves s

/-! ### Before the slots of a cycle -/

/-- Deadlines and budgets that fall due, once nothing more happens before the slots (R46, R338). -/
def State.bounds (s : State) : State :=
  s.passes.foldl (fun s p =>
    let go (s : State) (i : Instr) : State := (s.tryEvent i).getD s
    go (go s (.slackDeadlineExpiry p.pid)) (.tickWatchdogExpiry p.pid)) s

/-- What is due happens first; then a free move, or the slots of the cycle begin. Without input power only inputs act. -/
def State.preStep (s : State) : Out3 :=
  if !s.powered then (match s.inputs with
    | i :: r => exec i { s with inputs := r }
    | [] => .next s)
  else
    match s.forced with
    | some t => .next t
    | none =>
      let ms := s.moves
      let d := s.draw (ms.length + 1)
      match ms[d.1]? with
      | some m => d.2.doMove m
      | none => .next d.2.bounds.firstSlot

/-! ### The slot of a stream -/

/-- The bytes of the word at an address in its line (R105). -/
def wordIn (bs : List Byte) (pc : VAddr) : List Byte := (if pc.toNat % 32 = 10 then bs.drop 10 else bs).take 10

/-- The word at the stream's pc in the line that it has fetched. -/
def StreamSt.word? (t : StreamSt) : Option (List Byte) :=
  match t.line with
  | some (a, bs) => if a = lineOf t.pc then some (wordIn bs t.pc) else none
  | none => none

/-- The stream issues from a line. -/
def StreamSt.setLine (t : StreamSt) (e : Nat × List Byte) : StreamSt := { t with line := some e, semWait := none }

/-- A stream's place in the core's order of units. -/
def unitNo : Stream → Nat
  | .acc => 0
  | .exe => 1

/-- The stream holds at the word after its tick (R189). -/
def StreamSt.behindTick (t : StreamSt) : Bool := t.tickWait == some t.pc

/-- The stream fetches its line: a line that the pass holds, or the line in memory (R107). The fetch takes no cycle of its own:
the slot goes on with the line in the same cycle (DESIGN CHOICE, notes/assumptions/58.md). -/
def State.fetchLine (s : State) (x : Ctx) : State :=
  let la := lineOf x.t.pc
  let w := x.w
  let r := s.access x.die x.asid .fetch (BitVec.ofNat 57 la) 20
  let fresh : Option (List Byte × List Nat) := match r.1 with
    | .ok ps => some (r.2.lineBytes x.lc (ps.flatMap (fun q => q.keys)))
    | .error _ => none
  let old := (x.p.lines.filter (fun e => e.1 == la && fresh.map (fun f => f.1) != some e.2)).map (fun e => e.2)
  let d := if old.isEmpty then (0, r.2) else r.2.draw (old.length + 1)
  match d.1, fresh, r.1 with
  | 0, some f, _ =>
    ((d.2.updPass w.pid (fun p => p.addLine la f)).updStream w.pid w.qc w.st (fun t => t.setLine (la, f.1))).consume
      w.pid x.lc (unitNo w.st) f.2
  | 0, none, .error f => if x.t.behindTick then d.2.slotDone w.pid w.qc w.st else d.2.meetFault x f
  | k + 1, _, _ =>
    let e := (la, old.getD k [])
    (d.2.updStream w.pid w.qc w.st (fun t => t.setLine e)).consume w.pid x.lc (unitNo w.st)
      (if x.p.badLines.contains e then [la] else [])
  | _, _, _ => d.2

/-- The other stream's word is passed over in the same cycle (R40). -/
def StreamSt.passOver (t : StreamSt) : StreamSt :=
  { t with pc := nextAddr t.pc, tickWait := if t.behindTick then some (nextAddr t.pc) else t.tickWait }

/-- The slot of a stream found it at a trap of its own, or at a page fault. -/
def State.ownFault (s t : State) (pid qc : Nat) (st : Stream) : Bool :=
  decide (s.faults.length < t.faults.length) || (match t.core? pid qc with
    | some c => (c.stream st).settle
    | none => true)

/-- The limit of an enqw or deqw, its handle operand, and which of the two it is. -/
def limitOf : Instr → Option (BitVec 4 × Opnd × Bool)
  | .enqw _ _ lim _ _ a _ => some (lim, a, false)
  | .deqw _ _ lim _ _ a => some (lim, a, true)
  | _ => none

/-- The limit of an enqw or deqw counts from the first cycle in which the word reaches issue, also while other holds keep it
from its first attempt; until then the trap's detail has the handle as it can be read in each cycle, and free values (R295). -/
def State.arm (s : State) (x : Ctx) (i : Instr) : State :=
  match limitOf i, x.t.limFrom with
  | some (lim, a, deq), none =>
    let free := Config.unstated 6 (w64 x.w.cycle) (w64 x.w.pid)
    let hd := match readSrcs x.c x.w 0 x.c.ch [a] with
      | some vs => wordAt vs 0
      | none => free
    let l : LimSt := { since := x.w.cycle, bound := 2 ^ (lim.toNat + 6), info := w64 (fld hd 31 0 * 2 ^ 32 + fld free 31 0),
                       deq := deq }
    s.updStream x.w.pid x.w.qc x.w.st (fun t => { t with limFrom := some l })
  | some (_, a, _), some l =>
    if l.tried then s
    else match readSrcs x.c x.w 0 x.c.ch [a] with
      | some vs => s.updStream x.w.pid x.w.qc x.w.st (fun t => { t with limFrom := some { l with info := l.withHandle (wordAt vs 0) } })
      | none => s
  | none, some _ => s.updStream x.w.pid x.w.qc x.w.st (fun t => { t with limFrom := none })
  | none, none => s

/-- The engine of a direct word: a vector or curve word with a fixed latency (R210, R243). -/
def directEng (bs : List Byte) : Option Eng :=
  let r := Raw.unpack (wordOfBytes bs)
  if r.pd = 0 then none
  else if 0x80 ≤ r.op.toNat && r.op.toNat < 0xB0 then some .vec
  else if 0x78 ≤ r.op.toNat && r.op.toNat < 0x80 then some .curve
  else none

/-- A lease or the throttle order paces the engine of a direct word, which holds the stream at it in cycles of the capo's
choosing (R211, R243, R394, R399; notes/assumptions/60.md). -/
def State.pacesWord (s : State) (x : Ctx) (bs : List Byte) : Bool :=
  match directEng bs with
  | some e =>
    (fld x.p.lease 41 40 != 0 || s.mg.level != 0) && Config.holdsDirect s.cycle x.lc (engNo e) ||
    (e == .vec && s.vecPaced x.p x.lc)
  | none => false

/-- The word at the pc issues, or is illegal (R127). -/
def State.runWord (s : State) (x : Ctx) (bs : List Byte) : Out3 :=
  if x.t.behindTick then .next (s.slotDone x.w.pid x.w.qc x.w.st)
  else
    match decodeBytes bs with
    | .ok i => if s.pacesWord x bs then .next (s.slotDone x.w.pid x.w.qc x.w.st) else exec i (s.arm x i)
    | .error _ => .next ((s.takeTrap x.w.pid x.w.qc x.w.st x.t.pc 0x01 0).slotDone x.w.pid x.w.qc x.w.st)

/-- A trap that the stream takes on its next word (R122). -/
def State.takeNext (s : State) (x : Ctx) (n : NextTrap) (cause : BitVec 8) (info : Word) : State :=
  ((s.updStream x.w.pid x.w.qc x.w.st (fun t => { t with nextTrap := t.nextTrap.erase n })).takeTrap x.w.pid x.w.qc x.w.st
    x.t.pc cause info).slotDone x.w.pid x.w.qc x.w.st

/-- The watchdog's trap: its count restarts as the handler is entered (R338). -/
def State.takeDog (s : State) (x : Ctx) (b : Nat) : State :=
  (s.updPass x.w.pid (fun p => { p with wd := 0 })).takeNext x (.watchdog b) 0x1F (w64 b)

/-- The first of the traps on the next word: those of earlier words come before the watchdog's. -/
def firstTrap (l : List NextTrap) : Option NextTrap :=
  (l.find? (fun n => match n with
    | .watchdog _ => false
    | _ => true)).orElse (fun _ => l.head?)

/-- The stream stands at a word of its own (R122, R383). -/
def State.atWord (s : State) (x : Ctx) (bs : List Byte) : Out3 :=
  match firstTrap x.t.nextTrap with
  | none => s.runWord x bs
  | some (.pagePool info) => .next (s.takeNext x (.pagePool info) 0x1E info)
  | some (.linkLost m n) => .next (s.takeNext x (.linkLost m n) 0x23 (w64 (m.toNat * 2 ^ 32 + n)))
  | some (.watchdog b) =>
    let dog := s.takeDog x b
    match s.runWord x bs with
    | .next t => if x.t.behindTick || !s.ownFault t x.w.pid x.w.qc x.w.st then .next dog else .next t
    | o => o

/-- The budget of a watchdog trap that a stream takes where the next word cannot be fetched: behind its tick, or while its quire
is stalled (R338). -/
def StreamSt.dogAt (t : StreamSt) (stalled : Bool) : Option Nat :=
  match firstTrap t.nextTrap with
  | some (.watchdog b) => if t.behindTick || stalled then some b else none
  | _ => none

/-- The watchdog's trap is taken also while a slack stall or a boundary holds the stream, but not under a page fault, whose
cycles the watchdog does not count (R48, R338). -/
def State.dogStalls (s : State) (x : Ctx) : Bool := x.t.watched && !s.faults.any (fun f => f.pid == x.p.pid)

/-- A stalled stream at a word of its own: it takes the traps on its next word, the word itself does not issue. -/
def State.trapOnly (s : State) (x : Ctx) : State :=
  match firstTrap x.t.nextTrap with
  | none => s.slotDone x.w.pid x.w.qc x.w.st
  | some (.pagePool info) => s.takeNext x (.pagePool info) 0x1E info
  | some (.linkLost m n) => s.takeNext x (.linkLost m n) 0x23 (w64 (m.toNat * 2 ^ 32 + n))
  | some (.watchdog b) => s.takeDog x b

/-- The execute stream stands at a bcq or jcq on an empty queue: the access stream of its core has its slot first (R156). -/
def condWaits (x : Ctx) (bs : List Byte) : Bool :=
  x.w.st == .exe && x.t.nextTrap.isEmpty && !x.t.behindTick && (match decodeBytes bs with
    | .ok (.bcq _ _ q _) => (headOf x q).isNone
    | .ok (.jcq _ q) => (headOf x q).isNone
    | _ => false)

/-- The access slot of a core comes before its execute slot in this cycle. -/
def State.swapSlots (s : State) (pid qc : Nat) : State := { s with turn := .swap pid qc }

/-- The slot of a stream: nothing issues while its quire is stalled, the watchdog's trap apart, after its exit, or while results
land before a trap handler (R33, R123, R159, R338); else it fetches its line, passes over the other stream's words, or stands at
its own. Before a
handler every pending result lands, the untagged ones bound for channels too (DESIGN CHOICE, notes/assumptions/59.md). -/
def State.slotStep (s : State) (pid qc : Nat) (st : Stream) : Out3 :=
  match s.ctx? { st := st, pd := 0, ta := 0, tc := 0 } with
  | none => .fault .noSuchCore
  | some x =>
    let stalled := s.stalled x.p
    if x.t.exited || (stalled && !s.dogStalls x) then .next (s.slotDone pid qc st)
    else if x.t.settle then
      (if x.t.pend.isEmpty then .next (s.updStream pid qc st (fun t => { t with settle := false }))
       else .next (s.slotDone pid qc st))
    else
      match x.t.word?, x.t.dogAt stalled with
      | none, some b =>
        let t := s.fetchLine x
        .next (if t.turn = s.turn then t else s.takeDog x b)
      | none, none => .next (s.fetchLine x)
      | some bs, _ =>
        if wordStream (wordOfBytes bs) != st then .next (s.updStream pid qc st StreamSt.passOver)
        else if stalled then .next (s.trapOnly x)
        else if condWaits x bs && s.turn == .issue pid qc st then .next (s.swapSlots pid qc)
        else s.atWord x bs

/-! ### The end of a cycle -/

/-- A semw held at a counter above zero issues (R134). -/
def State.grantSemw (s : State) (pid qc : Nat) (st : Stream) : State :=
  match s.core? pid qc with
  | none => s
  | some c =>
    match (c.stream st).semWait with
    | none => s
    | some (n, pops) =>
      if semVal c n = 0 then s
      else
        (s.updCore pid qc (fun c =>
          ({ semDec c n with ch := popSrcs c.ch pops } : CoreSt).updStream st (fun t => t.after .seq))).tickSeq

/-- The class on which an engine's wait acquires (R72). -/
def waitCls : Eng → Cls
  | .mat => .m
  | .copy => .c
  | .vec => .v
  | .curve => .s
  | .att => .c

def State.grantEng (s : State) (pid qc : Nat) (e : Eng) : State :=
  match s.core? pid qc with
  | none => s
  | some c =>
    match (c.cmdsIn e .queued).head? with
    | some k => s.takeWait pid qc (waitCls e) k
    | none => s

/-- The waits of a core are considered in the order of R134; the sequencers wait while the quire is stalled. -/
def State.grantCore (s : State) (p : Pass) (qc : Nat) : State :=
  let s1 := if s.stalled p then s else (s.grantSemw p.pid qc .exe).grantSemw p.pid qc .acc
  allEng.foldl (fun s e => s.grantEng p.pid qc e) s1

def State.grants (s : State) : State :=
  (s.passes.filter (fun p => p.st == .resident)).foldl (fun s p =>
    (List.range p.cores.length).foldl (fun s i => s.grantCore p i) s) s

/-- A stream in the next cycle: the limits of repeating words wait while the quire is stalled (R295). -/
def StreamSt.nextCycle (t : StreamSt) (stalled : Bool) : StreamSt :=
  { t with semWait := none,
           limFrom := if stalled then t.limFrom.map (fun l => { l with since := l.since + 1 }) else t.limFrom }

/-- A shared counter as the last write of the cycle leaves it (R163). -/
def CoreSt.written (c : CoreSt) (num : Nat) (old : Word) : Word :=
  ((c.crNew.find? (fun e => e.1 == num)).map (fun e => e.2)).getD old

/-- A core in the next cycle: fixed-latency results land, counters take their new values, the copy engine has its bytes and
the array one update of FP8 (R268, R428), and completion events that waited for the cycle are raised. -/
def CoreSt.nextCycle (c : CoreSt) (cycle : Nat) (stalled late : Bool) (bytes : Nat) : CoreSt :=
  let c := landDue (landDue c .exe cycle) .acc cycle
  let c := { c with exe := c.exe.nextCycle stalled, acc := c.acc.nextCycle stalled,
                    slstall := c.written 0x012 c.slstall + (if late then 1 else 0), replays := c.written 0x013 c.replays,
                    semsat := if c.crNew.any (fun e => e.1 == 0x014) then c.written 0x014 0 + c.satNow else c.semsat,
                    satNow := 0, crNew := [], waitNow := [], copyLeft := bytes, matLeft := 2 }
  c.raiseEvent cycle ((c.tracked.head?.map (fun n => n.1)).getD .mat)

/-- A command of core i is late. -/
def Pass.lateOn (p : Pass) (cycle i : Nat) : Bool := p.late && p.deadlines.any (fun d => d.qc == i && p.overdue cycle d)

/-- A deadline in the next cycle: passed ones whose commands are done go. -/
def Pass.nextDeadlines (p : Pass) (cycle : Nat) (paged : Bool) : List Deadline :=
  (p.deadlines.map (fun d => if paged then { d with at_ := d.at_ + 1 } else d)).filter (fun d =>
    decide (cycle < d.at_) || p.overdue cycle d)

/-- Pins released in a cycle bound the ticks of that cycle only (R181). -/
def Sig.nextCycle (g : Sig) : Sig := { g with slots := g.slots.map (fun q => { q with freed := false }) }

/-- A resident pass in the next cycle (R33, R46, R338, R376). -/
def Pass.nextCycle (p : Pass) (cycle : Nat) (stalled paged : Bool) (bytes : Nat → Nat) : Pass :=
  { p with sched := if stalled || 2 ^ 32 - 1 ≤ p.sched then p.sched else p.sched + 1,
           wd := if paged then p.wd else p.wd + 1,
           deadlines := p.nextDeadlines cycle paged,
           sigs := p.sigs.map (fun x => (x.1, x.2.map Sig.nextCycle)),
           cores := (List.range p.cores.length).zipWith (fun i c =>
             c.nextCycle (cycle + 1) stalled (!paged && p.lateOn cycle i) (bytes c.lcore)) p.cores }

def State.advance (s : State) : State :=
  { s with cycle := s.cycle + 1, turn := .pre, capo := [],
           passes := s.passes.map (fun p =>
             if p.st == .resident then
               p.nextCycle s.cycle (s.stalled p) (s.faults.any (fun f => f.pid == p.pid)) (s.copyRate p)
             else p) }

/-- After the slots: waits, ticks whose conditions hold now, the capo, then the next cycle. -/
def State.postStep (s : State) : State := s.grants.dropAcqs.noteTicks.capoStep.advance

end Sys2Proof.Machine
end

