-- ==== Sys2Proof/Machine/Step.lean ====
section
/-! DEFINITION. The step of the module, and the placement of one word where the next step issues it. -/

namespace Sys2Proof.Machine

/-- One step: what happens before the slots of a cycle, one slot of a stream, or the end of the cycle. -/
def step (s : State) : Host.Outcome State Fault Refusal :=
  match s.turn with
  | .pre => s.preStep
  | .issue pid qc st => s.slotStep pid qc st
  | .swap pid qc => s.slotStep pid qc .acc
  | .last pid qc => s.slotStep pid qc .exe
  | .post => .next s.postStep

/-- The run of a placed word: one core, no signals, text at 0 (notes/assumptions/5.md). -/
def wordRun (rid : Nat) : Run :=
  { rid := rid, addr := 0,
    rcd := { prog := 0, param := 0, asid := 0, prio := 0, powc := 0, qd := 1, qc := 1, budget := 4096, jv := false, join := 0,
             dv := false, done := 0, dthr := 0, jthr := 0, levels := [], sigs := [] },
    st := .active, stamp := 0, eff := 0, aged := 0, target := none, made := 1, hold := none, cause := 0, joinKey := 0 }

/-- A stream of the placed pass has fetched the word's line. -/
def setText (c : CoreSt) (st : Stream) (bs : List Byte) : CoreSt := c.updStream st (fun t => { t with line := some (0, bs) })

/-- A word is placed: a resident pass on core 0 whose stream has fetched it, and whose slot is next. -/
def State.withFetchWord (s : State) (nbits w : Nat) : State :=
  let word : IWord := BitVec.ofNat 80 (w % 2 ^ nbits)
  let st := wordStream word
  let bs := bytesOfWord word ++ List.replicate 10 0
  let pid := s.nextId
  let p := newPass pid (wordRun (pid + 1)) { dies := [0], core := 0 } (s.asidCtx 0)
  { s with nextId := pid + 2, runs := s.runs ++ [wordRun (pid + 1)],
           passes := s.passes ++ [{ p with cores := p.cores.map (fun c => setText c st bs) }],
           turn := .issue pid 0 st }

end Sys2Proof.Machine
end

