-- ==== Sys2Proof/Safety.lean ====
section
/-! DEFINITION. The terms in which claims speak of the machine: the conditions under which a word issues, the core that it
leaves behind, what has landed in a destination, and the invariants of a run. -/

namespace Sys2Proof.Machine

/-! ### Conditions of issue -/

/-- The word has its slot and meets the holds that every word meets: its n channels are bound (R402), its consume mask and
its tag are free (R119, R120), its registers are not being written and its channels have room (R42, R118), and its source
channels hold landed entries (R111, R141). `x` is what it finds at its slot and `vs` are the values of its sources. -/
abbrev Issues (s : State) (h : Hdr) (srcs dsts : List Opnd) (x : Ctx) (vs : List Val) : Prop :=
  s.ctx? h = some x ∧ dsts.all (x.bound s) = true ∧ x.ready dsts = true ∧ readSrcs x.c x.w 0 x.c.ch srcs = some vs

/-! ### The next state of a word -/

/-- After the word, `t` is `s1` (the state with the word's own effect outside its pass) with these changes alone: the pass
of the word is `p` with its core replaced by `c`, the next serial number is taken, and the turn passes to the next slot.
Where `s1` is the state before the word and `p` the pass it found, memory, path buffers, stores, runs, signals, every other
pass and every other core are as they were. -/
structure Commits (x : Ctx) (s1 : State) (p : Pass) (c : CoreSt) (t : State) : Prop where
  rest   : { t with passes := s1.passes, seq := s1.seq, turn := s1.turn } = s1
  seq    : t.seq = s1.seq + 1
  turn   : t.turn = (s1.slotDone x.w.pid x.w.qc x.w.st).turn
  others : ∀ pid, pid ≠ x.w.pid → t.pass? pid = s1.pass? pid
  own    : t.pass? x.w.pid = some { p with cores := p.cores.set x.w.qc c }

/-- What a core shows of a destination: a register's value, or the newest entry of a channel. -/
def readBack (c : CoreSt) (st : Stream) : Opnd → Option Val
  | .r n => some (.w (mget 0 (c.stream st).regs n.val))
  | .v n => some (.v (mget 0 c.v n.val))
  | .k n => some (.w (mget 0 c.k n.val))
  | o => ((mget [] c.ch (chIdx o)).getLast?.bind (fun e => e.val)).map Val.w

/-- The stream of a core that a word is not of. -/
def otherStream : Stream → Stream
  | .exe => .acc
  | .acc => .exe

/-- How many entries the sources of a word take from a channel: one for each source that names it without .p (R111). -/
def popsOf (srcs : List Opnd) (j : Nat) : Nat := (srcs.filter (fun o => isChan o && !keeps o && chIdx o == j)).length

/-- How many of the destinations of a word are a channel. -/
def pushesOf (dsts : List Opnd) (j : Nat) : Nat := (dsts.filter (fun o => isChan o && chIdx o == j)).length

/-- The core `c` differs from the core `c0` only in the channels that the word names, in its stream's program counter, loop
stack and held word, and in the results added to those in flight: no register, semaphore, control register, command, tile
and no part of the other stream has changed. From a channel the oldest entries are gone that the word's sources popped, and
at its end stands one entry for each destination that is this channel, still without its content (R24, R111, R141). -/
structure CoreFrame (x : Ctx) (c0 : CoreSt) (srcs dsts : List Opnd) (c : CoreSt) : Prop where
  rest  : { c with exe := c0.exe, acc := c0.acc, ch := c0.ch } = c0
  other : c.stream (otherStream x.w.st) = c0.stream (otherStream x.w.st)
  own   : { c.stream x.w.st with pc := (c0.stream x.w.st).pc, pend := (c0.stream x.w.st).pend,
                                 loops := (c0.stream x.w.st).loops, ldepth := (c0.stream x.w.st).ldepth,
                                 semWait := (c0.stream x.w.st).semWait, limFrom := (c0.stream x.w.st).limFrom } =
            c0.stream x.w.st
  chan  : ∀ j, ∃ l, mget [] c.ch j = (mget [] c0.ch j).drop (popsOf srcs j) ++ l ∧ l.length = pushesOf dsts j ∧
    ∀ e ∈ l, e.ty = .data ∧ e.val = none

/-- Where the stream goes after the word: at `.seq` the next word in sequence, through the end check of its loops
(R106, R155, R158). -/
structure NextWord (x : Ctx) (c0 : CoreSt) (n : Next) (c : CoreSt) : Prop where
  pc    : (c.stream x.w.st).pc = ((c0.stream x.w.st).after n).pc
  loops : (c.stream x.w.st).loops = ((c0.stream x.w.st).after n).loops
  depth : (c.stream x.w.st).ldepth = ((c0.stream x.w.st).after n).ldepth
  held  : (c.stream x.w.st).semWait = none ∧ (c.stream x.w.st).limFrom = none

/-- The result `v` of a fixed-latency word (R116): in flight, due exactly PD cycles after issue; once the results of that
cycle have landed, the destination holds it. -/
structure FixedResult (x : Ctx) (d : Opnd) (v : Val) (c : CoreSt) : Prop where
  flight : ∃ p, (c.stream x.w.st).pend = x.t.pend ++ [p] ∧ p.due = .exact (x.w.cycle + x.h.pd.val) ∧ p.tag = x.h.ta ∧
    p.issued = x.w.cycle
  value  : readBack (landDue c x.w.st (x.w.cycle + x.h.pd.val)) x.w.st d = some v

/-- The result `v` of a variable-latency word (R119, R121): in flight under the word's tag, due between two cycles counted
from issue; once it lands, the destination holds it. -/
def VarResult (x : Ctx) (d : Opnd) (v : Val) (lo hi : Nat) (c : CoreSt) : Prop :=
  ∃ p, (c.stream x.w.st).pend = x.t.pend ++ [p] ∧ p.due = .within (x.w.cycle + lo) (x.w.cycle + hi) ∧ p.tag = x.h.ta ∧
    p.issued = x.w.cycle ∧ readBack (landPend c x.w.st p) x.w.st d = some v

/-- A word of fixed latency that only writes `d` and moves its stream: the whole of what it does. -/
def FixedTo (s : State) (x : Ctx) (srcs : List Opnd) (d : Opnd) (v : Val) (n : Next) (t : State) : Prop :=
  ∃ c, Commits x s x.p c t ∧ CoreFrame x x.c srcs [d] c ∧ NextWord x x.c n c ∧ FixedResult x d v c

/-- A word of fixed latency that only writes `d`; its stream goes on in sequence. -/
def FixedWord (s : State) (x : Ctx) (srcs : List Opnd) (d : Opnd) (v : Val) (t : State) : Prop :=
  FixedTo s x srcs d v .seq t

/-- A word of variable latency that only writes `d`. -/
def VarWord (s : State) (x : Ctx) (srcs : List Opnd) (d : Opnd) (v : Val) (lo hi : Nat) (t : State) : Prop :=
  ∃ c, Commits x s x.p c t ∧ CoreFrame x x.c srcs [d] c ∧ NextWord x x.c .seq c ∧ VarResult x d v lo hi c

/-- A word without a result that only moves its stream. -/
def PlainWord (s : State) (x : Ctx) (srcs : List Opnd) (n : Next) (t : State) : Prop :=
  ∃ c, Commits x s x.p c t ∧ CoreFrame x x.c srcs [] c ∧ NextWord x x.c n c ∧ (c.stream x.w.st).pend = x.t.pend

/-- A word without a result whose own effect is that its core becomes `c0`. -/
def CoreWord (s : State) (x : Ctx) (srcs : List Opnd) (c0 : CoreSt) (t : State) : Prop :=
  ∃ c, Commits x s x.p c t ∧ CoreFrame x c0 srcs [] c ∧ NextWord x c0 .seq c ∧ (c.stream x.w.st).pend = (c0.stream x.w.st).pend

/-- A word without a result whose own effect turns the state into `s1`: its pass and its core as `s1` has them, then the
stream's next word. -/
def EffectWord (x : Ctx) (srcs : List Opnd) (s1 : State) (n : Next) (t : State) : Prop :=
  ∃ p c0 c, s1.pass? x.w.pid = some p ∧ p.cores[x.w.qc]? = some c0 ∧ Commits x s1 p c t ∧ CoreFrame x c0 srcs [] c ∧
    NextWord x c0 n c ∧ (c.stream x.w.st).pend = (c0.stream x.w.st).pend

/-- The results of a word in the order of its destinations: each for its register, or for the entry that it has taken of its
channel, under a number of its own. -/
def resultsOf (sq : Nat) : Nat → List (Opnd × Option Val) → List Out
  | _, [] => []
  | i, (o, v) :: r => { dst := if isChan o then .chan o (sq * 4 + i) else .reg o, val := v } :: resultsOf sq (i + 1) r

/-- The entries that the results of a word take of a channel, in order. -/
def entriesOf (sq j : Nat) : Nat → List (Opnd × Option Val) → List ChEnt
  | _, [] => []
  | i, (o, _) :: r =>
    if isChan o = true ∧ chIdx o = j then { id := sq * 4 + i, ty := .data, val := none } :: entriesOf sq j (i + 1) r
    else entriesOf sq j (i + 1) r

/-- A word with results whose own effect turns the state into `s1`: they go in flight together to its destinations in order,
to land no earlier than `lo` cycles after issue, with what they wait for and the values known at issue. -/
def FlightWord (x : Ctx) (srcs : List Opnd) (s1 : State) (outs : List (Opnd × Option Val)) (due : Due) (req : Req)
    (pin : Option (Nat × Nat)) (arg : Word) (n : Next) (t : State) : Prop :=
  ∃ p c0 c q, s1.pass? x.w.pid = some p ∧ p.cores[x.w.qc]? = some c0 ∧ Commits x s1 p c t ∧
    CoreFrame x c0 srcs (outs.map (fun o => o.1)) c ∧ NextWord x c0 n c ∧
    (∀ j, mget [] c.ch j = (mget [] c0.ch j).drop (popsOf srcs j) ++ entriesOf s1.seq j 0 outs) ∧
    (c.stream x.w.st).pend = (c0.stream x.w.st).pend ++ [q] ∧ q.tag = x.h.ta ∧ q.issued = x.w.cycle ∧ q.due = due ∧
    q.req = req ∧ q.pin = pin ∧ q.arg = arg ∧ q.seq = s1.seq ∧ q.outs = resultsOf s1.seq 0 outs

/-! ### Taking a trap -/

/-- The word of stream `x.w.st` at its pc takes a trap with a handler (R380): epc names the word, tcause and tinfo hold cause
and detail, the next word is the one at tvec, and results land first (R123). Nothing else of the stream and of its core, no
other core and pass, no memory, path buffer, channel or signal changes; a registration of the word as a waiter ends. -/
structure TrapEntry (s : State) (x : Ctx) (cause : BitVec 8) (info : Word) (t : State) : Prop where
  rest    : { t with passes := s.passes, waiters := s.waiters, turn := s.turn } = s
  waiters : t.waiters = s.waiters.filter (fun w => w.w != .core x.w.pid x.w.qc)
  turn    : t.turn = (s.slotDone x.w.pid x.w.qc x.w.st).turn
  others  : ∀ pid, pid ≠ x.w.pid → t.pass? pid = s.pass? pid
  own     : t.pass? x.w.pid = some { x.p with cores := x.p.cores.set x.w.qc (x.c.updStream x.w.st (fun _ =>
      { x.t with epc := x.t.pc, tcause := cause.zeroExtend 64, tinfo := info, pc := x.t.tvec, settle := true,
                 semWait := none, limFrom := none })) }

/-- A trap on the word: taken where tvec is a word address other than 0; else the run is terminated with the trap's cause,
its detail, and the core and stream that took it (R380, R384). -/
def TakesTrap (s : State) (x : Ctx) (cause : BitVec 8) (info : Word) (t : State) : Prop :=
  (x.t.tvec ≠ 0 ∧ isWordAddr x.t.tvec = true → TrapEntry s x cause info t) ∧
  (x.t.tvec = 0 ∨ isWordAddr x.t.tvec = false →
    t = (s.terminate x.p.rid cause x.c.lcore (if x.w.st = .acc then 0 else 1) info).slotDone x.w.pid x.w.qc x.w.st)

/-- A condition of R155. -/
def r155 (cc : BCond) (a : Word) : Prop :=
  match cc with
  | .z => a = 0
  | .nz => a ≠ 0
  | .ltz => a.toInt < 0
  | .gez => 0 ≤ a.toInt
  | .gtz => 0 < a.toInt
  | .lez => a.toInt ≤ 0

/-- The go of a word without a result. -/
def plainGo (s1 : State) (n : Next) : Go :=
  { st := s1, outs := [], due := .exact 0, req := .none, pin := none, arg := 0, next := n }

/-- The issue of a word without a result whose own effect turned the state into `s1` (what issue adds: the obligation
IssueEffect). -/
def Ctx.issued (x : Ctx) (srcs : List Opnd) (s1 : State) : State := State.issueGo x srcs (plainGo s1 .seq)

/-- The issue of a word with results in flight whose own effect turned the state into `s1`. -/
def Ctx.flying (x : Ctx) (srcs : List Opnd) (s1 : State) (outs : List (Opnd × Option Val)) (due : Due) (req : Req) : State :=
  State.issueGo x srcs { st := s1, outs := outs, due := due, req := req, pin := none, arg := 0, next := .seq }

/-- A value fits a destination: a vector register takes a vector, every other destination a word. -/
def fits : Opnd → Val → Bool
  | .v _, .v _ => true
  | .v _, .w _ => false
  | _, .w _ => true
  | _, .v _ => false

/-! ### What the integer words compute -/

/-- A word with one result: its header, its sources in order, its destination, and the result of its source values. -/
abbrev ResultRow := Hdr × List Opnd × Opnd × ((Nat → Word) → Word)

/-- The effects of R144. -/
def r144 : Instr → Option ResultRow
  | .add h d a b => some (h, [a, b], d, fun w => BitVec.ofNat 64 ((w 0).toNat + (w 1).toNat))
  | .sub h d a b => some (h, [a, b], d, fun w => BitVec.ofInt 64 ((w 0).toInt - (w 1).toInt))
  | .addi h d a imm => some (h, [a], d, fun w => BitVec.ofInt 64 ((w 0).toInt + imm.toInt))
  | .mul h d a b => some (h, [a, b], d, fun w => BitVec.ofNat 64 ((w 0).toNat * (w 1).toNat))
  | .mulh h d a b => some (h, [a, b], d, fun w => BitVec.ofInt 64 ((w 0).toInt * (w 1).toInt / 2 ^ 64))
  | .mulhu h d a b => some (h, [a, b], d, fun w => BitVec.ofNat 64 ((w 0).toNat * (w 1).toNat / 2 ^ 64))
  | .and h d a b => some (h, [a, b], d, fun w => w 0 &&& w 1)
  | .or h d a b => some (h, [a, b], d, fun w => w 0 ||| w 1)
  | .xor h d a b => some (h, [a, b], d, fun w => w 0 ^^^ w 1)
  | .andn h d a b => some (h, [a, b], d, fun w => w 0 &&& ~~~(w 1))
  | .clz h d a => some (h, [a], d, fun w =>
      BitVec.ofNat 64 ((List.range 64).takeWhile (fun i => !(w 0).getLsbD (63 - i))).length)
  | .ctz h d a => some (h, [a], d, fun w =>
      BitVec.ofNat 64 ((List.range 64).takeWhile (fun i => !(w 0).getLsbD i)).length)
  | .popc h d a => some (h, [a], d, fun w => BitVec.ofNat 64 ((List.range 64).filter (fun i => (w 0).getLsbD i)).length)
  | .min h d a b => some (h, [a, b], d, fun w => if (w 0).toInt ≤ (w 1).toInt then w 0 else w 1)
  | .max h d a b => some (h, [a, b], d, fun w => if (w 0).toInt ≤ (w 1).toInt then w 1 else w 0)
  | .minu h d a b => some (h, [a, b], d, fun w => if (w 0).toNat ≤ (w 1).toNat then w 0 else w 1)
  | .maxu h d a b => some (h, [a, b], d, fun w => if (w 0).toNat ≤ (w 1).toNat then w 1 else w 0)
  | .mov h d a => some (h, [a], d, fun w => w 0)
  | .sel h d a b c => some (h, [a, b, c], d, fun w => if w 2 = 0 then w 1 else w 0)
  | _ => none

/-- A shift by the amount n (R145). -/
def r145 : Instr → Option (Hdr × Opnd × Opnd × ShAmt × (Word → Nat → Word))
  | .shl h d a n => some (h, d, a, n, fun x n => BitVec.ofNat 64 (x.toNat * 2 ^ n))
  | .shr h d a n => some (h, d, a, n, fun x n => BitVec.ofNat 64 (x.toNat / 2 ^ n))
  | .sra h d a n => some (h, d, a, n, fun x n => BitVec.ofInt 64 (x.toInt / 2 ^ n))
  | .rol h d a n => some (h, d, a, n, fun x n => x.rotateLeft n)
  | _ => none

/-- A condition of R146 holds. -/
def r146 (cc : ICond) (a b : Word) : Prop :=
  match cc with
  | .eq => a = b
  | .ne => a ≠ b
  | .lt => a.toInt < b.toInt
  | .le => a.toInt ≤ b.toInt
  | .ltu => a.toNat < b.toNat
  | .leu => a.toNat ≤ b.toNat
  | .gt => b.toInt < a.toInt
  | .ge => b.toInt ≤ a.toInt
  | .gtu => b.toNat < a.toNat
  | .geu => b.toNat ≤ a.toNat

/-- The effects of R148 and R149 on well-formed words; the destination is a source where the word keeps some of its bits. -/
def r148 : Instr → Option ResultRow
  | .li h d imm => some (h, [], d, fun _ => BitVec.ofInt 64 imm.toInt)
  | .lui h d imm => some (h, [d], d, fun w => BitVec.ofInt 64 (imm.toInt * 2 ^ 22 + (w 0).toNat % 2 ^ 22))
  | .luiHi h d imm => some (h, [d], d, fun w => BitVec.ofNat 64 (imm.toNat * 2 ^ 44 + (w 0).toNat % 2 ^ 44))
  | .ext h u d a w => some (h, [a], d, fun x =>
      if u then BitVec.ofNat 64 ((x 0).toNat % 2 ^ w.toNat)
      else ((x 0) <<< (64 - w.toNat)).sshiftRight (64 - w.toNat))
  | .bfx h sg d a lo w => some (h, [a], d, fun x =>
      if sg then ((x 0) <<< (64 - lo.toNat - w.toNat)).sshiftRight (64 - w.toNat)
      else BitVec.ofNat 64 ((x 0).toNat / 2 ^ lo.toNat % 2 ^ w.toNat))
  | .ins h d a lo w => some (h, [a, d], d, fun x =>
      BitVec.ofNat 64 ((x 1).toNat / 2 ^ (lo.toNat + w.toNat) * 2 ^ (lo.toNat + w.toNat) +
        (x 0).toNat % 2 ^ w.toNat * 2 ^ lo.toNat + (x 1).toNat % 2 ^ lo.toNat))
  | _ => none

/-- Quotient and remainder (R147). -/
def r147 : Instr → Option ResultRow
  | .div h d a b => some (h, [a, b], d, fun w =>
      if w 1 = 0 then 0xFFFFFFFFFFFFFFFF else BitVec.ofInt 64 ((w 0).toInt.tdiv (w 1).toInt))
  | .divu h d a b => some (h, [a, b], d, fun w =>
      if w 1 = 0 then 0xFFFFFFFFFFFFFFFF else BitVec.ofNat 64 ((w 0).toNat / (w 1).toNat))
  | .rem h d a b => some (h, [a, b], d, fun w => if w 1 = 0 then w 0 else BitVec.ofInt 64 ((w 0).toInt.tmod (w 1).toInt))
  | .remu h d a b => some (h, [a, b], d, fun w => if w 1 = 0 then w 0 else BitVec.ofNat 64 ((w 0).toNat % (w 1).toNat))
  | _ => none

/-! ### What the scalar floating-point words compute -/

/-- A floating-point word: header, format, rounding mode, destination, sources, and the exact function of R151. -/
abbrev FpRow := Hdr × FW × RM × Opnd × List Opnd × (List Rv → Rv)

/-- R151, words of fixed latency. -/
def r151 : Instr → Option FpRow
  | .fadd h f rm d a b => some (h, f, rm, d, [a, b], fun v => Rv.add rm (rvAt v 0) (rvAt v 1))
  | .fsub h f rm d a b => some (h, f, rm, d, [a, b], fun v => Rv.add rm (rvAt v 0) (rvAt v 1).neg)
  | .fmul h f rm d a b => some (h, f, rm, d, [a, b], fun v => Rv.mul (rvAt v 0) (rvAt v 1))
  | .ffma h f rm d a b c => some (h, f, rm, d, [a, b, c], fun v => Rv.fma rm (rvAt v 0) (rvAt v 1) (rvAt v 2))
  | _ => none

/-- R151, words of variable latency. -/
def r151Slow : Instr → Option FpRow
  | .fdiv h f rm d a b => some (h, f, rm, d, [a, b], fun v => Rv.div (rvAt v 0) (rvAt v 1))
  | .fsqrt h f rm d a => some (h, f, rm, d, [a], fun v => Rv.sqrt (rvAt v 0))
  | _ => none

/-! ### Words of one value -/

/-- A word of fixed latency with one result that it forms from the values of its sources and from what it finds. -/
abbrev ValRow := Hdr × List Opnd × Opnd × (State → Ctx → List Val → Val)

/-- A key word in its scalar form (R241): every source is a scalar. -/
def keyRow : Instr → Option (Hdr × List Opnd × Opnd × (List Word → Word))
  | .ckey h sh d a => some (h, [a], d, fun l => ckeyOf sh (argW l 0))
  | .cunk h sh d a => some (h, [a], d, fun l => cunkOf sh (argW l 0))
  | .cadd h sh sat fl d a b => some (h, [a, b], d, fun l => caddOf sh false sat fl (argW l 0) (argW l 1))
  | .csub h sh sat fl d a b => some (h, [a, b], d, fun l => caddOf sh true sat fl (argW l 0) (argW l 1))
  | .ccmp h sh cc d a b => some (h, [a, b], d, fun l => ccmpOf sh cc (argW l 0) (argW l 1))
  | .cbox h sh d a b => some (h, [a, b, pairHi b], d, fun l => cboxOf sh (argW l 0) (argW l 1) (argW l 2))
  | .cnext h sh incl d a b => some (h, [a, b, pairHi b], d, fun l => cnextOf sh incl (argW l 0) (argW l 1) (argW l 2))
  | .cprev h sh incl d a b => some (h, [a, b, pairHi b], d, fun l => cprevOf sh incl (argW l 0) (argW l 1) (argW l 2))
  | .cclamp h sh d a b => some (h, [a, b, pairHi b], d, fun l => cclampOf sh (argW l 0) (argW l 1) (argW l 2))
  | .cmask h sh m d a => some (h, [a], d, fun l => cmaskOf sh m (argW l 0))
  | _ => none

/-- A mask word (R236). -/
def maskRow : Instr → Option ResultRow
  | .kand h d a b => some (h, [a, b], d, fun w => w 0 &&& w 1)
  | .kor h d a b => some (h, [a, b], d, fun w => w 0 ||| w 1)
  | .kxor h d a b => some (h, [a, b], d, fun w => w 0 ^^^ w 1)
  | .knot h d a => some (h, [a], d, fun w => ~~~(w 0))
  | .kpop h d a => some (h, [a], d, fun w => BitVec.ofNat 64 ((List.range 64).filter (fun i => (w 0).getLsbD i)).length)
  | .kmov h d a => some (h, [a], d, fun w => w 0)
  | _ => none

/-! ### Keys, bit by bit -/

/-- Axis j of a key: bit b of the axis is bit ND * b + j of the key (R238). -/
def keyAxis (k : KShape) (w : Word) (j : Nat) : Nat :=
  ((List.range k.aw).map (fun b => if w.getLsbD (j + k.nd * b) then 2 ^ b else 0)).sum

/-- Axis j of a packed word (R239). -/
def packAxis (k : KShape) (w : Word) (j : Nat) : Nat := w.toNat / 2 ^ (j * k.aw) % 2 ^ k.aw

/-- A word is the key whose axes have given values. -/
def isKey (k : KShape) (d : Word) (f : Nat → Nat) : Prop :=
  d.toNat < 2 ^ (k.nd * k.aw) ∧ ∀ j, j < k.nd → keyAxis k d j = f j

/-- Axis j of a sum or difference, exact (R245). -/
def keySum (k : KShape) (sub : Bool) (a b : Word) (j : Nat) : Int :=
  let o : Int := if 2 ^ (k.aw - 1) ≤ keyAxis k b j then (keyAxis k b j : Int) - 2 ^ k.aw else keyAxis k b j
  if sub then keyAxis k a j - o else keyAxis k a j + o

/-- R245. -/
def sumSays (k : KShape) (sub sat fl : Bool) (a b d : Word) : Prop :=
  let x := keySum k sub a b
  if fl then ∀ i, i < 64 → d.getLsbD i = decide (i < k.nd ∧ (x i < 0 ∨ 2 ^ k.aw ≤ x i))
  else isKey k d (fun j => if sat then (if x j < 0 then 0 else if 2 ^ k.aw ≤ x j then 2 ^ k.aw - 1 else (x j).toNat)
    else (x j % 2 ^ k.aw).toNat)

/-- A condition of R246. -/
def r246 (cc : KCond) (a b : Nat) : Prop :=
  match cc with
  | .eq => a = b
  | .ne => a ≠ b
  | .lt => a < b
  | .le => a ≤ b
  | .gt => b < a
  | .ge => b ≤ a

/-- A key lies in the box of two corners (R238). -/
def inBox (k : KShape) (lo hi : Word) (n : Nat) : Prop :=
  n < 2 ^ (k.nd * k.aw) ∧ ∀ j, j < k.nd → keyAxis k lo j ≤ keyAxis k (BitVec.ofNat 64 n) j ∧
    keyAxis k (BitVec.ofNat 64 n) j ≤ keyAxis k hi j

/-- A search delivers the best of the keys that qualify, or all ones where none does (R250). -/
def searchSays (ok : Nat → Prop) (better : Nat → Nat → Prop) (d : Word) : Prop :=
  (ok d.toNat ∧ ∀ n, ok n → n = d.toNat ∨ better d.toNat n) ∨ ((∀ n, ¬ok n) ∧ d = 0xFFFFFFFFFFFFFFFF)

/-- What the key words give (R244 to R250), by the axes of their operands. -/
def keySays (i : Instr) (w : Nat → Word) (d : Word) : Prop :=
  match i with
  | .ckey _ k _ _ => isKey k d (packAxis k (w 0))
  | .cunk _ k _ _ => d.toNat < 2 ^ (k.nd * k.aw) ∧ ∀ j, j < k.nd → packAxis k d j = keyAxis k (w 0) j
  | .cadd _ k sat fl _ _ _ => sumSays k false sat fl (w 0) (w 1) d
  | .csub _ k sat fl _ _ _ => sumSays k true sat fl (w 0) (w 1) d
  | .ccmp _ k cc _ _ _ =>
    let n := 2 ^ (k.nd * k.aw)
    (d.toNat < 1024) ∧ (d.getLsbD 9 = true ↔ r246 cc ((w 0).toNat % n) ((w 1).toNat % n)) ∧
    (d.getLsbD 8 = true ↔ ∀ j, j < k.nd → r246 cc (keyAxis k (w 0) j) (keyAxis k (w 1) j)) ∧
    ∀ j, j < 8 → (d.getLsbD j = true ↔ j < k.nd ∧ r246 cc (keyAxis k (w 0) j) (keyAxis k (w 1) j))
  | .cbox _ k _ _ _ =>
    d.toNat < 2 ^ 24 ∧ (∀ j, 1 ≤ j → j < 8 → d.getLsbD j = false) ∧
    (∀ j, j < 8 → (d.getLsbD (16 + j) = true ↔ j < k.nd ∧ keyAxis k (w 2) j < keyAxis k (w 0) j)) ∧
    (∀ j, j < 8 → (d.getLsbD (8 + j) = true ↔ j < k.nd ∧ keyAxis k (w 0) j < keyAxis k (w 1) j)) ∧
    (d.getLsbD 0 = true ↔ ∀ j, 8 ≤ j → j < 24 → d.getLsbD j = false)
  | .cclamp _ k _ _ _ => isKey k d (fun j => Nat.min (Nat.max (keyAxis k (w 0) j) (keyAxis k (w 1) j)) (keyAxis k (w 2) j))
  | .cmask _ k (.lvl n) _ _ => isKey k d (fun j => keyAxis k (w 0) j / 2 ^ n.toNat * 2 ^ n.toNat)
  | .cmask _ k (.ax m) _ _ => isKey k d (fun j => if m.getLsbD j then keyAxis k (w 0) j else 0)
  | .cnext _ k incl _ _ _ =>
    let a := (w 0).toNat % 2 ^ (k.nd * k.aw)
    searchSays (fun n => inBox k (w 1) (w 2) n ∧ (if incl then a ≤ n else a < n)) (fun x y => x < y) d
  | .cprev _ k incl _ _ _ =>
    let a := (w 0).toNat % 2 ^ (k.nd * k.aw)
    searchSays (fun n => inBox k (w 1) (w 2) n ∧ (if incl then n ≤ a else n < a)) (fun x y => y < x) d
  | _ => False

/-! ### Number formats, code by code -/

/-- The magnitude of a code in units of 2 to the power −(bias + fraction bits): R79, and R93 for the step above the largest. -/
def magUnits (fw c : Nat) : Nat :=
  (if c / 2 ^ fw = 0 then c else c % 2 ^ fw + 2 ^ fw) * 2 ^ (Nat.max 1 (c / 2 ^ fw))

/-- The format of R78 with its fields: widths of exponent and fraction, bias, whether it is E4M3, the code of the largest finite
value, and the canonical NaN (R81). -/
structure FRow where
  f    : FFmt
  ew   : Nat
  fw   : Nat
  bias : Nat
  e4m3 : Bool
  max  : Nat
  nan  : Nat

/-- R78, R81. -/
def r78 : List FRow :=
  [⟨fFP32, 8, 23, 127, false, 0x7F7FFFFF, 0x7FC00000⟩, ⟨fFP16, 5, 10, 15, false, 0x7BFF, 0x7E00⟩,
   ⟨fBF16, 8, 7, 127, false, 0x7F7F, 0x7FC0⟩, ⟨fE4M3, 4, 3, 7, true, 0x7E, 0x7F⟩, ⟨fE5M2, 5, 2, 15, false, 0x7B, 0x7E⟩]

/-- The code of an infinity: E4M3 has none (R80, R93). -/
def FRow.inf (r : FRow) (neg : Bool) : Nat :=
  if r.e4m3 then r.nan else (2 ^ r.ew - 1) * 2 ^ r.fw + (if neg then 2 ^ (r.ew + r.fw) else 0)

/-- What an encoding stands for (R79 to R81). -/
def decodes (r : FRow) (c : Nat) : Prop :=
  let neg := decide (2 ^ (r.ew + r.fw) ≤ c)
  let m := c % 2 ^ (r.ew + r.fw)
  if r.max < m then r.f.dec c = (if r.e4m3 = false ∧ m = (2 ^ r.ew - 1) * 2 ^ r.fw then .inf neg else .nan)
  else ∃ p q, 0 < q ∧ r.f.dec c = .fin neg p q ∧ p * 2 ^ (r.bias + r.fw) = magUnits r.fw m * q

/-- The code that a finite value p / q with a sign rounds to under a mode, where h is the hash of R96: an exact value as it is,
else one of its neighbours (R92, R96), and beyond the largest value what R93 and R94 say. -/
def roundsTo (r : FRow) (rm : RM) (h : Nat) (sat neg : Bool) (p q c : Nat) : Prop :=
  let s := if neg then 2 ^ (r.ew + r.fw) else 0
  let x := p * 2 ^ (r.bias + r.fw)
  let v (n : Nat) : Nat := q * magUnits r.fw n
  let big := if sat then r.max + s else r.inf neg
  if v r.max < x then
    c = (match rm with
      | .rne => if v r.max + v (r.max + 1) ≤ 2 * x then big else r.max + s
      | .rtz => r.max + s
      | .rdn => if neg then big else r.max + s
      | .rup => if neg then r.max + s else big
      | .srd => if v (r.max + 1) ≤ x ∨ h < (x - v r.max) * 65536 / (v (r.max + 1) - v r.max) then big else r.max + s)
  else ∃ lo, lo ≤ r.max ∧ v lo ≤ x ∧ (v lo = x ∨ x < v (lo + 1)) ∧ (v lo = x → c = lo + s) ∧
    (v lo < x → c = s + (match rm with
      | .rne => if 2 * x < v lo + v (lo + 1) ∨ (2 * x = v lo + v (lo + 1) ∧ lo % 2 = 0) then lo else lo + 1
      | .rtz => lo
      | .rdn => if neg then lo + 1 else lo
      | .rup => if neg then lo else lo + 1
      | .srd =>
        if neg then (if h < (v (lo + 1) - x) * 65536 / (v (lo + 1) - v lo) then lo else lo + 1)
        else if h < (x - v lo) * 65536 / (v (lo + 1) - v lo) then lo + 1 else lo))

/-- An exact value is s · p / q. -/
def Rv.isVal (v : Rv) (s : Bool) (n : Int) (d : Nat) : Prop :=
  ∃ p q, v = .fin s p q ∧ 0 < q ∧ sgnNum s p * d = n * q

/-! ### What the atomics compute -/

/-- f(old, b) of R282 on the numbers that the location and the operand hold. -/
def r282 (op : AOpc) (wd : AW) (old b : Nat) : Nat :=
  let w := awBitsOf wd
  let v := BitVec.ofNat w
  match op with
  | .add => (v old + v b).toNat
  | .and => (v old &&& v b).toNat
  | .or => (v old ||| v b).toNat
  | .xor => (v old ^^^ v b).toNat
  | .swap => (v b).toNat
  | .min => if (v b).toInt < (v old).toInt then (v b).toNat else old
  | .max => if (v old).toInt < (v b).toInt then (v b).toNat else old
  | .minu => Nat.min old (v b).toNat
  | .maxu => Nat.max old (v b).toNat
  | .fadd => fFP32.round Rc.rne 0 false (Rv.add .rne (fFP32.dec old) (fFP32.dec (v b).toNat))
  | .fmin => fFP32.round Rc.rne 0 false (Rv.min (fFP32.dec old) (fFP32.dec (v b).toNat))
  | .fmax => fFP32.round Rc.rne 0 false (Rv.max (fFP32.dec old) (fFP32.dec (v b).toNat))

/-- The sum of a faddw crosses its threshold (R288) without wrapping (notes/assumptions/53.md). -/
def r288 (wd : AW) (old b thr : Nat) : Prop :=
  let w := awBitsOf wd
  let sum := (old : Int) + (BitVec.ofNat w b).toInt
  old < thr % 2 ^ w ∧ ((thr % 2 ^ w : Nat) : Int) ≤ sum ∧ sum < 2 ^ w

/-! ### Translation -/

/-- A physical address that R368 leaves reserved. -/
def r368 (pa : Nat) : Prop :=
  6 ≤ pa / 2 ^ 52 ∨ (pa / 2 ^ 52 = 0 ∧ pa / 2 ^ 39 % 2 ^ 13 ≠ 0) ∨ (pa / 2 ^ 52 = 5 ∧ pa / 2 ^ 39 % 2 ^ 13 ≠ 0) ∨
    (pa / 2 ^ 52 = 4 ∧ pa / 2 ^ 39 % 2 ^ 5 ≠ 0)

/-- The levels of R365: the lowest address bit that indexes the table, its entries, whether it may hold a leaf, and the alignment
of the table below it. -/
def r365 : List (Nat × Nat × Bool × Nat) :=
  [(39, 262144, false, 4096), (30, 512, true, 4096), (21, 512, true, 256), (16, 32, true, 1)]

/-- A walk ends with a leaf and the log2 of its page, or with the reason of its translation fault (R365 to R367), where `ent`
reads the entry at a physical address. -/
inductive WalkEnds (ent : Nat → Word) (va : Nat) : List (Nat × Nat × Bool × Nat) → Nat → Except Nat (Word × Nat) → Prop
  | invalid (sh n : Nat) (lf : Bool) (al : Nat) (rest : List (Nat × Nat × Bool × Nat)) (tbl : Nat) (e : Word) :
      e = ent (tbl + 8 * (va / 2 ^ sh % n)) → e.getLsbD 0 = false → WalkEnds ent va ((sh, n, lf, al) :: rest) tbl (.error 0)
  | bad (sh n : Nat) (lf : Bool) (al : Nat) (rest : List (Nat × Nat × Bool × Nat)) (tbl pa : Nat) (e : Word) :
      e = ent (tbl + 8 * (va / 2 ^ sh % n)) → pa = e.toNat % 2 ^ 56 / 256 * 256 → e.getLsbD 0 = true →
      (e.toNat / 2 ^ 56 ≠ 0 ∨ r368 pa ∨ (e.getLsbD 1 = true ∧ (lf = false ∨ pa % 2 ^ sh ≠ 0 ∨ e.toNat / 64 % 4 = 3)) ∨
        (e.getLsbD 1 = false ∧ (rest = [] ∨ e.toNat / 4 % 64 ≠ 0 ∨ pa % al ≠ 0))) →
      WalkEnds ent va ((sh, n, lf, al) :: rest) tbl (.error 1)
  | leaf (sh n : Nat) (al : Nat) (rest : List (Nat × Nat × Bool × Nat)) (tbl pa : Nat) (e : Word) :
      e = ent (tbl + 8 * (va / 2 ^ sh % n)) → pa = e.toNat % 2 ^ 56 / 256 * 256 → e.getLsbD 0 = true → e.toNat / 2 ^ 56 = 0 →
      ¬r368 pa → e.getLsbD 1 = true → pa % 2 ^ sh = 0 → e.toNat / 64 % 4 ≠ 3 →
      WalkEnds ent va ((sh, n, true, al) :: rest) tbl (.ok (e, sh))
  | table (sh n : Nat) (lf : Bool) (al : Nat) (rest : List (Nat × Nat × Bool × Nat)) (tbl pa : Nat) (e : Word)
      (r : Except Nat (Word × Nat)) :
      e = ent (tbl + 8 * (va / 2 ^ sh % n)) → pa = e.toNat % 2 ^ 56 / 256 * 256 → e.getLsbD 0 = true → e.toNat / 2 ^ 56 = 0 →
      ¬r368 pa → e.getLsbD 1 = false → rest ≠ [] → e.toNat / 4 % 64 = 0 → pa % al = 0 → WalkEnds ent va rest pa r →
      WalkEnds ent va ((sh, n, lf, al) :: rest) tbl r

/-- What a leaf, or the reason of a fault, comes to for an access (R367). -/
def r367 (acc : Acc) (va : Nat) (r : Except Nat (Word × Nat)) : Tr :=
  match r with
  | .error n => .trans n
  | .ok (e, lg) =>
    if (acc = .rd ∧ e.getLsbD 2 = false) ∨ (acc = .wr ∧ e.getLsbD 3 = false) ∨ (acc = .fetch ∧ e.getLsbD 4 = false) then .perm
    else if acc = .wr ∧ e.getLsbD 5 = true then .cow
    else .ok (e.toNat % 2 ^ 56 / 256 * 256 + va % 2 ^ lg)
      (if e.toNat / 64 % 4 = 1 then .s else if e.toNat / 64 % 4 = 2 then .u else .r) lg

/-! ### Vector words -/

/-- A vector word that works element by element: header, element width, operands, destination, mask, and the value of
element n from the values of the operands. -/
abbrev ElRow := Hdr × Nat × List TOp × Opnd × VMask × (Ctx → List Val → Nat → Nat)

/-- Element n of operand j. -/
def opEl (w : Nat) (vs : List Val) (j n : Nat) : Nat := (va vs j).el w n

/-- Addition, subtraction and multiplication (R218, R219): rounded once, or exact and then wrapped or clamped. -/
def arithEl (t : VTy) (m : VMode) (ff : RM → Rv → Rv → Rv) (fi : Int → Int → Int) (x : Ctx) (vs : List Val) (n : Nat) : Nat :=
  match vtyFF t with
  | some f => f.round (x.rc (VMode.rmOf m)) n false
      (ff (VMode.rmOf m) (f.dec (opEl t.width vs 0 n)) (f.dec (opEl t.width vs 1 n)))
  | none => narrow t.width (VMode.satOf m) (fi (vInt t (opEl t.width vs 0 n)) (vInt t (opEl t.width vs 1 n)))

/-- A function of one floating-point element, rounded once (R220). -/
def roundEl (t : VTy) (rm : RM) (g : Rv → Rv) (x : Ctx) (vs : List Val) (n : Nat) : Nat :=
  match vtyFF t with
  | some f => f.round (x.rc rm) n false (g (f.dec (opEl t.width vs 0 n)))
  | none => 0

/-- The amount of a vector shift at element n (R225). -/
def shiftEl (w : Nat) (k : ShAmt) (vs : List Val) (n : Nat) : Nat :=
  (match k with
   | .imm k => k.val
   | .reg _ => opEl w vs 1 n) % w

/-- The elements of the words of R218 to R222, R225 and R229, R230. -/
def elRow : Instr → Option ElRow
  | .vadd h t m d a b mk => some (h, t.width, [a, b], d, mk, arithEl t m Rv.add (fun p q => p + q))
  | .vsub h t m d a b mk => some (h, t.width, [a, b], d, mk, arithEl t m (fun rm p q => Rv.add rm p q.neg) (fun p q => p - q))
  | .vmul h t m d a b mk => some (h, t.width, [a, b], d, mk, arithEl t m (fun _ => Rv.mul) (fun p q => p * q))
  | .vfma h t rm d a b c mk => some (h, t.width, [.reg a, .reg b, .reg c], d, mk, fun x vs n =>
      match vtyFF t with
      | some f => f.round (x.rc rm) n false
          (Rv.fma rm (f.dec (opEl t.width vs 0 n)) (f.dec (opEl t.width vs 1 n)) (f.dec (opEl t.width vs 2 n)))
      | none => 0)
  | .vmin h t d a b mk => some (h, t.width, [a, b], d, mk, fun _ vs n =>
      minMaxEl t false (opEl t.width vs 0 n) (opEl t.width vs 1 n))
  | .vmax h t d a b mk => some (h, t.width, [a, b], d, mk, fun _ vs n =>
      minMaxEl t true (opEl t.width vs 0 n) (opEl t.width vs 1 n))
  | .vclamp h t d a b c mk => some (h, t.width, [.reg a, .reg b, .reg c], d, mk, fun _ vs n =>
      minMaxEl t false (minMaxEl t true (opEl t.width vs 0 n) (opEl t.width vs 1 n)) (opEl t.width vs 2 n))
  | .vabs h t m d a mk => some (h, t.width, [a], d, mk, fun _ vs n =>
      match vtyFF t with
      | some f => if (f.dec (opEl t.width vs 0 n)).isNan then f.nanCode else opEl t.width vs 0 n % f.signBit
      | none => narrow t.width (VMode.satOf m) (vInt t (opEl t.width vs 0 n)).natAbs)
  | .vneg h t m d a mk => some (h, t.width, [a], d, mk, fun _ vs n =>
      match vtyFF t with
      | some f => if (f.dec (opEl t.width vs 0 n)).isNan then f.nanCode
          else (opEl t.width vs 0 n + f.signBit) % (2 * f.signBit)
      | none => narrow t.width (VMode.satOf m) (-(vInt t (opEl t.width vs 0 n))))
  | .vrcp h t rm d a mk => some (h, t.width, [a], d, mk, roundEl t rm Rv.rcp)
  | .vrsq h t rm d a mk => some (h, t.width, [a], d, mk, roundEl t rm Rv.rsq)
  | .vexp2 h t rm d a mk => some (h, t.width, [a], d, mk, roundEl t rm Rv.exp2)
  | .vlog2 h t rm d a mk => some (h, t.width, [a], d, mk, roundEl t rm Rv.log2)
  | .vsqrt h t rm d a mk => some (h, t.width, [a], d, mk, roundEl t rm Rv.sqrt)
  | .vand h d a b mk => some (h, 32, [a, b], d, mk, fun _ vs n => opEl 32 vs 0 n &&& opEl 32 vs 1 n)
  | .vor h d a b mk => some (h, 32, [a, b], d, mk, fun _ vs n => opEl 32 vs 0 n ||| opEl 32 vs 1 n)
  | .vxor h d a b mk => some (h, 32, [a, b], d, mk, fun _ vs n => opEl 32 vs 0 n ^^^ opEl 32 vs 1 n)
  | .vshl h t d a k mk => some (h, t.width, shTops a k, d, mk, fun _ vs n =>
      opEl t.width vs 0 n * 2 ^ shiftEl t.width k vs n)
  | .vshr h t d a k mk => some (h, t.width, shTops a k, d, mk, fun _ vs n =>
      opEl t.width vs 0 n / 2 ^ shiftEl t.width k vs n)
  | .vsra h t d a k mk => some (h, t.width, shTops a k, d, mk, fun _ vs n =>
      (sval t.width (opEl t.width vs 0 n) / (2 ^ shiftEl t.width k vs n : Int) % (2 ^ t.width : Int)).toNat)
  | .vpopc h t d a mk => some (h, t.width, [a], d, mk, fun _ vs n =>
      ((List.range t.width).filter (fun i => (opEl t.width vs 0 n).testBit i)).length)
  | .vclz h t d a mk => some (h, t.width, [a], d, mk, fun _ vs n =>
      ((List.range t.width).takeWhile (fun i => !(opEl t.width vs 0 n).testBit (t.width - 1 - i))).length)
  | .vperm h t d a b mk => some (h, t.width, [.reg a, .reg b], d, mk, fun _ vs n =>
      opEl t.width vs 0 (opEl t.width vs 1 n % t.count))
  | .vbcast h t d a idx mk => some (h, t.width, [.reg a], d, mk, fun _ vs _ => opEl t.width vs 0 idx.toNat)
  | .vslide h t dn d a b idx mk => some (h, t.width, [.reg a, .reg b], d, mk, fun _ vs n =>
      if dn then (if n + idx.toNat < t.count then opEl t.width vs 0 (n + idx.toNat)
        else opEl t.width vs 1 (n + idx.toNat - t.count))
      else if idx.toNat ≤ n then opEl t.width vs 0 (n - idx.toNat) else opEl t.width vs 1 (t.count - idx.toNat + n))
  | .vmov h d a mk => some (h, 32, [a], d, mk, fun _ vs n => opEl 32 vs 0 n)
  | _ => none

/-- The elements of the result under a mask (R215, R218): active lanes take their element, the others keep the
destination's or become zero. -/
def maskedEls (mk : VMask) (w : Nat) (g : Nat → Nat) (kv : Word) (old : Val) (v : Val) : Prop :=
  ∀ n, n < 2048 / w → v.el w n =
    if !mk.kv || kv.getLsbD (n * w / 32) then g n % 2 ^ w else if mk.kz then 0 else old.el w n

/-! ### What control and memory words do -/

/-- The effect of R157 for a count read and an offset, where W is the word's index and i the depth: the faults, the skipped
body, or the new level. -/
def LoopEffect (s : State) (x : Ctx) (srcs : List Opnd) (off : BitVec 12) (count : BitVec 32) (t : State) : Prop :=
  let W := wordIdx x.t.pc
  let top := mget loopZero x.t.loops (x.t.ldepth - 1)
  let range : Prop := 0 < x.t.ldepth ∧ top.beg.toNat ≤ x.t.pc.toNat ∧ x.t.pc.toNat ≤ top.fin.toNat ∧
    (x.t.pc = top.fin ∨ wordIdx top.fin < W + off.toNat)
  (x.t.ldepth = 4 → TakesTrap s x 0x04 0 t) ∧
  (x.t.ldepth ≠ 4 → range → TakesTrap s x 0x05 0 t) ∧
  (x.t.ldepth ≠ 4 → ¬range → count = 0 → PlainWord s x srcs (.plain (idxAddr (W + off.toNat + 1))) t) ∧
  (x.t.ldepth ≠ 4 → ¬range → count ≠ 0 → ∃ c, t.core? x.w.pid x.w.qc = some c ∧
    (c.stream x.w.st).ldepth = x.t.ldepth + 1 ∧ (c.stream x.w.st).pc = nextAddr x.t.pc ∧
    mget loopZero (c.stream x.w.st).loops x.t.ldepth =
      { cnt := count, beg := nextAddr x.t.pc, fin := idxAddr (W + off.toNat) } ∧
    (∀ j, j ≠ x.t.ldepth → mget loopZero (c.stream x.w.st).loops j = mget loopZero x.t.loops j) ∧
    CoreFrame x x.c srcs [] c ∧ { t with passes := s.passes, seq := s.seq, turn := s.turn } = s)

/-- What each number of R131 reads (R2 for the device word). -/
def r131 (s : State) (x : Ctx) : List (Nat × Word) :=
  let cores := ((List.range 64).filter (fun n => s.dies.getLsbD (n / 8) && !s.outCores.contains n)).length
  let lvl (i : Nat) : LoopLvl := mget loopZero x.t.loops i
  [(0x000, BitVec.ofNat 64 (0x4E34 * 2 ^ 48 + 0x01 * 2 ^ 40 + 0x00 * 2 ^ 32 + 0xC0 * 2 ^ 24 + cores * 2 ^ 16 + s.dies.toNat * 2 ^ 8)),
   (0x001, BitVec.ofNat 64 x.c.lcore), (0x002, BitVec.ofNat 64 x.w.qc), (0x003, BitVec.ofNat 64 (x.p.qd * 2 ^ 4 + x.p.qc)),
   (0x004, x.r.addr.zeroExtend 64), (0x005, x.r.rcd.param), (0x006, x.r.rcd.asid.zeroExtend 64), (0x010, x.p.now),
   (0x011, BitVec.ofNat 64 x.p.sched), (0x012, x.c.slstall), (0x013, x.c.replays), (0x014, x.c.semsat),
   (0x020, x.t.srdseed.zeroExtend 64), (0x021, x.p.lease), (0x030, x.t.tvec.zeroExtend 64), (0x031, x.t.epc.zeroExtend 64),
   (0x032, x.t.tcause), (0x033, x.t.tinfo),
   (0x040, (lvl 0).cnt.zeroExtend 64), (0x041, (lvl 1).cnt.zeroExtend 64), (0x042, (lvl 2).cnt.zeroExtend 64),
   (0x043, (lvl 3).cnt.zeroExtend 64), (0x044, (lvl 0).beg.zeroExtend 64), (0x045, (lvl 1).beg.zeroExtend 64),
   (0x046, (lvl 2).beg.zeroExtend 64), (0x047, (lvl 3).beg.zeroExtend 64), (0x048, (lvl 0).fin.zeroExtend 64),
   (0x049, (lvl 1).fin.zeroExtend 64), (0x04A, (lvl 2).fin.zeroExtend 64), (0x04B, (lvl 3).fin.zeroExtend 64),
   (0x04C, BitVec.ofNat 64 x.t.ldepth)]

/-- The core after a csrw of v to a number: a counter of the core takes v when the cycle ends, the stream's own registers at
once, and a register that may only be read does not change (R131, R132, R162, R163). -/
def r131Write (x : Ctx) (num : Nat) (v : Word) : CoreSt :=
  if num = 0x012 ∨ num = 0x013 ∨ num = 0x014 then { x.c with crNew := (num, v) :: x.c.crNew }
  else x.c.updStream x.w.st (fun u =>
    if num = 0x020 then { u with srdseed := v.truncate 32 }
    else if num = 0x030 then { u with tvec := v.truncate 57 }
    else if num = 0x031 then { u with epc := v.truncate 57 }
    else if 0x040 ≤ num ∧ num ≤ 0x043 then
      { u with loops := mset loopZero u.loops (num - 0x040) { mget loopZero u.loops (num - 0x040) with cnt := v.truncate 32 } }
    else u)

/-- What the last csrw of the cycle gives a counter (R163). -/
def lastWritten (c : CoreSt) (num : Nat) (old : Word) : Word :=
  match c.crNew.find? (fun e => e.1 == num) with
  | some e => e.2
  | none => old

/-- The semaphore that a semaphore word names, and its sources (R160). -/
def semOf (n : SemArg) (vs : List Val) : Nat × List Opnd :=
  match n with
  | .imm n => (n.toNat, [])
  | .reg a => ((wordAt vs 0).toNat % 256, [a])

/-- The states agree outside what an access through translation and the issue of a word may change: the word's pass, the
serial number, the turn, cached translations, and the choices drawn. Memory, path buffers and stores are among what agrees. -/
def SameMemory (s t : State) : Prop :=
  { t with passes := s.passes, seq := s.seq, turn := s.turn, tlb := s.tlb, walks := s.walks, script := s.script,
           free := s.free } = s

/-- What an atomic instruction asks of the home of its word (R282, R283, R288): its sources, and the step that its values
name. -/
def atomOf : Instr → Option (Hdr × AW × Ord14 × BitVec 4 × List Opnd × Option Opnd × (List Val → EAct))
  | .amo h op wd ord asc d a b => some (h, wd, ord, asc, [a, b], some d, fun v => .amo op wd (wordAt v 1))
  | .cas h wd ord asc d a b => some (h, wd, ord, asc, [a, b, d], some d, fun v => .cas wd (wordAt v 2) (wordAt v 1))
  | .faddw h wd ord asc d a b (.imm n) =>
    some (h, wd, ord, asc, [a, b], some d, fun v => .faddw wd (wordAt v 1) (n.zeroExtend 64))
  | .faddw h wd ord asc d a b (.reg r) =>
    some (h, wd, ord, asc, [a, b, .r ⟨r.val, by omega⟩], some d, fun v => .faddw wd (wordAt v 1) (wordAt v 2))
  | .ramo h op wd ord asc a b => some (h, wd, ord, asc, [a, b], none, fun v => .amo op wd (wordAt v 1))
  | _ => none

/-- A word of the access stream that accesses memory at one address (R278, R285, R331): header, sources, destinations, kind
of access, address, length and alignment. -/
def accessOf : Instr → Option (Hdr × List Opnd × List Opnd × Acc × (List Val → VAddr) × Nat × Nat)
  | .ld h _ sz _ d a off =>
    some (h, [a], [d], .rd, fun v => BitVec.truncate 57 (wordAt v 0 + off.signExtend 64), szBytes sz, 1)
  | .st h sz _ a off b =>
    some (h, [a, b], [], .wr, fun v => BitVec.truncate 57 (wordAt v 0 + off.signExtend 64), szBytes sz, 1)
  | .amo h _ wd _ _ d a b => some (h, [a, b], [d], .wr, fun v => (wordAt v 0).truncate 57, awBytes wd, awBytes wd)
  | .cas h wd _ _ d a b => some (h, [a, b, d], [d], .wr, fun v => (wordAt v 0).truncate 57, awBytes wd, awBytes wd)
  | .faddw h wd _ _ d a b thr =>
    some (h, [a, b] ++ thrSrc thr, [d], .wr, fun v => (wordAt v 0).truncate 57, awBytes wd, awBytes wd)
  | .ramo h _ wd _ _ a b => some (h, [a, b], [], .wr, fun v => (wordAt v 0).truncate 57, awBytes wd, awBytes wd)
  | .wwait h wd _ a thr => some (h, a :: thrSrc thr, [], .rd, fun v => (wordAt v 0).truncate 57, awBytes wd, awBytes wd)
  | .fres h a b => some (h, [a, b], [], .wr, fun v => (wordAt v 0).truncate 57, 8, 8)
  | .fresF h a b => some (h, [a, b], [], .wr, fun v => (wordAt v 0).truncate 57, 8, 8)
  | .fresN h a b => some (h, [a, b], [], .wr, fun v => (wordAt v 0).truncate 57, 8, 8)
  | _ => none

/-- The entry of a queue step in the s buffer (R53, R292). -/
def queueEntry (s : State) (x : Ctx) (hd : Word) (act : EAct) (ord : Ord14) (asc : BitVec 4) : Entry :=
  { seq := s.seq, wr := { seq := s.seq, pk := .r, cells := [] }, act := act, key := hd.toNat % 2 ^ 32, hist := x.asid.toNat,
    ord := ord, asc := asc, pid := x.w.pid, qc := x.w.qc }

/-- The stream stays at its repeating word: only the record of its limit of 2^(lim + 6) cycles changes, which holds what its
last attempt read for the detail of the trap (R295). -/
def Repeats (x : Ctx) (lim : BitVec 4) (deq : Bool) (info : Word) (f : StreamSt → StreamSt) : Prop :=
  ∀ t, { f t with limFrom := t.limFrom } = t ∧ ∃ l, (f t).limFrom = some l ∧ l.bound = 2 ^ (lim.toNat + 6) ∧ l.deq = deq ∧
    l.info = info ∧ l.tried = true ∧ l.since = (match t.limFrom with
      | some k => k.since
      | none => x.w.cycle)

/-! ### Vector words of other shapes -/

/-- A vector word: header, operands, extra sources, destination, whether that is a vector register, and what its result is
for the values of the operands and of the extra sources. -/
abbrev VecRow := Hdr × List TOp × List Opnd × Opnd × Bool × (Ctx → List Val → List Val → Val → Prop)

/-- Lane i of a masked word is active (R209, R215). -/
def laneOn (mk : VMask) (kv : Word) (lane : Nat) : Bool := !mk.kv || kv.getLsbD lane

/-- Element n of a reduction or scan: a NaN is canonical, and an inactive lane gives the identity (R103). -/
def redEl (t : VTy) (op : ScanOp) (mk : VMask) (kv : Word) (a : Val) (n : Nat) : Nat :=
  if laneOn mk kv (n * t.width / 32) then
    (match vtyFF t with
     | some f => if (f.dec (a.el t.width n)).isNan then f.nanCode else a.el t.width n
     | none => a.el t.width n)
  else
    match vtyFF t, op with
    | some f, .sum => f.signBit                       -- -0
    | some f, .max => f.infOf true
    | some f, .min => f.infOf false
    | none, .sum => 0
    | none, .max => 2 ^ (t.width - 1)
    | none, .min => 2 ^ (t.width - 1) - 1

/-- The tree of R103 over 2^n elements: each level joins an element with the one half the count further on. -/
def treeOf (f : Nat → Nat → Nat) : Nat → (Nat → Nat) → Nat
  | 0, x => x 0
  | n + 1, x => treeOf f n (fun i => f (x i) (x (i + 2 ^ n)))

/-- A reduction (R227): the scalar of the tree's value. -/
def redRow (h : Hdr) (t : VTy) (op : ScanOp) (m : VMode) (d : Opnd) (a : TOp) (mk : VMask) : VecRow :=
  (h, [a], if mk.kv then [.k mk.kr] else [], d, false, fun x vs ms v =>
    v = .w (vScalar t (treeOf (foldEl t op (x.rc (VMode.rmOf m)) (VMode.satOf m)) (Nat.log2 t.count)
      (redEl t op mk (wordAt ms 0) (va vs 0)))))

/-- The words of R223, R224, R226 to R228 and R230. -/
def vecRow : Instr → Option VecRow
  | .vcmp h t cc d a b mk =>
    if isK d then some (h, [a, b], maskSrcs mk d, d, false, fun _ vs ms v =>
      ∃ r, v = .w r ∧ ∀ i, i < 64 → r.getLsbD i =
        if laneOn mk (wordAt ms 0) i then cmpEl t cc ((va vs 0).el t.width i) ((va vs 1).el t.width i)
        else !mk.kz && (wordAt ms 1).getLsbD i)
    else some (h, [a, b], maskSrcs mk d, d, true, fun _ vs ms v =>
      maskedEls mk t.width (fun n => if cmpEl t cc ((va vs 0).el t.width n) ((va vs 1).el t.width n) then 2 ^ t.width - 1 else 0)
        (wordAt ms 0) (va ms 1) v)
  | .vsel h d a b kr => some (h, [.reg a, .reg b], [.k kr], d, true, fun _ vs ms v =>
      ∀ i, i < 64 → v.el 32 i = if (wordAt ms 0).getLsbD i then (va vs 0).el 32 i else (va vs 1).el 32 i)
  | .vcvt h dt st ct sat part rm d a mk => some (h, [.reg a], cvtSrcs dt st d mk, d, true, fun x vs ms v =>
      let c := x.rc rm
      let kv := if mk.kv then wordAt ms 0 else 0
      let old := if mk.kv then va ms 1 else va ms 0
      let src (n : Nat) : Rv := vDec st ((va vs 0).el st.width n)
      if dt = .b4 then
        (∀ b k, b < st.count / 32 → k < 17 → v.el 8 (17 * b + k) =
          ((b4Encode c ct.toNat b ((List.range 32).map (fun n => src (32 * b + n)))).getD k 0).toNat) ∧
        (∀ k, 17 * (st.count / 32) ≤ k → k < 256 → v.el 8 k = 0)
      else if st = .b4 then
        ∀ n, n < dt.count → v.el dt.width n = vEnc dt c n sat
          (b4Elem ((List.range 17).map (fun k => BitVec.ofNat 8 ((va vs 0).el 8 (17 * (n / 32) + k)))) (n % 32)) % 2 ^ dt.width
      else
        let m := Nat.min dt.count st.count
        let lo := if st.count < dt.count then m * part.toNat else 0
        let from_ := if dt.count < st.count then m * part.toNat else 0
        ∀ n, n < dt.count → v.el dt.width n =
          if lo ≤ n ∧ n < lo + m then
            (if laneOn mk kv (n * dt.width / 32) then
              vEnc dt c n (if dt = .s then false else sat) (src (from_ + (n - lo))) % 2 ^ dt.width
             else if mk.kz then 0 else old.el dt.width n)
          else old.el dt.width n)
  | .vredsum h t m d a mk => some (redRow h t .sum m d a mk)
  | .vredmax h t d a mk => some (redRow h t .max (.fp .rne) d a mk)
  | .vredmin h t d a mk => some (redRow h t .min (.fp .rne) d a mk)
  | .vscan h t m op d a mk => some (h, [.reg a], if mk.kv then [.k mk.kr] else [], d, true, fun x vs ms v =>
      ∃ y : Nat → Nat, y 0 = redEl t op mk (wordAt ms 0) (va vs 0) 0 ∧
        (∀ n, y (n + 1) = foldEl t op (x.rc (VMode.rmOf m)) (VMode.satOf m) (y n) (redEl t op mk (wordAt ms 0) (va vs 0) (n + 1))) ∧
        ∀ n, n < t.count → v.el t.width n = y n % 2 ^ t.width)
  | .vmovs h t toV d a idx => some (h, [.reg a], if toV then [d] else [], d, toV, fun _ vs ms v =>
      if toV then ∀ n, n < t.count → v.el t.width n =
        if n = idx.toNat then (va vs 0).el t.width 0 else (va ms 0).el t.width n
      else v = .w (vScalar t ((va vs 0).el t.width idx.toNat)))
  | _ => none

/-- Every vector word that may read a tap, the words of `elRow` among them. -/
def tapRow (i : Instr) : Option VecRow :=
  match elRow i with
  | some (h, w, tops, d, mk, g) => some (h, tops, maskSrcs mk d, d, true, fun x vs ms v =>
      maskedEls mk w (g x vs) (wordAt ms 0) (va ms 1) v)
  | none => vecRow i

/-- A line-store word (R231 to R233): header, function, sources, destinations, the addresses that it checks with the lane
that the detail names, their length and their alignment. -/
abbrev LsRow := Hdr × LsF × List Opnd × List Opnd × (List Val → List (Nat × Nat)) × Nat × Nat

/-- The addresses of the active lanes of a vector of addresses. -/
def laneAddrs (l : LsF) (kv : Word) (a : Val) : List (Nat × Nat) :=
  ((List.range 64).filter (fun i => !l.kv || kv.getLsbD i)).map (fun i => (i, a.el 32 i))

def lsRow : Instr → Option LsRow
  | .vld h l d a => some (h, l, a :: (if l.kv then [.k l.kr, d] else []), [d], fun vs => [(255, (wordAt vs 0).toNat)], 256, 256)
  | .vst h l a b => some (h, l, a :: b :: (if l.kv then [.k l.kr] else []), [], fun vs => [(255, (wordAt vs 0).toNat)], 256, 256)
  | .vldt h l d a => some (h, l, a :: (if l.kv then .k l.kr :: eightOf d else []), eightOf d,
      fun vs => [(255, (wordAt vs 0).toNat)], 2048, 2048)
  | .vstt h l a b => some (h, l, a :: (eightOf b ++ if l.kv then [.k l.kr] else []), [],
      fun vs => [(255, (wordAt vs 0).toNat)], 2048, 2048)
  | .vgath h l d a => some (h, l, a :: (if l.kv then [.k l.kr, d] else []), [d],
      fun vs => laneAddrs l (wordAt vs 1) (va vs 0), 4, 4)
  | .vscat h l a b => some (h, l, a :: b :: (if l.kv then [.k l.kr] else []), [],
      fun vs => laneAddrs l (wordAt vs 2) (va vs 0), 4, 4)
  | _ => none

/-- Why R231 refuses n bytes at a line-store address below a top: outside the line store, in the slot area, misaligned. -/
def lsWhy (top a n al : Nat) : Option Nat :=
  if 2 ^ 24 < a + n then some 0 else if top < a + n then some 1 else if a % al = 0 then none else some 2

/-! ### Signals -/

/-- A tap of this lag names no sample (R173). -/
def lagOut (g : Sig) (lag : Nat) : Prop :=
  g.desc.depth ≤ lag ∨ g.n - lag < -(g.desc.fw : Int) ∨ (0 ≤ g.n - lag ∧ g.n - lag < g.o)

/-- The detail of a tap fault (R382): lag in bits 47 to 24, row in 21 to 17, signal in 16 to 8. -/
def tapDetail (sg lag row : Nat) : Word := BitVec.ofNat 64 (lag % 2 ^ 24 * 2 ^ 24 + row % 32 * 2 ^ 17 + sg * 2 ^ 8)

/-- A word that reads a slot (R191, R192): header, sources, destination, tap, what it refuses of the row, the offset in the
row, the number of bytes, and the value that they make. -/
abbrev ReadRow := Hdr × List Opnd × Opnd × Tap × (Sig → List Val → Prop) × (List Val → Nat) × Nat × (List Byte → Val)

def slotReadRow : Instr → Option ReadRow
  | .tld h seg d t => some (h, tapSrc t, d, t, fun g _ => g.desc.rw ≤ seg.toNat, fun _ => 256 * seg.toNat, 256,
      fun bs => .v (BitVec.ofNat 2048 (leNat bs)))
  | .tldx h sz d t b => some (h, tapSrc t ++ [b], d, t,
      fun g vs => (wordAt vs (tapSrc t).length).toNat % szBytes sz ≠ 0 ∨
        g.desc.rw * 256 ≤ (wordAt vs (tapSrc t).length).toNat,
      fun vs => (wordAt vs (tapSrc t).length).toNat, szBytes sz, fun bs => .w (BitVec.ofNat 64 (leNat bs)))
  | _ => none

/-- The issue of a word that reads a slot in state `s1` with a value, its latency (R193) and the pin that goes with the read
(R179). -/
def Ctx.reading (x : Ctx) (srcs : List Opnd) (s1 : State) (d : Opnd) (v : Val) (home : Bool) (pins : List (Nat × Nat)) :
    State :=
  State.issueGo x srcs
    { st := s1.pinsR x.w.pid pins, outs := [(d, some v)],
      due := if home then .within (x.w.cycle + 9) (x.w.cycle + 16) else .least (x.w.cycle + 9), req := .none,
      pin := pins.head?, arg := 0, next := .seq }

/-- A signal's slots lie in the line store of the word's core. -/
def ofHome (x : Ctx) (g : Sig) : Bool := g.desc.tier == 0 && g.desc.home == x.w.qc

/-- The pages of the signal are no KV pages, and the slot has been translated if it is backed. -/
def plainSlot (x : Ctx) (g : Sig) (q : Slot) : Prop := isKv x.p.ctx g.desc = false ∧ q.touched = true

/-- A word that writes a slot (R194, R198): header, sources, tap as (signal, lag, row), segment, the offset in the sample and
the bytes, and the delay of a write at the signal's home (R194) or anywhere (R198). -/
abbrev WriteRow :=
  Hdr × List Opnd × (List Val → Nat × Nat × Nat) × Nat × (Sig → Nat → List Val → Nat × List Byte) × Bool

def slotWriteRow : Instr → Option WriteRow
  | .tst h seg t a => some (h, tapSrc t ++ [a], fun vs => tapArgs t (wordAt vs 0), seg.toNat,
      fun g row vs => (row * (g.desc.rw * 256) + 256 * seg.toNat, natLe 256 (vecAt vs (tapSrc t).length).toNat), false)
  | .sfill h sig a => some (h, optList a, fun _ => (sig.toNat, 0, 0), 0, fun g _ vs =>
      (0, (List.range (g.desc.rows * g.desc.rw * 256)).map (fun i =>
        (if a.isSome then (wordAt vs 0).truncate 32 else g.desc.fill).extractLsb' (8 * (i % elemBytes g.desc.fmt)) 8)), true)
  | _ => none

/-- The detail of a signal-use fault (R188): the signal in bits 16 to 8 and the code in bits 7 to 0. -/
def useDetail (sg code : Nat) : Word := BitVec.ofNat 64 (sg * 256 + code)

/-- The case of R196 that a tap finds. -/
def lagCase (g : Sig) (lag : Nat) : Nat → Prop
  | 0 => ¬lagOut g lag ∧ 0 ≤ g.n - lag ∧ g.rest = false ∧ ∃ q, g.slot? (g.n - lag).toNat = some q ∧ q.st = .empty
  | 1 => ¬lagOut g lag ∧ 0 ≤ g.n - lag ∧ g.rest = false ∧ ∃ q, g.slot? (g.n - lag).toNat = some q ∧ q.st = .filling
  | 2 => ¬lagOut g lag ∧ 0 ≤ g.n - lag ∧ g.rest = false ∧ ∃ q, g.slot? (g.n - lag).toNat = some q ∧ q.st = .ready
  | 3 => ¬lagOut g lag ∧ 0 ≤ g.n - lag ∧ (g.rest = true ∨ ∃ q, g.slot? (g.n - lag).toNat = some q ∧ q.st = .draining)
  | 4 => ¬lagOut g lag ∧ g.n - lag < 0
  | 5 => lagOut g lag
  | _ => False

/-! ### Engine words -/

/-- Every row of a line-store operand of a matrix word lies below a top: with a rotation, its whole 2 KiB blocks (R265). -/
def rowsFit (d : Desc) (rs : Rows) (top : Nat) : Prop :=
  ∀ r ∈ rs.nums, (if d.rot = 0 then d.row r + rs.len else (d.row r + rs.len + 2047) / 2048 * 2048) ≤ top

/-- mld, mst and mtr (R271, R272): header, source, its semaphores, the check of the format word, whether it stores, and
whether it transposes. -/
def tileRow : Instr → Option (Hdr × Opnd × CmdF × (Word → Option Nat) × Bool × Bool)
  | .mld h _ a f => some (h, a, f, fmtLd, false, false)
  | .mst h _ a f => some (h, a, f, fmtSt, true, false)
  | .mtr h _ a f => some (h, a, f, fmtSt, true, true)
  | _ => none

/-- The matrix command that a word makes at issue (R262, R267): what it captures, with its semaphores counted from the base. -/
def matCmd (x : Ctx) (s : State) (i : Instr) (vs : List Val) (w : Word) (f : CmdF) : Cmd :=
  { Cmd.new x s .mat i vs with
    fmt := w, wait := semOfCode x.c.sbase.toNat f.wsem, sig := semOfCode x.c.sbase.toNat f.ssem, ord := f.ord }

/-- The head of the format queue is taken (R258). -/
def fqTaken (x : Ctx) (s : State) : State := s.updCore x.w.pid x.w.qc (fun c => { c with fq := c.fq.tail })

/-- A shape word with handle H reads its slot and its record at issue (R304, R305): the record's doublewords are `ws`, it is
accepted, and `s'` is the state after the reads. -/
def ShapeRead (s : State) (x : Ctx) (H : Word) (ws : List Word) (s' : State) : Prop :=
  ∃ (ps1 ps2 : List Part) (s1 s2 : State) (b1 b2 : List Byte) (w0 w1 : Word),
    H.toNat % 2 ^ 20 ≠ 0 ∧ H.toNat % 2 ^ 20 < x.p.ctx.htl.toNat ∧
    s.walkHeld x.ag s.seq = false ∧
    s.accessAs x.ag s.seq x.die x.asid .rd (x.p.ctx.htb + BitVec.ofNat 57 (16 * (H.toNat % 2 ^ 20))) 16 = (.ok ps1, s1) ∧
    s1.mayRead x.lc s1.seq (partKeys ps1) (readPk ps1) x.c.acc.pend = true ∧
    b1 = s1.readKeys x.ag .s (partKeys ps1) ∧
    s1.badKeys x.ag .s ((partKeys ps1).take 8 ++ (partKeys ps1).drop 10) = [] ∧
    w0 = BitVec.ofNat 64 (leNat (b1.take 8)) ∧ w1 = BitVec.ofNat 64 (leNat (b1.drop 8)) ∧
    fld w1 51 50 = 2 ∧ fld w0 63 57 = 0 ∧ fld w1 49 21 = 0 ∧ w0.toNat % 64 = 0 ∧ fld w1 63 52 = fld H 31 20 ∧
    s1.walkHeld x.ag s1.seq = false ∧
    s1.accessAs x.ag s1.seq x.die x.asid .rd (w0.truncate 57) 64 = (.ok ps2, s2) ∧
    s2.mayRead x.lc s2.seq (partKeys ps2) (readPk ps2) x.c.acc.pend = true ∧
    b2 = s2.readKeys x.ag .s (partKeys ps2) ∧
    s2.badKeys x.ag .s (partKeys ps2) = [] ∧
    ws = (List.range 8).map (fun i => BitVec.ofNat 64 (leNat ((b2.drop (8 * i)).take 8))) ∧ shReserved ws = false ∧ s' = s2

/-- A shape word without a tap (R308 to R312): header, sources, semaphores, the first code of R306 that a record breaks, and
the first line-store fault below a top. -/
abbrev ShapeRow := Hdr × List Opnd × CmdF × (List Word → Option Nat) × (List Word → Word → Nat → Option Word)

def shapeRow : Instr → Option ShapeRow
  | .cpy h a (.none f) => some (h, [a], f, fun ws => sidesCode ws true [(false, false), (true, false)],
      fun ws _ top => firstBad [(sideOf ws false true).lsBad (List.range (shRows ws)) (shLen ws) top,
        (sideOf ws true true).lsBad (List.range (shRows ws)) (shLen ws) top])
  | .cpy2d h a (.none f) => some (h, [a], f,
      fun ws => sidesCode ws false [(false, false), (true, false)],
      fun ws _ top => firstBad [(sideOf ws false false).lsBad (List.range (shRows ws)) (shLen ws) top,
        (sideOf ws true false).lsBad (List.range (shRows ws)) (shLen ws) top])
  | .cgat h a b f => some (h, [a, b], f,
      fun ws => sidesCode ws false [(false, false), (true, false)],
      fun ws l top => firstBad [lsCheck top 4 [(fld l 23 0, 4 * fld l 55 32)],
        (sideOf ws false false).lsBad (List.range (shRows ws)) (shLen ws) top,
        (sideOf ws true false).lsBad (List.range (fld l 55 32)) (shLen ws) top])
  | .cscat h a b f => some (h, [a, b], f,
      fun ws => sidesCode ws false [(false, false), (true, false)],
      fun ws l top => firstBad [lsCheck top 4 [(fld l 23 0, 4 * fld l 55 32)],
        (sideOf ws false false).lsBad (List.range (fld l 55 32)) (shLen ws) top,
        (sideOf ws true false).lsBad (List.range (shRows ws)) (shLen ws) top])
  | .cfill h a b f => some (h, [a, b], f, fun ws => sidesCode ws false [(true, false)],
      fun ws _ top => (sideOf ws true false).lsBad (List.range (shRows ws)) (shLen ws) top)
  | .cred h ef a b f => some (h, [a, b], f,
      fun ws => (sidesCode ws false [(false, true), (true, false)]).orElse (fun _ =>
        if shLen ws % (fmtWidth ef / 8) != 0 || decide (4096 < shLen ws) then some 6 else none),
      fun ws l top => firstBad [lsCheck top 64 [(fld l 23 0, 64 * fld l 39 24)],
        (sideOf ws true false).lsBad (List.range (fld l 63 40)) (shLen ws / (fmtWidth ef / 8) * 4) top])
  | _ => none

/-- The copy command of a shape word (R303). -/
def shapeCmd (x : Ctx) (s : State) (i : Instr) (H l : Word) (ws : List Word) (f : CmdF) : Cmd :=
  { Cmd.new x s .copy i ([.w H, .w l] ++ ws.map Val.w) with
    wait := semOfCode x.c.cbase.toNat f.wsem, sig := semOfCode x.c.cbase.toNat f.ssem, ord := f.ord }

/-- A copy with a tap (R308): flat or not, and whether the tap is the destination. -/
def copyTap : Instr → Option (Hdr × Opnd × Tap × Bool × Bool)
  | .cpy h a (.src t) => some (h, a, t, true, false)
  | .cpy h a (.dst t) => some (h, a, t, true, true)
  | .cpy2d h a (.src t) => some (h, a, t, false, false)
  | .cpy2d h a (.dst t) => some (h, a, t, false, true)
  | _ => none

/-- The word's own trap, taken in a state. -/
def Ctx.trapped (x : Ctx) (s : State) (cause : BitVec 8) (info : Word) : State :=
  (s.takeTrap x.w.pid x.w.qc x.w.st x.t.pc cause info).slotDone x.w.pid x.w.qc x.w.st

/-- The word stays, and its slot passes. -/
def Ctx.stays (x : Ctx) (s : State) : State := s.slotDone x.w.pid x.w.qc x.w.st

/-! ### What attention words refuse (R349) -/

/-- The attention fault of a list entry, a signal and a code. -/
def attF (i sg code : Nat) : BitVec 8 × Word := (0x1C, BitVec.ofNat 64 (i * 2 ^ 32 + sg * 2 ^ 8 + code))

/-- The line-store fault of n bytes at an address, with lane field 0xFF. -/
def areaF (top a n al : Nat) : Option (BitVec 8 × Word) :=
  (lsWhy top a n al).map (fun why => (0x17, BitVec.ofNat 64 (why * 2 ^ 32 + 255 * 2 ^ 24 + a)))

/-- A named signal is not declared, or is no KV signal. -/
def notKvF (x : Ctx) (i sg : Nat) : Option (BitVec 8 × Word) :=
  match x.p.sig? sg with
  | none => some (0x12, tapDetail sg 0 0)
  | some g => if isKv x.p.ctx g.desc then none else some (attF i sg 2)

/-- K and V signals differ, or have a format that attention does not take. -/
def pairF (x : Ctx) (i sk sv : Nat) : Option (BitVec 8 × Word) :=
  match x.p.sig? sk, x.p.sig? sv with
  | some k, some v =>
    if k.desc.rows = v.desc.rows ∧ k.desc.rw = v.desc.rw ∧ k.desc.fmt = v.desc.fmt ∧ k.desc.depth = v.desc.depth ∧
        k.desc.fmt.toNat ≤ 4 then none else some (attF i sk 3)
  | _, _ => none

/-- A lag-range register with a reserved bit, or with its lags in the wrong order. -/
def lagsF (L : Word) (sg : Nat) : Option (BitVec 8 × Word) :=
  if fld L 54 48 = 0 ∧ fld L 23 0 ≤ fld L 47 24 then none else some (attF 0 sg 1)

/-- The highest lag lies at or above the depth. -/
def overF (x : Ctx) (sg : Nat) (L : Word) : Option (BitVec 8 × Word) :=
  match x.p.sig? sg with
  | some g => if fld L 47 24 < g.desc.depth then none else some (0x14, tapDetail sg (fld L 47 24) 0)
  | none => none

/-- The checks of attq on its registers and signals, in order. -/
def attqF (x : Ctx) (A L : Word) : List (Option (BitVec 8 × Word)) :=
  let sk := fld A 63 55
  let sv := fld L 63 55
  [if fld A 54 52 = 0 then none else some (attF 0 sk 1), lagsF L sk, notKvF x 0 sk, notKvF x 0 sv, pairF x 0 sk sv,
   match x.p.sig? sk, x.p.sig? sv with
   | some k, some v => if k.n = v.n then none else some (attF 0 sv 6)
   | _, _ => none, overF x sk L]

/-- The size of a sample of a signal. -/
def sampleBytes (x : Ctx) (sg : Nat) : Nat :=
  match x.p.sig? sg with
  | some g => g.desc.size
  | none => 0

/-- Entries of a kvapp list that name a signal again. -/
def twiceF : List Nat → List (Nat × KvWord) → List (Option (BitVec 8 × Word))
  | _, [] => []
  | seen, (i, e) :: r =>
    (if e.k ∈ seen then some (attF i e.k 5) else if e.v ∈ seen ∨ e.v = e.k then some (attF i e.v 5) else none) ::
      twiceF (e.k :: e.v :: seen) r

/-- The lag-0 slot of a signal takes no write (R177). -/
def closedF (x : Ctx) (sg : Nat) : Option (BitVec 8 × Word) :=
  match x.p.sig? sg with
  | some g => if g.due = true ∧ g.rest = false ∧ ∃ q, g.slot? g.n.toNat = some q ∧ (q.st = .empty ∨ q.st = .filling) then none
      else some (0x15, tapDetail sg 0 0)
  | none => some (0x15, tapDetail sg 0 0)

/-- The checks of kvapp on its list: code by code, each over the entries in order; then the areas, then R177. -/
def kvappF (x : Ctx) (top layer : Nat) (es : List (Nat × KvWord)) : List (Option (BitVec 8 × Word)) :=
  es.map (fun e => if fld e.2.w0 63 25 = 0 ∧ fld e.2.w0 15 9 = 0 ∧ fld e.2.w1 63 48 = 0 then none else some (attF e.1 e.2.k 1)) ++
  es.flatMap (fun e => [notKvF x e.1 e.2.k, notKvF x e.1 e.2.v]) ++
  es.map (fun e => pairF x e.1 e.2.k e.2.v) ++
  [if layer ∈ x.c.attqs then some (attF 0 0 4) else none] ++ twiceF [] es ++
  es.flatMap (fun e => [areaF top e.2.ka (sampleBytes x e.2.k) 256, areaF top e.2.va (sampleBytes x e.2.v) 256]) ++
  es.flatMap (fun e => [closedF x e.2.k, closedF x e.2.v])

/-- The samples of a lag range LLO to LHI of a signal from its oldest held sample o on (R353, R356). -/
def rangeOf (g : Sig) (o lo hi : Nat) : List Nat :=
  (List.range (g.n - lo + 1).toNat).filter (fun n => decide (g.n - hi ≤ n) && decide (o ≤ n))

end Sys2Proof.Machine
end

