-- ==== Sys2Proof/Certificates/Slice0/Obligations.lean ====
section
/-! DEFINITION. The statements about the model. In all of them the turn of a slot, the serial numbers, the draws and the order of
events are the model's own (log entries 1 to 4 and 52); what else a statement takes from the log it names. -/

open Sys2Proof Sys2Proof.Machine

/-- R144: each of these words, at its slot with its conditions met, issues, and does nothing but write its result. -/
def Obligations.IntegerResults : Prop :=
  ∀ (i : Instr) (h : Hdr) (srcs : List Opnd) (d : Opnd) (f : (Nat → Word) → Word), r144 i = some (h, srcs, d, f) →
    ∀ (s : State) (x : Ctx) (vs : List Val), Issues s h srcs [d] x vs → isV d = false →
      ∃ t, exec i s = .next t ∧ FixedWord s x srcs d (.w (f (wordAt vs))) t

/-- R145: a shift by the low six bits of its second source or by its immediate. -/
def Obligations.ShiftResults : Prop :=
  ∀ (i : Instr) (h : Hdr) (d a : Opnd) (n : ShAmt) (f : Word → Nat → Word), r145 i = some (h, d, a, n, f) →
    ∀ (s : State) (x : Ctx) (vs : List Val), isV d = false →
      (∀ k : Fin 64, n = .imm k → Issues s h [a] [d] x vs →
        ∃ t, exec i s = .next t ∧ FixedWord s x [a] d (.w (f (wordAt vs 0) k.val)) t) ∧
      (∀ b, n = .reg b → Issues s h [a, b] [d] x vs →
        ∃ t, exec i s = .next t ∧ FixedWord s x [a, b] d (.w (f (wordAt vs 0) ((wordAt vs 1).toNat % 64))) t)

/-- R146: cmp writes 1 where its condition holds and 0 where it does not. -/
def Obligations.CompareResults : Prop :=
  ∀ (h : Hdr) (cc : ICond) (d a : Opnd) (s : State) (x : Ctx) (vs : List Val), isV d = false →
    (∀ b, Issues s h [a, b] [d] x vs → ∃ (t : State) (r : Word), exec (.cmp h cc d a (.reg b)) s = .next t ∧
      FixedWord s x [a, b] d (.w r) t ∧ (r146 cc (wordAt vs 0) (wordAt vs 1) ∧ r = 1 ∨
        ¬r146 cc (wordAt vs 0) (wordAt vs 1) ∧ r = 0)) ∧
    (∀ imm : BitVec 22, Issues s h [a] [d] x vs → ∃ (t : State) (r : Word), exec (.cmp h cc d a (.imm imm)) s = .next t ∧
      FixedWord s x [a] d (.w r) t ∧ (r146 cc (wordAt vs 0) (imm.signExtend 64) ∧ r = 1 ∨
        ¬r146 cc (wordAt vs 0) (imm.signExtend 64) ∧ r = 0))

/-- R148 and R149: constants and bit fields. -/
def Obligations.FieldResults : Prop :=
  ∀ (i : Instr) (h : Hdr) (srcs : List Opnd) (d : Opnd) (f : (Nat → Word) → Word), r148 i = some (h, srcs, d, f) → wf i = true →
    ∀ (s : State) (x : Ctx) (vs : List Val), Issues s h srcs [d] x vs →
      ∃ t, exec i s = .next t ∧ FixedWord s x srcs d (.w (f (wordAt vs))) t

/-- R147: division and remainder; every case has a result, which lands from 6 to 70 cycles after issue. -/
def Obligations.DivisionResults : Prop :=
  ∀ (i : Instr) (h : Hdr) (srcs : List Opnd) (d : Opnd) (f : (Nat → Word) → Word), r147 i = some (h, srcs, d, f) →
    ∀ (s : State) (x : Ctx) (vs : List Val), Issues s h srcs [d] x vs → isV d = false →
      ∃ t, exec i s = .next t ∧ VarWord s x srcs d (.w (f (wordAt vs))) 6 70 t

/-- R78 to R82, R92 to R97, R151: each result is formed exactly and rounded once to its format under the word's mode, with the upper
bits zero. An encoding stands for the value of its fields; a value rounds to itself where it is representable, else to the neighbour
that its mode or the hash of R96 picks, and beyond the largest value to that or an infinity; sums, products and quotients are exact,
with the signs of zero of R82 and the invalid cases of R81. The value of a square root that is not rational is the model's choice
(log entry 11). -/
def Obligations.FloatResults : Prop :=
  (∀ (i : Instr) (h : Hdr) (f : FW) (rm : RM) (d : Opnd) (srcs : List Opnd) (op : List Rv → Rv),
    (r151 i = some (h, f, rm, d, srcs, op) → ∀ (s : State) (x : Ctx) (vs : List Val), Issues s h srcs [d] x vs → isV d = false →
      ∃ t, exec i s = .next t ∧ FixedWord s x srcs d
        (.w (w64 ((fwFmt f).round { rm := rm, seed := x.t.srdseed, now := x.p.now } 0 false
          (op (vs.map (fun v => (fwFmt f).dec v.word.toNat)))))) t) ∧
    (r151Slow i = some (h, f, rm, d, srcs, op) → ∀ (s : State) (x : Ctx) (vs : List Val), Issues s h srcs [d] x vs →
      isV d = false → ∃ t, exec i s = .next t ∧ VarWord s x srcs d
        (.w (w64 ((fwFmt f).round { rm := rm, seed := x.t.srdseed, now := x.p.now } 0 false
          (op (vs.map (fun v => (fwFmt f).dec v.word.toNat)))))) (match f with
            | .s => 10
            | .h => 6) (match f with
            | .s => 28
            | .h => 16) t)) ∧
  srdHash 0 1 0 = 0x752F ∧
  (∀ r ∈ r78, (∀ c, c < 2 ^ (1 + r.ew + r.fw) → decodes r c) ∧
    ∀ (rc : Rc) (coord : Nat) (sat : Bool), r.f.round rc coord sat .nan = r.nan ∧
      (∀ neg, r.f.round rc coord sat (.inf neg) =
        (if sat then r.max + (if neg then 2 ^ (r.ew + r.fw) else 0) else r.inf neg)) ∧
      ∀ neg p q, 0 < q → roundsTo r rc.rm (srdHash rc.seed (BitVec.ofNat 32 coord) rc.now).toNat sat neg p q
        (r.f.round rc coord sat (.fin neg p q))) ∧
  (∀ (rm : RM) (s t : Bool) (p q p' q' : Nat) (n : Int), 0 < q → 0 < q' → n = sgnNum s p * q' + sgnNum t p' * q →
    (n ≠ 0 → (Rv.add rm (.fin s p q) (.fin t p' q')).isVal (decide (n < 0)) n (q * q')) ∧
    (n = 0 → (Rv.add rm (.fin s p q) (.fin t p' q')).isVal (if s = t then s else rm == .rdn) 0 1) ∧
    (Rv.mul (.fin s p q) (.fin t p' q')).isVal (s != t) (sgnNum (s != t) (p * p')) (q * q') ∧
    (0 < p' → (Rv.div (.fin s p q) (.fin t p' q')).isVal (s != t) (sgnNum (s != t) (p * q')) (q * p')) ∧
    Rv.div (.fin s p q) (.fin t 0 q') = (if p = 0 then .nan else .inf (s != t)) ∧
    Rv.add rm (.inf s) (.inf t) = (if s = t then .inf s else .nan) ∧ Rv.add rm (.inf s) (.fin t p' q') = .inf s ∧
    Rv.add rm (.fin s p q) (.inf t) = .inf t ∧ Rv.mul (.inf s) (.inf t) = .inf (s != t) ∧
    Rv.mul (.inf s) (.fin t p' q') = (if p' = 0 then .nan else .inf (s != t)) ∧
    Rv.mul (.fin s p q) (.inf t) = (if p = 0 then .nan else .inf (s != t)) ∧ Rv.div (.inf s) (.inf t) = .nan ∧
    Rv.div (.inf s) (.fin t p' q') = .inf (s != t) ∧ (Rv.div (.fin s p q) (.inf t)).isVal (s != t) 0 1 ∧
    (0 < p → Rv.sqrt (.fin true p q) = .nan) ∧ (Rv.sqrt (.fin s 0 q)).isVal s 0 1 ∧
    (∀ m k, 0 < p → m ^ 2 * q = p * 4 ^ k → (Rv.sqrt (.fin false p q)).isVal false m (2 ^ k)) ∧
    Rv.sqrt (.inf false) = .inf false ∧ Rv.sqrt (.inf true) = .nan) ∧
  ∀ (rm : RM) (v : Rv), Rv.add rm .nan v = .nan ∧ Rv.add rm v .nan = .nan ∧ Rv.mul .nan v = .nan ∧ Rv.mul v .nan = .nan ∧
    Rv.div .nan v = .nan ∧ Rv.div v .nan = .nan ∧ Rv.sqrt .nan = .nan ∧
    ∀ a b, Rv.fma rm a b v = Rv.add rm (Rv.mul a b) v

/-- R152 to R154: minimum and maximum without rounding, comparison, and conversion, where an exact conversion ignores SAT.
Rests on the model's readings in log entry 42. -/
def Obligations.FloatOtherResults : Prop :=
  ∀ (h : Hdr) (f : FW) (d a b : Opnd) (s : State) (x : Ctx) (vs : List Val), isV d = false →
    (Issues s h [a, b] [d] x vs →
      (∃ t, exec (.fmin h f d a b) s = .next t ∧
        FixedWord s x [a, b] d (.w (fpOut f (x.rc .rne) (Rv.min (fpIn f (wordAt vs 0)) (fpIn f (wordAt vs 1))))) t) ∧
      (∃ t, exec (.fmax h f d a b) s = .next t ∧
        FixedWord s x [a, b] d (.w (fpOut f (x.rc .rne) (Rv.max (fpIn f (wordAt vs 0)) (fpIn f (wordAt vs 1))))) t) ∧
      (∀ cc, ∃ t, exec (.fcmp h f cc d a b) s = .next t ∧
        FixedWord s x [a, b] d (.w (boolWord (fcondHolds cc (fpIn f (wordAt vs 0)) (fpIn f (wordAt vs 1))))) t)) ∧
    (Issues s h [a] [d] x vs → ∀ (dt st : CvtTy) (sat : Bool) (rm : RM), ∃ t, exec (.fcvt h dt st sat rm d a) s = .next t ∧
      FixedWord s x [a] d (.w (cvtOut dt (x.rc rm) (if dt = .s ∧ st = .h then false else sat) (cvtIn st (wordAt vs 0)))) t)

/-- R243 to R250, R236: a key word in its scalar form works on its operands, in its vector form on each of their 32 elements, and gives
what the axes of its operands say; the mask words. -/
def Obligations.KeyAndMaskResults : Prop :=
  (∀ (i : Instr) (h : Hdr) (srcs : List Opnd) (d : Opnd) (f : List Word → Word), keyRow i = some (h, srcs, d, f) →
      ∀ (s : State) (x : Ctx) (vs : List Val), Issues s h srcs [d] x vs →
        (isV d = false → ∃ t, exec i s = .next t ∧ FixedWord s x srcs d (.w (f (vs.map (fun v => keyEl v 0)))) t) ∧
        (isV d = true → ∃ t r, exec i s = .next t ∧ FixedWord s x srcs d (.v r) t ∧
          ∀ j, j < 32 → r.extractLsb' (64 * j) 64 = f (vs.map (fun v => keyEl v j)))) ∧
  (∀ (i : Instr) (h : Hdr) (srcs : List Opnd) (d : Opnd) (f : List Word → Word), keyRow i = some (h, srcs, d, f) → wf i = true →
      ∀ l, keySays i (argW l) (f l)) ∧
  (∀ (i : Instr) (h : Hdr) (srcs : List Opnd) (d : Opnd) (f : (Nat → Word) → Word), maskRow i = some (h, srcs, d, f) →
      ∀ (s : State) (x : Ctx) (vs : List Val), Issues s h srcs [d] x vs → isV d = false →
        ∃ t, exec i s = .next t ∧ FixedWord s x srcs d (.w (f (wordAt vs))) t)

/-- R215, R218: a direct vector word forms each active element of its result, and its mask decides about the others. Rests on
the model's readings in log entry 11. -/
def Obligations.VectorElements : Prop :=
  ∀ (i : Instr) (h : Hdr) (w : Nat) (tops : List TOp) (d : Opnd) (mk : VMask) (g : Ctx → List Val → Nat → Nat),
    elRow i = some (h, w, tops, d, mk, g) → tops.findSome? topTap = none → isV d = true →
    ∀ (s : State) (x : Ctx) (vs : List Val), Issues s h (tops.flatMap topSrc ++ maskSrcs mk d) [d] x vs →
      ∃ t v, exec i s = .next t ∧ FixedWord s x (tops.flatMap topSrc ++ maskSrcs mk d) d v t ∧
        maskedEls mk w (g x (vs.take tops.length)) (wordAt (vs.drop tops.length) 0) (va (vs.drop tops.length) 1) v

/-! ### Issue, holds and traps -/

/-- What issuing a word adds to the word's own effect, for every word (R24, R111, R141): each source channel without .p has lost
its oldest entry, each destination channel gains one entry at its end, and the results go in flight to the destinations in
order; the stream moves on, and nothing else changes. Rests on the model's readings in log entries 1 and 2. -/
def Obligations.IssueEffect : Prop :=
  ∀ (x : Ctx) (srcs : List Opnd) (g : Go) (p : Pass) (c0 : CoreSt), g.st.pass? x.w.pid = some p → p.cores[x.w.qc]? = some c0 →
    (g.outs = [] → g.req = .none → EffectWord x srcs g.st g.next (State.issueGo x srcs g)) ∧
    (g.outs ≠ [] → FlightWord x srcs g.st g.outs g.due g.req g.pin g.arg g.next (State.issueGo x srcs g))

/-- R118 to R120, R111, R141, R402: whatever a word does, with a busy tag in its masks, a register still being written, a full
channel to write, or a source channel without a landed entry it stays at issue, and only its slot passes; a word that writes
an n channel without a binding takes the illegal-instruction trap. Rests on the model's readings in log entry 2. -/
def Obligations.WordsHold : Prop :=
  (∀ (i : Instr) (h : Hdr) (srcs dsts : List Opnd) (body : Ctx → List Val → Act) (s : State) (x : Ctx),
    exec i s = issue h srcs dsts s body → s.ctx? h = some x →
      ((∀ d ∈ dsts, x.bound s d = true) → (x.t.tcFree h.tc = false ∨ x.t.tagBusy h.ta.val = true ∨
          (∃ d ∈ dsts, isChan d = false ∧ x.t.busyReg d = true) ∨ (∃ d ∈ dsts, isChan d = true ∧ chRoom x.c d = false) ∨
          readSrcs x.c x.w 0 x.c.ch srcs = none) → exec i s = .next (x.stays s)) ∧
      ((∃ d ∈ dsts, x.bound s d = false) → ∃ t, exec i s = .next t ∧ TakesTrap s x 0x01 0 t)) ∧
  (∀ (i : Instr) (h : Hdr) (srcs : List Opnd) (d : Opnd) (f : (Nat → Word) → Word), r144 i = some (h, srcs, d, f) → ∀ s : State,
      ∃ body, exec i s = issue h srcs [d] s body)

/-- R380: a trap of a stream on the word at w writes epc, tcause and tinfo, makes the word at tvec the next one, and changes
nothing else of the pass, its loop state and its other streams included, and no other pass. R164: trap takes the software trap
on its own word with its code. -/
def Obligations.SoftwareTrap : Prop :=
  (∀ (s : State) (pid qc : Nat) (st : Stream) (w : VAddr) (cause : BitVec 8) (info : Word) (p : Pass) (c : CoreSt),
    s.pass? pid = some p → p.cores[qc]? = some c → (c.stream st).tvec ≠ 0 → isWordAddr (c.stream st).tvec = true →
    (s.takeTrap pid qc st w cause info).pass? pid = some { p with cores := p.cores.set qc (c.updStream st (fun t =>
      { t with epc := w, tcause := cause.zeroExtend 64, tinfo := info, pc := t.tvec, settle := true, semWait := none,
               limFrom := none })) } ∧
    ∀ j, j ≠ pid → (s.takeTrap pid qc st w cause info).pass? j = s.pass? j) ∧
  (∀ (h : Hdr) (code : BitVec 16) (s : State) (x : Ctx) (vs : List Val), Issues s h [] [] x vs →
    ∃ t, exec (.trap h code) s = .next t ∧ TakesTrap s x 0x08 (code.zeroExtend 64) t)

/-- R165: eret goes to the word at epc, eret.n to the word after it in sequence; a word that is no word address faults, which
for eret.n, with epc itself as the detail, is the model's choice in log entry 70. -/
def Obligations.TrapReturn : Prop :=
  ∀ (h : Hdr) (s : State) (x : Ctx) (vs : List Val), Issues s h [] [] x vs →
    (isWordAddr x.t.epc = true →
      (∃ t, exec (.eret h) s = .next t ∧ PlainWord s x [] (.plain x.t.epc) t) ∧
      (∃ t, exec (.eretN h) s = .next t ∧ PlainWord s x [] (.plain (nextAddr x.t.epc)) t)) ∧
    (isWordAddr x.t.epc = false →
      (∃ t, exec (.eret h) s = .next t ∧ TakesTrap s x 0x02 (vaWord x.t.epc) t) ∧
      (∃ t, exec (.eretN h) s = .next t ∧ TakesTrap s x 0x02 (vaWord x.t.epc) t))

/-! ### Control flow -/

/-- R155: branches, jumps and calls, and the fault of a target that is no word address. -/
def Obligations.Transfers : Prop :=
  ∀ (h : Hdr) (s : State) (x : Ctx) (vs : List Val),
    (∀ a, Issues s h [a] [] x vs → ∀ (cc : BCond) (off : BitVec 22),
      (r155 cc (wordAt vs 0) → ∃ t, exec (.br h cc a off) s = .next t ∧
        PlainWord s x [a] (.transfer (idxAddr (wordIdx x.t.pc + off.toInt))) t) ∧
      (¬r155 cc (wordAt vs 0) → ∃ t, exec (.br h cc a off) s = .next t ∧ PlainWord s x [a] .seq t)) ∧
    (Issues s h [] [] x vs → ∀ off : BitVec 22, ∃ t, exec (.jmp h off) s = .next t ∧
      PlainWord s x [] (.transfer (idxAddr (wordIdx x.t.pc + off.toInt))) t) ∧
    (∀ d, Issues s h [] [d] x vs → isV d = false → ∀ off : BitVec 22, ∃ t, exec (.jal h d off) s = .next t ∧
      FixedTo s x [] d (.w (vaWord (nextAddr x.t.pc))) (.plain (idxAddr (wordIdx x.t.pc + off.toInt))) t) ∧
    (∀ a, Issues s h [a] [] x vs →
      (isWordAddr (va57 (wordAt vs 0)) = true → ∃ t, exec (.jr h a) s = .next t ∧
        PlainWord s x [a] (.transfer (va57 (wordAt vs 0))) t) ∧
      (isWordAddr (va57 (wordAt vs 0)) = false → ∃ t, exec (.jr h a) s = .next t ∧
        TakesTrap s x 0x02 (vaWord (va57 (wordAt vs 0))) t))

/-- R156: bcq transfers on the bit it reads, jcq to the token it reads; an entry of the other type faults, and is consumed
unless it was peeked; pcq and ptok push an entry that is present at once. -/
def Obligations.ConditionQueues : Prop :=
  ∀ (h : Hdr) (q : Opnd) (s : State) (x : Ctx) (vs : List Val), isChan q = true →
    (∀ e, Issues s h [q] [] x vs → headOf x q = some e →
      (∀ (neg : Bool) (off : BitVec 22), e.ty ≠ .token → ∃ t, exec (.bcq h neg q off) s = .next t ∧
        PlainWord s x [q] (if (wordAt vs 0).getLsbD 0 ≠ neg then .transfer (idxAddr (wordIdx x.t.pc + off.toInt)) else .seq) t) ∧
      (e.ty = .token → isWordAddr (va57 (wordAt vs 0)) = true → ∃ t, exec (.jcq h q) s = .next t ∧
        PlainWord s x [q] (.transfer (va57 (wordAt vs 0))) t) ∧
      (∀ (neg : Bool) (off : BitVec 22), e.ty = .token → ∃ t u, exec (.bcq h neg q off) s = .next t ∧
        u = s.updCore x.w.pid x.w.qc (fun c => { c with ch := popSrc c.ch q }) ∧
        t = (u.takeTrap x.w.pid x.w.qc x.w.st x.t.pc 0x03 0).slotDone x.w.pid x.w.qc x.w.st) ∧
      (e.ty ≠ .token → ∃ t u, exec (.jcq h q) s = .next t ∧
        u = s.updCore x.w.pid x.w.qc (fun c => { c with ch := popSrc c.ch q }) ∧
        t = (u.takeTrap x.w.pid x.w.qc x.w.st x.t.pc 0x03 0).slotDone x.w.pid x.w.qc x.w.st)) ∧
    (∀ a, Issues s h [a] [q] x vs → (isChan a = true → chIdx a ≠ chIdx q) →
      (∃ t c, exec (.pcq h q a) s = .next t ∧ t.core? x.w.pid x.w.qc = some c ∧ ∃ e, e.ty = .bit ∧
        e.val = some (if (wordAt vs 0).getLsbD 0 then 1 else 0) ∧
        mget [] c.ch (chIdx q) = mget [] x.c.ch (chIdx q) ++ [e]) ∧
      (∃ t c, exec (.ptok h q (.reg a)) s = .next t ∧ t.core? x.w.pid x.w.qc = some c ∧ ∃ e, e.ty = .token ∧
        e.val = some (vaWord (va57 (wordAt vs 0))) ∧
        mget [] c.ch (chIdx q) = mget [] x.c.ch (chIdx q) ++ [e])) ∧
    (Issues s h [] [q] x vs → ∀ off : BitVec 22, ∃ t c, exec (.ptok h q (.target off)) s = .next t ∧
      t.core? x.w.pid x.w.qc = some c ∧ ∃ e, e.ty = .token ∧
      e.val = some (vaWord (idxAddr (wordIdx x.t.pc + off.toInt))) ∧
      mget [] c.ch (chIdx q) = mget [] x.c.ch (chIdx q) ++ [e])

/-- R157: loop with its count in a register's low 32 bits or in the word. Rests on the model's readings in log entry 40. -/
def Obligations.LoopOpens : Prop :=
  ∀ (h : Hdr) (off : BitVec 12) (s : State) (x : Ctx) (vs : List Val),
    (∀ a, Issues s h [a] [] x vs → ∃ t, exec (.loop h (.reg a) off) s = .next t ∧
      LoopEffect s x [a] off ((wordAt vs 0).truncate 32) t) ∧
    (Issues s h [] [] x vs → ∀ n : BitVec 10, ∃ t, exec (.loop h (.imm n) off) s = .next t ∧
      LoopEffect s x [] off (n.zeroExtend 32) t)

/-- R128, R159, R34, R189: nop only passes its slot; exit only ends its stream, which stays at its word; tick records the slack of
the region that it closes and holds its stream at the next word. -/
def Obligations.NopExitTick : Prop :=
  (∀ (h : Hdr) (s : State) (x : Ctx) (vs : List Val), Issues s h [] [] x vs →
      (∃ t, exec (.nop h) s = .next t ∧ PlainWord s x [] .seq t) ∧
      (∃ t c, exec (.exit h) s = .next t ∧ Commits x s x.p c t ∧
        c = x.c.updStream x.w.st (fun t => { t with exited := true, semWait := none, limFrom := none }))) ∧
  (∀ (h : Hdr) (slack : BitVec 21) (s : State) (x : Ctx) (vs : List Val), Issues s h [] [] x vs →
      exec (.tick h slack) s = .next (x.issued [] (s.updCore x.w.pid x.w.qc (fun c =>
        { c with ticked := some slack.toNat, exe := { c.exe with tickWait := some (x.t.after .seq).pc } }))))

/-- R131, R132, R162, R163: csrr reads the control register that its number names, by the table of R131; csrw writes those that
may be written and leaves the others as they are. A counter of the core takes what was last written in the cycle when the
cycle ends, and the events of that cycle are added to it. Rests on the model's readings in log entry 48. -/
def Obligations.ControlRegisters : Prop :=
  (∀ (h : Hdr) (num : BitVec 12) (s : State) (x : Ctx) (vs : List Val),
    (∀ (d : Opnd) (v : Word), Issues s h [] [d] x vs → isV d = false → (num.toNat, v) ∈ r131 s x →
      ∃ t, exec (.csrr h d num) s = .next t ∧ FixedWord s x [] d (.w v) t) ∧
    (∀ a, Issues s h [a] [] x vs → ∃ t, exec (.csrw h num a) s = .next t ∧
      CoreWord s x [a] (r131Write x num.toNat (wordAt vs 0)) t)) ∧
  (∀ (c : CoreSt) (cycle bytes : Nat) (stalled late : Bool) (d : CoreSt), d = c.nextCycle cycle stalled late bytes →
    d.slstall = lastWritten c 0x012 c.slstall + (if late then 1 else 0) ∧ d.replays = lastWritten c 0x013 c.replays ∧
    ((∃ v, (0x014, v) ∈ c.crNew) → d.semsat = lastWritten c 0x014 0 + c.satNow) ∧
    ((∀ v, (0x014, v) ∉ c.crNew) → d.semsat = c.semsat) ∧ d.satNow = 0 ∧ d.crNew = [])

/-- R133, R134, R160: semi raises a counter, and at 65,535 leaves it and counts the loss; semw lowers a counter above zero and
holds at zero; every semaphore is zero when a pass starts. A cycle's increments come before its waits, so semi meets the
counter with the waits that the running cycle has already satisfied added back: that reading is log entry 48's. At the
end of a cycle a counter at 1 satisfies one wait, the first in the order execute stream, access stream, matrix queue, copy
queue, vector queue, curve queue, attention queue. -/
def Obligations.Semaphores : Prop :=
  (∀ (h : Hdr) (n : SemArg) (s : State) (x : Ctx) (vs : List Val) (k : Nat) (srcs : List Opnd),
    semOf n vs = (k, srcs) → Issues s h srcs [] x vs →
    ((mget 0 x.c.sems k).toNat + mget 0 x.c.waitNow k ≠ 65535 → ∃ t, exec (.semi h n) s = .next t ∧
      CoreWord s x srcs { x.c with sems := mset 0 x.c.sems k (mget 0 x.c.sems k + 1) } t) ∧
    ((mget 0 x.c.sems k).toNat + mget 0 x.c.waitNow k = 65535 → ∃ t, exec (.semi h n) s = .next t ∧
      CoreWord s x srcs { x.c with semsat := x.c.semsat + 1, satNow := x.c.satNow + 1 } t) ∧
    (mget 0 x.c.sems k ≠ 0 → ∃ t, exec (.semw h n) s = .next t ∧
      CoreWord s x srcs { x.c with sems := mset 0 x.c.sems k (mget 0 x.c.sems k - 1),
                                   waitNow := mset 0 x.c.waitNow k (mget 0 x.c.waitNow k + 1) } t) ∧
    (mget 0 x.c.sems k = 0 → ∃ t c, exec (.semw h n) s = .next t ∧ t.core? x.w.pid x.w.qc = some c ∧
      (c.stream x.w.st).semWait = some (k, srcs) ∧ (c.stream x.w.st).pc = x.t.pc ∧ c.sems = x.c.sems ∧ c.ch = x.c.ch)) ∧
  (∀ (prog : VAddr) (idx : List Nat) (lc n : Nat), mget 0 (newCore prog idx lc).sems n = 0) ∧
  (∀ (s : State) (p : Pass) (qc n : Nat) (c : CoreSt), s.core? p.pid qc = some c → (mget 0 c.sems n).toNat = 1 →
    (∀ ws, s.stalled p = false → c.exe.semWait = some (n, ws) → (∀ a, c.acc.semWait = some a → a.1 = n) →
      (∀ e k, (c.cmdsIn e .queued).head? = some k → k.wait = none ∨ k.wait = some n) → ∃ d,
      (s.grantCore p qc).core? p.pid qc = some d ∧ mget 0 d.sems n = 0 ∧ d.exe.semWait = none ∧ d.acc = c.acc ∧
      d.cmds = c.cmds) ∧
    (∀ ws, s.stalled p = false → c.exe.semWait = none → c.acc.semWait = some (n, ws) →
      (∀ e k, (c.cmdsIn e .queued).head? = some k → k.wait = none ∨ k.wait = some n) → ∃ d,
      (s.grantCore p qc).core? p.pid qc = some d ∧ mget 0 d.sems n = 0 ∧ d.acc.semWait = none ∧ d.exe = c.exe ∧
      d.cmds = c.cmds) ∧
    (∀ (pre post : List Eng) (e : Eng) (k : Cmd), [Eng.mat, .copy, .vec, .curve, .att] = pre ++ e :: post →
      c.exe.semWait = none → c.acc.semWait = none → (c.cmdsIn e .queued).head? = some k → k.wait = some n →
      k.ord.kind = .none → (∀ j ∈ c.cmds, j.id = k.id → j = k) →
      (∀ f ∈ pre, ∀ j, (c.cmdsIn f .queued).head? = some j → j.wait = none) →
      (∀ f ∈ post, ∀ j, (c.cmdsIn f .queued).head? = some j → j.wait = none ∨ j.wait = some n) → ∃ d,
      (s.grantCore p qc).core? p.pid qc = some d ∧ mget 0 d.sems n = 0 ∧ d.exe = c.exe ∧ d.acc = c.acc ∧
      ∃ k', k'.id = k.id ∧ k'.wait = none ∧ (d.cmdsIn e .queued).head? = some k' ∧
        ∀ f, f ≠ e → d.cmdsIn f .queued = c.cmdsIn f .queued))

/-- R161: spld and spst move little-endian bytes between a register and the stream's spill bank; an address outside the bank
or not aligned faults with the address computed, and changes nothing. -/
def Obligations.SpillBanks : Prop :=
  ∀ (h : Hdr) (sz : Sz) (base : Option Opnd) (off : BitVec 22) (s : State) (x : Ctx) (vs : List Val) (A : Word),
    A = (if base.isSome then wordAt vs 0 else 0) + off.signExtend 64 →
    (∀ d, Issues s h (optList base) [d] x vs → isV d = false →
      (A.toNat + szBytes sz ≤ 4096 → A.toNat % szBytes sz = 0 → ∃ t, exec (.spld h sz d base off) s = .next t ∧
        FixedWord s x (optList base) d (.w (BitVec.ofNat 64 (leNat ((List.range (szBytes sz)).map (fun i =>
          mget 0 x.t.spill (A.toNat + i)))))) t) ∧
      (4096 < A.toNat + szBytes sz → ∃ t, exec (.spld h sz d base off) s = .next t ∧ TakesTrap s x 0x06 A t) ∧
      (A.toNat + szBytes sz ≤ 4096 → A.toNat % szBytes sz ≠ 0 → ∃ t, exec (.spld h sz d base off) s = .next t ∧
        TakesTrap s x 0x07 A t)) ∧
    (∀ b, Issues s h (optList base ++ [b]) [] x vs →
      (A.toNat + szBytes sz ≤ 4096 → A.toNat % szBytes sz = 0 → ∃ t m, exec (.spst h sz base off b) s = .next t ∧
        CoreWord s x (optList base ++ [b]) (x.c.updStream x.w.st (fun u => { u with spill := m })) t ∧
        (∀ i, i < szBytes sz → mget 0 m (A.toNat + i) =
          BitVec.ofNat 8 ((wordAt vs (if base.isSome then 1 else 0)).toNat / 256 ^ i)) ∧
        (∀ k, k < A.toNat ∨ A.toNat + szBytes sz ≤ k → mget 0 m k = mget 0 x.t.spill k)) ∧
      (4096 < A.toNat + szBytes sz → ∃ t, exec (.spst h sz base off b) s = .next t ∧ TakesTrap s x 0x06 A t) ∧
      (A.toNat + szBytes sz ≤ 4096 → A.toNat % szBytes sz ≠ 0 → ∃ t, exec (.spst h sz base off b) s = .next t ∧
        TakesTrap s x 0x07 A t))

/-! ### Loads, stores and atomics -/

/-- R281: a load goes in flight with the locations that its address translates to, to land 12 cycles after issue at the
earliest; it changes no byte of memory, no path buffer and no store, and no register before it lands. Rests on the model's
readings in log entry 3. -/
def Obligations.LoadIssues : Prop :=
  ∀ (h : Hdr) (sx : Bool) (sz : Sz) (ord : Ord14) (d a : Opnd) (off : BitVec 8) (s : State) (x : Ctx) (vs : List Val),
    Issues s h [a] [d] x vs →
    (∀ ps s1, s.walkHeld x.ag s.seq = false →
      s.accessAs x.ag s.seq x.die x.asid .rd (memAddr (wordAt vs 0) off) (szBytes sz) = (.ok ps, s1) →
      exec (.ld h sx sz ord d a off) s = .next (x.flying [a] s1 [(d, none)] (.least (x.w.cycle + 12))
        (.load (ps.map (fun p => { keys := p.keys, pk := p.pk, page := (p.va.toNat, p.lg), got := none })) sz sx
          (plainOrd ord ps)))) ∧
    (∀ ps, s.relsNaming x.ag .w s.seq = [] →
      (s.access x.die x.asid .rd (memAddr (wordAt vs 0) off) (szBytes sz)).1 = .ok ps →
      ∃ t c, exec (.ld h sx sz ord d a off) s = .next t ∧ SameMemory s t ∧
        t.pass? x.w.pid = some { x.p with cores := x.p.cores.set x.w.qc c } ∧ CoreFrame x x.c [a] [d] c ∧
        NextWord x x.c .seq c)

/-- R281, R53, R64: a store puts its bytes, lowest first, in the core's s buffer at the locations that its address translates
to; a later read on that path finds every other location as before, no other buffer, no store and no memory changes. -/
def Obligations.StoreIssues : Prop :=
  ∀ (h : Hdr) (sz : Sz) (ord : Ord14) (a b : Opnd) (off : BitVec 8) (s : State) (x : Ctx) (vs : List Val),
    Issues s h [a, b] [] x vs →
    (∀ ps s1, s.walkHeld x.ag s.seq = false →
      s.accessAs x.ag s.seq x.die x.asid .wr (memAddr (wordAt vs 0) off) (szBytes sz) = (.ok ps, s1) →
      exec (.st h sz ord a off b) s =
        .next (x.issued [a, b] (issueParts x.ag x.w.pid x.w.qc ord (if 1 < ps.length then some s1.seq else none) s1 ps
          (wordLe (szBytes sz) (wordAt vs 1))))) ∧
    (∀ ps, s.relsNaming x.ag .w s.seq = [] →
      (s.access x.die x.asid .wr (memAddr (wordAt vs 0) off) (szBytes sz)).1 = .ok ps →
      ∃ t c es, exec (.st h sz ord a off b) s = .next t ∧ SameMemory s { t with bufs := s.bufs } ∧
        t.pass? x.w.pid = some { x.p with cores := x.p.cores.set x.w.qc c } ∧ CoreFrame x x.c [a, b] [] c ∧
        NextWord x x.c .seq c ∧ bufOf t.bufs x.ag .s = bufOf s.bufs x.ag .s ++ es ∧
        (∀ ag cl, ¬(ag = x.ag ∧ cl = Cls.s) → bufOf t.bufs ag cl = bufOf s.bufs ag cl) ∧
        es.flatMap (fun e => e.wr.cells) = keyCells (ps.flatMap (fun p => p.keys)) (wordLe (szBytes sz) (wordAt vs 1)) ∧
        (∀ e ∈ es, e.act = .write) ∧
        (∀ k, k ∉ ps.flatMap (fun p => p.keys) → t.readByte x.ag .s k = s.readByte x.ag .s k))

/-- R365 to R368, R371, R373, R381 to R383, R285: an access of a scalar word, whatever the word, that does not translate, or that its
page forbids, is a trap with the fault's cause and detail where the address space has no fault log; with a log a translation fault
stalls the quire of the word's pass, and the word stays. An atomic, a wait or a future at a misaligned address traps before it is
translated. A translation is what a walk of the tables finds, checked for the access, or what a cached leaf says; with nothing
cached for the address space on the die an access on one page has its bytes there, or the fault of its first byte. -/
def Obligations.AccessFaults : Prop :=
  (∀ (i : Instr) (h : Hdr) (srcs dsts : List Opnd) (acc : Acc) (va : List Val → VAddr) (n al : Nat),
    accessOf i = some (h, srcs, dsts, acc, va, n, al) →
    ∀ (s : State) (x : Ctx) (vs : List Val), Issues s h srcs dsts x vs →
    ((va vs).toNat % al ≠ 0 → exec i s = .next (x.trapped s 0x09 ((va vs).zeroExtend 64))) ∧
    (∀ (f : AccFault) (s1 : State), (va vs).toNat % al = 0 → s.walkHeld x.ag s.seq = false →
      s.accessAs x.ag s.seq x.die x.asid acc (va vs) n = (.error f, s1) →
      (f.cause ≠ 0x0A ∨ x.p.ctx.flb = 0 → exec i s = .next (x.trapped s1 f.cause f.info)) ∧
      (f.cause = 0x0A → x.p.ctx.flb ≠ 0 → ∃ t pf, exec i s = .next t ∧ t.faults = s1.faults ++ [pf] ∧
        pf.pid = x.w.pid ∧ pf.qc = x.w.qc ∧ pf.asid = x.asid ∧ pf.va = f.va ∧ pf.info = f.info ∧ pf.reason = f.reason ∧
        pf.who = .stream x.w.st ∧ pf.asked = none ∧ t.stalled x.p = true ∧ t.passes = s1.passes ∧ t.mem = s1.mem ∧
        t.bufs = s1.bufs ∧ t.stores = s1.stores))) ∧
  ∀ (s : State) (die : Nat) (asid : BitVec 16) (va : VAddr) (acc : Acc) (r : Except Nat (Word × Nat)) (f : Nat → Nat → Word),
    (∀ w ∈ s.walks, w.die = die → w.asid ≠ asid) →
    WalkEnds (fun a => leWord (s.readKeys (.walker die) .w (paKeys a 8))) va.toNat r365 (s.asidCtx asid).root.toNat r →
    (∀ k reason, f k reason = BitVec.ofNat 64 (k + reason * 2 ^ 60 + va.toNat)) →
    (s.tlbHit die asid va.toNat = none → (s.translate die asid va acc).1 = r367 acc va.toNat r) ∧
    (∀ t, s.tlbHit die asid va.toNat = some t → (s.translate die asid va acc).1 = r367 acc va.toNat r ∨
      (s.translate die asid va acc).1 = r367 acc va.toNat (.ok (t.pte, t.lg))) ∧
    ∀ n bit, 0 < n → (∀ e ∈ s.tlb, e.die = die → e.asid ≠ asid) →
      bit = (match acc with
        | .wr => 2 ^ 63
        | .fetch => 2 ^ 62
        | .rd => 0) →
      match r367 acc va.toNat r with
      | .ok pa pk lg => va.toNat % 2 ^ lg + n ≤ 2 ^ lg →
        (s.access die asid acc va n).1 = .ok [{ va := va, keys := paKeys pa n, pk := pk, lg := lg }]
      | .trans k => (s.access die asid acc va n).1 = .error { cause := 0x0A, info := f bit k, va := va, reason := k }
      | .perm => va.toNat % 65536 + n ≤ 65536 →
        (s.access die asid acc va n).1 = .error { cause := 0x0B, info := f bit 0, va := va, reason := 0 }
      | .cow => va.toNat % 65536 + n ≤ 65536 →
        (s.access die asid acc va n).1 = .error { cause := 0x0C, info := f bit 0, va := va, reason := 0 }

/-- R279, R282 to R285: an atomic enters the s buffer with its step; its result, where it has one, lands 20 cycles after
issue at the earliest; a misaligned address faults. -/
def Obligations.AtomicIssues : Prop :=
  ∀ (i : Instr) (h : Hdr) (wd : AW) (ord : Ord14) (asc : BitVec 4) (srcs : List Opnd) (d : Option Opnd)
    (act : List Val → EAct), atomOf i = some (h, wd, ord, asc, srcs, d, act) →
    ∀ (s : State) (x : Ctx) (vs : List Val), Issues s h srcs (optList d) x vs →
    ((memAddr (wordAt vs 0) 0).toNat % awBytes wd ≠ 0 →
      ∃ t, exec i s = .next t ∧ TakesTrap s x 0x09 (vaWord (memAddr (wordAt vs 0) 0)) t) ∧
    (∀ ps s1, (memAddr (wordAt vs 0) 0).toNat % awBytes wd = 0 → s.walkHeld x.ag s.seq = false →
      s.accessAs x.ag s.seq x.die x.asid .wr (memAddr (wordAt vs 0) 0) (awBytes wd) = (.ok ps, s1) →
      ∃ e s2, e.act = act vs ∧ e.key = (ps.flatMap (fun p => p.keys)).headD 0 ∧ e.seq = s1.seq ∧ e.ord = ord ∧ e.asc = asc ∧
        e.wr.cells.map (fun c => c.1) = ps.flatMap (fun p => p.keys) ∧ s2 = s1.issueEntry x.ag .s e ∧
        (d = none → exec i s = .next (x.issued srcs s2.tickSeq)) ∧
        (∀ o, d = some o → exec i s = .next (x.flying srcs s2 [(o, none)] (.least (x.w.cycle + 20)) .entry)))

/-- R290: wwait that reads at least its threshold issues, its registration ends and the acquire of its annotation follows, on a
page of any kind (the model's reading in log entry 67); below it the word stays. -/
def Obligations.WaitWord : Prop :=
  ∀ (h : Hdr) (wd : AW) (ord : Ord14) (a : Opnd) (thr : Thr) (s : State) (x : Ctx) (vs : List Val) (ps : List Part) (s1 : State),
    Issues s h (a :: thrSrc thr) [] x vs → (memAddr (wordAt vs 0) 0).toNat % awBytes wd = 0 →
    s.walkHeld x.ag s.seq = false →
    s.accessAs x.ag s.seq x.die x.asid .rd (memAddr (wordAt vs 0) 0) (awBytes wd) = (.ok ps, s1) →
    (∀ w, s1.waiter? x.w.pid x.w.qc = some w → w.awake = true) →
    ∀ s2 s3, s2 = (if (s1.waiter? x.w.pid x.w.qc).isSome then s1
      else s1.register ((ps.flatMap (fun p => p.keys)).headD 0) (.core x.w.pid x.w.qc)) →
    s2.mayRead x.lc s2.seq (ps.flatMap (fun p => p.keys)) (match ps with
      | p :: _ => p.pk
      | [] => .r) x.t.pend = true →
    s2.badKeys x.ag .s (ps.flatMap (fun p => p.keys)) = [] → s3 = s2.unregister (.core x.w.pid x.w.qc) →
    ((thrVal thr (wordAt vs 1)).toNat % 2 ^ awBitsOf wd ≤ leNat (s2.readKeys x.ag .s (ps.flatMap (fun p => p.keys))) →
      exec (.wwait h wd ord a thr) s = .next (x.issued (a :: thrSrc thr) (if ord.kind = .acq ∨ ord.kind = .ar then
        s3.acquire x.ag x.w.pid x.w.qc s3.seq (pathSet ord.paths .s) (s3.scopeLvl x.ag ord.scope.toNat) else s3))) ∧
    (leNat (s2.readKeys x.ag .s (ps.flatMap (fun p => p.keys))) < (thrVal thr (wordAt vs 1)).toNat % 2 ^ awBitsOf wd →
      exec (.wwait h wd ord a thr) s = .next ((s2.sleepAgain x.w.pid x.w.qc).slotDone x.w.pid x.w.qc x.w.st))

/-- R293, R294: enq and deq enter the s buffer and their status, and for deq the value, land when the step is performed;
enqw and deqw perform the step at issue, after the release of their annotation and before its acquire, and issue on every status
but full and empty, on which the word stays (R295); while an acquire or the order of their path holds the step they stay. -/
def Obligations.QueueWords : Prop :=
  ∀ (h : Hdr) (ord : Ord14) (lim asc : BitVec 4) (d a b : Opnd) (s : State) (x : Ctx) (vs : List Val),
    (Issues s h [a, b] [d] x vs → exec (.enq h ord asc d a b) s = .next (x.flying [a, b]
      (s.issueEntry x.ag .s (queueEntry s x (wordAt vs 0) (.enq (wordAt vs 1)) ord asc)) [(d, none)] (.least (x.w.cycle + 20))
      .entry)) ∧
    (Issues s h [a] [d, oddOf d] x vs → exec (.deq h ord asc d a) s = .next (x.flying [a]
      (s.issueEntry x.ag .s (queueEntry s x (wordAt vs 0) .deq ord asc)) [(d, none), (oddOf d, none)] (.least (x.w.cycle + 20))
      .entry)) ∧
    (∀ (act : EAct) (e : Entry), e = queueEntry s x (wordAt vs 0) act ord asc → s.mayDrain x.ag .s e = false →
      ∃ f : StreamSt → StreamSt, (∀ t, { f t with limFrom := t.limFrom } = t ∧ (f t).limFrom.isSome = true) ∧
        (Issues s h [a, b] [d] x vs → act = .enq (wordAt vs 1) → exec (.enqw h ord lim asc d a b) s =
          .next ((s.updStream x.w.pid x.w.qc x.w.st f).slotDone x.w.pid x.w.qc x.w.st)) ∧
        (Issues s h [a] [d, oddOf d] x vs → act = .deq → exec (.deqw h ord lim asc d a) s =
          .next ((s.updStream x.w.pid x.w.qc x.w.st f).slotDone x.w.pid x.w.qc x.w.st))) ∧
    (∀ (act : EAct) (e : Entry) (s0 s1 s2 : State) (q : QRes) (ps : BitVec 8) (lvl : Nat),
      e = queueEntry s x (wordAt vs 0) act ord asc → s.mayDrain x.ag .s e = true → ps = pathSet ord.paths .s →
      lvl = s.scopeLvl x.ag (if ord.kind = .none then asc.toNat else ord.scope.toNat) →
      s0 = (if ord.kind = .rel ∨ ord.kind = .ar then (s.forceLoads x.lc s.seq (s.entFoot x.ag e).1).releaseNow x.ag ps lvl
        else s.forceLoads x.lc s.seq (s.entFoot x.ag e).1) →
      s2 = (if ord.kind = .acq ∨ ord.kind = .ar then s1.acquire x.ag x.w.pid x.w.qc s1.seq ps lvl else s1) →
      (Issues s h [a, b] [d] x vs → act = .enq (wordAt vs 1) →
        s0.queueStep x.ag x.asid lvl (wordAt vs 0) (some (wordAt vs 1)) = (q, s1) →
        (q.code ≠ 1 → exec (.enqw h ord lim asc d a b) s =
          .next (x.flying [a, b] s2 [(d, some (.w (w64 q.code)))] (.least (x.w.cycle + 20)) .none)) ∧
        (q.code = 1 → ∃ f, Repeats x lim false (BitVec.ofNat 64 ((wordAt vs 0).toNat % 2 ^ 32 * 2 ^ 32 +
            q.head.toNat % 2 ^ 16 * 2 ^ 16 + q.tail.toNat % 2 ^ 16)) f ∧ exec (.enqw h ord lim asc d a b) s =
          .next ((s1.updStream x.w.pid x.w.qc x.w.st f).slotDone x.w.pid x.w.qc x.w.st))) ∧
      (Issues s h [a] [d, oddOf d] x vs → act = .deq →
        s0.queueStep x.ag x.asid lvl (wordAt vs 0) none = (q, s1) →
        (q.code ≠ 1 → exec (.deqw h ord lim asc d a) s =
          .next (x.flying [a] s2 [(d, some (.w (w64 q.code))), (oddOf d, some (.w q.val))] (.least (x.w.cycle + 20)) .none)) ∧
        (q.code = 1 → ∃ f, Repeats x lim true (BitVec.ofNat 64 ((wordAt vs 0).toNat % 2 ^ 32 * 2 ^ 32 +
            q.head.toNat % 2 ^ 16 * 2 ^ 16 + q.tail.toNat % 2 ^ 16)) f ∧ exec (.deqw h ord lim asc d a) s =
          .next ((s1.updStream x.w.pid x.w.qc x.w.st f).slotDone x.w.pid x.w.qc x.w.st))))

/-! ### Vector words -/

/-- R223, R224, R226 to R228, R230: comparison, selection, conversion, reductions in the order of R103, scans in the order of
R104, and moves of one element. Rests on the model's readings in log entry 42. -/
def Obligations.VectorResults : Prop :=
  ∀ (i : Instr) (h : Hdr) (tops : List TOp) (extra : List Opnd) (d : Opnd) (vec : Bool)
    (P : Ctx → List Val → List Val → Val → Prop),
    vecRow i = some (h, tops, extra, d, vec, P) → wf i = true → tops.findSome? topTap = none → isV d = vec →
    ∀ (s : State) (x : Ctx) (vs : List Val), Issues s h (tops.flatMap topSrc ++ extra) [d] x vs →
      ∃ t v, exec i s = .next t ∧ FixedWord s x (tops.flatMap topSrc ++ extra) d v t ∧
        P x (vs.take tops.length) (vs.drop tops.length) v

/-- R210 to R212: a vector word with a tap for an operand reads its tap and its registers at issue and enters the vector
queue with its result, which lands 9 cycles after issue at the earliest (R213 gives the bounds where the queue is empty and the
slot is near); a full queue holds the word before all else (R122), a tap that is not ready holds it, and a tap that may not be
read faults as the tap's check says. Rests on the model's readings in log entry 45. -/
def Obligations.VectorTaps : Prop :=
  ∀ (i : Instr) (h : Hdr) (tops : List TOp) (extra : List Opnd) (d : Opnd) (vec : Bool)
    (P : Ctx → List Val → List Val → Val → Prop) (tp : Tap),
    tapRow i = some (h, tops, extra, d, vec, P) → wf i = true → tops.findSome? topTap = some tp → isV d = vec →
    ∀ (s : State) (x : Ctx) (vs : List Val), Issues s h (tops.flatMap topSrc ++ extra) [d] x vs →
      (x.c.qFull .vec = true → exec i s = .next (x.stays s)) ∧
      (∀ e, x.c.qFull .vec = false → readTap x s (tapArgs tp (topReg tops vs)) 0 = .fault e →
        ∃ t, exec i s = .next t ∧ TakesTrap s x e.1 e.2 t) ∧
      (∀ s1, x.c.qFull .vec = false → readTap x s (tapArgs tp (topReg tops vs)) 0 = .hold s1 →
        exec i s = .next (x.stays s1)) ∧
      (∀ s1 r bs s2, readTap x s (tapArgs tp (topReg tops vs)) 0 = .ok s1 r → tapRead x s1 r 0 256 = (bs, s2) →
        x.c.qFull .vec = false → r.pin.any (x.p.pinFull false) = false → ∃ k v, k.eng = .vec ∧ k.ins = i ∧ k.ops = [v] ∧
          k.rpins = r.pin ∧ k.st = .queued ∧ k.wait = none ∧ k.sig = none ∧
          P x (topVals (.v (vregOf bs)) tops vs).1 (topVals (.v (vregOf bs)) tops vs).2 v ∧
          exec i s = .next (x.flying (tops.flatMap topSrc ++ extra) (s2.enqueue x k) [(d, none)]
            (if homeHere x r = true ∧ (∀ k ∈ x.c.cmds, k.eng ≠ .vec) then
              .within (x.w.cycle + 9 + directLat i) (x.w.cycle + 12 + directLat i) else .least (x.w.cycle + 9)) .entry))

/-- R234, R235: vsort is a stable sort of (key, value) pairs, a NaN key of vsort.s being written as the canonical NaN; vtri merges
two triples lane by lane, an empty triple having weight zero and two empty triples merging to the empty one. The weights that vtri
forms with 2^x are the model's reading in log entry 11. -/
def Obligations.SortAndMerge : Prop :=
  (∀ (h : Hdr) (t : VTy) (desc : Bool) (d a b : Opnd) (s : State) (x : Ctx) (vs : List Val), Issues s h [a, b] [d, pairHi d] x vs →
      ∃ (K V : Val) (l : List Nat), exec (.vsort h t desc d a b) s =
          .next (x.flying [a, b] s [(d, some K), (pairHi d, some V)] (.exact (x.w.cycle + x.h.pd.val)) .none) ∧
        l.Perm (List.range t.count) ∧
        let key (n : Nat) : Nat := if t == .s && (fFP32.dec ((va vs 0).el t.width n)).isNan then fFP32.nanCode
          else (va vs 0).el t.width n
        l.Pairwise (fun m n => (if desc then sortKey t (key n) < sortKey t (key m) else sortKey t (key m) < sortKey t (key n)) ∨
          sortKey t (key m) = sortKey t (key n) ∧ m < n) ∧
        ∀ n (_ : n < l.length), K.el t.width n = key (l[n]) % 2 ^ t.width ∧ V.el t.width n = (va vs 1).el t.width (l[n])) ∧
  (∀ (h : Hdr) (rm : RM) (d a b : Opnd) (s : State) (x : Ctx) (vs : List Val),
      Issues s h [a, vAfter 1 a, vAfter 2 a, b, vAfter 1 b, vAfter 2 b] [d, vAfter 1 d, vAfter 2 d] x vs →
      ∃ (M S A : Val), exec (.vtri h rm d a b) s =
          .next (x.flying [a, vAfter 1 a, vAfter 2 a, b, vAfter 1 b, vAfter 2 b] s
            [(d, some M), (vAfter 1 d, some S), (vAfter 2 d, some A)] (.exact (x.w.cycle + x.h.pd.val)) .none) ∧
        ∀ i, i < 64 →
          let f := fFP32
          let e (j : Nat) : Nat := (va vs j).el 32 i
          let rnd (v : Rv) : Nat := f.round (x.rc rm) 0 false v
          let m := if (f.dec (e 0)).isNan || (f.dec (e 3)).isNan then f.nanCode
            else f.round Rc.rne 0 false (Rv.max (f.dec (e 0)) (f.dec (e 3)))
          let c (k : Nat) : Rv := if k = f.infOf true then .fin false 0 1
            else f.dec (rnd (Rv.exp2 (f.dec (rnd (Rv.add rm (f.dec k) (f.dec m).neg)))))
          let empty : Bool := e 0 == f.infOf true && e 3 == f.infOf true
          M.el 32 i = m % 2 ^ 32 ∧
          S.el 32 i = (if empty then 0 else
            rnd (Rv.add rm (Rv.mul (f.dec (e 1)) (c (e 0))) (Rv.mul (f.dec (e 4)) (c (e 3)))) % 2 ^ 32) ∧
          A.el 32 i = (if empty then 0 else
            rnd (Rv.add rm (Rv.mul (f.dec (e 2)) (c (e 0))) (Rv.mul (f.dec (e 5)) (c (e 3)))) % 2 ^ 32))

/-- R231 to R233, R251: a line-store word whose addresses are allowed enters the vector queue with the registers that it read, and
csplit the curve queue; the first address that is not allowed is the LS-address fault with reason, lane and address; a full
queue holds the word before its fault (R45, R122). Rests on the model's readings in log entry 37. -/
def Obligations.LineStoreWords : Prop :=
  (∀ (i : Instr) (h : Hdr) (l : LsF) (srcs outs : List Opnd) (addrs : List Val → List (Nat × Nat)) (n al : Nat),
      lsRow i = some (h, l, srcs, outs, addrs, n, al) →
      ∀ (s : State) (x : Ctx) (vs : List Val) (top : Nat), Issues s h srcs outs x vs → top = s.lsTop x.w.pid x.w.qc →
        (x.c.qFull .vec = true → exec i s = .next (x.stays s)) ∧
        (x.c.qFull .vec = false → (∀ p ∈ addrs vs, lsWhy top p.2 n al = none) →
          ∃ k, k.eng = .vec ∧ k.ins = i ∧ k.ops = vs ∧ k.st = .queued ∧ k.ord = l.ord ∧
            k.wait = l.wait.map (fun n => n.toNat) ∧ k.sig = l.sig.map (fun n => n.toNat) ∧ k.wpins = [] ∧ k.rpins = [] ∧
            exec i s = .next (if outs = [] then x.issued srcs (s.enqueue x k)
              else x.flying srcs (s.enqueue x k) (outs.map (fun o => (o, none)))
                (if nearLs l i = true ∧ (∀ k ∈ x.c.cmds, k.eng ≠ .vec) then .within (x.w.cycle + 9) (x.w.cycle + 12)
                 else .least (x.w.cycle + 9)) .entry)) ∧
        (∀ pre p post why, x.c.qFull .vec = false → addrs vs = pre ++ p :: post → (∀ q ∈ pre, lsWhy top q.2 n al = none) →
          lsWhy top p.2 n al = some why →
          ∃ t, exec i s = .next t ∧
            TakesTrap s x 0x17 (BitVec.ofNat 64 (why * 2 ^ 32 + p.1 * 2 ^ 24 + p.2 % 2 ^ 24)) t)) ∧
  (∀ (h : Hdr) (sh : KShape) (sm : SemMode) (d a b : Opnd) (s : State) (x : Ctx) (vs : List Val) (top A n : Nat),
      Issues s h [a, b, pairHi b] [d] x vs → top = s.lsTop x.w.pid x.w.qc → A = (wordAt vs 0).toNat % 2 ^ 24 →
      n = 16 + 16 * (if (wordAt vs 0).toNat / 2 ^ 32 % 512 = 0 then 512 else (wordAt vs 0).toNat / 2 ^ 32 % 512) →
      (x.c.qFull .curve = true → exec (.csplit h sh sm d a b) s = .next (x.stays s)) ∧
      (lsWhy top A n 16 = none → x.c.qFull .curve = false → ∃ k, k.eng = .curve ∧ k.ins = .csplit h sh sm d a b ∧ k.ops = vs ∧
        k.wait = sm.waitSem ∧ k.sig = sm.sigSem ∧ exec (.csplit h sh sm d a b) s =
          .next (x.flying [a, b, pairHi b] (s.enqueue x k) [(d, none)] (.least (x.w.cycle + 9)) .entry)) ∧
      (∀ why, lsWhy top A n 16 = some why → x.c.qFull .curve = false → ∃ t, exec (.csplit h sh sm d a b) s = .next t ∧
        TakesTrap s x 0x17 (BitVec.ofNat 64 (why * 2 ^ 32 + 255 * 2 ^ 24 + A)) t))

/-! ### Signals -/

/-- R173, R175, R178, R191 to R193: tld and tldx read the sample that their tap names: FILL for a fill sample, the bytes of a
ready slot; they hold on any other slot, and on a KV page that is not in HBM (R362), and fault on a dropped signal, on the row
and on the lag. That a ready slot reads as its own bytes after a store to the backing range is the model's choice in log entry
65. -/
def Obligations.SlotReads : Prop :=
  ∀ (i : Instr) (h : Hdr) (srcs : List Opnd) (d : Opnd) (tp : Tap) (bad : Sig → List Val → Prop) (off : List Val → Nat) (n : Nat)
    (val : List Byte → Val), slotReadRow i = some (h, srcs, d, tp, bad, off, n, val) →
    ∀ (s : State) (x : Ctx) (vs : List Val) (sg lag row : Nat), Issues s h srcs [d] x vs →
      tapArgs tp (wordAt vs 0) = (sg, lag, row) →
      (x.p.sig? sg = none → ∃ t, exec i s = .next t ∧ TakesTrap s x 0x12 (tapDetail sg lag row) t) ∧
      (∀ g, x.p.sig? sg = some g → g.desc.rw ≤ 8 →
        (g.desc.rows ≤ row ∨ (bad g vs ∧ (lagOut g lag ∨ g.n - lag < 0)) →
          ∃ t, exec i s = .next t ∧ TakesTrap s x 0x13 (tapDetail sg lag row) t) ∧
        (¬bad g vs → row < g.desc.rows → lagOut g lag →
          ∃ t, exec i s = .next t ∧ TakesTrap s x 0x14 (tapDetail sg lag row) t) ∧
        (¬bad g vs → row < g.desc.rows → ¬lagOut g lag → g.n - lag < 0 → exec i s = .next (x.reading srcs s d
          (val ((List.range n).map (fun k => g.desc.fill.extractLsb' (8 * ((off vs + k) % elemBytes g.desc.fmt)) 8)))
          (ofHome x g) [])) ∧
        (row < g.desc.rows → ¬lagOut g lag → 0 ≤ g.n - lag → isKv x.p.ctx g.desc = true →
          s.pageSt x.p.ctx x.asid g.desc (g.n - lag).toNat ≠ .hbm → s.pageSt x.p.ctx x.asid g.desc (g.n - lag).toNat ≠ .none →
          exec i s = .next (x.stays (s.wantPage x.asid (kvBlk x.p.ctx g.desc (g.n - lag).toNat) x.w.pid))) ∧
        (∀ q, row < g.desc.rows → ¬lagOut g lag → 0 ≤ g.n - lag → g.slot? (g.n - lag).toNat = some q →
          isKv x.p.ctx g.desc = false →
          (q.st ≠ .ready ∨ g.rest = true ∨ 65535 ≤ q.rp → exec i s = .next (x.stays s)) ∧
          (q.st = .ready → g.rest = false → q.rp < 65535 → bad g vs →
            ∃ t, exec i s = .next t ∧ TakesTrap s x 0x13 (tapDetail sg lag row) t) ∧
          (¬bad g vs → q.st = .ready → g.rest = false → q.rp < 65535 → q.touched = true → q.bad = [] →
            exec i s = .next (x.reading srcs s d
              (val ((List.range n).map (fun k => mget 0 q.data (row * (g.desc.rw * 256) + off vs + k)))) (ofHome x g)
              [(sg, (g.n - lag).toNat)]))))

/-- R176, R177, R194, R198: tst and sfill write the lag-0 slot of a due signal while it is empty or filling: a writer pin is
placed, and the write waits 3 cycles, or for tst away from home a variable time; any other tap faults. That a tap of lag 0
meets the slot-write fault alone, and an overrunning one the lag-overrun fault, is the model's reading in log entry 55. -/
def Obligations.SlotWrites : Prop :=
  ∀ (i : Instr) (h : Hdr) (srcs : List Opnd) (args : List Val → Nat × Nat × Nat) (seg : Nat)
    (bytes : Sig → Nat → List Val → Nat × List Byte) (always : Bool), slotWriteRow i = some (h, srcs, args, seg, bytes, always) →
    ∀ (s : State) (x : Ctx) (vs : List Val) (sg lag row : Nat), Issues s h srcs [] x vs → args vs = (sg, lag, row) →
      (x.p.sig? sg = none → ∃ t, exec i s = .next t ∧ TakesTrap s x 0x12 (tapDetail sg lag row) t) ∧
      (∀ g closed, x.p.sig? sg = some g → g.desc.rw ≤ 8 →
        (closed = (g.due = false ∨ g.rest = true ∨ ∀ q, g.slot? g.n.toNat = some q → q.st ≠ .empty ∧ q.st ≠ .filling)) →
        (g.desc.rows ≤ row ∨ (g.desc.rw ≤ seg ∧ (lag ≠ 0 ∨ closed)) →
          ∃ t, exec i s = .next t ∧ TakesTrap s x 0x13 (tapDetail sg lag row) t) ∧
        (seg < g.desc.rw → row < g.desc.rows → lag ≠ 0 → lagOut g lag →
          ∃ t, exec i s = .next t ∧ TakesTrap s x 0x14 (tapDetail sg lag row) t) ∧
        (seg < g.desc.rw → row < g.desc.rows → (lag ≠ 0 ∧ ¬lagOut g lag) ∨ (lag = 0 ∧ closed) →
          ∃ t, exec i s = .next t ∧ TakesTrap s x 0x15 (tapDetail sg lag row) t) ∧
        (∀ q, row < g.desc.rows → lag = 0 → g.due = true → 0 ≤ g.n → g.rest = false → g.slot? g.n.toNat = some q →
          q.st = .empty ∨ q.st = .filling →
          (65535 ≤ q.wp → exec i s = .next (x.stays s)) ∧
          (q.wp < 65535 → g.desc.rw ≤ seg → ∃ t, exec i s = .next t ∧ TakesTrap s x 0x13 (tapDetail sg lag row) t) ∧
          (q.wp < 65535 → seg < g.desc.rw → plainSlot x g q →
            ∃ w : SlotWrite, w.sig = sg ∧ w.num = g.n.toNat ∧ (w.off, w.data) = bytes g row vs ∧
              w.segs = segMask w.off w.data.length ∧
              w.due = (if always || ofHome x g then some (x.w.cycle + 3) else none) ∧
              exec i s = .next (x.issued srcs (((s.pinsW x.w.pid [(sg, g.n.toNat)]).updPass x.w.pid (fun p =>
                { p with writes := p.writes ++ [w] })).tickSeq)))))

/-- R196, R356: snow and slag tell of a signal in their issue cycle, with no pin and no wait; pstat of a KV signal gives the state of
the sample's page, and its stack while it lies in HBM. -/
def Obligations.SignalState : Prop :=
  (∀ (h : Hdr) (d : Opnd) (s : State) (x : Ctx) (vs : List Val), isV d = false →
      (∀ sig : BitVec 9, Issues s h [] [d] x vs →
        (x.p.sig? sig.toNat = none → ∃ t, exec (.snow h d sig) s = .next t ∧ TakesTrap s x 0x12 (tapDetail sig.toNat 0 0) t) ∧
        (∀ g, x.p.sig? sig.toNat = some g → ∃ t, exec (.snow h d sig) s = .next t ∧ FixedWord s x [] d
          (.w (BitVec.ofNat 64 ((if g.due then 2 ^ 63 else 0) + (if g.desc.gm ≠ 0 ∧ g.g then 2 ^ 62 else 0) +
            (g.n + 1).toNat % 2 ^ 62))) t)) ∧
      (∀ (tp : Tap) (sg lag row : Nat), Issues s h (tapSrc tp) [d] x vs → tapArgs tp (wordAt vs 0) = (sg, lag, row) →
        (x.p.sig? sg = none → ∃ t, exec (.slag h d tp) s = .next t ∧ TakesTrap s x 0x12 (tapDetail sg lag row) t) ∧
        (∀ g, x.p.sig? sg = some g → g.desc.rows ≤ row →
          ∃ t, exec (.slag h d tp) s = .next t ∧ TakesTrap s x 0x13 (tapDetail sg lag row) t) ∧
        (∀ g code, x.p.sig? sg = some g → row < g.desc.rows → lagCase g lag code →
          ∃ t, exec (.slag h d tp) s = .next t ∧ FixedWord s x (tapSrc tp) d (.w (BitVec.ofNat 64 code)) t))) ∧
  (∀ (h : Hdr) (d : Opnd) (tp : Tap) (s : State) (x : Ctx) (vs : List Val) (sg lag row : Nat) (g : Sig),
      Issues s h (tapSrc tp) [d] x vs → tapArgs tp (wordAt vs 0) = (sg, lag, row) → x.p.sig? sg = some g →
      (g.desc.rows ≤ row → ∃ t, exec (.pstat h d tp) s = .next t ∧ TakesTrap s x 0x13 (tapDetail sg lag row) t) ∧
      (row < g.desc.rows → lagOut g lag → ∃ t, exec (.pstat h d tp) s = .next t ∧ TakesTrap s x 0x14 (tapDetail sg lag row) t) ∧
      (row < g.desc.rows → ¬lagOut g lag → isKv x.p.ctx g.desc = false →
        ∃ t, exec (.pstat h d tp) s = .next t ∧ TakesTrap s x 0x1C (BitVec.ofNat 64 (sg * 256 + 2)) t) ∧
      (row < g.desc.rows → ¬lagOut g lag → isKv x.p.ctx g.desc = true → ∃ v : Word, exec (.pstat h d tp) s =
          .next (x.flying (tapSrc tp) s [(d, some (.w v))] (.least (x.w.cycle + 9)) .none) ∧
        (g.n - lag < 0 ∨ s.page? x.asid (kvBlk x.p.ctx g.desc (g.n - lag).toNat) = none → v = 0) ∧
        (∀ k, 0 ≤ g.n - lag → s.page? x.asid (kvBlk x.p.ctx g.desc (g.n - lag).toNat) = some k →
          v = BitVec.ofNat 64 (match k.ps with
            | .none => 0
            | .hbm => 1 + 16 * (k.frame / 2 ^ 36 % 8)
            | .down => 2
            | .tier2 => 3
            | .tier3 => 4
            | .up => 5))))

/-- R197, R200, R202: sgate, sbind and srebase change the gate bit, the backing range, and period and phase of a signal in
their issue cycle, or take the signal-use fault with its code. -/
def Obligations.SignalChanges : Prop :=
  ∀ (h : Hdr) (sig : BitVec 9) (s : State) (x : Ctx) (vs : List Val) (g : Sig), x.p.sig? sig.toNat = some g →
    (∀ (ga : GateArg), Issues s h (gateSrc ga) [] x vs →
      (g.desc.gm = 0 → ∃ t, exec (.sgate h sig ga) s = .next t ∧ TakesTrap s x 0x16 (useDetail sig.toNat 5) t) ∧
      (g.desc.gm ≠ 0 → exec (.sgate h sig ga) s = .next (x.issued (gateSrc ga) (s.updSig x.w.pid sig.toNat (fun q =>
        { q with g := match ga with
            | .off => false
            | .on => true
            | .reg _ => (wordAt vs 0).getLsbD 0 }))))) ∧
    (∀ (a : Opnd) (b : VAddr), Issues s h [a] [] x vs → b = (wordAt vs 0).truncate 57 →
      (g.n ≠ -1 ∨ g.desc.backed = false ∨ b = 0 ∨ b.toNat % 256 ≠ 0 →
        ∃ t, exec (.sbind h sig a) s = .next t ∧ TakesTrap s x 0x16 (useDetail sig.toNat 4) t) ∧
      (g.n = -1 → g.desc.backed = true → b ≠ 0 → b.toNat % 256 = 0 → exec (.sbind h sig a) s =
        .next (x.issued [a] (s.updSig x.w.pid sig.toNat (fun q => { q with desc := { q.desc with base := b } }))))) ∧
    (∀ (a : Opnd) (per ph : Nat), Issues s h [a] [] x vs → per = (wordAt vs 0).toNat / 2 ^ 16 % 2 ^ 13 →
      ph = (wordAt vs 0).toNat % 2 ^ 12 →
      (per = 0 ∨ 4096 < per ∨ per ≤ ph →
        ∃ t, exec (.srebase h sig a) s = .next t ∧ TakesTrap s x 0x16 (useDetail sig.toNat 6) t) ∧
      (0 < per → per ≤ 4096 → ph < per → exec (.srebase h sig a) s = .next (x.issued [a]
        (s.updSig x.w.pid sig.toNat (fun q => { q with desc := { q.desc with period := per, phase := ph } })))))

/-- R199, R201: sdecl declares a signal from the descriptor in a vector register, or faults with the code of what it finds
wrong; sdrop waits for the pins of the signal and for the releases that its walks must follow, and drops it. Rests on the
model's readings in log entry 41. -/
def Obligations.SignalLife : Prop :=
  ∀ (h : Hdr) (sig : BitVec 9) (s : State) (x : Ctx) (vs : List Val),
    (∀ (a : Opnd) (w : Nat → Word) (d : SigDesc), Issues s h [a] [] x vs →
      (∀ j, w j = (vecAt vs 0).extractLsb' (64 * j) 64) → d = parseDesc (w 0) (w 1) (w 2) (w 3) →
      ((x.p.sig? sig.toNat).isSome = true →
        ∃ t, exec (.sdecl h sig a) s = .next t ∧ TakesTrap s x 0x16 (useDetail sig.toNat 1) t) ∧
      (x.p.sig? sig.toNat = none → descOk x.r.rcd.qc x.r.rcd.qd (w 0) (w 1) (w 2) (w 3) = false →
        ∃ t, exec (.sdecl h sig a) s = .next t ∧ TakesTrap s x 0x16 (useDetail sig.toNat 2) t) ∧
      (x.p.sig? sig.toNat = none → descOk x.r.rcd.qc x.r.rcd.qd (w 0) (w 1) (w 2) (w 3) = true → d.backed = false →
        (∀ e, x.r.rcd.sigs[sig.toNat]? = some e → ¬(d.tier = e.tier ∧ d.home = e.home ∧ d.foot ≤ e.foot)) →
        ∃ t, exec (.sdecl h sig a) s = .next t ∧ TakesTrap s x 0x16 (useDetail sig.toNat 3) t) ∧
      (x.p.sig? sig.toNat = none → descOk x.r.rcd.qc x.r.rcd.qd (w 0) (w 1) (w 2) (w 3) = true →
        d.backed = true ∨ (∃ e, x.r.rcd.sigs[sig.toNat]? = some e ∧ d.tier = e.tier ∧ d.home = e.home ∧ d.foot ≤ e.foot) →
        exec (.sdecl h sig a) s = .next (x.issued [a] (s.updPass x.w.pid (fun p =>
          { p with sigs := mset none p.sigs sig.toNat (some { desc := d, live := true, n := -1, o := 0, g := d.g0, due := false,
                                                              slots := [], rest := false }) }))))) ∧
    (∀ g, Issues s h [] [] x vs → x.p.sig? sig.toNat = some g →
      ((∃ q ∈ g.slots, q.wp ≠ 0 ∨ q.rp ≠ 0) → exec (.sdrop h sig) s = .next (s.slotDone x.w.pid x.w.qc x.w.st)) ∧
      ((∀ q ∈ g.slots, q.wp = 0 ∧ q.rp = 0) →
        (g.desc.backed = false → isKv x.p.ctx g.desc = false → exec (.sdrop h sig) s = .next (x.issued []
          (s.updSig x.w.pid sig.toNat (fun q => { q with live := false, due := false, slots := [] })))) ∧
        (g.desc.backed = true → isKv x.p.ctx g.desc = false → s.walkHeld x.ag s.seq = true →
          exec (.sdrop h sig) s = .next (x.stays s)) ∧
        (∀ s1 s2, g.desc.backed = true → isKv x.p.ctx g.desc = false → s.walkHeld x.ag s.seq = false →
          s.writeBacks x.p.ctx x.w.pid x.w.qc x.lc s.seq x.asid g.desc (g.slots.filter (fun q => q.st == .ready)) = (.ok s1, s2) →
          exec (.sdrop h sig) s = .next (x.issued [] (s1.updSig x.w.pid sig.toNat (fun q =>
            { q with live := false, due := false, slots := [] })))) ∧
        (∀ lo, isKv x.p.ctx g.desc = true → lo = (g.desc.base.toNat - x.p.ctx.kwb.toNat) / x.p.ctx.kpb →
          exec (.sdrop h sig) s = .next (x.issued []
          (({ s with pages := s.pages.filter (fun k =>
              !(k.asid == x.asid && decide (lo ≤ k.blk) && decide (k.blk < lo + g.desc.depth / 64))) } : State).updSig
            x.w.pid sig.toNat (fun q => { q with live := false, due := false, slots := [] }))))))

/-- R203 to R205: ssave pins the live window and enters the copy queue with the entry of R184; srest discards the samples of a
signal that is not due and enters the copy queue; each holds on a full queue before its faults (R122), and takes the signal-use
fault with its code, the record's address before the due signal. Rests on the model's readings in log entries 29, 55 and 66. -/
def Obligations.SignalSaves : Prop :=
  ∀ (h : Hdr) (sig : BitVec 9) (a : Opnd) (sem : SigSem) (s : State) (x : Ctx) (vs : List Val) (A : VAddr),
    Issues s h [a] [] x vs → A = (wordAt vs 0).truncate 57 →
    (x.c.qFull .copy = true → exec (.ssave h sig a sem) s = .next (x.stays s) ∧ exec (.srest h sig a sem) s = .next (x.stays s)) ∧
    (x.c.qFull .copy = false → x.p.sig? sig.toNat = none →
      (∃ t, exec (.ssave h sig a sem) s = .next t ∧ TakesTrap s x 0x12 (tapDetail sig.toNat 0 0) t) ∧
      (∃ t, exec (.srest h sig a sem) s = .next t ∧ TakesTrap s x 0x12 (tapDetail sig.toNat 0 0) t)) ∧
    (∀ (g : Sig) (draining : Prop) (win : List (Nat × Nat)), x.c.qFull .copy = false → x.p.sig? sig.toNat = some g →
      draining = (g.rest = true ∨ ∃ q ∈ g.slots, q.st = .draining) →
      win = (List.range ((g.n + 1).toNat - g.emptyHead - g.o)).map (fun i => (sig.toNat, g.o + i)) →
      (draining ∨ (∃ p ∈ win, x.p.pinFull false p = true) → exec (.ssave h sig a sem) s = .next (x.stays s)) ∧
      (¬draining → (∀ p ∈ win, x.p.pinFull false p = false) →
        (A = 0 ∨ A.toNat % 32 ≠ 0 →
          ∃ t, exec (.ssave h sig a sem) s = .next t ∧ TakesTrap s x 0x16 (useDetail sig.toNat 8) t) ∧
        (A ≠ 0 → A.toNat % 32 = 0 → exec (.ssave h sig a sem) s = .next (x.issued [a] (s.enqueue x
          { Cmd.new x s .copy (.ssave h sig a sem) (.w (vaWord A) :: (saveEntry g g.emptyHead
                (if g.desc.backed then g.desc.base else A + 32)).map Val.w) with
              rpins := win, range := (g.o, (g.o + win.length : Nat)), sig := sem.map (fun n => n.toNat) })))) ∧
      ((∃ q ∈ g.slots, q.wp ≠ 0 ∨ q.rp ≠ 0) → exec (.srest h sig a sem) s = .next (x.stays s)) ∧
      ((∀ q ∈ g.slots, q.wp = 0 ∧ q.rp = 0) →
        (A = 0 ∨ A.toNat % 32 ≠ 0 →
          ∃ t, exec (.srest h sig a sem) s = .next t ∧ TakesTrap s x 0x16 (useDetail sig.toNat 8) t) ∧
        (A ≠ 0 → A.toNat % 32 = 0 → g.due = true →
          ∃ t, exec (.srest h sig a sem) s = .next t ∧ TakesTrap s x 0x16 (useDetail sig.toNat 7) t) ∧
        (A ≠ 0 → A.toNat % 32 = 0 → g.due = false → exec (.srest h sig a sem) s = .next (x.issued [a]
          ((s.enqueue x { Cmd.new x s .copy (.srest h sig a sem) [.w (vaWord A)] with sig := sem.map (fun n => n.toNat) }).updSig
            x.w.pid sig.toNat (fun q => { q with slots := [], rest := true }))))))

/-! ### Matrix and copy words -/

/-- R45, R258, R262, R267, R274 to R276, R318: a queue is full at the depth of R45, and a command enters it at its end, with its
pins; then the words of the matrix and copy queues that read no operand of memory. -/
def Obligations.QueueControl : Prop :=
  (∀ (c : CoreSt) (e : Eng), c.qFull e = true ↔ (match e with
      | .mat => 64
      | .copy => 64
      | .vec => 32
      | .curve => 16
      | .att => 16) ≤ (c.cmds.filter (fun k => k.eng == e && k.st == .queued)).length) ∧
  (∀ (s : State) (x : Ctx) (k : Cmd) (p : Pass) (c : CoreSt), s.pass? x.w.pid = some p → p.cores[x.w.qc]? = some c →
      ∃ p' c', (s.enqueue x k).pass? x.w.pid = some p' ∧ p'.cores = p.cores.set x.w.qc c' ∧ c' = { c with cmds := c.cmds ++ [k] } ∧
        { p' with cores := p.cores, sigs := p.sigs } = p ∧ { s.enqueue x k with passes := s.passes } = s ∧
        (∀ pid, pid ≠ x.w.pid → (s.enqueue x k).pass? pid = s.pass? pid) ∧
        (∀ sg g n q, mget none p.sigs sg = some g → g.slot? n = some q → ∃ g', mget none p'.sigs sg = some g' ∧
          g'.slot? n = some { q with wp := q.wp + k.wpins.count (sg, n), rp := q.rp + k.rpins.count (sg, n) } ∧
          { g' with slots := g.slots } = g)) ∧
  (∀ (h : Hdr) (s : State) (x : Ctx) (vs : List Val),
    (∀ a, Issues s h [a] [] x vs →
      (x.c.fq.length < 16 → exec (.mfmt h a) s = .next (x.issued [a]
        (s.updCore x.w.pid x.w.qc (fun c => { c with fq := c.fq ++ [wordAt vs 0] })))) ∧
      (16 ≤ x.c.fq.length → exec (.mfmt h a) s = .next (x.stays s))) ∧
    (Issues s h [] [] x vs →
      (∀ n : BitVec 4, exec (.mmodeSb h n) s = .next (x.issued []
        (s.updCore x.w.pid x.w.qc (fun c => { c with sbase := BitVec.ofNat 8 (16 * n.toNat) })))) ∧
      (∀ n : BitVec 4, exec (.cpaceSb h n) s = .next (x.issued []
        (s.updCore x.w.pid x.w.qc (fun c => { c with cbase := BitVec.ofNat 8 (16 * n.toNat) })))) ∧
      exec (.mmodeFqclr h) s = .next (x.issued [] (s.updCore x.w.pid x.w.qc (fun c => { c with fq := [] }))) ∧
      (x.c.qFull .mat = true → ∀ (rm : RM) (m : BitVec 8) (w g : BitVec 4), exec (.mmodeRm h rm) s = .next (x.stays s) ∧
        exec (.mzero h m w g) s = .next (x.stays s) ∧ exec (.mnot h g) s = .next (x.stays s)) ∧
      (x.c.qFull .copy = true → ∀ g : BitVec 4, exec (.cnot h g) s = .next (x.stays s)) ∧
      (x.c.qFull .mat = false →
        (∀ rm : RM, exec (.mmodeRm h rm) s = .next (x.issued []
          ((s.enqueue x (Cmd.new x s .mat (.mmodeRm h rm) [])).updCore x.w.pid x.w.qc (fun c => { c with rm := rm })))) ∧
        (∀ (m : BitVec 8) (w g : BitVec 4), exec (.mzero h m w g) s = .next (x.issued [] (s.enqueue x
          { Cmd.new x s .mat (.mzero h m w g) [] with
            wait := semOfCode x.c.sbase.toNat w, sig := semOfCode x.c.sbase.toNat g }))) ∧
        (∀ g : BitVec 4, exec (.mnot h g) s = .next (x.issued [] ((s.enqueue x
          { Cmd.new x s .mat (.mnot h g) [] with wait := semOfCode x.c.sbase.toNat 0,
                                                 sig := semOfCode x.c.sbase.toNat g }).updCore x.w.pid x.w.qc
            (fun c => { c with nots := c.nots ++ [(Eng.mat, s.seq, false)] }))))) ∧
      (x.c.qFull .copy = false → ∀ g : BitVec 4, exec (.cnot h g) s = .next (x.issued [] ((s.enqueue x
          { Cmd.new x s .copy (.cnot h g) [] with sig := semOfCode x.c.cbase.toNat g }).updCore x.w.pid x.w.qc
            (fun c => { c with nots := c.nots ++ [(Eng.copy, s.seq, false)] }))))) ∧
    (∀ g : GapArg, Issues s h (Machine.gapSrc g) [] x vs →
      (x.c.qFull .mat = true → exec (.mpace h g) s = .next (x.stays s)) ∧
      (x.c.qFull .copy = true → exec (.cpace h g) s = .next (x.stays s)) ∧
      (x.c.qFull .mat = false → exec (.mpace h g) s = .next (x.issued (Machine.gapSrc g) (s.enqueue x
        (Cmd.new x s .mat (.mpace h g) [.w (w64 (gapVal g (wordAt vs 0)))])))) ∧
      (x.c.qFull .copy = false → exec (.cpace h g) s = .next (x.issued (Machine.gapSrc g) (s.enqueue x
        (Cmd.new x s .copy (.cpace h g) [.w (w64 (gapVal g (wordAt vs 0)))]))))) ∧
    (∀ (a : Opnd) (g : BitVec 4), Issues s h [a] [] x vs →
      (x.c.qFull .mat = true → exec (.mlease h a g) s = .next (x.stays s)) ∧
      (x.c.qFull .mat = false → leaseBad (wordAt vs 0) = true →
        exec (.mlease h a g) s = .next (x.trapped s 0x22 (wordAt vs 0))) ∧
      (leaseBad (wordAt vs 0) = false → x.c.qFull .mat = false → exec (.mlease h a g) s = .next (x.issued [a] (s.enqueue x
        { Cmd.new x s .mat (.mlease h a g) vs with wait := semOfCode x.c.sbase.toNat 0,
                                                   sig := semOfCode x.c.sbase.toNat g })))))

/-- R258, R260 to R266, R270: mld, mst, mtr and mmac take the format word at the head of the format queue, check it, their operands
and the line store, and enter the matrix queue, the sample of a tap pinned; each check that fails is a trap with its code, in
the order in which R265 and R266 describe them (R383), once nothing holds the word (R122): a full pin count of a tap holds it as a
sample does that is not ready. The address that the line-store fault of a descriptor's rows reports is the model's choice in log
entry 63, the detail 0 of an empty format queue that in log entry 62. The faults of the accesses of a tap's backing slot are left
out here. -/
def Obligations.MatrixWords : Prop :=
  (∀ (i : Instr) (h : Hdr) (a : Opnd) (f : CmdF) (chk : Word → Option Nat) (st tr : Bool),
      tileRow i = some (h, a, f, chk, st, tr) →
      ∀ (s : State) (x : Ctx) (vs : List Val), Issues s h [a] [] x vs →
        (x.c.qFull .mat = true → exec i s = .next (x.stays s)) ∧
        (x.c.qFull .mat = false → x.c.fq = [] → exec i s = .next (x.trapped s 0x18 0)) ∧
        (∀ w r, x.c.qFull .mat = false → x.c.fq = w :: r → ∀ c, chk w = some c →
          exec i s = .next (x.trapped s 0x19 (BitVec.ofNat 64 c))) ∧
        (∀ w r d rs, x.c.qFull .mat = false → x.c.fq = w :: r → chk w = none → d = descOf (wordAt vs 0) →
          rs = tileRows ((fwOF w).getD .fp32) tr →
          (d.bad = true → exec i s = .next (x.trapped s 0x1A 0x201)) ∧
          (d.bad = false → d.addr % 64 ≠ 0 ∨ d.rp % 64 ≠ 0 ∨ d.tp % 64 ≠ 0 → exec i s = .next (x.trapped s 0x1A 0x202)) ∧
          (d.bad = false → d.addr % 64 = 0 → d.rp % 64 = 0 → d.tp % 64 = 0 → st = true →
            d.rp < rs.len ∨ d.tp < 32 * d.rp → exec i s = .next (x.trapped s 0x1A 0x207)) ∧
          (d.bad = false → d.addr % 64 = 0 → d.rp % 64 = 0 → d.tp % 64 = 0 →
            (st = true → rs.len ≤ d.rp ∧ 32 * d.rp ≤ d.tp) → ¬rowsFit d rs (s.lsTop x.w.pid x.w.qc) →
            ∃ info, exec i s = .next (x.trapped s 0x17 info)) ∧
          (d.bad = false → d.addr % 64 = 0 → d.rp % 64 = 0 → d.tp % 64 = 0 →
            (st = true → rs.len ≤ d.rp ∧ 32 * d.rp ≤ d.tp) → rowsFit d rs (s.lsTop x.w.pid x.w.qc) →
            exec i s = .next (x.issued [a] (fqTaken x (s.enqueue x (matCmd x s i vs w f))))))) ∧
  (∀ (h : Hdr) (t kc : BitVec 3) (a b : TOp) (f : CmdF) (s : State) (x : Ctx) (vs va vb : List Val) (i : Instr) (top : Nat),
      Issues s h (macSrc a ++ macSrc b) [] x vs → i = .mmac h t kc a b f → va = vs.take (macSrc a).length →
      vb = vs.drop (macSrc a).length → top = s.lsTop x.w.pid x.w.qc →
      (x.c.qFull .mat = true → exec i s = .next (x.stays s)) ∧
      (∀ tp r s1, x.c.qFull .mat = false → macTap a b va vb = some (tp, r) → readTap x s (tapArgs tp r) 0 = .hold s1 →
        exec i s = .next (x.stays s1)) ∧
      (x.c.qFull .mat = false → (∀ tp r s1, macTap a b va vb = some (tp, r) → readTap x s (tapArgs tp r) 0 ≠ .hold s1) →
        (x.c.fq = [] → exec i s = .next (x.trapped s 0x18 0)) ∧
        (∀ w r, x.c.fq = w :: r →
          (∀ c, fmtMacOn (s.fullDies.getLsbD x.die) w = some c → exec i s = .next (x.trapped s 0x19 (BitVec.ofNat 64 c))) ∧
          (∀ fa fb k, fmtMacOn (s.fullDies.getLsbD x.die) w = none → fa = (fwAF w).getD .fp32 → fb = (fwBF w).getD .fp32 →
            k = 2 ^ (kc.toNat + 3) →
            (∀ c, macCode x.p a va fa false k = some c → exec i s = .next (x.trapped s 0x1A (BitVec.ofNat 64 c))) ∧
            (∀ c, macCode x.p a va fa false k = none → macCode x.p b vb fb true k = some c →
              exec i s = .next (x.trapped s 0x1A (BitVec.ofNat 64 (256 + c)))) ∧
            (macCode x.p a va fa false k = none → macCode x.p b vb fb true k = none →
              (∀ info, macLs top a va fa false k = some info → exec i s = .next (x.trapped s 0x17 info)) ∧
              (∀ info, macLs top a va fa false k = none → macLs top b vb fb true k = some info →
                exec i s = .next (x.trapped s 0x17 info)) ∧
              (macLs top a va fa false k = none → macLs top b vb fb true k = none →
                (macTap a b va vb = none →
                  exec i s = .next (x.issued (macSrc a ++ macSrc b) (fqTaken x (s.enqueue x (matCmd x s i vs w f))))) ∧
                (∀ tp r sg lag row, macTap a b va vb = some (tp, r) → tapArgs tp r = (sg, lag, row) →
                  (x.p.sig? sg = none → exec i s = .next (x.trapped s 0x12 (tapDetail sg lag row))) ∧
                  (∀ g, x.p.sig? sg = some g → g.desc.rows < row + k →
                    exec i s = .next (x.trapped s 0x13 (tapDetail sg lag row))) ∧
                  (∀ g e, x.p.sig? sg = some g → row + k ≤ g.desc.rows → readTap x s (tapArgs tp r) 0 = .fault e →
                    exec i s = .next (x.trapped s e.1 e.2) ∧
                      (0 < g.desc.rw → lagOut g lag ∧ e = (0x14, tapDetail sg lag row))) ∧
                  (∀ g s1 rt, x.p.sig? sg = some g → row + k ≤ g.desc.rows →
                    readTap x s (tapArgs tp r) 0 = .ok s1 rt →
                    ∃ k, k = { matCmd x s i vs w f with rpins := rt.pin, taps := [rt] } ∧
                      exec i s = .next (x.issued (macSrc a ++ macSrc b) (fqTaken x (s1.enqueue x k)))))))))))

/-- R303 to R312: a shape word reads its shape slot and its record at issue; a slot number that is 0 or beyond the table, a record or
an operand that breaks a rule is a trap with the code of R306, the line-store fault or the tap-row fault; the word enters the
copy queue with the record that it read, the sample of a tap pinned; a full queue holds it before all else, then what holds its tap
(R122); the tap's own faults come last. The shape-slot faults of a slot's kind, its reserved fields and its GEN, those of the
record's reserved fields, and the faults of the accesses that read them or a tap's backing slot, are left out here. The detail
and the order of the line-store faults are the model's readings in log entry 37, the slot-write faults of a tap that of log
entry 55. -/
def Obligations.CopyWords : Prop :=
  (∀ (i : Instr) (h : Hdr) (srcs : List Opnd) (f : CmdF) (code : List Word → Option Nat)
      (bad : List Word → Word → Nat → Option Word), shapeRow i = some (h, srcs, f, code, bad) →
      ∀ (s : State) (x : Ctx) (vs : List Val) (H : Word), Issues s h srcs [] x vs → H = wordAt vs 0 →
        (x.c.qFull .copy = true → exec i s = .next (x.stays s)) ∧
        (x.c.qFull .copy = false → H.toNat % 2 ^ 20 = 0 ∨ x.p.ctx.htl.toNat ≤ H.toNat % 2 ^ 20 →
          exec i s = .next (x.trapped s 0x1B (BitVec.ofNat 64 (H.toNat % 2 ^ 32 * 2 ^ 32 + 1)))) ∧
        (∀ ws s1, x.c.qFull .copy = false → ShapeRead s x H ws s1 →
          (∀ c, code ws = some c → exec i s = .next (x.trapped s1 0x1B (BitVec.ofNat 64 (H.toNat % 2 ^ 32 * 2 ^ 32 + c)))) ∧
          (∀ info, code ws = none → bad ws (wordAt vs 1) (s1.lsTop x.w.pid x.w.qc) = some info →
            exec i s = .next (x.trapped s1 0x17 info)) ∧
          (code ws = none → bad ws (wordAt vs 1) (s1.lsTop x.w.pid x.w.qc) = none →
            exec i s = .next (x.issued srcs (s1.enqueue x (shapeCmd x s1 i H (wordAt vs 1) ws f)))))) ∧
  (∀ (i : Instr) (h : Hdr) (a : Opnd) (t : Tap) (flat dst : Bool), copyTap i = some (h, a, t, flat, dst) →
      ∀ (s : State) (x : Ctx) (vs : List Val), Issues s h (a :: tapSrc t) [] x vs →
        (x.c.qFull .copy = true → exec i s = .next (x.stays s)) ∧
        (∀ u, x.c.qFull .copy = false → (if dst then writeTap x s (tapArgs t (wordAt vs 1)) 0
          else readTap x s (tapArgs t (wordAt vs 1)) 0) = .hold u → exec i s = .next (x.stays u))) ∧
  (∀ (i : Instr) (h : Hdr) (a : Opnd) (t : Tap) (flat dst : Bool), copyTap i = some (h, a, t, flat, dst) →
      ∀ (s : State) (x : Ctx) (vs : List Val) (H : Word) (ws : List Word) (s1 : State) (q : TapRes),
        Issues s h (a :: tapSrc t) [] x vs → H = wordAt vs 0 → x.c.qFull .copy = false →
        (∀ u, (if dst then writeTap x s (tapArgs t (wordAt vs 1)) 0 else readTap x s (tapArgs t (wordAt vs 1)) 0) ≠ .hold u) →
        ShapeRead s x H ws s1 →
        q = (if dst then writeTap x s1 (tapArgs t (wordAt vs 1)) 0 else readTap x s1 (tapArgs t (wordAt vs 1)) 0) →
        (∀ u, q = .hold u → exec i s = .next (x.stays u)) ∧
        ((∀ u, q ≠ .hold u) →
          (∀ c, sidesCode ws flat [(!dst, false)] = some c →
            exec i s = .next (x.trapped s1 0x1B (BitVec.ofNat 64 (H.toNat % 2 ^ 32 * 2 ^ 32 + c)))) ∧
          (sidesCode ws flat [(!dst, false)] = none →
            (∀ info, (sideOf ws (!dst) flat).lsBad (List.range (shRows ws)) (shLen ws) (s1.lsTop x.w.pid x.w.qc) = some info →
              exec i s = .next (x.trapped s1 0x17 info)) ∧
            ((sideOf ws (!dst) flat).lsBad (List.range (shRows ws)) (shLen ws) (s1.lsTop x.w.pid x.w.qc) = none →
              (∀ g sg lag row, tapArgs t (wordAt vs 1) = (sg, lag, row) → x.p.sig? sg = some g →
                g.desc.rows < row + shRows ws ∨ g.desc.rw * 256 < shLen ws →
                exec i s = .next (x.trapped s1 0x13 (tapDetail sg lag row))) ∧
              (∀ sg lag row, tapArgs t (wordAt vs 1) = (sg, lag, row) → x.p.sig? sg = none →
                exec i s = .next (x.trapped s1 0x12 (tapDetail sg lag row))) ∧
              (∀ e, cpyRowBad x (tapArgs t (wordAt vs 1)) ws = false → q = .fault e → exec i s = .next (x.trapped s1 e.1 e.2)) ∧
              (∀ g sg lag row, tapArgs t (wordAt vs 1) = (sg, lag, row) → x.p.sig? sg = some g →
                cpyRowBad x (tapArgs t (wordAt vs 1)) ws = false → row < g.desc.rows → 0 < g.desc.rw →
                (lagOut g lag → dst = false ∨ lag ≠ 0 → q = .fault (0x14, tapDetail sg lag row)) ∧
                (dst = true → lag ≠ 0 → ¬lagOut g lag → q = .fault (0x15, tapDetail sg lag row)) ∧
                (dst = true → lag = 0 → g.takesWrites = false → q = .fault (0x15, tapDetail sg lag row))) ∧
              (∀ s2 rt, cpyRowBad x (tapArgs t (wordAt vs 1)) ws = false → q = .ok s2 rt →
                ∃ k, k.eng = .copy ∧ k.ins = i ∧ k.taps = [rt] ∧ k.wpins = (if dst then rt.pin else []) ∧
                  k.rpins = (if dst then [] else rt.pin) ∧ k.ops = [.w H, .w (wordAt vs 1)] ++ ws.map Val.w ∧
                  exec i s = .next (x.issued (a :: tapSrc t) (s2.enqueue x k)))))))

/-- R378: mapset and mapflush enter the copy queue, and hold while it is full; a region that does not fit is the line-store fault.
The order of its reasons is the model's reading in log entry 37, and that a base that is no multiple of 2,048 is misaligned
that of log entry 17. -/
def Obligations.MapWords : Prop :=
  ∀ (h : Hdr) (a b : Opnd) (inv : Bool) (sem : SigSem) (s : State) (x : Ctx) (vs : List Val),
    (∀ la n others, Issues s h [a, b] [] x vs → la = (wordAt vs 0).toNat % 2 ^ 24 →
      n = 2048 * ((wordAt vs 0).toNat / 2 ^ 24 % 2 ^ 13) →
      (others = ∀ m ∈ x.c.slots, m.1 ≠ (wordAt vs 0).toNat / 2 ^ 41 % 16 → la + n ≤ m.2.la ∨ m.2.la + 2048 * m.2.nb ≤ la) →
      (x.c.qFull .copy = true → exec (.mapset h a b sem) s = .next (x.stays s)) ∧
      (x.c.qFull .copy = false →
        (2 ^ 24 < la + n → exec (.mapset h a b sem) s =
          .next (x.trapped s 0x17 (BitVec.ofNat 64 (255 * 2 ^ 24 + la)))) ∧
        (la + n ≤ 2 ^ 24 → n ≠ 0 → s.lsTop x.w.pid x.w.qc < la + n ∨ ¬others → exec (.mapset h a b sem) s =
          .next (x.trapped s 0x17 (BitVec.ofNat 64 (1 * 2 ^ 32 + 255 * 2 ^ 24 + la)))) ∧
        (la + n ≤ 2 ^ 24 → n = 0 ∨ (la + n ≤ s.lsTop x.w.pid x.w.qc ∧ others) →
          (la % 2048 ≠ 0 ∨ (wordAt vs 1).toNat % 2048 ≠ 0 → exec (.mapset h a b sem) s =
            .next (x.trapped s 0x17 (BitVec.ofNat 64 (2 * 2 ^ 32 + 255 * 2 ^ 24 + la)))) ∧
          (la % 2048 = 0 → (wordAt vs 1).toNat % 2048 = 0 → exec (.mapset h a b sem) s = .next (x.issued [a, b] (s.enqueue x
            { Cmd.new x s .copy (.mapset h a b sem) vs with sig := sem.map (fun n => n.toNat) })))))) ∧
    (Issues s h [a] [] x vs →
      (x.c.qFull .copy = true → exec (.mapflush h inv a sem) s = .next (x.stays s)) ∧
      (x.c.qFull .copy = false → exec (.mapflush h inv a sem) s = .next (x.issued [a] (s.enqueue x
        { Cmd.new x s .copy (.mapflush h inv a sem) vs with sig := sem.map (fun n => n.toNat) }))))

/-! ### Attention and parking -/

/-- R349 to R353, R356: attq, prom and kvapp hold on a full queue, attq and kvapp on samples not ready or with full pin counts, and
are then checked code by code: the first check that fails is the word's trap. attq waits until every sample of its lags is ready,
and enters the attention queue with them pinned. kvapp reads its list from the line store at issue, serves entries in order until
the pools lack a frame, and gives their number; an entry left over raises the page-pool trap after the word. The fill of an absent
mapped block of the list is left out here. Rests on the model's readings in log entries 21 and 14. -/
def Obligations.AttentionWords : Prop :=
  (∀ (h : Hdr) (layer : BitVec 6) (d a b : Opnd) (f : CmdF) (s : State) (x : Ctx) (vs : List Val) (A L : Word),
      Issues s h [a, b] [] x vs → A = wordAt vs 0 → L = wordAt vs 1 →
      (x.c.qFull .att = true → exec (.attq h layer d a b f) s = .next (x.stays s)) ∧
      (∀ e, x.c.qFull .att = false → x.p.sig? (fld A 63 55) = none ∨ x.p.sig? (fld L 63 55) = none →
        (attqF x A L).findSome? id = some e → exec (.attq h layer d a b f) s = .next (x.trapped s e.1 e.2)) ∧
      (∀ gk gv nums pins, x.c.qFull .att = false → x.p.sig? (fld A 63 55) = some gk →
        x.p.sig? (fld L 63 55) = some gv → nums = rangeOf gk (max gk.o gv.o) (fld L 23 0) (fld L 47 24) →
        pins = nums.map (fun n => (fld A 63 55, n)) ++ nums.map (fun n => (fld L 63 55, n)) →
        ((∃ p ∈ pins, slotReady x.p p = false ∨ x.p.pinFull false p = true) →
          exec (.attq h layer d a b f) s = .next (x.stays s)) ∧
        (∀ e, (∀ p ∈ pins, slotReady x.p p = true ∧ x.p.pinFull false p = false) → (attqF x A L).findSome? id = some e →
          exec (.attq h layer d a b f) s = .next (x.trapped s e.1 e.2)) ∧
        ((∀ p ∈ pins, slotReady x.p p = true ∧ x.p.pinFull false p = false) → (attqF x A L).findSome? id = none → ∀ areas,
          areas = [areaF (s.lsTop x.w.pid x.w.qc) (fld A 23 0) (256 + gk.desc.size) 256,
            areaF (s.lsTop x.w.pid x.w.qc) (fld A 47 24)
              (8 * gk.desc.rows * (16 + 4 * (gk.desc.rw * 256 / elemBytes gk.desc.fmt))) 16] →
          (∀ e, areas.findSome? id = some e → exec (.attq h layer d a b f) s = .next (x.trapped s e.1 e.2)) ∧
          (areas.findSome? id = none → ∃ k, k.eng = .att ∧ k.ins = .attq h layer d a b f ∧ k.ops = [.w A, .w L] ∧
            k.rpins = pins ∧ k.outs = [.chan d 0] ∧ k.wait = semOfCode 240 f.wsem ∧ k.sig = semOfCode 240 f.ssem ∧ k.ord = f.ord ∧
            exec (.attq h layer d a b f) s = .next (x.issued [a, b] ((s.enqueue x k).updCore x.w.pid x.w.qc (fun c =>
              { c with attqs := c.attqs ++ [layer.toNat] })))))) ) ∧
  (∀ (h : Hdr) (a : Opnd) (g : BitVec 4) (s : State) (x : Ctx) (vs : List Val) (L : Word) (sg : Nat)
      (F : List (Option (BitVec 8 × Word))), Issues s h [a] [] x vs → L = wordAt vs 0 → sg = fld L 63 55 →
      F = [lagsF L sg, notKvF x 0 sg, overF x sg L] →
      (x.c.qFull .att = true → exec (.prom h a g) s = .next (x.stays s)) ∧
      (∀ e, x.c.qFull .att = false → F.findSome? id = some e → exec (.prom h a g) s = .next (x.trapped s e.1 e.2)) ∧
      (∀ q, x.c.qFull .att = false → F.findSome? id = none → x.p.sig? sg = some q →
        ∃ k, k.eng = .att ∧ k.ins = .prom h a g ∧ k.ops = [.w L] ∧ k.sig = semOfCode 240 g ∧
          k.range.2 - k.range.1 = ((rangeOf q q.o (fld L 23 0) (fld L 47 24)).length : Int) ∧
          exec (.prom h a g) s = .next (x.issued [a] (s.enqueue x k)))) ∧
  (∀ (h : Hdr) (layer : BitVec 6) (d a : Opnd) (f : CmdF) (s : State) (x : Ctx) (vs : List Val) (la n top : Nat),
      Issues s h [a] [d] x vs → la = (wordAt vs 0).toNat % 2 ^ 24 → n = (wordAt vs 0).toNat / 2 ^ 32 % 512 →
      top = s.lsTop x.w.pid x.w.qc →
      (x.c.qFull .att = true → exec (.kvapp h layer d a f) s = .next (x.stays s)) ∧
      (x.c.qFull .att = false → n = 0 → exec (.kvapp h layer d a f) s = .next (x.trapped s 0x1C 1)) ∧
      (∀ e, x.c.qFull .att = false → n ≠ 0 → areaF top la (16 * n) 16 = some e →
        exec (.kvapp h layer d a f) s = .next (x.trapped s e.1 e.2)) ∧
      (x.c.qFull .att = false → n ≠ 0 → areaF top la (16 * n) 16 = none → x.readHeld s = true →
        exec (.kvapp h layer d a f) s = .next (x.stays s)) ∧
      (∀ es ents, x.c.qFull .att = false → n ≠ 0 → areaF top la (16 * n) 16 = none → x.readHeld s = false →
        x.c.footPresent { Foot.none with rd := blocksOf la (16 * n) } = true →
        es = kvList (s.lsGet x.lc .s la (16 * n)) n → s.badKeys x.ag .s (lsKeys x.lc la (16 * n)) = [] →
        ents = es.map (fun e => kvEnt x.p e.2) →
        ((∃ p ∈ ents.flatMap KvEnt.pins, x.p.pinFull true p = true) → exec (.kvapp h layer d a f) s = .next (x.stays s)) ∧
        ((∀ p ∈ ents.flatMap KvEnt.pins, x.p.pinFull true p = false) →
          (∀ e, (kvappF x top layer.toNat es).findSome? id = some e →
            exec (.kvapp h layer d a f) s = .next (x.trapped s e.1 e.2)) ∧
          ((kvappF x top layer.toNat es).findSome? id = none →
            ∃ done s1 s2 k, kvServe x ents s = (done, s1) ∧ k.eng = .att ∧ k.ins = .kvapp h layer d a f ∧ k.kvs = done ∧
              k.wpins = done.flatMap KvEnt.pins ∧ k.wait = semOfCode 240 f.wsem ∧ k.sig = semOfCode 240 f.ssem ∧
              s2 = (if done.length < n then (s1.enqueue x k).updStream x.w.pid x.w.qc x.w.st (fun t =>
                  { t with nextTrap := t.nextTrap ++ [.pagePool (BitVec.ofNat 64 (n * 2 ^ 32 + done.length))] })
                else s1.enqueue x k) ∧
              exec (.kvapp h layer d a f) s = .next
                (x.flying [a] s2 [(d, some (.w (BitVec.ofNat 64 done.length)))] (.exact (x.w.cycle + x.h.pd.val)) .none)))))

/-- R357, R358: park reads its record at issue, in its place on path s, faults with the code of what it finds wrong, and otherwise
clears the gates of the listed signals and leaves the park pending for the next boundary. -/
def Obligations.ParkWord : Prop :=
  ∀ (h : Hdr) (a : Opnd) (s : State) (x : Ctx) (vs : List Val) (A : VAddr), Issues s h [a] [] x vs →
    A = (wordAt vs 0).truncate 57 →
    (A = 0 ∨ A.toNat % 64 ≠ 0 → exec (.park h a) s = .next (x.trapped s 0x1D 1)) ∧
    (∀ ps s1 r, A ≠ 0 → A.toNat % 64 = 0 → s.walkHeld x.ag s.seq = false →
      s.accessAs x.ag s.seq x.die x.asid .rd A 64 = (.ok ps, s1) →
      r = parkRec (s1.readKeys x.ag .s (partKeys ps)) → s1.badKeys x.ag .s (partKeys ps) = [] →
      (s1.mayRead x.lc s1.seq (partKeys ps) (readPk ps) x.c.acc.pend = false → exec (.park h a) s = .next (x.stays s1)) ∧
      (s1.mayRead x.lc s1.seq (partKeys ps) (readPk ps) x.c.acc.pend = true →
        (∀ c, parkCode x.p.ctx x.p r = some c → exec (.park h a) s = .next (x.trapped s1 0x1D (BitVec.ofNat 64 c))) ∧
        (∀ ps2 s2, parkCode x.p.ctx x.p r = none → s1.walkHeld x.ag s1.seq = false →
          s1.accessAs x.ag s1.seq x.die x.asid .wr r.wake 8 = (.ok ps2, s2) →
          ∃ k : Park, k.wakeVa = r.wake ∧ k.t1 = r.t1 ∧ k.t2 = r.t2 ∧ k.sigs = r.list ∧ k.wm = r.wm ∧
            k.wake = (partKeys ps2).headD 0 ∧ k.woken = false ∧
            exec (.park h a) s = .next (x.issued [a] (s2.updPass x.w.pid (fun p =>
              { r.list.foldl (fun p i => p.updSig i (fun g => { g with g := false })) p with parkPend := some k }))))))

/-! ### Launch, futures and the system words -/

/-- R327 to R329: spawn holds while a release of its stream drains; a refused record is the run-record fault, an accepted one becomes
a run, for which the word waits while there is no room. The graph words act on the doubleword of a version: spawn.g starts a run
of it and raises its count, spawn.pb takes a version that no run holds, spawn.pe gives it back; each is the patch-busy fault
otherwise, with count, version and code. Rests on the model's readings in log entries 22 and 23. -/
def Obligations.SpawnWords : Prop :=
  (∀ (h : Hdr) (a : Opnd) (s : State) (x : Ctx) (vs : List Val) (A : VAddr), Issues s h [a] [] x vs →
      A = (wordAt vs 0).truncate 57 →
      (relsLeft x s = true → exec (.spawn h a) s = .next (x.stays s)) ∧
      (relsLeft x s = false →
        (∀ n s1, s.readRec 0 x.asid A = (.refuse n, s1) → exec (.spawn h a) s = .next (x.trapped s (0x0D) (A.zeroExtend 64))) ∧
        (∀ rcd s1, s.readRec 0 x.asid A = (.ok rcd, s1) →
          (s1.runRoom = true → exec (.spawn h a) s = .next (x.issued [a] (s1.acceptRun A rcd none))) ∧
          (s1.runRoom = false → exec (.spawn h a) s = .next (x.stays s1))))) ∧
  (∀ (h : Hdr) (a b : Opnd) (s : State) (x : Ctx) (vs : List Val) (A : VAddr) (v : Nat) (hb vb : List Byte) (s1 s2 s3 s4 : State)
      (rcd : RunRec) (ps : List Part) (ks : List Nat) (old : Word),
      Issues s h [a, b] [] x vs → A = (wordAt vs 0).truncate 57 → v = (wordAt vs 1).toNat % 64 → relsLeft x s = false →
      s.leRead 0 x.asid A 256 = (.ok hb, s1) →
      s1.leRead 0 x.asid (A + 256) (16 * fld (dwordAt hb 0x80) 6 0) = (.ok vb, s2) →
      (graphRec (hb.drop 0x80 ++ vb)).bad = false → s2.checkRec 0 x.asid A (hb.take 128) = (.ok rcd, s3) →
      v < (graphRec (hb.drop 0x80 ++ vb)).nv → s3.walkHeld x.ag s3.seq = false →
      s3.accessAs x.ag s3.seq x.die x.asid .wr (A + BitVec.ofNat 57 (0x108 + 16 * v)) 8 = (.ok ps, s4) →
      ks = ps.flatMap (fun p => p.keys) → s4.badKeys x.ag .s ks = [] →
      stepHeld x s4 false allCls ps = false →
      (s4.runRoom = true → old = (versionStep x s4 ks (fun w => if patching w || holdOf w = 65535 then none else some (w + 1))).1 →
        (old.getLsbD 16 = true → exec (.spawnG h a b) s =
          .next (x.trapped s4 0x0E (BitVec.ofNat 64 (old.toNat % 2 ^ 16 * 2 ^ 16 + v * 2 ^ 8 + 2)))) ∧
        (old.getLsbD 16 = false → old.toNat % 2 ^ 16 = 65535 → exec (.spawnG h a b) s = .next (x.stays s4)) ∧
        (old.getLsbD 16 = false → old.toNat % 2 ^ 16 ≠ 65535 → exec (.spawnG h a b) s = .next (x.issued [a, b]
          (((versionStep x s4 ks (fun w => if patching w || holdOf w = 65535 then none else some (w + 1))).2.acceptRun A
            { rcd with param := vaWord ((graphRec (hb.drop 0x80 ++ vb)).pblks.getD v 0) } (some (ks.headD 0))))))) ∧
      (old = (versionStep x s4 ks (fun w => if patching w || holdOf w != 0 then none else some (w ||| 0x10000))).1 →
        (old.getLsbD 16 = true → exec (.spawnPb h a b) s =
          .next (x.trapped s4 0x0E (BitVec.ofNat 64 (old.toNat % 2 ^ 16 * 2 ^ 16 + v * 2 ^ 8 + 3)))) ∧
        (old.getLsbD 16 = false → old.toNat % 2 ^ 16 ≠ 0 → exec (.spawnPb h a b) s =
          .next (x.trapped s4 0x0E (BitVec.ofNat 64 (old.toNat % 2 ^ 16 * 2 ^ 16 + v * 2 ^ 8 + 1)))) ∧
        (old.getLsbD 16 = false → old.toNat % 2 ^ 16 = 0 → ∃ s5,
          s5 = (versionStep x s4 ks (fun w => if patching w || holdOf w != 0 then none else some (w ||| 0x10000))).2 ∧
          exec (.spawnPb h a b) s =
            .next (x.issued [a, b] (s5.acquire x.ag x.w.pid x.w.qc s5.seq allCls 5)))) ∧
      (stepHeld x s4 true allCls ps = false → ∀ r,
        r = versionStep x (s4.releaseNow x.ag allCls 5) ks (fun w => if patching w then some (w &&& ~~~0x10000) else none) →
        (r.1.getLsbD 16 = false → exec (.spawnPe h a b) s =
          .next (x.trapped s4 0x0E (BitVec.ofNat 64 (r.1.toNat % 2 ^ 16 * 2 ^ 16 + v * 2 ^ 8 + 4)))) ∧
        (r.1.getLsbD 16 = true → exec (.spawnPe h a b) s = .next (x.issued [a, b] r.2))))

/-- R331 to R334: fres and fres.f perform the step of R332 on the future at their address, after their release: a pending or registered
future takes the payload and the word's tag, and what was registered starts; a future resolved before is the double-resolve
fault; fres.n only arms it, at most eight of a core; a misaligned address faults. Rests on the model's readings in log
entry 35. -/
def Obligations.FutureWords : Prop :=
  ∀ (h : Hdr) (a b : Opnd) (s : State) (x : Ctx) (vs : List Val) (A : VAddr), Issues s h [a, b] [] x vs →
    A = (wordAt vs 0).truncate 57 →
    (A.toNat % 8 ≠ 0 → exec (.fres h a b) s = .next (x.trapped s 0x09 (A.zeroExtend 64)) ∧
      exec (.fresF h a b) s = .next (x.trapped s 0x09 (A.zeroExtend 64)) ∧
      exec (.fresN h a b) s = .next (x.trapped s 0x09 (A.zeroExtend 64))) ∧
    (∀ ps s1 key, A.toNat % 8 = 0 → s.walkHeld x.ag s.seq = false →
      s.accessAs x.ag s.seq x.die x.asid .wr A 8 = (.ok ps, s1) → key = (partKeys ps).headD 0 →
      (8 ≤ x.c.armed.length → exec (.fresN h a b) s = .next (x.stays s1)) ∧
      (x.c.armed.length < 8 → exec (.fresN h a b) s = .next (x.issued [a, b] (s1.updCore x.w.pid x.w.qc (fun c =>
        { c with armed := c.armed ++ [{ key := key, va := A, payload := (wordAt vs 1).truncate 62 }] })))) ∧
      (∀ (i : Instr) (tag : Nat), (i = .fres h a b ∧ tag = 1) ∨ (i = .fresF h a b ∧ tag = 3) →
        (stepHeld x s1 true futSet ps = true → exec i s = .next (x.stays s1)) ∧
        (∀ old s2 new cell, stepHeld x s1 true futSet ps = false → s1.badKeys x.ag .s (partKeys ps) = [] →
          cell = (List.range 8).map (fun i => key + i) → new = (wordAt vs 1).toNat % 2 ^ 62 * 4 + tag →
          (s1.releaseNow x.ag futSet (homeScope key)).atomicAt x.ag .s (homeScope key) cell .r
            (fun o => if leNat o % 4 = 0 ∨ leNat o % 4 = 2 then some (natLe 8 new) else none) = (old, s2) →
          (leNat old % 4 = 0 ∨ leNat old % 4 = 2 → leNat (s2.readFrom x.ag .s (homeScope key) cell) = new) ∧
          (leNat old % 4 = 0 → exec i s = .next (x.issued [a, b] s2)) ∧
          (leNat old % 4 = 2 → leNat old / 4 % 2 = 0 → exec i s = .next (x.issued [a, b]
            (s2.startRun x.w.pid x.w.qc 0 x.asid (BitVec.ofNat 57 (leNat old / 8 % 2 ^ 54 * 8))))) ∧
          (leNat old % 4 = 2 → leNat old / 4 % 2 = 1 → exec i s = .next (x.issued [a, b]
            (s2.joinBump x.asid (BitVec.ofNat 57 (leNat old / 8 % 2 ^ 54 * 8))))) ∧
          (leNat old % 4 = 1 ∨ leNat old % 4 = 3 → exec i s = .next (x.trapped s1 0x0F (A.zeroExtend 64))))))

/-- R333: freg and freg.j put their continuation in an empty future and start it at once when the future is resolved; their
status lands 20 cycles after issue at the earliest: 0 registered, 1 resolved, 2 another is registered, 3 failed. Rests on the
model's readings in log entries 22 and 23 (its choice: the launch engine reads a record as die 0). -/
def Obligations.RegisterWords : Prop :=
  ∀ (h : Hdr) (d a b : Opnd) (s : State) (x : Ctx) (vs : List Val) (A B : VAddr) (j : Bool) (s0 s1 s2 : State)
    (start : State → State) (i : Instr) (ps : List Part) (ks : List Nat) (old : List Byte) (code : Nat),
    Issues s h [a, b] [d] x vs → A = (wordAt vs 0).truncate 57 → B = (wordAt vs 1).truncate 57 →
    (j = false ∧ i = .freg h d a b ∧ (∃ rcd, s.readRec 0 x.asid B = (.ok rcd, s0) ∧ start = fun s => s.acceptRun B rcd none) ∨
      j = true ∧ i = .fregJ h d a b ∧ s0 = s ∧ B.toNat % 8 = 0 ∧ start = fun s => s.joinBump x.asid B) →
    (A.toNat % 8 ≠ 0 → exec i s = .next (x.trapped s0 0x09 (A.zeroExtend 64))) ∧
    (A.toNat % 8 = 0 → s0.walkHeld x.ag s0.seq = false →
      s0.accessAs x.ag s0.seq x.die x.asid .wr A 8 = (.ok ps, s1) → ks = ps.flatMap (fun p => p.keys) →
      s1.badKeys x.ag .s ks = [] → stepHeld x s1 true futSet ps = false →
      (s1.releaseNow x.ag futSet (homeScope (ks.headD 0))).atomicAt x.ag .s (homeScope (ks.headD 0))
        ((List.range 8).map (fun i => ks.headD 0 + i)) .r (fun o => if leNat o % 4 = 0 then
          some (wordLe 8 (BitVec.ofNat 64 (B.toNat / 8 * 8 + (if j then 4 else 0) + 2))) else none) = (old, s2) →
      code = leNat old % 4 → (j = false → code = 1 ∨ code = 3 → s0.runRoom = true) →
      exec i s = .next (x.flying [a, b] (if code = 1 ∨ code = 3 then start s2 else s2)
        [(d, some (.w (BitVec.ofNat 64 code)))] (.least (x.w.cycle + 20)) .none))

/-- R337, R339, R372, R375, R391, R392: the words that only ask: yield, migr, tlbinv once nothing translated through the
covered entries is open, pfrep of a fault, and lease. -/
def Obligations.SystemWords : Prop :=
  ∀ (h : Hdr) (s : State) (x : Ctx) (vs : List Val),
    (Issues s h [] [] x vs →
      exec (.yield h) s = .next (x.issued [] (s.updPass x.w.pid (fun p => { p with yield := true }))) ∧
      (relsLeft x s = true ∨ s.openPages x.asid ≠ [] → exec (.tlbinvAs h) s = .next (x.stays s)) ∧
      (∀ tl wk, relsLeft x s = false → s.openPages x.asid = [] → tl = s.tlb.filter (fun t => t.asid != x.asid) →
        wk = s.walks.filter (fun t => t.asid != x.asid) →
        exec (.tlbinvAs h) s = .next (x.issued [] { s with tlb := tl, walks := wk }))) ∧
    (∀ a, Issues s h [a] [] x vs →
      exec (.migr h a) s = .next (x.issued [a] (s.updPass x.w.pid (fun p =>
        { p with migr := (wordAt vs 0).truncate 8 }))) ∧
      (relsLeft x s = true → exec (.tlbinvVa h a) s = .next (x.stays s)) ∧
      (∀ A : Nat, A = (wordAt vs 0).toNat % 2 ^ 57 → relsLeft x s = false →
        (∀ g ∈ s.openPages x.asid, A / 2 ^ g.2 ≠ g.1 / 2 ^ g.2) →
        ∃ tl wk, exec (.tlbinvVa h a) s = .next (x.issued [a] { s with tlb := tl, walks := wk }) ∧
          (∀ t, t ∈ tl ↔ t ∈ s.tlb ∧ ¬(t.asid = x.asid ∧ A / 2 ^ t.lg = t.va / 2 ^ t.lg)) ∧
          (∀ t, t ∈ wk ↔ t ∈ s.walks ∧ ¬(t.asid = x.asid ∧ t.va = walkKey t.lvl A)))) ∧
    (∀ d a, Issues s h [a] [d] x vs →
      (s.relsNaming x.ag .w s.seq ≠ [] → exec (.pfrep h d a) s = .next (x.stays s)) ∧
      (s.relsNaming x.ag .w s.seq = [] →
        (s.faultOf x.asid (wordAt vs 0) = none → exec (.pfrep h d a) s =
          .next (x.flying [a] s [(d, some (.w 1))] (.least (x.w.cycle + 20)) .none)) ∧
        (∀ f fs, s.faultOf x.asid (wordAt vs 0) = some f →
          fs = s.faults.map (fun g => if g.id = f.id then { g with asked := some (x.w.pid, x.c.lcore, s.seq) } else g) →
          exec (.pfrep h d a) s =
            .next (x.flying [a] { s with faults := fs } [(d, some (.w 0))] (.least (x.w.cycle + 20)) .none))) ∧
      (leaseBad (wordAt vs 0) = true → exec (.lease h d a) s = .next (x.trapped s 0x22 (wordAt vs 0))) ∧
      (leaseBad (wordAt vs 0) = false → exec (.lease h d a) s = .next (State.issueGo x [a]
        { st := s, outs := [(d, none)], due := .least (x.w.cycle + 20), req := .lease, pin := none, arg := wordAt vs 0,
          next := .seq })))

/-! ### Events of the streams and of the ordering machine -/

/-- R119, R176, R194, R281, R289, R290, R295, R37: a variable-latency result lands once its least latency has passed, a load
with the value of its bytes; a slot write is performed and its pin goes; a woken waiter reads again, and one that found the
table full polls after 1,024 cycles; a repeating word whose limit has run out traps. Rests on the model's readings in log
entries 3 and 15. -/
def Obligations.StreamEvents : Prop :=
  ∀ (s : State) (pid qc : Nat),
    (∀ (st : Stream) (n : Nat) (c : CoreSt) (p : Pend), s.core? pid qc = some c →
      (c.stream st).pend.find? (fun p => p.seq == n) = some p →
      (p.due = .least s.cycle ∨ ∃ lo hi, lo ≤ s.cycle ∧ (p.due = .least lo ∨ p.due = .within lo hi)) →
      (p.req = .none → p.pin = none → exec (.taggedResultLand pid qc st n) s =
        .next (s.updCore pid qc (fun c => landPend c st p))) ∧
      (∀ parts sz sx ord s1 q ps, p.req = .load parts sz sx ord → s1 = s.performParts pid qc n parts.length →
        s1.pend? pid qc st n = some q → q.req = .load ps sz sx ord → (∀ r ∈ ps, r.got.isSome = true) → q.pin = none →
        exec (.taggedResultLand pid qc st n) s = .next (s1.updCore pid qc (fun c => landPend c st
          { q with outs := fillOuts q.outs [.w (
            if sx then BitVec.ofInt 64 (sval (8 * szBytes sz) (leNat (ps.flatMap (fun r => r.got.getD []))))
            else BitVec.ofNat 64 (leNat (ps.flatMap (fun r => r.got.getD []))))] })))) ∧
    (∀ (n : Nat) (p : Pass) (w : SlotWrite) (g : Sig) (q : Slot), s.pass? pid = some p →
      p.writes.find? (fun w => w.id == n) = some w → (∀ d, w.due = some d → d ≤ s.cycle) → mget none p.sigs w.sig = some g →
      g.slot? w.num = some q → 0 < q.wp → (q.st = .empty ∨ q.st = .filling) →
      ∃ t p' g' q', exec (.slotWritePerformed pid n) s = .next t ∧ t.pass? pid = some p' ∧
        (∀ v ∈ p'.writes, v.id ≠ n) ∧ mget none p'.sigs w.sig = some g' ∧ g'.slot? w.num = some q' ∧ q'.wp = q.wp - 1 ∧
        q'.segs = q.segs ||| segMask w.off w.data.length ∧
        q'.st = (if q.wp = 1 ∧ q'.segs = 2 ^ g.desc.segs - 1 then .ready else .filling) ∧
        (∀ i (h : i < w.data.length), mget 0 q'.data (w.off + i) = w.data[i]) ∧
        (∀ k, k < w.off ∨ w.off + w.data.length ≤ k → mget 0 q'.data k = mget 0 q.data k)) ∧
    (∃ t, exec (.wwaitWake pid qc) s = .next t ∧ { t with waiters := s.waiters } = s ∧
      t.waiters = s.waiters.map (fun x => if x.w = .core pid qc ∧ x.woken = true then { x with awake := true, woken := false }
        else x)) ∧
    (∀ (w : Waiter) (x : WaitReg) (c : Nat), s.waiting? w = some x → x.full = some c → c + 1024 ≤ s.cycle →
      (∀ a b, w = .core a b → exec (.waiterTablePoll w) s = .next { s with waiters := s.waiters.map (fun y =>
        if y.w == w then { y with awake := true } else y) }) ∧
      (∀ rid, w = .join rid → exec (.waiterTablePoll w) s = .next (s.joinRead rid))) ∧
    (∀ (rid : Nat) (x : WaitReg) (r : Run), s.waiting? (.join rid) = some x → x.woken = true → s.run? rid = some r →
      r.rcd.jthr.toNat ≤ leNat (s.readFrom .le .s (homeScope r.joinKey) ((List.range 8).map (fun i => r.joinKey + i))) →
      exec (.leJoinWake rid) s = .next ((s.updRun rid (fun r => { r with st := .active, aged := s.cycle })).unregister
        (.join rid))) ∧
    (∀ (p : Pass) (c : CoreSt) (l : LimSt), s.pass? pid = some p → s.core? pid qc = some c → c.acc.limFrom = some l →
      p.st = .resident → s.stalled p = false → l.since + l.bound ≤ s.cycle →
      exec (.queueWaitLimitExpiry pid qc) s =
        .next (s.takeTrap pid qc .acc c.acc.pc (if l.deq then 0x11 else 0x10) l.info))

/-- R54 to R57, R68, R69, R76, R282, R283, R285, R288, R289, R297 to R299: a drain takes an entry that may leave its buffer to the first
store of its chain; an atomic of class s is performed at its scope: what stands below propagates, the location takes the new value,
the old value reaches the word, and a sum that crosses its threshold wakes the waiters; a release leaves nothing older of its
classes in a buffer and nothing below its scope, and an acquire propagates its classes after its step; a propagation takes a write
that may leave its store to the next one, and from the last one into memory; the writes of the host and of a device on port M enter its buffer
and its reads find its chain; a request of another module is performed once and its reply kept until it is acknowledged. Rests on the model's
readings in log entries 3, 15, 34 and 53. -/
def Obligations.OrderEvents : Prop :=
  ∀ (s : State),
    (∀ (ag : Agent) (cl : Cls) (i : Nat) (e : Entry), (bufOf s.bufs ag cl)[i]? = some e →
      (s.mayDrain ag cl e = false → exec (.ordDrain ag cl i) s = .next s) ∧
      (s.mayDrain ag cl e = true → exec (.ordDrain ag cl i) s = .next (s.drain ag cl e) ∧
        (cl ≠ .s → e.act = .write → e.ord.kind = .none → exec (.ordDrain ag cl i) s =
          .next (({ s with bufs := setBuf s.bufs ag cl ((bufOf s.bufs ag cl).filter (fun x => x.seq != e.seq)) } :
            State).append (s.chain ag cl).head? e.wr)))) ∧
    (∀ (lc i : Nat) (ag : Agent) (e : Entry) (keys : List Nat) (s0 s1 s2 : State) (lvl old : Nat) (ch : List StoreId)
        (put : AW → Nat → State) (ev : Instr), ag = .core lc → (bufOf s.bufs ag .s)[i]? = some e →
      s.mayDrain ag .s e = true → e.ord.kind = .none → keys = e.wr.cells.map (fun c => c.1) → ev = .ordDrain ag .s i →
      s0 = (s.forceLoads lc e.seq (s.entFoot ag e).1).rmEntry ag .s e.seq →
      s1 = s0.consume e.pid lc 0 (s0.badKeys ag .s keys) → lvl = s0.scopeLvl ag e.asc.toNat → ch = s1.chain ag .s →
      s2 = s1.pushBelow lvl ch → old = leNat (keys.map (fun k => s2.readChain k (chainFrom lvl ch))) →
      put = (fun wd n => (s2.append (storeAt lvl ch) { seq := s2.seq, pk := if e.wr.pk = .u then .r else e.wr.pk,
                                                       cells := keyCells keys (natLe (awBytes wd) n) }).tickSeq) →
      (e.act = .write → exec ev s = .next (s0.append (s0.chain ag .s).head? e.wr)) ∧
      (∀ op wd b, e.act = .amo op wd b → keys.length = awBytes wd →
        exec ev s = .next ((put wd (r282 op wd old b.toNat)).deliver e.pid e.qc e.seq [BitVec.ofNat 64 old])) ∧
      (∀ wd want b, e.act = .cas wd want b →
        (old = want.toNat % 2 ^ awBitsOf wd →
          exec ev s = .next ((put wd b.toNat).deliver e.pid e.qc e.seq [BitVec.ofNat 64 old])) ∧
        (old ≠ want.toNat % 2 ^ awBitsOf wd →
          exec ev s = .next (s1.deliver e.pid e.qc e.seq [BitVec.ofNat 64 old]))) ∧
      (∀ wd b thr u, e.act = .faddw wd b thr → keys.length = awBytes wd →
        u = (put wd (r282 .add wd old b.toNat)).deliver e.pid e.qc e.seq [BitVec.ofNat 64 old] →
        (r288 wd old b.toNat thr.toNat → exec ev s = .next { u with waiters := u.waiters.map (fun x =>
          if x.key = keys.headD 0 ∧ x.full = none then { x with woken := true } else x) }) ∧
        (¬r288 wd old b.toNat thr.toNat → exec ev s = .next u))) ∧
    (∀ (pid qc sq : Nat) (v : Word) (c : CoreSt), s.core? pid qc = some c → ∃ c', (s.deliver pid qc sq [v]).core? pid qc = some c' ∧
      { c' with acc := c.acc } = c ∧ ∀ (j : Nat) (p : Pend), c.acc.pend[j]? = some p →
        (p.req ≠ .entry ∨ p.seq ≠ sq → c'.acc.pend[j]? = some p) ∧
        (∀ o os, p.req = .entry → p.seq = sq → p.outs = o :: os → c'.acc.pend[j]? =
          some { p with outs := { o with val := some (.w v) } :: os, req := .none })) ∧
    (∀ (ag : Agent) (cl : Cls) (i : Nat) (e : Entry) (ps : BitVec 8) (lvl : Nat), (bufOf s.bufs ag cl)[i]? = some e →
      s.mayDrain ag cl e = true → ps = pathSet e.ord.paths cl → lvl = s.scopeLvl ag e.ord.scope.toNat →
      (isRel e.ord = true → ∃ t, exec (.ordDrain ag cl i) s = .next t ∧
        (∀ c f, inSet ps c = true → f ∈ bufOf t.bufs ag c → f.seq < e.seq → f.wr.twin e.wr = true) ∧
        (e.act = .write → ∃ u : State, t = u.append (storeAt lvl (u.chain ag cl)) e.wr ∧
          ∀ c st, inSet ps c = true → st ∈ u.chain ag c → storeLvl st < lvl → storeOf u.stores st = [])) ∧
      (∀ d u : State, e.act ≠ .write → e.ord.kind = .acq → d = s.drainOne ag cl e → u = d.noteAcq e.pid e.qc e.seq ps →
        (u.flushHeld ag ps e.seq = true → exec (.ordDrain ag cl i) s =
          .next (d.waitFlush e.pid e.qc e.seq ps (d.scopeLvl ag e.ord.scope.toNat))) ∧
        (u.flushHeld ag ps e.seq = false → ∃ t, exec (.ordDrain ag cl i) s = .next t ∧
          (∀ c st, inSet ps c = true → st ∈ t.chain ag c → storeLvl st < d.scopeLvl ag e.ord.scope.toNat →
            storeOf t.stores st = []) ∧
          ∀ c f, inSet ps c = true → f ∈ bufOf t.bufs ag c → ∃ lc i p q k j b, ag = .core lc ∧ u.holder lc = some (p, i) ∧
            t.holder lc = some (q, i) ∧ p.cores[i]? = some k ∧ q.cores[i]? = some j ∧
            b ∈ pendAcqs k.acc.pend ++ entAcqs (bufOf u.bufs ag .s) .s ++ j.acqs.map (fun a => (a.seq, a.ps)) ∧
            b.1 < f.po ∧ inSet b.2 c = true))) ∧
    (∀ (st : StoreId) (i : Nat) (w : Wr), (storeOf s.stores st)[i]? = some w →
      (mayLeaveStore ((storeOf s.stores st).take i) w = false → exec (.ordPropagate st i) s = .next s) ∧
      (mayLeaveStore ((storeOf s.stores st).take i) w = true → ∃ t, exec (.ordPropagate st i) s = .next t ∧
        t.bufs = s.bufs ∧ storeOf t.stores st = (storeOf s.stores st).take i ++ (storeOf s.stores st).drop (i + 1) ++
          (if s.nextStore st = some st then [w] else []) ∧
        (∀ u, s.nextStore st = some u → u ≠ st → storeOf t.stores u = storeOf s.stores u ++ [w] ∧ t.mem = s.mem) ∧
        (s.nextStore st = none → ∀ k, memGet t.mem k = match w.cells.reverse.find? (fun c => c.1 == k) with
          | some c => c.2
          | none => memGet s.mem k))) ∧
    (∀ (port : ExtPort) (pa : Nat) (bs : List Byte) (relaxed : Bool), hostPa pa bs.length = true → bs ≠ [] →
      ∃ e, e.act = .write ∧ e.wr.cells = keyCells (paKeys pa bs.length) bs ∧ isRel e.ord = !relaxed ∧
        exec (.hostWrite { port := port, pa := pa } bs relaxed) s = .next (s.issueEntry port.agent .h e).tickSeq) ∧
    (∀ (port : ExtPort) (pa n : Nat), hostPa pa n = true → exec (.hostRead { port := port, pa := pa } n) s = .next { s with reads :=
      s.reads ++ [⟨{ port := port, pa := pa }, (paKeys pa n).map (s.readByte port.agent .h),
                  !(s.badKeys port.agent .h (paKeys pa n)).isEmpty⟩] }) ∧
    (∀ (src sq : Nat) (r : RemoteReq),
      ((∃ d ∈ s.dedupe, d.src = src ∧ d.sq = sq) ∨ 4096 ≤ s.dedupe.length →
        exec (.remoteRequestArrival src sq r) s = .next s) ∧
      (∀ rep s1, (∀ d ∈ s.dedupe, ¬(d.src = src ∧ d.sq = sq)) → s.dedupe.length < 4096 → s.remoteDo src r = some (rep, s1) →
        exec (.remoteRequestArrival src sq r) s =
          .next { s1 with dedupe := s1.dedupe ++ [{ src := src, sq := sq, reply := rep }] }) ∧
      exec (.remoteReplyAcknowledge src sq) s =
        .next { s with dedupe := s.dedupe.filter (fun d => !(d.src == src && d.sq == sq)) })

/-! ### Events of the engines -/

/-- R59, R212, R254, R260, R267 to R272, R309, R310, R315 to R319, R428: a command at the head of its queue leaves it when its wait is
taken, its gap has passed and its engine has room; it starts when no earlier command holds it; it does its steps at its engine's
rate; it completes, leaves its queue and raises its semaphore. A zeroed tile reads zero, and a step of a multiply adds to its tile
and to no other; a row copied between two places of the line store enters the c buffer as path c reads it; an index list is read
at the start. Rests on the model's readings in log entries 3 and 45. -/
def Obligations.EngineEvents : Prop :=
  ∀ (s : State) (pid qc : Nat),
    (∀ x, s.headCtx pid qc .mat = some x → x.k.wait = none → x.k.ord.kind = .none →
      mayLeave s x.c.mlast x.c.mgap 8 (x.c.leftOf .mat) = true → ∃ s1,
      s1 = (s.updCmd pid qc x.k.id (fun k => { k with st := .departed, ord := noOrd, begun := s.cycle })).updCore pid qc
        (fun c => { c with mlast := some s.cycle }) ∧
      ((∀ h rm, x.k.ins ≠ .mmodeRm h rm) → (∀ h g, x.k.ins ≠ .mpace h g) →
        exec (.matrixCommandDepart pid qc) s = .next s1) ∧
      (∀ h rm, x.k.ins = .mmodeRm h rm → exec (.matrixCommandDepart pid qc) s = .next (s1.endCmd pid qc x.k)) ∧
      (∀ h g, x.k.ins = .mpace h g → exec (.matrixCommandDepart pid qc) s = .next ((s1.updCore pid qc
        (fun c => { c with mgap := (wordAt x.k.ops 0).toNat })).endCmd pid qc x.k))) ∧
    (∀ n x, s.cmdCtx pid qc n = some x → x.k.eng = .mat → x.k.st = .departed → x.earlier.any (matWaits x.k) = false →
      (∀ h g, x.k.ins = .mnot h g → exec (.matrixCommandStart pid qc n) s = .next (s.notify pid qc x.k)) ∧
      ((∀ h g, x.k.ins ≠ .mnot h g) → (∀ h a g, x.k.ins ≠ .mlease h a g) → exec (.matrixCommandStart pid qc n) s =
        .next (s.updCmd pid qc n (fun k => { k with st := .started, begun := s.cycle })))) ∧
    (∀ n x need, s.cmdCtx pid qc n = some x → x.k.eng = .mat → x.k.st = .started → x.k.prog < matSteps x.k →
      need = matCost x.k (s.matPace x.p x.lc) → need ≤ x.k.quota + x.c.matLeft → matHeld s x = false →
      x.c.footPresent (matStepFoot x.k) = true → ∃ c, (s.matNext pid qc n).core? pid qc = some c ∧
      c.matLeft = x.c.matLeft - (need - x.k.quota) ∧ (∃ k ∈ c.cmds, k.id = n ∧ k.prog = x.k.prog + 1 ∧ k.quota = 0) ∧
      (∀ h m w g, x.k.ins = .mzero h m w g → ∀ key,
        mget 0 c.tiles key = if m.getLsbD (key / 24576) then 0 else mget 0 x.c.tiles key) ∧
      (∀ h tl kc a b f, x.k.ins = .mmac h tl kc a b f →
        (∀ i j, i < 192 → j < 128 → mget 0 c.tiles (tl.toNat * 24576 + i * 128 + j) =
          macAcc x.k.fmt ((fwAF x.k.fmt).getD .fp32) ((fwBF x.k.fmt).getD .fp32) (x.k.prog == 0)
            (macRowsOf s x a b (2 ^ (kc.toNat + 3)) x.k.prog) i j
            (mget 0 x.c.tiles (tl.toNat * 24576 + i * 128 + j))) ∧
        (∀ key, key / 24576 ≠ tl.toNat → mget 0 c.tiles key = mget 0 x.c.tiles key))) ∧
    (∀ n x, s.cmdCtx pid qc n = some x → x.k.eng = .mat → x.k.st = .started → matSteps x.k ≤ x.k.prog →
      exec (.matrixCommandComplete pid qc n) s = .next (s.endCmd pid qc x.k)) ∧
    (∀ k c, s.core? pid qc = some c → k.flt = none → ∃ d, (s.endCmd pid qc k).core? pid qc = some d ∧
      d.cmds = c.cmds.filter (fun j => j.id != k.id) ∧ (k.sig = none → d = { c with cmds := d.cmds }) ∧
      (∀ n, k.sig = some n → (mget 0 c.sems n).toNat + mget 0 c.waitNow n ≠ 65535 →
        d = { c with cmds := d.cmds, sems := mset 0 c.sems n (mget 0 c.sems n + 1) })) ∧
    (∀ x, s.headCtx pid qc .copy = some x → x.k.wait = none → x.k.ord.kind = .none →
      mayLeave s x.c.clast x.c.cgap 16 (x.c.leftOf .copy) = true → ∃ s1,
      s1 = (s.updCmd pid qc x.k.id (fun k => { k with st := .departed, ord := noOrd, begun := s.cycle })).updCore pid qc
        (fun c => { c with clast := some s.cycle }) ∧
      ((∀ h g, x.k.ins ≠ .cpace h g) → exec (.copyCommandDepart pid qc) s = .next s1) ∧
      (∀ h g, x.k.ins = .cpace h g → exec (.copyCommandDepart pid qc) s = .next ((s1.updCore pid qc
        (fun c => { c with cgap := (wordAt x.k.ops 0).toNat })).endCmd pid qc x.k))) ∧
    (∀ n x, s.cmdCtx pid qc n = some x → x.k.eng = .copy → x.k.st = .departed → x.k.held = false →
      x.earlier.any (copyWaits x) = false → credHeld s x = false → saveHeld x = false →
      (cmdList x.k = [] ∨ s.engHeld x.c .c x.k = false) → x.c.footPresent { Foot.none with rd := cmdList x.k } = true →
      (isCnot x.k = true → exec (.copyCommandStart pid qc n) s = .next (s.notify pid qc x.k)) ∧
      (∀ s1, isCnot x.k = false → copyOpen s x = (none, s1) → exec (.copyCommandStart pid qc n) s =
        .next (s1.updCmd pid qc n (fun k => if k.held then k else { k with st := .started, begun := s.cycle }))) ∧
      (∀ h a b f, x.k.ins = .cgat h a b f ∨ x.k.ins = .cscat h a b f → ∃ t c k, exec (.copyCommandStart pid qc n) s = .next t ∧
        t.core? pid qc = some c ∧ k ∈ c.cmds ∧ k.id = n ∧ k.st = .started ∧ k.cap.map (fun r => r.bytes) =
          [s.readKeys (.core x.lc) .c (lsKeys x.lc (fld (wordAt x.k.ops 1) 23 0) (4 * fld (wordAt x.k.ops 1) 55 32))])) ∧
    (∀ n x t, s.cmdCtx pid qc n = some x → x.k.eng = .copy → x.k.st = .started → x.k.held = false → x.k.flt = none →
      copyStep x = some t → t.used ≤ x.k.quota + x.c.copyLeft → x.c.footPresent t.foot = true →
      s.engHeld x.c .c x.k = false → s.walkHeld x.ag x.k.seq = false →
      ∀ (h : Hdr) (a : Opnd) (sd : CpyTap) (p q : Nat) (dp dq : Int) (rp rq : Nat),
      x.k.ins = .cpy h a sd ∨ x.k.ins = .cpy2d h a sd → cmdSides x.k = (.ls p dp rp, .ls q dq rq) → ∃ es,
        bufOf (s.copyNext pid qc n).bufs (.core x.lc) .c = bufOf s.bufs (.core x.lc) .c ++ es ∧ (∀ e ∈ es, e.act = .write) ∧
        (∀ ag cl, ¬(ag = .core x.lc ∧ cl = Cls.c) → bufOf (s.copyNext pid qc n).bufs ag cl = bufOf s.bufs ag cl) ∧
        (s.copyNext pid qc n).mem = s.mem ∧ (s.copyNext pid qc n).stores = s.stores ∧
        es.flatMap (fun e => e.wr.cells) =
          keyCells ((List.range (shLen (cmdRec x.k))).map (fun o =>
              lsKey x.lc (rotAddr rq x.k.prog (((q : Int) + x.k.prog * dq).toNat + o))))
            (s.readKeys (.core x.lc) .c ((List.range (shLen (cmdRec x.k))).map (fun o =>
              lsKey x.lc (rotAddr rp x.k.prog (((p : Int) + x.k.prog * dp).toNat + o)))))) ∧
    (∀ n x, s.cmdCtx pid qc n = some x → x.k.eng = .copy → x.k.st = .started → x.k.held = false →
      (x.k.flt.isSome = true ∨ copyStep x = none) →
      ((∀ h sg a sm, x.k.ins ≠ .srest h sg a sm) → (∀ h sg a sm, x.k.ins ≠ .ssave h sg a sm) →
        exec (.copyCommandComplete pid qc n) s = .next (s.endCmd pid qc x.k)) ∧
      (∀ h sg a sm, x.k.ins = .ssave h sg a sm → exec (.copyCommandComplete pid qc n) s =
        .next ((s.updSig pid sg.toNat (fun g => g.drainOff (fun n => (saveWindow x.k).contains n))).endCmd pid qc x.k)) ∧
      (∀ h sg a sm, x.k.ins = .srest h sg a sm →
        (x.k.flt.isSome = true → exec (.copyCommandComplete pid qc n) s = .next ((s.updSig pid sg.toNat (fun g =>
          { g with n := -1, o := 0, slots := [], rest := false })).endCmd pid qc x.k)) ∧
        (x.k.flt = none → exec (.copyCommandComplete pid qc n) s = .next ((restRun s x sg.toNat).endCmd pid qc x.k)))) ∧
    (∀ x s1, s.vecBegun pid qc = none → s.headCtx pid qc .vec = some x → x.k.wait = none → x.k.ord.kind = .none →
      s1 = s.updCmd pid qc x.k.id (fun k => { k with st := .departed, ord := noOrd, begun := s.cycle }) →
      vecMay s x = true →
      (inFrets x.k.ins = true → exec (.vectorQueuedPerform pid qc) s = .next s1) ∧
      (inFrets x.k.ins = false → exec (.vectorQueuedPerform pid qc) s =
        .next (performVec s1 { x with k := { x.k with ord := noOrd } }))) ∧
    (∀ x, s.vecBegun pid qc = some x →
      (vecMay s x = false → exec (.vectorQueuedPerform pid qc) s = .next s) ∧
      (vecMay s x = true → exec (.vectorQueuedPerform pid qc) s = .next (fretStep s x))) ∧
    (∀ x, s.headCtx pid qc .curve = some x → x.c.cmdsIn .curve .departed = [] → x.k.wait = none → x.k.ord.kind = .none →
      exec (.csplitComplete pid qc) s = .next (s.updCmd pid qc x.k.id (fun k =>
        { k with st := .departed, ord := noOrd, begun := s.cycle }))) ∧
    (∀ c k x h sh sm d a b (ls : List (List Host.Cell)) (left : List Nat), s.core? pid qc = some c →
      (c.cmdsIn .curve .departed).head? = some k → s.cmdCtx pid qc k.id = some x → k.ins = .csplit h sh sm d a b →
      (∀ p ∈ c.exe.pend, p.seq = k.seq → p.issued + 9 ≤ s.cycle) → c.footPresent (splitFoot k) = true →
      ls = splitLines x sh → left = (List.range ls.length).filter (fun i => !x.k.marks.any (fun m => m.1 == i)) →
      (∀ i, left = [i] → exec (.csplitComplete pid qc) s = .next (splitEnd (splitPut (s.draw 1).2 x (ls.getD i [])) x
        (splitList sh (wordAt x.k.ops 0) (wordAt x.k.ops 1) (wordAt x.k.ops 2)).1)) ∧
      (1 < left.length → ∃ i ∈ left, exec (.csplitComplete pid qc) s =
        .next ((splitPut (s.draw left.length).2 x (ls.getD i [])).updCmd pid qc x.k.id (fun k =>
          { k with marks := (i, 0) :: k.marks }))))

/-- R21, R334, R343, R348 to R364, R375, R379: the attention queue, appends, queries and promotions, the timers of a parked pass, page
moves, the notify combiner, fills of mapped blocks and replays. An append or a query reads its rows from the line store when it
starts. The combiner raises one event in a cycle, once the oldest notify of each queue has completed; the event counts these
notifies, takes the faults of their batches and the oldest armed future, which its resolution step then resolves. Rests on the
model's readings in log entries 3, 14, 20 and 35. -/
def Obligations.AttentionEvents : Prop :=
  (∀ (c : CoreSt) (cycle : Nat) (en : Eng) (old : List (Eng × Nat × Bool)) (hit : Eng × Nat → Bool),
    old = [Eng.mat, Eng.copy].filterMap (fun e => c.nots.find? (fun n => n.1 == e)) →
    (∀ f, hit f = true ↔ ∃ n ∈ old, n.1 = f.1 ∧ f.2 ≤ n.2.1) →
    (old = [] ∨ (∃ n ∈ old, n.2.2 = false) ∨ c.evAt = some cycle → c.raiseEvent cycle en = c) ∧
    (old ≠ [] → (∀ n ∈ old, n.2.2 = true) → c.evAt ≠ some cycle → ∃ evs, c.raiseEvent cycle en =
        { c with nots := c.nots.filter (fun n => !old.contains n), flts := c.flts.filter (fun f => !hit f),
                 armed := c.armed.tail, evAt := some cycle, events := c.events ++ evs } ∧
      (c.armed = [] → evs = []) ∧ (∀ a r, c.armed = a :: r → evs = [{ eng := en, flt := c.flts.any hit, armed := a }]))) ∧
  ∀ (s : State) (pid qc n : Nat),
    (∀ x, s.headCtx pid qc .att = some x → x.k.wait = none → x.k.ord.kind = .none → attHeld s x = false → ∃ s1,
      s1 = s.updCmd pid qc x.k.id (fun k => { k with st := .departed, ord := noOrd, begun := s.cycle }) ∧
      ((∀ h a g, x.k.ins ≠ .prom h a g) → exec (.attentionCommandDepart pid qc) s = .next s1) ∧
      (∀ h a g, x.k.ins = .prom h a g → ∃ bs, bs = promPages s1 x (lagSig (wordAt x.k.ops 0)) ∧
        exec (.attentionCommandDepart pid qc) s = .next ((bs.foldl (fun s b => s.wantPage x.asid b pid)
          (s1.updCmd pid qc x.k.id (fun k => { k with blks := some bs }))).nextMove pid))) ∧
    (∀ x, s.cmdCtx pid qc n = some x →
      (x.k.st = .departed → attMay s x = true → x.c.footPresent (attFoot x) = true → ∃ c k,
        (s.attBegin pid qc n).core? pid qc = some c ∧ k ∈ c.cmds ∧ k.id = n ∧ k.st = .started ∧ k.begun = s.cycle ∧
        k.cap.map (fun r => r.bytes) =
          (attReads x).map (fun r => s.readKeys (.core x.lc) .c (lsKeys x.lc r.1 r.2))) ∧
      (isKvapp x.k.ins = true → x.k.st = .started →
        (appendAway s x = [] → exec (.kvappAppendComplete pid qc n) s = .next (((appendRows x.k).foldl (fun s e =>
          s.updSig pid e.1.1 (fun g => g.writeSlot e.1.2 0 e.2.bytes e.2.bad)) s).endCmd pid qc x.k)) ∧
        (appendAway s x ≠ [] → exec (.kvappAppendComplete pid qc n) s =
          .next (((appendAway s x).foldl (fun s b => s.wantPage x.asid b pid) s).nextMove pid))) ∧
      (isAttq x.k.ins = true → x.k.st = .started →
        (x.k.blks = none → x.k.begun + 2 ^ (fld (wordAt x.k.ops 0) 51 48 + 6) ≤ s.cycle →
          exec (.attqPageWaitExpiry pid qc n) s = .next (s.updCmd pid qc n (fun k => { k with blks := some (attqAway s x) }))) ∧
        (∀ gk gv, x.c.footPresent (attFoot x) = true → chRoom x.c x.k.pushTo = true →
          (x.k.blks.isSome = true ∨ attqAway s x = []) → x.p.sig? (fld (wordAt x.k.ops 0) 63 55) = some gk →
          x.p.sig? (fld (wordAt x.k.ops 1) 63 55) = some gv → ∃ t c l e, exec (.attqComplete pid qc n) s = .next t ∧
            t.core? pid qc = some c ∧ mget [] c.ch (chIdx x.k.pushTo) = l ++ [e] ∧ e.val = some (BitVec.ofNat 64
              ((attResults s x gk gv (fld (wordAt x.k.ops 0) 63 55) (fld (wordAt x.k.ops 1) 63 55)).1 +
                x.k.nums.length * 256)) ∧ (∀ k ∈ c.cmds, k.id ≠ x.k.id))) ∧
      (∀ h a g, x.k.ins = .prom h a g → x.k.st = .departed →
        (∀ b ∈ x.k.blks.getD [], ∀ k, s.page? x.asid b = some k → k.ps = .hbm) →
        exec (.promComplete pid qc n) s = .next (s.endCmd pid qc x.k))) ∧
    (∀ p k, s.pass? pid = some p → p.park = some k → p.st = .parked →
      (k.t1on = true → k.since + k.t1 * Config.cyclesPerUs ≤ s.cycle →
        exec (.parkT1Expiry pid) s = .next (s.demote pid false)) ∧
      (k.t2on = true → k.since + k.t2 * Config.cyclesPerUs ≤ s.cycle →
        exec (.parkT2Expiry pid) s = .next (s.demote pid true))) ∧
    (∀ k tgt f (s0 s1 : State), s.pages.find? (fun k => k.dest.isSome && k.mover == pid) = some k → k.dest = some (tgt, f) →
      s0 = (s.moveFrame k.frame f k.size).updPage k.asid k.blk (fun k => { k with ps := tgt, frame := f, dest := none }) →
      s1 = (if s.badRegions.contains (f / 2 ^ 52) then s0.mapKv k.asid (fun a g => g.spoil (fun n => kvBlk a g.desc n == k.blk))
        else s0) →
      exec (.pageMoveComplete pid) s =
        .next (((if k.ps = .down then s1.drainPage k.asid k.blk false else s1).nextMove pid).kvSettle)) ∧
    (∀ x, s.unitCtx pid qc = some x →
      (x.c.events = [] ∨ s.eventReady x = false → exec (.notifyCompletionEvent pid qc) s = .next s) ∧
      (∀ e r q s1 s2, x.c.events = e :: r → s.eventReady x = true → s.accessAs x.ag s.seq x.die x.asid .wr e.armed.va 8 = (q, s1) →
        s2 = s1.updCore pid qc (fun c => { c with events := c.events.tail }) →
        (∀ f, q = .error f → (f.cause ≠ 0x0A ∨ x.p.ctx.flb = 0) → exec (.notifyCompletionEvent pid qc) s =
          .next (s2.logEngine pid qc (engNo e.eng) f.cause f.info)) ∧
        (∀ f, q = .error f → f.cause = 0x0A → x.p.ctx.flb ≠ 0 → ∃ t p, exec (.notifyCompletionEvent pid qc) s = .next t ∧
          t.faults = s1.faults ++ [p] ∧ p.pid = pid ∧ p.qc = qc ∧ p.va = f.va ∧ p.who = .event e.eng) ∧
        (∀ ps s3 lvl, q = .ok ps → lvl = homeScope ((ps.flatMap (fun p => p.keys)).headD 0) → s3 = s2.releaseNow x.ag futSet lvl →
          ∀ b s4, s3.resolve pid qc (engNo e.eng) x.asid x.ag ((ps.flatMap (fun p => p.keys)).headD 0) lvl
            (if e.flt then 3 else 1) (if e.flt then 1 else e.armed.payload) = (b, s4) →
          (b = false → exec (.notifyCompletionEvent pid qc) s = .next s4) ∧
          (b = true → exec (.notifyCompletionEvent pid qc) s =
            .next (s4.logEngine pid qc (engNo e.eng) 0x0F (vaWord e.armed.va)))))) ∧
    (∀ slot blk x m, (waitersOfBlock s pid qc slot blk).head? = some x → x.c.slot? slot = some m →
      exec (.mapBlockFill pid qc slot blk) s = .next (fillEnd (fillBlock s x slot blk m) pid qc x.k.id)) ∧
    (∀ f c, s.faults.find? (fun f => f.id == n && f.asked.isSome) = some f → s.core? f.pid f.qc = some c →
      (∀ q s1, s.translate (dieOf c.lcore) f.asid f.va (infoAcc f.info) = (q, s1) → (∀ r, q ≠ .trans r) →
        exec (.faultReplayWalk n) s = .next (s1.endFault f)) ∧
      (∀ r s1, s.translate (dieOf c.lcore) f.asid f.va (infoAcc f.info) = (.trans r, s1) →
        exec (.faultReplayWalk n) s = .next (s1.faultAgain f r)))

/-! ### Events of the launch engine -/

/-- R11, R13, R34, R46, R172, R173, R180, R338, R388: the conditions under which a tick completes; a tick whose conditions hold
completes 108 cycles later on a quire of several dies, and on one die at once or, with several cores, 2 cycles later: these two
figures are the model's reading in log entry 56. At completion the interval advances and every due signal opens a fresh slot. A
passed deadline with a command left stalls the quire; the watchdog leaves its trap with every stream that has not exited, and its
count restarts as a handler is entered; the one spare core of a die takes the place of a core; consumed poison ends the run.
Rests on the model's readings in log entries 26, 36 and 56. -/
def Obligations.QuireEvents : Prop :=
  ∀ (s : State) (pid : Nat) (p : Pass) (r : Run), s.pass? pid = some p → s.run? p.rid = some r →
    (p.tickMet = true ↔ (∃ c ∈ p.cores, c.ticked.isSome = true) ∧
      (∀ c ∈ p.cores, c.ticked.isSome = true ∨ c.exe.exited = true) ∧ ∀ i g, (i, some g) ∈ p.sigs → g.live = true →
        (g.due = true → g.rest = false ∧ ∃ q, g.slot? g.n.toNat = some q ∧ q.st = .ready) ∧
        (sigDue g.desc g.g (p.now.toNat + 1) = true → g.rest = false ∧ (0 ≤ g.n + 1 - g.desc.depth → ∀ q,
          g.slot? (g.n + 1 - g.desc.depth).toNat = some q → q.rp = 0 ∧ q.freed = false ∧ q.st ≠ .draining))) ∧
    (∀ i, i ∈ p.dueList ↔ ∃ g, (i, some g) ∈ p.sigs ∧ g.live = true ∧ sigDue g.desc g.g (p.now.toNat + 1) = true) ∧
    (∀ lat, p.st = .resident → s.stalled p = false → p.ended = false → p.tick = none →
      (p.qd ≠ 1 ∧ p.tickMet = true ∧ lat = 108) ∨ (p.qd = 1 ∧ 1 < p.cores.length ∧ (∃ c ∈ p.cores, c.ticked.isSome = true) ∧
        (∀ c ∈ p.cores, c.ticked.isSome = true ∨ c.exe.exited = true) ∧ lat = 2) →
      s.noteTicks.pass? pid = some { p with tick := some { at_ := s.cycle + lat, due := p.dueList } } ∧
      ∃ t, exec (.tickComplete pid) s = .next t ∧ { t with passes := s.passes } = s ∧
        t.pass? pid = some { p with tick := some { at_ := s.cycle + lat, due := p.dueList } }) ∧
    (∀ due, p.st = .resident → s.stalled p = false → p.ended = false →
      (p.tick = none ∧ p.tickMet = true ∧ p.qd = 1 ∧ p.cores.length ≤ 1 ∧ due = p.dueList) ∨
        (∃ w, p.tick = some w ∧ w.at_ ≤ s.cycle ∧ (p.qd ≠ 1 ∧ due = w.due ∨ p.qd = 1 ∧ p.tickMet = true ∧ due = p.dueList)) →
      ∃ t p', exec (.tickComplete pid) s = .next t ∧
        t.pass? pid = some p' ∧ p'.now = p.now + 1 ∧ p'.wd = 0 ∧ p'.sched = 0 ∧ p'.tick = none ∧ t.mem = s.mem ∧
        t.bufs = s.bufs ∧ t.stores = s.stores ∧
        (∀ i g, mget none p.sigs i = some g → g.live = true →
          (i ∉ due → mget none p'.sigs i = some { g with due := false }) ∧
          (i ∈ due → ∃ g', mget none p'.sigs i = some g' ∧ g'.desc = g.desc ∧
            g'.n = g.n + 1 ∧ g'.o = Nat.max g.o (g.n + 2 - g.desc.depth).toNat ∧ g'.due = true ∧
            g'.g = (if g.desc.gm = 2 then false else g.g) ∧ (∃ q ∈ g'.slots, q.num = (g.n + 1).toNat ∧ q.st = .empty) ∧
            ∀ q ∈ g'.slots, g'.o ≤ q.num ∨ q.num = (g.n + 1).toNat))) ∧
    (p.st = .resident → (∃ d ∈ p.deadlines, p.overdue s.cycle d = true) →
      exec (.slackDeadlineExpiry pid) s = .next (s.updPass pid (fun p => { p with late := true }))) ∧
    (p.st = .resident → r.rcd.budget ≤ p.wd → (∀ c ∈ p.cores, c.exe.watched = false ∧ c.acc.watched = false) →
      (p.allExited = false → ∃ t p', exec (.tickWatchdogExpiry pid) s = .next t ∧ t.pass? pid = some p' ∧
        { t with passes := s.passes } = s ∧ p'.wd = p.wd ∧
        ∀ (i : Nat) (c : CoreSt), p.cores[i]? = some c → p'.cores[i]? = some { c with
          exe := if c.exe.exited then c.exe else { c.exe with nextTrap := c.exe.nextTrap ++ [.watchdog r.rcd.budget] },
          acc := if c.acc.exited then c.acc else { c.acc with nextTrap := c.acc.nextTrap ++ [.watchdog r.rcd.budget] } }) ∧
      (p.allExited = true → ∃ lc, exec (.tickWatchdogExpiry pid) s =
        .next (s.terminate p.rid 0x1F lc 0 (BitVec.ofNat 64 r.rcd.budget)))) ∧
    (∀ (h : Hdr) (x : Ctx) (b : Nat), s.ctx? h = some x → x.w.pid = pid → x.t.tvec ≠ 0 → isWordAddr x.t.tvec = true →
      ∃ p' c', (s.takeDog x b).pass? pid = some p' ∧ p'.wd = 0 ∧ p'.cores[x.w.qc]? = some c' ∧
        (c'.stream x.w.st).epc = x.t.pc ∧ (c'.stream x.w.st).tcause = 0x1F ∧
        (c'.stream x.w.st).tinfo = BitVec.ofNat 64 b ∧ (c'.stream x.w.st).pc = x.t.tvec) ∧
    (∀ (lc : Nat) (held : Option (Pass × Nat)) (s1 : State), lc < 64 → s.holder lc = held →
      s1 = (match held with
        | some (q, _) => s.terminate q.rid 0x20 lc 0 0
        | none => s) →
      (s.outCores.contains lc = false →
        (s.spared.contains (lc / 8) = false →
          (∀ q, held = some q → exec (.spareCoreExchange lc true) s =
            .next { s with spared := s.spared ++ [lc / 8], sparing := s.sparing ++ [lc] }) ∧
          (held = none → exec (.spareCoreExchange lc true) s = .next { s with spared := s.spared ++ [lc / 8] })) ∧
        (s.spared.contains (lc / 8) = true → exec (.spareCoreExchange lc true) s = .next s) ∧
        (s.sparing.contains lc = true → exec (.spareCoreExchange lc false) s = .next s1) ∧
        (s.sparing.contains lc = false → exec (.spareCoreExchange lc false) s =
          .next { s1 with outCores := s1.outCores ++ [lc] })) ∧
      (s.outCores.contains lc = true → ∀ b,
        (s.spared.contains (lc / 8) = false → exec (.spareCoreExchange lc b) s =
          .next { s with spared := s.spared ++ [lc / 8], outCores := s.outCores.erase lc }) ∧
        (s.spared.contains (lc / 8) = true → exec (.spareCoreExchange lc b) s = .next s))) ∧
    (∀ lc en, p.mchk = some (lc, en) → exec (.machineCheck pid) s = .next (s.terminate p.rid 0x20 lc en 0))

/-- R29, R32, R38, R48 to R50, R138, R322 to R325, R336, R339: what a new pass holds: its indices in a0 to a3, every stream at the
program's first word, everything else empty or zero, each core at its place in the quire; a saved pass that is restored has its
registers, program counters, channels, semaphores, spill banks, loop stacks, tiles, queues, modes, signals and now as they were at the
save, on the cores of the new quire. A migrating pass goes to its target, or to its queue where the target has left service;
else the queues choose. Ageing raises a waiting run; requests are made and withdrawn; a pass is saved at a boundary once it is
quiet, and finishes once its streams have exited; a deferred run is accepted when there is room. Rests on the model's readings in
log entries 25, 27 and 54. -/
def Obligations.LaunchEvents : Prop :=
  (∀ (pid : Nat) (r : Run) (pos : Pos) (ctx : AsidCtx) (p : Pass), p = newPass pid r pos ctx →
    p.pid = pid ∧ p.rid = r.rid ∧ p.num = r.made ∧ p.ctx = ctx ∧ p.pos = pos ∧ p.st = .resident ∧ p.now = 0 ∧ p.sched = 0 ∧
    p.wd = 0 ∧ p.lease = 0 ∧ p.writes = [] ∧ p.cores.length = r.rcd.qc * pos.dies.length ∧
    (∀ i d due, r.rcd.sigs[i]? = some d → due = sigDue d d.g0 0 → ∃ g, mget none p.sigs i = some g ∧ g.desc = d ∧ g.live = true ∧
      g.n = (if due then 0 else -1) ∧ g.o = 0 ∧ g.g = d.g0 ∧ g.due = due ∧ g.slots = (if due then [freshSlot d 0] else []) ∧
      g.rest = false) ∧
    (∀ l, l = spatialIdx (r.rcd.levels.filter (fun l => l.kind != 1)) r.made → r.made < r.rcd.total →
      l.length = (r.rcd.levels.filter (fun l => l.kind != 1)).length ∧
      (∀ x ∈ (r.rcd.levels.filter (fun l => l.kind != 1)).zip l, x.2 < x.1.count) ∧
      ((r.rcd.levels.filter (fun l => l.kind != 1)).zip l).foldl (fun n x => n * x.1.count + x.2) 0 = r.made ∧
      ∀ c ∈ p.cores, (∀ j, j < 4 → mget 0 c.acc.regs j = BitVec.ofNat 64 (l.getD j 0)) ∧
        ∀ j, 4 ≤ j → mget 0 c.acc.regs j = 0) ∧
    ∀ i c, p.cores[i]? = some c → c.lcore = pos.dies.getD (i / r.rcd.qc) 0 * 8 + pos.core + i % r.rcd.qc ∧
      c.exe.pc = r.rcd.prog ∧ c.acc.pc = r.rcd.prog ∧ c.exe.regs = [] ∧ c.exe.exited = false ∧ c.acc.exited = false ∧
      c.exe.pend = [] ∧ c.acc.pend = [] ∧ c.exe.spill = [] ∧ c.acc.spill = [] ∧ c.exe.ldepth = 0 ∧ c.acc.ldepth = 0 ∧
      c.exe.tvec = 0 ∧ c.acc.tvec = 0 ∧ c.exe.srdseed = 0 ∧ c.acc.srdseed = 0 ∧ c.v = [] ∧ c.k = [] ∧ c.ch = [] ∧ c.sems = [] ∧
      c.slstall = 0 ∧ c.replays = 0 ∧ c.semsat = 0 ∧ c.cmds = [] ∧ c.tiles = [] ∧ c.fq = [] ∧ c.rm = .rne ∧ c.sbase = 0 ∧
      c.mgap = 0 ∧ c.cbase = 0 ∧ c.cgap = 0 ∧ c.slots = [] ∧ c.armed = []) ∧
  (∀ (p q : Pass) (ls : List (Nat × Host.Cell)) (bad : List (Nat × Nat)) (pos : Pos) (lease : Word) (ctx : AsidCtx),
    q = (p.saved .saved none ls bad).restored pos lease ctx → p.cores.length = p.qc * pos.dies.length → p.held = [] →
    q.st = .resident ∧ q.pos = pos ∧ q.rid = p.rid ∧ q.num = p.num ∧ q.now = p.now ∧ q.sched = 0 ∧ q.wd = 0 ∧ q.lease = lease ∧
    q.cores.length = p.cores.length ∧
    (∀ (i : Nat) (c : CoreSt), p.cores[i]? = some c → ∃ c', q.cores[i]? = some c' ∧
      c'.lcore = pos.dies.getD (i / p.qc) 0 * 8 + pos.core + i % p.qc ∧
      { c' with lcore := c.lcore, exe := c.exe, acc := c.acc, slots := c.slots, acqs := c.acqs, satNow := c.satNow,
                waitNow := c.waitNow } = c ∧
      (∀ st, { c'.stream st with line := (c.stream st).line, semWait := (c.stream st).semWait,
                                 limFrom := (c.stream st).limFrom } = c.stream st) ∧
      c'.slots.map (fun m => (m.1, m.2.la, m.2.nb, m.2.base)) = c.slots.map (fun m => (m.1, m.2.la, m.2.nb, m.2.base))) ∧
    (∀ i, (mget none p.sigs i = none → mget none q.sigs i = none) ∧ ∀ g, mget none p.sigs i = some g → ∃ g',
      mget none q.sigs i = some g' ∧ { g' with slots := g.slots } = g ∧
      g'.slots.map (fun (t : Slot) => (t.num, t.st, t.segs, t.data, t.bad)) = g.slots.map (fun t => (t.num, t.st, t.segs, t.data, t.bad)))) ∧
  ∀ (s : State),
    (∀ p d, s.migrating = some (p, d) →
      ((∀ lc ∈ posCores d p.qc, s.dies.getLsbD (lc / 8) = true ∧ lc ∉ s.outCores) →
        exec .passPlace s = .next (s.restore p d)) ∧
      ((∃ lc ∈ posCores d p.qc, s.dies.getLsbD (lc / 8) = false ∨ lc ∈ s.outCores) → exec .passPlace s =
        .next ((s.updPass p.pid (fun q => { q with dest := none })).railFree (posCores d p.qc)))) ∧
    (∀ p d, p ∈ s.passes → p.dest = some d → p.st = .saved → (∀ lc ∈ posCores d p.qc, s.dies.getLsbD (lc / 8) = true ∧
      (lc ∈ s.outCores → lc / 8 ∉ s.spared)) → (∃ lc ∈ posCores d p.qc, lc ∈ s.outCores) → ∀ q, s.migrating ≠ some (p, q)) ∧
    (s.migrating = none → ∀ r o d, s.nextPlace = some (r, o, d) →
      (∀ p, o = some p → exec .passPlace s = .next (s.restore p d)) ∧
      (o = none → exec .passPlace s = .next (s.create r d))) ∧
    (s.migrating = none → s.nextPlace = none → exec .passPlace s = .next s) ∧
    (∀ p pos, s.pass? p.pid = some p → ∃ lease ctx,
      (s.restore p pos).pass? p.pid = some (s.throttled (p.restored pos lease ctx))) ∧
    (∀ rid r, s.run? rid = some r → s.ageDue r = true →
      (r.eff < 7 → exec (.ageingPeriodExpiry rid) s =
        .next (s.updRun rid (fun r => { r with eff := r.eff + 1, aged := s.cycle }))) ∧
      (7 ≤ r.eff → (∀ q ∈ s.runs, q.rid ≠ r.rid → 7 ≤ q.eff → s.ageDue q = true → q.stamp < r.stamp →
          s.targetOf q = none) → ∀ d, s.targetOf r = some d → exec (.ageingPeriodExpiry rid) s =
        .next (s.updRun rid (fun q => { q with target := some d, aged := s.cycle })))) ∧
    (exec .preemptionRequest s = .next { s with passes := s.passes.map (fun p =>
      if p.st = .resident then { p with preempt := s.wanted.contains p.pid } else p) }) ∧
    (∀ pid m, ∃ t, exec (.phoavoMigrationRequest pid m) s = .next t ∧ { t with passes := s.passes } = s ∧
      ∀ p, s.pass? pid = some p → p.st = .resident →
        t.pass? pid = some { p with phoavo := if m = 0 then none else some m }) ∧
    (∀ pid p r, s.pass? pid = some p → s.run? p.rid = some r →
      (p.st = .resident → p.boundary.isSome = true → p.quiet = true → (∀ c ∈ p.cores, c.sendsEmpty = true) →
        (∀ f ∈ s.faults, f.pid ≠ pid) → exec (.passSave pid) s = .next (s.doSave p r)) ∧
      (∀ s1, p.st = .resident → p.allExited = true → p.quiet = true → (∀ f ∈ s.faults, f.pid ≠ pid) →
        s.wbMaps p r = (false, s1) → ∃ t, exec (.passFinish pid) s = .next t ∧
          ∃ s2, s2 = s1.leave pid ∧
            t = (({ s2 with poisonTiles := s2.poisonTiles.filter (fun t => t.1 != pid) } : State).updPass pid
              Pass.finished).endRun p.rid)) ∧
    (∀ rid r, s.runs.find? (fun r => r.st == .deferred) = some r → r.rid = rid → s.runCount < 65536 →
      ∃ s1, s1 = { s with runs := s.runs.filter (fun q => q.rid != rid) } ∧
        (r.from_.2.1 = 8 → r.from_.2.2 = 0 → exec (.runDeferredAccept rid) s = .next (s1.submit r.rcd.asid r.addr)) ∧
        (r.from_.2.1 = 8 → r.from_.2.2 ≠ 0 → exec (.runDeferredAccept rid) s =
          .next ((s1.submit r.rcd.asid r.addr).setStat s.mg.substat)) ∧
        (r.from_.2.1 ≠ 8 → exec (.runDeferredAccept rid) s = .next (s1.startNow r.from_ r.rcd.asid r.addr)))

/-! ### Events of power, the fabric, the window and service -/

/-- R389 to R404: a request for a lease is answered with the whole where the rail has room, with the headroom where it has
some, and otherwise not at all, less what requests of the same cycle have taken, and shown as a step of the throttle order on
its class leaves it; its energy may run out; units are gated and woken; a message goes through its binding to the channel of its
target, is repeated and given up; the grid's limit is taken with its sequence number and answered by the message's own limit; at
a loss of power the control state of every resident pass that fits, then its kept signals, are written to flash; a reset of
another module ends what it owed: loads land zero, entries vanish, the stream meets a trap that counts them, and replies that are
kept for other modules stay. Rests on the model's readings in log entries 33, 36, 43, 46, 50 and 54. -/
def Obligations.PowerAndFabricEvents : Prop :=
  ∀ (s : State),
    (∀ pid qc n p c req tgt, s.pass? pid = some p → p.cores[qc]? = some c → s.leaseReq pid qc n = some (req, tgt) →
      ∀ (rail : BitVec 2) (used : List (Nat × Nat × Nat × Nat)) (hi hj bi bj : Nat) (full w shown : Word) (s1 : State),
      p.st = .resident → rail = mget 0 s.mg.rail c.lcore → (∀ a ∈ s.capo, a.1 = rail.toNat → a.2.1 ≤ c.lcore) →
      used = s.capo.filter (fun a => a.1 == rail.toNat) →
      hi = (Config.headroomI rail.toNat s.cycle).toNat - (used.map (fun a => a.2.2.1)).sum →
      hj = (Config.headroomJ rail.toNat s.cycle).toNat - (used.map (fun a => a.2.2.2)).sum →
      full = (match p.granted with
        | some g => leaseWord (fld p.lease 63 48) (BitVec.ofNat 2 (fld p.lease 43 42)) (fld g 41 40) (fld g 31 16) (fld g 15 0)
        | none => p.lease) →
      (if fld req 63 48 = 0 then w = noLease rail ∧ bi = 0 ∧ bj = 0
       else if fld req 31 16 ≤ hi ∧ fld req 15 0 ≤ hj then
         w = leaseWord (fld req 63 48) rail 1 (fld req 31 16) (fld req 15 0) ∧ bi = fld req 31 16 ∧ bj = fld req 15 0
       else if 0 < hi ∧ 0 < hj then w = leaseWord (fld req 63 48) rail 2 hi hj ∧ bi = hi % 2 ^ 16 ∧ bj = hj
       else w = full ∧ bi = 0 ∧ bj = 0) →
      shown = (if 13 ≤ s.mg.level + 4 * s.powcOf p ∧ fld w 41 40 ≠ 0 then
        leaseWord (fld w 63 48) (BitVec.ofNat 2 (fld w 43 42)) 2 (Nat.min (fld w 31 16) (Config.pacedI s.cycle pid).toNat)
          (Nat.min (fld w 15 0) (Config.pacedJ s.cycle pid).toNat) else w) →
      s1 = { s with capo := s.capo ++ [(rail.toNat, c.lcore, bi, bj)] } →
      exec (.capoLeaseAnswer pid qc n) s = .next ((s1.setLease pid w).giveLease pid qc n tgt shown)) ∧
    (∀ pid, exec (.leaseEnergyExhausted pid) s = .next (s.updPass pid (fun p =>
      if p.st == .resident && fld p.lease 41 40 != 0 then { p with exhausted := true } else p))) ∧
    (∀ u, (s.mayGate u = true → exec (.unitPowerGate u) s = .next { s with gated := s.gated ++ [u] }) ∧
      (s.mayGate u = false → exec (.unitPowerGate u) s = .next s) ∧
      exec (.unitPowerWake u) s = .next { s with gated := s.gated.filter (fun v => v != u) }) ∧
    (∀ n m, s.msgs.find? (fun m => m.id == n) = some m →
      (m.since.isSome = true → m.last + Config.cyclesPerUs ≤ s.cycle →
        exec (.refusedRequestRetry n) s = .next (s.tryMsg m)) ∧
      (s.findTo m ≠ .absent → exec (.targetAbsentExpiry n) s = .next s) ∧
      (∀ c, m.since = some c → c + 1000 * Config.cyclesPerUs ≤ s.cycle → s.findTo m = .absent →
        (m.from_ = none → exec (.targetAbsentExpiry n) s = .next (s.dropMsg m)) ∧
        (∀ pid qc ch, m.from_ = some (pid, qc, ch) → exec (.targetAbsentExpiry n) s = .next ((s.dropMsg m).logEngine pid qc 0
          0x21 (BitVec.ofNat 64 (Config.moduleId.toNat * 2 ^ 32 + m.lcore * 2 ^ 24)))))) ∧
    (∀ pid qc ch p c e v (b : Word) (s1 : State), s.pass? pid = some p → p.cores[qc]? = some c →
      (mget [] c.ch (16 + ch)).head? = some e → e.val = some v → ch < 32 → p.st = .resident →
      b = mget 0 s.binds ((s.asidOf p).toNat * 32 + ch) →
      s1 = s.updCore pid qc (fun c => { c with ch := mset [] c.ch (16 + ch) (mget [] c.ch (16 + ch)).tail }) →
      (b.getLsbD 0 = false → exec (.fabricMessageDelivery (.send pid qc ch)) s = .next s) ∧
      (b.getLsbD 0 = true → fld b 63 43 = Config.moduleId.toNat → exec (.fabricMessageDelivery (.send pid qc ch)) s =
        .next (s1.postMsg (s.asidOf p) (fld b 42 37) (fld b 36 32) v (some (pid, qc, ch)))) ∧
      (b.getLsbD 0 = true → fld b 63 43 ≠ Config.moduleId.toNat → exec (.fabricMessageDelivery (.send pid qc ch)) s =
        .next { s1 with sent := s1.sent ++ [{ module := BitVec.ofNat 21 (fld b 63 43), lcore := fld b 42 37,
                                              rch := fld b 36 32, asid := s.asidOf p, val := v }] })) ∧
    (∀ asid lc rch v, lc < 64 → rch < 20 →
      exec (.fabricMessageDelivery (.receive asid lc rch v)) s = .next (s.postMsg asid lc rch v none) ∧
      ∀ p i c k, k = (if rch < 4 then 12 + rch else 44 + rch) → s.msgs = [] → mget (64, 0) s.remap lc = (64, 0) →
        s.holder lc = some (p, i) → s.asidOf p = asid → p.cores[i]? = some c →
        (∀ h ∈ p.held, ¬(h.1 = i ∧ h.2.1 = k)) → s.core? p.pid i = some c →
        ((mget [] c.ch k).length < 16 → ∃ t c', exec (.fabricMessageDelivery (.receive asid lc rch v)) s = .next t ∧
          t.msgs = [] ∧ t.core? p.pid i = some c' ∧
          mget [] c'.ch k = mget [] c.ch k ++ [{ id := 0, ty := .data, val := some v }] ∧
          (∀ j, j ≠ k → mget [] c'.ch j = mget [] c.ch j) ∧ { c' with ch := c.ch } = c) ∧
        (16 ≤ (mget [] c.ch k).length → exec (.fabricMessageDelivery (.receive asid lc rch v)) s =
          .next { s with msgs := [{ id := s.nextId, asid := asid, lcore := lc, rch := rch, val := v, since := none,
                                    last := s.cycle, from_ := none }], nextId := s.nextId + 1 })) ∧
    (∀ b s1, s1 = { s with mg := { s.mg with step := b } } → exec (.raloreInputChange b) s =
      .next (if s1.powerLimit = s.powerLimit then s1 else
        { s1 with mg := { s1.mg with past := s.mg.past ++ [(s.cycle, Nat.max 300 s.powerLimit)] } })) ∧
    (∀ (sq : BitVec 32) (lim rsv : BitVec 16) (ans : State → BitVec 16 → State),
      (∀ u st, ans u st = u.report (.ralore { sq := sq, status := st, draw := BitVec.ofNat 16 u.drawNow })) →
      (rsv ≠ 0 → exec (.raloreMessage sq lim rsv) s = .next (ans s 3)) ∧
      (rsv = 0 → s.mg.ralOk = true → ¬(1 ≤ (sq - s.mg.ralSeq).toNat ∧ (sq - s.mg.ralSeq).toNat < 2 ^ 31) →
        exec (.raloreMessage sq lim rsv) s = .next (ans s 2)) ∧
      (∀ s1 l, rsv = 0 → (s.mg.ralOk = false ∨ 1 ≤ (sq - s.mg.ralSeq).toNat ∧ (sq - s.mg.ralSeq).toNat < 2 ^ 31) →
        l = (if lim = 0 then 1700 else Nat.max 200 lim.toNat) →
        s1 = { s with mg := { s.mg with gridLim := lim, ralSeq := sq, ralOk := true, ralWait := some (sq, l, false) } } →
        exec (.raloreMessage sq lim rsv) s = .next (if s1.powerLimit = s.powerLimit then s1 else
          { s1 with mg := { s1.mg with past := s.mg.past ++ [(s.cycle, Nat.max 300 s.powerLimit)] } }))) ∧
    (∀ (sq : BitVec 32) (l : Nat) (told high : Bool) (ans : State → BitVec 16 → State), s.mg.ralWait = some (sq, l, told) →
      (high = true ↔ l < s.drawNow ∧ ∃ p ∈ s.passes, p.st = .resident) →
      (∀ u st, ans u st = u.report (.ralore { sq := sq, status := st, draw := BitVec.ofNat 16 s.drawNow })) →
      ((l < 300 ∧ high = false ∨ 300 ≤ l ∧ s.drawBound ≤ l) → exec .raloreLimitMet s =
        .next (ans { s with mg := { s.mg with ralWait := none } } 0)) ∧
      (l < 300 → high = true → s.mg.level = 18 → told = false → exec .raloreLimitMet s =
        .next (ans { s with mg := { s.mg with ralWait := some (sq, l, true) } } 1)) ∧
      (l < 300 → high = true → (s.mg.level ≠ 18 ∨ told = true) → exec .raloreLimitMet s = .next s) ∧
      (300 ≤ l → l < s.drawBound → exec .raloreLimitMet s = .next s)) ∧
    (s.powered = true → ∃ t s1 all, exec .powerFail s = .next t ∧ s1 = s.stopAll ∧ t.powered = false ∧
      t.mg.pfdir = Config.flashDir ∧ (∀ p ∈ t.passes, p.st = .resident → p.writes = [] ∧ ∀ c ∈ p.cores, c.cmds = []) ∧
      all = s.imageOrder.flatMap (s1.imagesOf false) ++ s.imageOrder.flatMap (s1.imagesOf true) ∧
      t.images = all.take t.images.length ∧ (t.images.map Image.size).sum ≤ Config.flashBudget ∧
      (∀ i, all[t.images.length]? = some i → Config.flashBudget < (t.images.map Image.size).sum + i.size) ∧
      t.reports = s1.reports ++ [.imageDir (imageDir all t.images.length)] ∧
      (∀ r i, i ∈ s1.imagesOf false r ↔ ∃ p ∈ s1.passes, p.st = .resident ∧ p.rid = r.rid ∧
        i = .control r.addr p.num p.now (p.cores.map (fun c =>
          { exe := c.exe.regs, acc := c.acc.regs, v := c.v, k := c.k, ch := c.ch, sems := c.sems,
            exeLoops := (c.exe.loops, c.exe.ldepth), accLoops := (c.acc.loops, c.acc.ldepth) }))) ∧
      ∀ r i, i ∈ s1.imagesOf true r ↔ ∃ p ∈ s1.passes, p.st = .resident ∧ p.rid = r.rid ∧
        ∃ n g, (n, some g) ∈ p.sigs ∧ g.desc.keep = true ∧ i = .signal r.addr p.num (s1.sigImage p n g)) ∧
    (s.powered = false → exec .powerFail s = .next s) ∧
    (∀ m, (s.passes.filter (fun p => p.st == .resident)) = [] → exec (.moduleReset m) s = .next s) ∧
    (∀ m, ∃ t, exec (.moduleReset m) s = .next t ∧ t.dedupe = s.dedupe ∧ t.waiters = s.waiters ∧ t.msgs = s.msgs ∧
      t.mem = s.mem ∧ t.stores = s.stores) ∧
    (∀ m p, s.passes.filter (fun p => p.st == .resident) = [p] → exec (.moduleReset m) s =
      .next ((List.range p.cores.length).foldl (fun s i => s.lostCore p.pid i m) s)) ∧
    (∀ (m : BitVec 21) (pid qc : Nat) (c : CoreSt) (ag : Agent), s.core? pid qc = some c → ag = .core c.lcore →
      (∀ cl e, e ∈ bufOf s.bufs ag cl → (e.act = .deq ∨ ∃ b, e.act = .enq b) → s.goesTo ag m e =
        (s.queueHome ag (BitVec.ofNat 16 e.hist) (s.scopeLvl ag e.scope) (BitVec.ofNat 64 e.key) == some m.toNat)) ∧
      ((∀ cl e, e ∈ bufOf s.bufs ag cl → e.act ≠ .deq ∧ ∀ b, e.act ≠ .enq b) →
        (∀ e ∈ bufOf s.bufs ag .c, ∀ k ∈ c.cmds, e.onMod m = true → e.key ≠ k.id) →
        ∀ (es : List Entry) (loads waits : List Pend) (n : Nat) (s1 s2 : State),
        es = (bufOf s.bufs ag .s).filter (fun e => e.onMod m) →
        loads = c.acc.pend.filter (fun p => p.lostOn m) →
        waits = c.acc.pend.filter (fun p => p.lostOn m || (p.req == .entry && es.any (fun e => e.seq == p.seq))) →
        n = (waits.filter (fun p => p.req != .entry)).length + es.length + (if s.waitsOn pid qc m then 1 else 0) →
        s1 = allClasses.foldl (fun u cl =>
          { u with bufs := setBuf u.bufs ag cl ((bufOf u.bufs ag cl).filter (fun e => !e.onMod m)) }) s →
        s2 = waits.foldl (fun u p => (u.updCore pid qc (fun c => landPend c .acc
          { p with outs := p.outs.map (fun o => { o with val := some (.w 0) }), req := .none })).unpinsR pid p.pin.toList) s1 →
        loads.length ≤ n ∧ s.lostCore pid qc m = s2.linkLost pid qc m n)) ∧
    (∀ (m : BitVec 21) (pid qc n : Nat) (c : CoreSt), s.core? pid qc = some c → 0 < n →
      (c.acc.exited = true → s.linkLost pid qc m n = s.logEngine pid qc 0 0x23 (BitVec.ofNat 64 (m.toNat * 2 ^ 32))) ∧
      (c.acc.exited = false → (∀ k j, .linkLost k j ∉ c.acc.nextTrap) → s.linkLost pid qc m n =
        s.updStream pid qc .acc (fun t => t.lose m n)) ∧
      (∀ k j l r, c.acc.exited = false → c.acc.nextTrap = l ++ .linkLost k j :: r → (∀ k' j', .linkLost k' j' ∉ l) →
        ∃ m', (m' = m ∨ m' = k) ∧ s.linkLost pid qc m n = (s.draw 2).2.updStream pid qc .acc (fun t => t.lose m' (j + n)))) ∧
    (∀ (t : StreamSt) (m : BitVec 21) (n : Nat) (y : NextTrap), y ∈ (t.lose m n).nextTrap ↔
      y = .linkLost m n ∨ y ∈ t.nextTrap ∧ ∀ k j, y ≠ .linkLost k j)

/-- R17, R26, R369, R370, R385, R388, R402, R405 to R410: the management window and bring-up. A submission is accepted, refused with
a reason, or held at the limit with its record unread; a context takes a doubleword that is in range, and its state moves as R370
admits; a binding entry keeps its valid bit and its target; a kill terminates the run and every pass of it; invalidation forgets
the address space's translations and frees the context; a start leaves nothing of the module's memory and no die in service, and
keeps the images in flash and what a spare has replaced; an uncorrectable error marks what it strikes. Rests on the model's
readings in log entries 6, 19, 23, 24, 30, 31, 32 and 36 (23 is its choice: the launch engine reads a record as die 0). -/
def Obligations.WindowEvents : Prop :=
  ∀ (s : State),
    (∀ (v : Word) (a : BitVec 16) (s0 : State), s0 = (s.mgRange false).staleHeld → a = v.truncate 16 →
      (s0.runRoom = false → exec (.mgSubasidWrite v) s = .next ((s0.deferRun s0.mg.subrec a (0, 8, 0)).setStat 1)) ∧
      (s0.runRoom = true → (s0.asidCtx a).ast ≠ 1 → exec (.mgSubasidWrite v) s = .next (s0.setStat 0x202)) ∧
      (s0.runRoom = true → (s0.asidCtx a).ast = 1 →
        (∀ f s1, s0.readRec 0 a s0.mg.subrec = (.page f, s1) → exec (.mgSubasidWrite v) s = .next (s1.setStat 0x302)) ∧
        (∀ n s1, s0.readRec 0 a s0.mg.subrec = (.refuse n, s1) →
          exec (.mgSubasidWrite v) s = .next (s1.setStat (BitVec.ofNat 64 (n * 256 + 2)))) ∧
        (∀ rcd s1, s0.readRec 0 a s0.mg.subrec = (.ok rcd, s1) →
          exec (.mgSubasidWrite v) s = .next ((s1.acceptRun s.mg.subrec rcd none).setStat 0)))) ∧
    (∀ (dw : Nat) (v : Word), dw < 8 →
      (ctxWrite (s.asidCtx s.mg.asidsel) dw v = none → exec (.mgAsidctxWrite (0x40 + 8 * dw) v) s =
        .next (s.mgRange true)) ∧
      (∀ c, ctxWrite (s.asidCtx s.mg.asidsel) dw v = some c → astMove (s.asidCtx s.mg.asidsel).ast c.ast = false →
        exec (.mgAsidctxWrite (0x40 + 8 * dw) v) s = .next (s.mgRange false).mgRefuse) ∧
      (∀ c, ctxWrite (s.asidCtx s.mg.asidsel) dw v = some c → astMove (s.asidCtx s.mg.asidsel).ast c.ast = true →
        ∃ t, exec (.mgAsidctxWrite (0x40 + 8 * dw) v) s = .next t ∧ t.asidCtx s.mg.asidsel = c ∧
          (∀ a, a ≠ s.mg.asidsel → t.asidCtx a = s.asidCtx a) ∧ t.inval = (if (s.asidCtx s.mg.asidsel).ast = 1 ∧ c.ast = 2
            then s.inval ++ [s.mg.asidsel] else s.inval))) ∧
    (∀ asid, asid ∈ s.inval → ∃ t, exec (.asidInvalidationComplete asid) s = .next t ∧ asid ∉ t.inval ∧
      (∀ e ∈ t.tlb, e.asid ≠ asid) ∧ (∀ e ∈ t.walks, e.asid ≠ asid) ∧ (t.asidCtx asid).ast = 0 ∧
      (∀ a, a ≠ asid → t.asidCtx a = s.asidCtx a)) ∧
    (∀ (v : Word) (l : List Run), l = s.runs.filter (fun r => (r.st == .waiting || r.st == .active) &&
        r.rcd.asid == BitVec.ofNat 16 (fld v 63 48) && r.addr == va57 v) →
      exec (.mgKill v) s = .next (l.foldl (fun u r => u.terminate r.rid 0x28 0 7 0) (s.mgRange false)) ∧
      ∀ r, l = [r] → s.run? r.rid = some r → ∃ t r', exec (.mgKill v) s = .next t ∧ t.run? r.rid = some r' ∧
        r'.st = .terminated ∧ r'.cause = 0x28 ∧ r'.addr = r.addr ∧
        (∀ p ∈ t.passes, p.rid = r.rid → p.st = .finished ∨ p.st = .terminated) ∧
        (∀ (j : Nat) (q : Pass), s.passes[j]? = some q → q.rid = r.rid → q.st ≠ .finished → q.st ≠ .terminated →
          ∃ p, t.passes[j]? = some p ∧ p.st = .terminated ∧ p.cores = [] ∧ p.sigs = [] ∧ p.writes = [])) ∧
    (∀ (v : Word) (s0 s1 : State), s0 = s.mgRange false →
      s1 = { s0 with mg := { s0.mg with ralOk := false, ralSeq := 0, gridLim := 0 } } →
      (v.getLsbD 32 = true → exec (.mgRalseqWrite v) s = .next s0) ∧
      (v.getLsbD 32 = false → exec (.mgRalseqWrite v) s =
        .next (if s1.powerLimit = s0.powerLimit then s1 else
          { s1 with mg := { s1.mg with past := s.mg.past ++ [(s.cycle, Nat.max 300 s0.powerLimit)] } }))) ∧
    (∀ (pool : Nat) (v : Word), pool < 10 → s.poolUsed pool = false →
      (poolBase pool (v.toNat % 2 ^ 56) = true → ∃ t, exec (.mgKvpoolWrite pool 0 v) s = .next t ∧
        mget (0, 0) t.mg.kvpool pool = (v.toNat % 2 ^ 56, (mget (0, 0) s.mg.kvpool pool).2)) ∧
      (poolBase pool (v.toNat % 2 ^ 56) = false → exec (.mgKvpoolWrite pool 0 v) s = .next (s.mgRange true))) ∧
    (∀ (k : Nat) (v : Word), k < 8 → ∃ t, exec (.mgRailWrite (0x200 + 8 * k) v) s = .next t ∧
      ∀ i, i < 8 →
        (s.holder (8 * k + i) = none → 8 * k + i ∉ s.reserved →
          mget 0 t.mg.rail (8 * k + i) = BitVec.ofNat 2 (v.toNat / 2 ^ (8 * i) % 4)) ∧
        ((s.holder (8 * k + i)).isSome ∨ 8 * k + i ∈ s.reserved →
          mget 0 t.mg.rail (8 * k + i) = mget 0 s.mg.rail (8 * k + i) ∧
          (8 * k + i, BitVec.ofNat 2 (v.toNat / 2 ^ (8 * i) % 4)) ∈ t.mg.railNew)) ∧
    (∀ (off : Nat) (v : Word), off % 8 = 0 → 0x100 ≤ off → off < 0x200 → v.toNat / 2 ^ 32 % 32 < 20 →
      ∃ t, exec (.mgRegisterWrite off v) s = .next t ∧
        mget 0 t.binds (s.mg.asidsel.toNat * 32 + (off - 0x100) / 8) = (v &&& 0xFFFFFFFF00000001)) ∧
    (∀ (m c : Mg), m = s.mg → c = (if (m.attest = 0 ∨ Config.newFirmware s.cycle = true) ∧ m.attest < 1024
        then { m with attest := m.attest + 1, keySigs := 0 } else m) →
      (∀ b, ∃ t, exec (.modulePowerOn b) s = .next t ∧ t.passes = [] ∧ t.runs = [] ∧ t.bufs = [] ∧ t.stores = [] ∧ t.dies = 0 ∧
        t.powered = b ∧ t.mg.fwVerified = b ∧ (∀ k, k < 2 ^ 52 → memGet t.mem k = 0) ∧ t.images = s.images ∧
        t.spared = s.spared ∧ t.outCores = s.outCores ∧ t.links = s.links ∧ t.mg.pfdir = m.pfdir ∧
        (t.mg.attest, t.mg.keySigs) = (if b then (c.attest, c.keySigs) else (m.attest, m.keySigs))) ∧
      (∃ t, exec (.firmwareHandover true) s = .next t ∧ t.mg = { c with fwVerified := true } ∧
        { t with mg := m, reports := s.reports } = s) ∧
      (∀ k, k = m.sign → (m.attest = 0 → k = m) ∧ (m.attest ≠ 0 → m.keySigs < 1024 → k = { m with keySigs := m.keySigs + 1 }) ∧
        (m.attest ≠ 0 → 1024 ≤ m.keySigs → m.attest < 1024 → k = { m with attest := m.attest + 1, keySigs := 0 }))) ∧
    (exec (.firmwareHandover false) s = .next (s.report (.firmware false))) ∧
    (∀ d t, d < 8 → t = (if s.dies.getLsbD d = false ∧ Config.dieReplaced s.cycle d = true then
        { s with spared := s.spared.filter (fun x => x != d), outCores := s.outCores.filter (fun c => c / 8 != d) } else s) →
      exec (.dieCalibrationComplete d true) s =
        .next { t with dies := s.dies ||| dieBit d, fullDies := s.fullDies ||| dieBit d } ∧
      (s.dies = 0 → exec (.dieCalibrationComplete d false) s = .next { t with dies := dieBit d }) ∧
      (s.dies ≠ 0 → exec (.dieCalibrationComplete d false) s = .next s)) ∧
    (∀ d, s.dies.getLsbD d = true → s.leaving.contains d = false →
      exec (.dieRetire d) s = .next ({ s with leaving := s.leaving ++ [d] } : State).dieSettle ∧
      (s.leaving = [] → (∀ p ∈ s.passes, (p.st = .resident → d ∉ p.pos.dies) ∧ ∀ q, p.dest = some q → d ∉ q.dies) →
        exec (.dieRetire d) s =
          .next { s with dies := s.dies &&& ~~~dieBit d, fullDies := s.fullDies &&& ~~~dieBit d }) ∧
      (s.leaving = [] → (∃ p ∈ s.passes, (p.st = .resident ∧ d ∈ p.pos.dies) ∨ ∃ q, p.dest = some q ∧ d ∈ q.dies) →
        exec (.dieRetire d) s = .next { s with leaving := [d] })) ∧
    (∀ l, (l < 24 → l ∉ s.links → exec (.linkRetire l) s = .next { s with links := s.links ++ [l] }) ∧
      (24 ≤ l ∨ l ∈ s.links → exec (.linkRetire l) s = .next s)) ∧
    (∀ key n, ∃ t copied ks, exec (.uncorrectableError (.loc key n)) s = .next t ∧
      ks = s.struckKeys copied ((List.range n).map (fun i => key + i)) ∧
      ((copied = false ∨ ∀ f ∈ s.pages, f.dest = none) → ∀ k, k ∈ ks ↔ key ≤ k ∧ k < key + n) ∧
      (∀ k, k ∈ t.poison ↔ k ∈ s.poison ∨ k ∈ ks) ∧ t.mem = s.mem ∧ t.stores = s.stores ∧ t.bufs = s.bufs ∧
      ∀ (j a b i : Nat) (p : Pass) (g : Sig) (q : Slot) (f : KvPage), s.passes[j]? = some p → p.sigs[a]? = some (i, some g) →
        g.slots[b]? = some q → isKv p.ctx g.desc = true → s.page? (s.asidOf p) (kvBlk p.ctx g.desc q.num) = some f →
        ∃ p' g' q', t.passes[j]? = some p' ∧ p'.sigs[a]? = some (i, some g') ∧ g'.slots[b]? = some q' ∧
          { q' with bad := q.bad } = q ∧ ∀ off, off ∈ q'.bad ↔ off ∈ q.bad ∨
            ∃ l, (paKeys (f.frame + q.num % g.desc.depth % 64 * g.desc.size) g.desc.size)[off]? = some l ∧ l ∈ ks) ∧
    (∀ pid i num off n p g, s.pass? pid = some p → mget none p.sigs i = some g → ∃ t p' g',
      exec (.uncorrectableError (.slot pid i num off n)) s = .next t ∧ t.pass? pid = some p' ∧ mget none p'.sigs i = some g' ∧
      g'.slots = g.slots.map (fun q => if q.num = num then
        { q with bad := q.bad ++ ((List.range n).map (fun i => off + i)).filter (fun i => !q.bad.contains i) } else q)) ∧
    (∀ pid qc st off n c, s.core? pid qc = some c → ∃ t c', exec (.uncorrectableError (.spill pid qc st off n)) s = .next t ∧
      t.core? pid qc = some c' ∧ (∀ i, i < n → off + i ∈ (c'.stream st).spillBad) ∧
      ∀ i ∈ (c'.stream st).spillBad, i ∈ (c.stream st).spillBad ∨ (off ≤ i ∧ i < off + n)) ∧
    (∀ pid qc k, ∃ t, exec (.uncorrectableError (.tile pid qc k)) s = .next t ∧ (pid, qc, k) ∈ t.poisonTiles) ∧
    (∀ r, ∃ t, exec (.uncorrectableError (.region r)) s = .next t ∧ r ∈ t.badRegions ∧ t.mem = s.mem)

/-! ### Reset, the step and the encoding -/

/-- What the spec gives for the module after reset: every location holds zero and nothing is on its way (R52), no run is
accepted, every address space's context is free, the registers of the window hold the values of R406, the grid limit is cleared
and no SEQ counts as accepted (R397). -/
def Obligations.ResetLeaves : Prop :=
  (∀ k, memGet State.reset.mem k = 0) ∧ State.reset.bufs = [] ∧ State.reset.stores = [] ∧ State.reset.passes = [] ∧
  State.reset.runs = [] ∧ State.reset.waiters = [] ∧ (∀ a, (State.reset.asidCtx a).ast = 0) ∧
  (∀ j, mget 0 State.reset.binds j = 0) ∧ State.reset.mg.hostlim = 1700 ∧ State.reset.mg.caps = 850 ∧
  State.reset.mg.ageper = 20 ∧ State.reset.mg.subrec = 0 ∧ State.reset.mg.substat = 0 ∧ State.reset.mg.asidsel = 0 ∧
  State.reset.mg.asidack = 0 ∧ (∀ j, mget 0 State.reset.mg.rail j = 0) ∧ State.reset.mg.ralOk = false ∧
  State.reset.mg.ralSeq = 0 ∧ State.reset.mg.gridLim = 0 ∧ State.reset.mg.pfdir = 0 ∧ State.reset.mg.fwVerified = false ∧
  (∀ j, mget (0, 0) State.reset.mg.kvpool j = (0, 0))

/-- Memory after reset is in its one form: addresses strictly rising, no zero listed. -/
def Obligations.ResetMemoryForm : Prop := State.reset.mem.wf = true

/-- Every step keeps memory in its one form, so that equal memories are equal data. -/
def Obligations.StepKeepsMemoryForm : Prop :=
  ∀ s t : State, s.mem.wf = true → step s = .next t → t.mem.wf = true

/-- A step runs the decoded word. A stream whose slot it is, that has not exited, whose quire is not stalled, that stands before
no trap and not behind its tick, and that holds the line of its program counter, executes the word there if the word names the
stream: an enqw or deqw with its limit counting from its first attempt, and the limit of an earlier one cleared (R295). An execute
stream that stands at a bcq or jcq on an empty queue has its slot after the access stream's (R156); a direct vector or curve word
that a lease or a power step paces holds; an illegal word of the stream takes the trap of R127; a word of the other stream is passed
over (R40). Rests on the model's readings in log entries 2, 18, 60 and 64. -/
def Obligations.StepRunsDecodedWord : Prop :=
  ∀ (s : State) (x : Ctx) (pid qc : Nat) (st : Stream) (bs w : List Byte),
    (s.turn = .issue pid qc st ∨ (s.turn = .swap pid qc ∧ st = .acc) ∨ (s.turn = .last pid qc ∧ st = .exe)) →
    s.ctx? { st := st, pd := 0, ta := 0, tc := 0 } = some x → x.t.exited = false → s.stalled x.p = false →
    x.t.settle = false → x.t.nextTrap = [] → x.t.tickWait ≠ some x.t.pc → x.t.line = some (lineOf x.t.pc, bs) →
    w = wordIn bs x.t.pc →
    (∀ i, wordStream (wordOfBytes w) = st → decodeBytes w = .ok i →
      (s.turn = .issue pid qc .exe → st = .exe → (∃ h q, headOf x q = none ∧ ((∃ c o, i = .bcq h c q o) ∨ i = .jcq h q)) →
        step s = .next { s with turn := .swap pid qc }) ∧
      ((s.turn = .issue pid qc .exe → ∀ h q, headOf x q = none → (∀ c o, i ≠ .bcq h c q o) ∧ i ≠ .jcq h q) →
        (s.pacesWord x w = true → step s = .next (s.slotDone pid qc st)) ∧
        (s.pacesWord x w = false →
          (limitOf i = none → x.t.limFrom = none → step s = exec i s) ∧
          (∀ l, limitOf i = none → x.t.limFrom = some l → step s = exec i (s.updStream pid qc st (fun t =>
            { t with limFrom := none }))) ∧
          (∀ l r, limitOf i = some l → x.t.limFrom = some r → step s = exec i s) ∧
          (∀ lim a deq, limitOf i = some (lim, a, deq) → x.t.limFrom = none → ∃ l : LimSt,
            step s = exec i (s.updStream pid qc st (fun t => { t with limFrom := some l })) ∧ l.since = s.cycle ∧
            l.bound = 2 ^ (lim.toNat + 6) ∧ l.deq = deq ∧
            ∀ vs, readSrcs x.c x.w 0 x.c.ch [a] = some vs → fld l.info 63 32 = fld (wordAt vs 0) 31 0)))) ∧
    (∀ e, wordStream (wordOfBytes w) = st → decodeBytes w = .error e → ∃ t, step s = .next t ∧ TakesTrap s x 0x01 0 t) ∧
    (wordStream (wordOfBytes w) ≠ st →
      step s = .next (s.updStream pid qc st (fun t => { t.passOver with pc := nextAddr t.pc })))

/-- Words that the spec writes out bit by bit decode to what it says they stand for (R108, R109, R125, R126). A word of an
unassigned opcode is illegal, and so is one with an unassigned FN, a reserved bit, a stream that its group does not admit or a PD
that R116 forbids (R127). -/
def Obligations.DecodesSpecWords : Prop :=
  decodeTableWord 80 0x03022000_1405003FFFFF = some (.addi { st := .acc, pd := 1, ta := 0, tc := 0 } (.r 5) (.r 5) 0x3FFFFF) ∧
  decodeTableWord 80 0x43028100_30070280B000 = some (.ffma { st := .acc, pd := 4, ta := 0, tc := 0x20 } .s .rne (.r 12) (.r 7) (.r 10)
    (.r 11)) ∧
  decodeTableWord 80 0x50060000_0005003FFFFE = some (.br { st := .acc, pd := 0, ta := 0, tc := 0 } .nz (.r 5) 0x3FFFFE) ∧
  decodeTableWord 80 0x64060400_280902E50004 = some (.faddw { st := .acc, pd := 0, ta := 1, tc := 0 } .d ⟨.rel, 5, 0⟩ 0 (.r 10) (.r 9)
    (.r 11) (.imm 4)) ∧
  decodeTableWord 80 0x71000401_0A8000000020 = some (.tld { st := .exe, pd := 0, ta := 1, tc := 0 } 0 (.v 2) (.direct 0 1 0)) ∧
  decodeTableWord 80 0x78004000_080100010400 = some (.ckey { st := .exe, pd := 2, ta := 0, tc := 0 } ⟨2, 2⟩ (.r 2) (.r 1)) ∧
  decodeTableWord 80 0x80208001_10411080001B = some (.vadd { st := .exe, pd := 4, ta := 0, tc := 0 } .h (.fp .rne) (.v 4) (.reg (.v 1))
    (.reg (.v 2)) ⟨true, true, 3⟩) ∧
  decodeTableWord 80 0xC34C0000_000C03520834 = some (.mmac { st := .exe, pd := 0, ta := 0, tc := 0 } 2 3 (.reg (.r 12)) (.reg (.r 13))
    ⟨⟨.acq, 2, 8⟩, 3, 4⟩) ∧
  decodeTableWord 80 0xD408000000_0E03C00005 = some (.cred { st := .exe, pd := 0, ta := 0, tc := 0 } .bf16 (.r 14) (.r 15)
    ⟨⟨.none, 0, 0⟩, 0, 5⟩) ∧
  decodeTableWord 80 0xD90C0004_201505800003 = some (.attq { st := .exe, pd := 0, ta := 0, tc := 0 } 3 (.q 8 false) (.r 21) (.r 22)
    ⟨⟨.none, 0, 0⟩, 0, 3⟩) ∧
  decodeTableWord 80 0xE2020800_340902000000 = some (.freg { st := .acc, pd := 0, ta := 2, tc := 0 } (.r 13) (.r 9) (.r 8)) ∧
  decodeTableWord 80 0xF4020400_300900000000 = some (.lease { st := .acc, pd := 0, ta := 1, tc := 0 } (.r 12) (.r 9)) ∧
  (∀ (w : IWord) (op : Nat), op = (w.extractLsb' 72 8).toNat →
    (op = 0 ∨ (0x22 ≤ op ∧ op ≤ 0x3F) ∨ (0x4A ≤ op ∧ op ≤ 0x4F) ∨ op = 0x5E ∨ (0x6B ≤ op ∧ op ≤ 0x6F) ∨
      (0xB0 ≤ op ∧ op ≤ 0xBF) ∨ (0xCA ≤ op ∧ op ≤ 0xCF) ∨ (0xDD ≤ op ∧ op ≤ 0xDF) ∨ (0xE5 ≤ op ∧ op ≤ 0xEF) ∨ 0xF5 ≤ op) →
    ∃ e, decodeWord w = .error e) ∧
  decodeTableWord 80 (0x5F * 2 ^ 72 + 1) = none ∧                      -- nop with a nonzero bit of X
  decodeTableWord 80 (0x5A * 2 ^ 72 + 2 * 2 ^ 66) = none ∧             -- FN 2 is none of those of trap and eret
  decodeTableWord 80 (0x70 * 2 ^ 72 + 2 ^ 65 + 200) = none ∧           -- tick in the access stream
  decodeTableWord 80 (0x01 * 2 ^ 72) = none                            -- add with PD = 0

/-- The decoder reads every legal word back from its encoding, with every operand at every value that the encoding admits; and a
word that it reads as an instruction is legal and is the encoding of that instruction, so that no bit of it is passed over. -/
def Obligations.EncodeDecode : Prop :=
  ∀ (i : Instr) (w : IWord), (wf i = true → encode i = some w → decodeWord w = .ok i) ∧
    (decodeWord w = .ok i → wf i = true ∧ encode i = some w)
end

