-- ==== Sys2Proof/Laws/Dispatch.lean ====
section
/-! SUPPORT. The meaning of each instruction, one lemma per constructor of Instr. -/

namespace Sys2Proof.Machine

@[simp] theorem exec_add (h : Hdr) (d a b : Opnd) (s : State) : exec (.add h d a b) s = execAdd h d a b s := rfl
@[simp] theorem exec_sub (h : Hdr) (d a b : Opnd) (s : State) : exec (.sub h d a b) s = execSub h d a b s := rfl
@[simp] theorem exec_addi (h : Hdr) (d a : Opnd) (imm : BitVec 22) (s : State) : exec (.addi h d a imm) s = execAddi h d a imm s := rfl
@[simp] theorem exec_mul (h : Hdr) (d a b : Opnd) (s : State) : exec (.mul h d a b) s = execMul h d a b s := rfl
@[simp] theorem exec_mulh (h : Hdr) (d a b : Opnd) (s : State) : exec (.mulh h d a b) s = execMulh h d a b s := rfl
@[simp] theorem exec_mulhu (h : Hdr) (d a b : Opnd) (s : State) : exec (.mulhu h d a b) s = execMulhu h d a b s := rfl
@[simp] theorem exec_div (h : Hdr) (d a b : Opnd) (s : State) : exec (.div h d a b) s = execDiv h d a b s := rfl
@[simp] theorem exec_divu (h : Hdr) (d a b : Opnd) (s : State) : exec (.divu h d a b) s = execDivu h d a b s := rfl
@[simp] theorem exec_rem (h : Hdr) (d a b : Opnd) (s : State) : exec (.rem h d a b) s = execRem h d a b s := rfl
@[simp] theorem exec_remu (h : Hdr) (d a b : Opnd) (s : State) : exec (.remu h d a b) s = execRemu h d a b s := rfl
@[simp] theorem exec_and (h : Hdr) (d a b : Opnd) (s : State) : exec (.and h d a b) s = execAnd h d a b s := rfl
@[simp] theorem exec_or (h : Hdr) (d a b : Opnd) (s : State) : exec (.or h d a b) s = execOr h d a b s := rfl
@[simp] theorem exec_xor (h : Hdr) (d a b : Opnd) (s : State) : exec (.xor h d a b) s = execXor h d a b s := rfl
@[simp] theorem exec_andn (h : Hdr) (d a b : Opnd) (s : State) : exec (.andn h d a b) s = execAndn h d a b s := rfl
@[simp] theorem exec_shl (h : Hdr) (d a : Opnd) (n : ShAmt) (s : State) : exec (.shl h d a n) s = execShl h d a n s := rfl
@[simp] theorem exec_shr (h : Hdr) (d a : Opnd) (n : ShAmt) (s : State) : exec (.shr h d a n) s = execShr h d a n s := rfl
@[simp] theorem exec_sra (h : Hdr) (d a : Opnd) (n : ShAmt) (s : State) : exec (.sra h d a n) s = execSra h d a n s := rfl
@[simp] theorem exec_rol (h : Hdr) (d a : Opnd) (n : ShAmt) (s : State) : exec (.rol h d a n) s = execRol h d a n s := rfl
@[simp] theorem exec_clz (h : Hdr) (d a : Opnd) (s : State) : exec (.clz h d a) s = execClz h d a s := rfl
@[simp] theorem exec_ctz (h : Hdr) (d a : Opnd) (s : State) : exec (.ctz h d a) s = execCtz h d a s := rfl
@[simp] theorem exec_popc (h : Hdr) (d a : Opnd) (s : State) : exec (.popc h d a) s = execPopc h d a s := rfl
@[simp] theorem exec_min (h : Hdr) (d a b : Opnd) (s : State) : exec (.min h d a b) s = execMin h d a b s := rfl
@[simp] theorem exec_max (h : Hdr) (d a b : Opnd) (s : State) : exec (.max h d a b) s = execMax h d a b s := rfl
@[simp] theorem exec_minu (h : Hdr) (d a b : Opnd) (s : State) : exec (.minu h d a b) s = execMinu h d a b s := rfl
@[simp] theorem exec_maxu (h : Hdr) (d a b : Opnd) (s : State) : exec (.maxu h d a b) s = execMaxu h d a b s := rfl
@[simp] theorem exec_sel (h : Hdr) (d a b c : Opnd) (s : State) : exec (.sel h d a b c) s = execSel h d a b c s := rfl
@[simp] theorem exec_cmp (h : Hdr) (cc : ICond) (d a : Opnd) (b : CmpArg) (s : State) : exec (.cmp h cc d a b) s = execCmp h cc d a b s := rfl
@[simp] theorem exec_li (h : Hdr) (d : Opnd) (imm : BitVec 22) (s : State) : exec (.li h d imm) s = execLi h d imm s := rfl
@[simp] theorem exec_lui (h : Hdr) (d : Opnd) (imm : BitVec 22) (s : State) : exec (.lui h d imm) s = execLui h d imm s := rfl
@[simp] theorem exec_luiHi (h : Hdr) (d : Opnd) (imm : BitVec 20) (s : State) : exec (.luiHi h d imm) s = execLuiHi h d imm s := rfl
@[simp] theorem exec_mov (h : Hdr) (d a : Opnd) (s : State) : exec (.mov h d a) s = execMov h d a s := rfl
@[simp] theorem exec_ext (h : Hdr) (u : Bool) (d a : Opnd) (w : BitVec 7) (s : State) : exec (.ext h u d a w) s = execExt h u d a w s := rfl
@[simp] theorem exec_ins (h : Hdr) (d a : Opnd) (lo : BitVec 6) (w : BitVec 7) (s : State) : exec (.ins h d a lo w) s = execIns h d a lo w s := rfl
@[simp] theorem exec_bfx (h : Hdr) (sg : Bool) (d a : Opnd) (lo : BitVec 6) (w : BitVec 7) (s : State) : exec (.bfx h sg d a lo w) s = execBfx h sg d a lo w s := rfl
@[simp] theorem exec_fadd (h : Hdr) (f : FW) (rm : RM) (d a b : Opnd) (s : State) : exec (.fadd h f rm d a b) s = execFadd h f rm d a b s := rfl
@[simp] theorem exec_fsub (h : Hdr) (f : FW) (rm : RM) (d a b : Opnd) (s : State) : exec (.fsub h f rm d a b) s = execFsub h f rm d a b s := rfl
@[simp] theorem exec_fmul (h : Hdr) (f : FW) (rm : RM) (d a b : Opnd) (s : State) : exec (.fmul h f rm d a b) s = execFmul h f rm d a b s := rfl
@[simp] theorem exec_ffma (h : Hdr) (f : FW) (rm : RM) (d a b c : Opnd) (s : State) : exec (.ffma h f rm d a b c) s = execFfma h f rm d a b c s := rfl
@[simp] theorem exec_fmin (h : Hdr) (f : FW) (d a b : Opnd) (s : State) : exec (.fmin h f d a b) s = execFmin h f d a b s := rfl
@[simp] theorem exec_fmax (h : Hdr) (f : FW) (d a b : Opnd) (s : State) : exec (.fmax h f d a b) s = execFmax h f d a b s := rfl
@[simp] theorem exec_fcmp (h : Hdr) (f : FW) (cc : FCond) (d a b : Opnd) (s : State) : exec (.fcmp h f cc d a b) s = execFcmp h f cc d a b s := rfl
@[simp] theorem exec_fcvt (h : Hdr) (dt st : CvtTy) (sat : Bool) (rm : RM) (d a : Opnd) (s : State) : exec (.fcvt h dt st sat rm d a) s = execFcvt h dt st sat rm d a s := rfl
@[simp] theorem exec_fdiv (h : Hdr) (f : FW) (rm : RM) (d a b : Opnd) (s : State) : exec (.fdiv h f rm d a b) s = execFdiv h f rm d a b s := rfl
@[simp] theorem exec_fsqrt (h : Hdr) (f : FW) (rm : RM) (d a : Opnd) (s : State) : exec (.fsqrt h f rm d a) s = execFsqrt h f rm d a s := rfl
@[simp] theorem exec_br (h : Hdr) (cc : BCond) (a : Opnd) (off : BitVec 22) (s : State) : exec (.br h cc a off) s = execBr h cc a off s := rfl
@[simp] theorem exec_jmp (h : Hdr) (off : BitVec 22) (s : State) : exec (.jmp h off) s = execJmp h off s := rfl
@[simp] theorem exec_jal (h : Hdr) (d : Opnd) (off : BitVec 22) (s : State) : exec (.jal h d off) s = execJal h d off s := rfl
@[simp] theorem exec_jr (h : Hdr) (a : Opnd) (s : State) : exec (.jr h a) s = execJr h a s := rfl
@[simp] theorem exec_bcq (h : Hdr) (neg : Bool) (q : Opnd) (off : BitVec 22) (s : State) : exec (.bcq h neg q off) s = execBcq h neg q off s := rfl
@[simp] theorem exec_jcq (h : Hdr) (q : Opnd) (s : State) : exec (.jcq h q) s = execJcq h q s := rfl
@[simp] theorem exec_pcq (h : Hdr) (q a : Opnd) (s : State) : exec (.pcq h q a) s = execPcq h q a s := rfl
@[simp] theorem exec_ptok (h : Hdr) (q : Opnd) (t : TokArg) (s : State) : exec (.ptok h q t) s = execPtok h q t s := rfl
@[simp] theorem exec_loop (h : Hdr) (cnt : LoopCnt) (off : BitVec 12) (s : State) : exec (.loop h cnt off) s = execLoop h cnt off s := rfl
@[simp] theorem exec_exit (h : Hdr) (s : State) : exec (.exit h) s = execExit h s := rfl
@[simp] theorem exec_trap (h : Hdr) (code : BitVec 16) (s : State) : exec (.trap h code) s = execTrap h code s := rfl
@[simp] theorem exec_eret (h : Hdr) (s : State) : exec (.eret h) s = execEret h s := rfl
@[simp] theorem exec_eretN (h : Hdr) (s : State) : exec (.eretN h) s = execEretN h s := rfl
@[simp] theorem exec_csrr (h : Hdr) (d : Opnd) (num : BitVec 12) (s : State) : exec (.csrr h d num) s = execCsrr h d num s := rfl
@[simp] theorem exec_csrw (h : Hdr) (num : BitVec 12) (a : Opnd) (s : State) : exec (.csrw h num a) s = execCsrw h num a s := rfl
@[simp] theorem exec_semw (h : Hdr) (n : SemArg) (s : State) : exec (.semw h n) s = execSemw h n s := rfl
@[simp] theorem exec_semi (h : Hdr) (n : SemArg) (s : State) : exec (.semi h n) s = execSemi h n s := rfl
@[simp] theorem exec_spld (h : Hdr) (sz : Sz) (d : Opnd) (base : Option Opnd) (off : BitVec 22) (s : State) : exec (.spld h sz d base off) s = execSpld h sz d base off s := rfl
@[simp] theorem exec_spst (h : Hdr) (sz : Sz) (base : Option Opnd) (off : BitVec 22) (b : Opnd) (s : State) : exec (.spst h sz base off b) s = execSpst h sz base off b s := rfl
@[simp] theorem exec_nop (h : Hdr) (s : State) : exec (.nop h) s = execNop h s := rfl
@[simp] theorem exec_ld (h : Hdr) (sx : Bool) (sz : Sz) (ord : Ord14) (d a : Opnd) (off : BitVec 8) (s : State) : exec (.ld h sx sz ord d a off) s = execLd h sx sz ord d a off s := rfl
@[simp] theorem exec_st (h : Hdr) (sz : Sz) (ord : Ord14) (a : Opnd) (off : BitVec 8) (b : Opnd) (s : State) : exec (.st h sz ord a off b) s = execSt h sz ord a off b s := rfl
@[simp] theorem exec_amo (h : Hdr) (op : AOpc) (wd : AW) (ord : Ord14) (asc : BitVec 4) (d a b : Opnd) (s : State) : exec (.amo h op wd ord asc d a b) s = execAmo h op wd ord asc d a b s := rfl
@[simp] theorem exec_cas (h : Hdr) (wd : AW) (ord : Ord14) (asc : BitVec 4) (d a b : Opnd) (s : State) : exec (.cas h wd ord asc d a b) s = execCas h wd ord asc d a b s := rfl
@[simp] theorem exec_faddw (h : Hdr) (wd : AW) (ord : Ord14) (asc : BitVec 4) (d a b : Opnd) (thr : Thr) (s : State) : exec (.faddw h wd ord asc d a b thr) s = execFaddw h wd ord asc d a b thr s := rfl
@[simp] theorem exec_wwait (h : Hdr) (wd : AW) (ord : Ord14) (a : Opnd) (thr : Thr) (s : State) : exec (.wwait h wd ord a thr) s = execWwait h wd ord a thr s := rfl
@[simp] theorem exec_enq (h : Hdr) (ord : Ord14) (asc : BitVec 4) (d a b : Opnd) (s : State) : exec (.enq h ord asc d a b) s = execEnq h ord asc d a b s := rfl
@[simp] theorem exec_deq (h : Hdr) (ord : Ord14) (asc : BitVec 4) (d a : Opnd) (s : State) : exec (.deq h ord asc d a) s = execDeq h ord asc d a s := rfl
@[simp] theorem exec_enqw (h : Hdr) (ord : Ord14) (lim asc : BitVec 4) (d a b : Opnd) (s : State) : exec (.enqw h ord lim asc d a b) s = execEnqw h ord lim asc d a b s := rfl
@[simp] theorem exec_deqw (h : Hdr) (ord : Ord14) (lim asc : BitVec 4) (d a : Opnd) (s : State) : exec (.deqw h ord lim asc d a) s = execDeqw h ord lim asc d a s := rfl
@[simp] theorem exec_ramo (h : Hdr) (op : AOpc) (wd : AW) (ord : Ord14) (asc : BitVec 4) (a b : Opnd) (s : State) : exec (.ramo h op wd ord asc a b) s = execRamo h op wd ord asc a b s := rfl
@[simp] theorem exec_tick (h : Hdr) (slack : BitVec 21) (s : State) : exec (.tick h slack) s = execTick h slack s := rfl
@[simp] theorem exec_tld (h : Hdr) (seg : BitVec 3) (d : Opnd) (t : Tap) (s : State) : exec (.tld h seg d t) s = execTld h seg d t s := rfl
@[simp] theorem exec_tst (h : Hdr) (seg : BitVec 3) (t : Tap) (a : Opnd) (s : State) : exec (.tst h seg t a) s = execTst h seg t a s := rfl
@[simp] theorem exec_tldx (h : Hdr) (sz : Sz) (d : Opnd) (t : Tap) (b : Opnd) (s : State) : exec (.tldx h sz d t b) s = execTldx h sz d t b s := rfl
@[simp] theorem exec_sdecl (h : Hdr) (sig : BitVec 9) (a : Opnd) (s : State) : exec (.sdecl h sig a) s = execSdecl h sig a s := rfl
@[simp] theorem exec_sbind (h : Hdr) (sig : BitVec 9) (a : Opnd) (s : State) : exec (.sbind h sig a) s = execSbind h sig a s := rfl
@[simp] theorem exec_sdrop (h : Hdr) (sig : BitVec 9) (s : State) : exec (.sdrop h sig) s = execSdrop h sig s := rfl
@[simp] theorem exec_sgate (h : Hdr) (sig : BitVec 9) (g : GateArg) (s : State) : exec (.sgate h sig g) s = execSgate h sig g s := rfl
@[simp] theorem exec_sfill (h : Hdr) (sig : BitVec 9) (a : Option Opnd) (s : State) : exec (.sfill h sig a) s = execSfill h sig a s := rfl
@[simp] theorem exec_snow (h : Hdr) (d : Opnd) (sig : BitVec 9) (s : State) : exec (.snow h d sig) s = execSnow h d sig s := rfl
@[simp] theorem exec_slag (h : Hdr) (d : Opnd) (t : Tap) (s : State) : exec (.slag h d t) s = execSlag h d t s := rfl
@[simp] theorem exec_ssave (h : Hdr) (sig : BitVec 9) (a : Opnd) (sem : SigSem) (s : State) : exec (.ssave h sig a sem) s = execSsave h sig a sem s := rfl
@[simp] theorem exec_srest (h : Hdr) (sig : BitVec 9) (a : Opnd) (sem : SigSem) (s : State) : exec (.srest h sig a sem) s = execSrest h sig a sem s := rfl
@[simp] theorem exec_srebase (h : Hdr) (sig : BitVec 9) (a : Opnd) (s : State) : exec (.srebase h sig a) s = execSrebase h sig a s := rfl
@[simp] theorem exec_ckey (h : Hdr) (sh : KShape) (d a : Opnd) (s : State) : exec (.ckey h sh d a) s = execCkey h sh d a s := rfl
@[simp] theorem exec_cunk (h : Hdr) (sh : KShape) (d a : Opnd) (s : State) : exec (.cunk h sh d a) s = execCunk h sh d a s := rfl
@[simp] theorem exec_cadd (h : Hdr) (sh : KShape) (sat fl : Bool) (d a b : Opnd) (s : State) : exec (.cadd h sh sat fl d a b) s = execCadd h sh sat fl d a b s := rfl
@[simp] theorem exec_csub (h : Hdr) (sh : KShape) (sat fl : Bool) (d a b : Opnd) (s : State) : exec (.csub h sh sat fl d a b) s = execCsub h sh sat fl d a b s := rfl
@[simp] theorem exec_ccmp (h : Hdr) (sh : KShape) (cc : KCond) (d a b : Opnd) (s : State) : exec (.ccmp h sh cc d a b) s = execCcmp h sh cc d a b s := rfl
@[simp] theorem exec_cbox (h : Hdr) (sh : KShape) (d a b : Opnd) (s : State) : exec (.cbox h sh d a b) s = execCbox h sh d a b s := rfl
@[simp] theorem exec_csplit (h : Hdr) (sh : KShape) (sm : SemMode) (d a b : Opnd) (s : State) : exec (.csplit h sh sm d a b) s = execCsplit h sh sm d a b s := rfl
@[simp] theorem exec_cnext (h : Hdr) (sh : KShape) (incl : Bool) (d a b : Opnd) (s : State) : exec (.cnext h sh incl d a b) s = execCnext h sh incl d a b s := rfl
@[simp] theorem exec_cprev (h : Hdr) (sh : KShape) (incl : Bool) (d a b : Opnd) (s : State) : exec (.cprev h sh incl d a b) s = execCprev h sh incl d a b s := rfl
@[simp] theorem exec_cclamp (h : Hdr) (sh : KShape) (d a b : Opnd) (s : State) : exec (.cclamp h sh d a b) s = execCclamp h sh d a b s := rfl
@[simp] theorem exec_cmask (h : Hdr) (sh : KShape) (m : MaskArg) (d a : Opnd) (s : State) : exec (.cmask h sh m d a) s = execCmask h sh m d a s := rfl
@[simp] theorem exec_vadd (h : Hdr) (t : VTy) (m : VMode) (d : Opnd) (a b : TOp) (mk : VMask) (s : State) : exec (.vadd h t m d a b mk) s = execVadd h t m d a b mk s := rfl
@[simp] theorem exec_vsub (h : Hdr) (t : VTy) (m : VMode) (d : Opnd) (a b : TOp) (mk : VMask) (s : State) : exec (.vsub h t m d a b mk) s = execVsub h t m d a b mk s := rfl
@[simp] theorem exec_vmul (h : Hdr) (t : VTy) (m : VMode) (d : Opnd) (a b : TOp) (mk : VMask) (s : State) : exec (.vmul h t m d a b mk) s = execVmul h t m d a b mk s := rfl
@[simp] theorem exec_vfma (h : Hdr) (t : VTy) (rm : RM) (d a b c : Opnd) (mk : VMask) (s : State) : exec (.vfma h t rm d a b c mk) s = execVfma h t rm d a b c mk s := rfl
@[simp] theorem exec_vmin (h : Hdr) (t : VTy) (d : Opnd) (a b : TOp) (mk : VMask) (s : State) : exec (.vmin h t d a b mk) s = execVmin h t d a b mk s := rfl
@[simp] theorem exec_vmax (h : Hdr) (t : VTy) (d : Opnd) (a b : TOp) (mk : VMask) (s : State) : exec (.vmax h t d a b mk) s = execVmax h t d a b mk s := rfl
@[simp] theorem exec_vabs (h : Hdr) (t : VTy) (m : VMode) (d : Opnd) (a : TOp) (mk : VMask) (s : State) : exec (.vabs h t m d a mk) s = execVabs h t m d a mk s := rfl
@[simp] theorem exec_vneg (h : Hdr) (t : VTy) (m : VMode) (d : Opnd) (a : TOp) (mk : VMask) (s : State) : exec (.vneg h t m d a mk) s = execVneg h t m d a mk s := rfl
@[simp] theorem exec_vrcp (h : Hdr) (t : VTy) (rm : RM) (d : Opnd) (a : TOp) (mk : VMask) (s : State) : exec (.vrcp h t rm d a mk) s = execVrcp h t rm d a mk s := rfl
@[simp] theorem exec_vrsq (h : Hdr) (t : VTy) (rm : RM) (d : Opnd) (a : TOp) (mk : VMask) (s : State) : exec (.vrsq h t rm d a mk) s = execVrsq h t rm d a mk s := rfl
@[simp] theorem exec_vexp2 (h : Hdr) (t : VTy) (rm : RM) (d : Opnd) (a : TOp) (mk : VMask) (s : State) : exec (.vexp2 h t rm d a mk) s = execVexp2 h t rm d a mk s := rfl
@[simp] theorem exec_vlog2 (h : Hdr) (t : VTy) (rm : RM) (d : Opnd) (a : TOp) (mk : VMask) (s : State) : exec (.vlog2 h t rm d a mk) s = execVlog2 h t rm d a mk s := rfl
@[simp] theorem exec_vsqrt (h : Hdr) (t : VTy) (rm : RM) (d : Opnd) (a : TOp) (mk : VMask) (s : State) : exec (.vsqrt h t rm d a mk) s = execVsqrt h t rm d a mk s := rfl
@[simp] theorem exec_vclamp (h : Hdr) (t : VTy) (d a b c : Opnd) (mk : VMask) (s : State) : exec (.vclamp h t d a b c mk) s = execVclamp h t d a b c mk s := rfl
@[simp] theorem exec_vcvt (h : Hdr) (dt st : VTy) (ct : BitVec 2) (sat : Bool) (part : BitVec 2) (rm : RM) (d a : Opnd) (mk : VMask) (s : State) : exec (.vcvt h dt st ct sat part rm d a mk) s = execVcvt h dt st ct sat part rm d a mk s := rfl
@[simp] theorem exec_vcmp (h : Hdr) (t : VTy) (cc : FCond) (d : Opnd) (a b : TOp) (mk : VMask) (s : State) : exec (.vcmp h t cc d a b mk) s = execVcmp h t cc d a b mk s := rfl
@[simp] theorem exec_vsel (h : Hdr) (d a b : Opnd) (kr : Fin 8) (s : State) : exec (.vsel h d a b kr) s = execVsel h d a b kr s := rfl
@[simp] theorem exec_vand (h : Hdr) (d : Opnd) (a b : TOp) (mk : VMask) (s : State) : exec (.vand h d a b mk) s = execVand h d a b mk s := rfl
@[simp] theorem exec_vor (h : Hdr) (d : Opnd) (a b : TOp) (mk : VMask) (s : State) : exec (.vor h d a b mk) s = execVor h d a b mk s := rfl
@[simp] theorem exec_vxor (h : Hdr) (d : Opnd) (a b : TOp) (mk : VMask) (s : State) : exec (.vxor h d a b mk) s = execVxor h d a b mk s := rfl
@[simp] theorem exec_vshl (h : Hdr) (t : VTy) (d a : Opnd) (n : ShAmt) (mk : VMask) (s : State) : exec (.vshl h t d a n mk) s = execVshl h t d a n mk s := rfl
@[simp] theorem exec_vshr (h : Hdr) (t : VTy) (d a : Opnd) (n : ShAmt) (mk : VMask) (s : State) : exec (.vshr h t d a n mk) s = execVshr h t d a n mk s := rfl
@[simp] theorem exec_vsra (h : Hdr) (t : VTy) (d a : Opnd) (n : ShAmt) (mk : VMask) (s : State) : exec (.vsra h t d a n mk) s = execVsra h t d a n mk s := rfl
@[simp] theorem exec_vpopc (h : Hdr) (t : VTy) (d : Opnd) (a : TOp) (mk : VMask) (s : State) : exec (.vpopc h t d a mk) s = execVpopc h t d a mk s := rfl
@[simp] theorem exec_vclz (h : Hdr) (t : VTy) (d : Opnd) (a : TOp) (mk : VMask) (s : State) : exec (.vclz h t d a mk) s = execVclz h t d a mk s := rfl
@[simp] theorem exec_vredsum (h : Hdr) (t : VTy) (m : VMode) (d : Opnd) (a : TOp) (mk : VMask) (s : State) : exec (.vredsum h t m d a mk) s = execVredsum h t m d a mk s := rfl
@[simp] theorem exec_vredmax (h : Hdr) (t : VTy) (d : Opnd) (a : TOp) (mk : VMask) (s : State) : exec (.vredmax h t d a mk) s = execVredmax h t d a mk s := rfl
@[simp] theorem exec_vredmin (h : Hdr) (t : VTy) (d : Opnd) (a : TOp) (mk : VMask) (s : State) : exec (.vredmin h t d a mk) s = execVredmin h t d a mk s := rfl
@[simp] theorem exec_vscan (h : Hdr) (t : VTy) (m : VMode) (op : ScanOp) (d a : Opnd) (mk : VMask) (s : State) : exec (.vscan h t m op d a mk) s = execVscan h t m op d a mk s := rfl
@[simp] theorem exec_vperm (h : Hdr) (t : VTy) (d a b : Opnd) (mk : VMask) (s : State) : exec (.vperm h t d a b mk) s = execVperm h t d a b mk s := rfl
@[simp] theorem exec_vbcast (h : Hdr) (t : VTy) (d a : Opnd) (idx : BitVec 8) (mk : VMask) (s : State) : exec (.vbcast h t d a idx mk) s = execVbcast h t d a idx mk s := rfl
@[simp] theorem exec_vslide (h : Hdr) (t : VTy) (dn : Bool) (d a b : Opnd) (idx : BitVec 8) (mk : VMask) (s : State) : exec (.vslide h t dn d a b idx mk) s = execVslide h t dn d a b idx mk s := rfl
@[simp] theorem exec_vmov (h : Hdr) (d : Opnd) (a : TOp) (mk : VMask) (s : State) : exec (.vmov h d a mk) s = execVmov h d a mk s := rfl
@[simp] theorem exec_vmovs (h : Hdr) (t : VTy) (toV : Bool) (d a : Opnd) (idx : BitVec 8) (s : State) : exec (.vmovs h t toV d a idx) s = execVmovs h t toV d a idx s := rfl
@[simp] theorem exec_vld (h : Hdr) (l : LsF) (d a : Opnd) (s : State) : exec (.vld h l d a) s = execVld h l d a s := rfl
@[simp] theorem exec_vst (h : Hdr) (l : LsF) (a b : Opnd) (s : State) : exec (.vst h l a b) s = execVst h l a b s := rfl
@[simp] theorem exec_vldt (h : Hdr) (l : LsF) (d a : Opnd) (s : State) : exec (.vldt h l d a) s = execVldt h l d a s := rfl
@[simp] theorem exec_vstt (h : Hdr) (l : LsF) (a b : Opnd) (s : State) : exec (.vstt h l a b) s = execVstt h l a b s := rfl
@[simp] theorem exec_vgath (h : Hdr) (l : LsF) (d a : Opnd) (s : State) : exec (.vgath h l d a) s = execVgath h l d a s := rfl
@[simp] theorem exec_vscat (h : Hdr) (l : LsF) (a b : Opnd) (s : State) : exec (.vscat h l a b) s = execVscat h l a b s := rfl
@[simp] theorem exec_vsort (h : Hdr) (t : VTy) (desc : Bool) (d a b : Opnd) (s : State) : exec (.vsort h t desc d a b) s = execVsort h t desc d a b s := rfl
@[simp] theorem exec_vtri (h : Hdr) (rm : RM) (d a b : Opnd) (s : State) : exec (.vtri h rm d a b) s = execVtri h rm d a b s := rfl
@[simp] theorem exec_kand (h : Hdr) (d a b : Opnd) (s : State) : exec (.kand h d a b) s = execKand h d a b s := rfl
@[simp] theorem exec_kor (h : Hdr) (d a b : Opnd) (s : State) : exec (.kor h d a b) s = execKor h d a b s := rfl
@[simp] theorem exec_kxor (h : Hdr) (d a b : Opnd) (s : State) : exec (.kxor h d a b) s = execKxor h d a b s := rfl
@[simp] theorem exec_knot (h : Hdr) (d a : Opnd) (s : State) : exec (.knot h d a) s = execKnot h d a s := rfl
@[simp] theorem exec_kpop (h : Hdr) (d a : Opnd) (s : State) : exec (.kpop h d a) s = execKpop h d a s := rfl
@[simp] theorem exec_kmov (h : Hdr) (d a : Opnd) (s : State) : exec (.kmov h d a) s = execKmov h d a s := rfl
@[simp] theorem exec_mfmt (h : Hdr) (a : Opnd) (s : State) : exec (.mfmt h a) s = execMfmt h a s := rfl
@[simp] theorem exec_mmodeRm (h : Hdr) (rm : RM) (s : State) : exec (.mmodeRm h rm) s = execMmodeRm h rm s := rfl
@[simp] theorem exec_mmodeSb (h : Hdr) (n : BitVec 4) (s : State) : exec (.mmodeSb h n) s = execMmodeSb h n s := rfl
@[simp] theorem exec_mmodeFqclr (h : Hdr) (s : State) : exec (.mmodeFqclr h) s = execMmodeFqclr h s := rfl
@[simp] theorem exec_mzero (h : Hdr) (mask : BitVec 8) (wsem ssem : BitVec 4) (s : State) : exec (.mzero h mask wsem ssem) s = execMzero h mask wsem ssem s := rfl
@[simp] theorem exec_mmac (h : Hdr) (t kc : BitVec 3) (a b : TOp) (f : CmdF) (s : State) : exec (.mmac h t kc a b f) s = execMmac h t kc a b f s := rfl
@[simp] theorem exec_mld (h : Hdr) (t : BitVec 3) (a : Opnd) (f : CmdF) (s : State) : exec (.mld h t a f) s = execMld h t a f s := rfl
@[simp] theorem exec_mst (h : Hdr) (t : BitVec 3) (a : Opnd) (f : CmdF) (s : State) : exec (.mst h t a f) s = execMst h t a f s := rfl
@[simp] theorem exec_mtr (h : Hdr) (t : BitVec 3) (a : Opnd) (f : CmdF) (s : State) : exec (.mtr h t a f) s = execMtr h t a f s := rfl
@[simp] theorem exec_mnot (h : Hdr) (ssem : BitVec 4) (s : State) : exec (.mnot h ssem) s = execMnot h ssem s := rfl
@[simp] theorem exec_mpace (h : Hdr) (g : GapArg) (s : State) : exec (.mpace h g) s = execMpace h g s := rfl
@[simp] theorem exec_mlease (h : Hdr) (a : Opnd) (ssem : BitVec 4) (s : State) : exec (.mlease h a ssem) s = execMlease h a ssem s := rfl
@[simp] theorem exec_cpy (h : Hdr) (a : Opnd) (t : CpyTap) (s : State) : exec (.cpy h a t) s = execCpy h a t s := rfl
@[simp] theorem exec_cpy2d (h : Hdr) (a : Opnd) (t : CpyTap) (s : State) : exec (.cpy2d h a t) s = execCpy2d h a t s := rfl
@[simp] theorem exec_cgat (h : Hdr) (a b : Opnd) (f : CmdF) (s : State) : exec (.cgat h a b f) s = execCgat h a b f s := rfl
@[simp] theorem exec_cscat (h : Hdr) (a b : Opnd) (f : CmdF) (s : State) : exec (.cscat h a b f) s = execCscat h a b f s := rfl
@[simp] theorem exec_cred (h : Hdr) (ef : Fmt) (a b : Opnd) (f : CmdF) (s : State) : exec (.cred h ef a b f) s = execCred h ef a b f s := rfl
@[simp] theorem exec_cfill (h : Hdr) (a b : Opnd) (f : CmdF) (s : State) : exec (.cfill h a b f) s = execCfill h a b f s := rfl
@[simp] theorem exec_cnot (h : Hdr) (ssem : BitVec 4) (s : State) : exec (.cnot h ssem) s = execCnot h ssem s := rfl
@[simp] theorem exec_cpace (h : Hdr) (g : GapArg) (s : State) : exec (.cpace h g) s = execCpace h g s := rfl
@[simp] theorem exec_cpaceSb (h : Hdr) (n : BitVec 4) (s : State) : exec (.cpaceSb h n) s = execCpaceSb h n s := rfl
@[simp] theorem exec_kvapp (h : Hdr) (layer : BitVec 6) (d a : Opnd) (f : CmdF) (s : State) : exec (.kvapp h layer d a f) s = execKvapp h layer d a f s := rfl
@[simp] theorem exec_attq (h : Hdr) (layer : BitVec 6) (d a b : Opnd) (f : CmdF) (s : State) : exec (.attq h layer d a b f) s = execAttq h layer d a b f s := rfl
@[simp] theorem exec_park (h : Hdr) (a : Opnd) (s : State) : exec (.park h a) s = execPark h a s := rfl
@[simp] theorem exec_prom (h : Hdr) (a : Opnd) (ssem : BitVec 4) (s : State) : exec (.prom h a ssem) s = execProm h a ssem s := rfl
@[simp] theorem exec_pstat (h : Hdr) (d : Opnd) (t : Tap) (s : State) : exec (.pstat h d t) s = execPstat h d t s := rfl
@[simp] theorem exec_spawn (h : Hdr) (a : Opnd) (s : State) : exec (.spawn h a) s = execSpawn h a s := rfl
@[simp] theorem exec_spawnG (h : Hdr) (a b : Opnd) (s : State) : exec (.spawnG h a b) s = execSpawnG h a b s := rfl
@[simp] theorem exec_spawnPb (h : Hdr) (a b : Opnd) (s : State) : exec (.spawnPb h a b) s = execSpawnPb h a b s := rfl
@[simp] theorem exec_spawnPe (h : Hdr) (a b : Opnd) (s : State) : exec (.spawnPe h a b) s = execSpawnPe h a b s := rfl
@[simp] theorem exec_fres (h : Hdr) (a b : Opnd) (s : State) : exec (.fres h a b) s = execFres h a b s := rfl
@[simp] theorem exec_fresF (h : Hdr) (a b : Opnd) (s : State) : exec (.fresF h a b) s = execFresF h a b s := rfl
@[simp] theorem exec_fresN (h : Hdr) (a b : Opnd) (s : State) : exec (.fresN h a b) s = execFresN h a b s := rfl
@[simp] theorem exec_freg (h : Hdr) (d a b : Opnd) (s : State) : exec (.freg h d a b) s = execFreg h d a b s := rfl
@[simp] theorem exec_fregJ (h : Hdr) (d a b : Opnd) (s : State) : exec (.fregJ h d a b) s = execFregJ h d a b s := rfl
@[simp] theorem exec_yield (h : Hdr) (s : State) : exec (.yield h) s = execYield h s := rfl
@[simp] theorem exec_migr (h : Hdr) (a : Opnd) (s : State) : exec (.migr h a) s = execMigr h a s := rfl
@[simp] theorem exec_tlbinvVa (h : Hdr) (a : Opnd) (s : State) : exec (.tlbinvVa h a) s = execTlbinvVa h a s := rfl
@[simp] theorem exec_tlbinvAs (h : Hdr) (s : State) : exec (.tlbinvAs h) s = execTlbinvAs h s := rfl
@[simp] theorem exec_mapset (h : Hdr) (a b : Opnd) (sem : SigSem) (s : State) : exec (.mapset h a b sem) s = execMapset h a b sem s := rfl
@[simp] theorem exec_mapflush (h : Hdr) (inv : Bool) (a : Opnd) (sem : SigSem) (s : State) : exec (.mapflush h inv a sem) s = execMapflush h inv a sem s := rfl
@[simp] theorem exec_pfrep (h : Hdr) (d a : Opnd) (s : State) : exec (.pfrep h d a) s = execPfrep h d a s := rfl
@[simp] theorem exec_lease (h : Hdr) (d a : Opnd) (s : State) : exec (.lease h d a) s = execLease h d a s := rfl
@[simp] theorem exec_taggedResultLand (pid qc : Nat) (st : Stream) (n : Nat) (s : State) : exec (.taggedResultLand pid qc st n) s = execTaggedResultLand pid qc st n s := rfl
@[simp] theorem exec_slotWritePerformed (pid n : Nat) (s : State) : exec (.slotWritePerformed pid n) s = execSlotWritePerformed pid n s := rfl
@[simp] theorem exec_wwaitWake (pid qc : Nat) (s : State) : exec (.wwaitWake pid qc) s = execWwaitWake pid qc s := rfl
@[simp] theorem exec_waiterTablePoll (w : Waiter) (s : State) : exec (.waiterTablePoll w) s = execWaiterTablePoll w s := rfl
@[simp] theorem exec_queueWaitLimitExpiry (pid qc : Nat) (s : State) : exec (.queueWaitLimitExpiry pid qc) s = execQueueWaitLimitExpiry pid qc s := rfl
@[simp] theorem exec_ordDrain (ag : Agent) (cl : Cls) (i : Nat) (s : State) : exec (.ordDrain ag cl i) s = execOrdDrain ag cl i s := rfl
@[simp] theorem exec_ordPropagate (st : StoreId) (i : Nat) (s : State) : exec (.ordPropagate st i) s = execOrdPropagate st i s := rfl
@[simp] theorem exec_remoteRequestArrival (src sq : Nat) (r : RemoteReq) (s : State) : exec (.remoteRequestArrival src sq r) s = execRemoteRequestArrival src sq r s := rfl
@[simp] theorem exec_remoteReplyAcknowledge (src sq : Nat) (s : State) : exec (.remoteReplyAcknowledge src sq) s = execRemoteReplyAcknowledge src sq s := rfl
@[simp] theorem exec_tickComplete (pid : Nat) (s : State) : exec (.tickComplete pid) s = execTickComplete pid s := rfl
@[simp] theorem exec_csplitComplete (pid qc : Nat) (s : State) : exec (.csplitComplete pid qc) s = execCsplitComplete pid qc s := rfl
@[simp] theorem exec_vectorQueuedPerform (pid qc : Nat) (s : State) : exec (.vectorQueuedPerform pid qc) s = execVectorQueuedPerform pid qc s := rfl
@[simp] theorem exec_matrixCommandDepart (pid qc : Nat) (s : State) : exec (.matrixCommandDepart pid qc) s = execMatrixCommandDepart pid qc s := rfl
@[simp] theorem exec_matrixCommandStart (pid qc n : Nat) (s : State) : exec (.matrixCommandStart pid qc n) s = execMatrixCommandStart pid qc n s := rfl
@[simp] theorem exec_matrixCommandComplete (pid qc n : Nat) (s : State) : exec (.matrixCommandComplete pid qc n) s = execMatrixCommandComplete pid qc n s := rfl
@[simp] theorem exec_copyCommandDepart (pid qc : Nat) (s : State) : exec (.copyCommandDepart pid qc) s = execCopyCommandDepart pid qc s := rfl
@[simp] theorem exec_copyCommandStart (pid qc n : Nat) (s : State) : exec (.copyCommandStart pid qc n) s = execCopyCommandStart pid qc n s := rfl
@[simp] theorem exec_copyCommandComplete (pid qc n : Nat) (s : State) : exec (.copyCommandComplete pid qc n) s = execCopyCommandComplete pid qc n s := rfl
@[simp] theorem exec_attentionCommandDepart (pid qc : Nat) (s : State) : exec (.attentionCommandDepart pid qc) s = execAttentionCommandDepart pid qc s := rfl
@[simp] theorem exec_kvappAppendComplete (pid qc n : Nat) (s : State) : exec (.kvappAppendComplete pid qc n) s = execKvappAppendComplete pid qc n s := rfl
@[simp] theorem exec_attqPageWaitExpiry (pid qc n : Nat) (s : State) : exec (.attqPageWaitExpiry pid qc n) s = execAttqPageWaitExpiry pid qc n s := rfl
@[simp] theorem exec_attqComplete (pid qc n : Nat) (s : State) : exec (.attqComplete pid qc n) s = execAttqComplete pid qc n s := rfl
@[simp] theorem exec_promComplete (pid qc n : Nat) (s : State) : exec (.promComplete pid qc n) s = execPromComplete pid qc n s := rfl
@[simp] theorem exec_parkT1Expiry (pid : Nat) (s : State) : exec (.parkT1Expiry pid) s = execParkT1Expiry pid s := rfl
@[simp] theorem exec_parkT2Expiry (pid : Nat) (s : State) : exec (.parkT2Expiry pid) s = execParkT2Expiry pid s := rfl
@[simp] theorem exec_pageMoveComplete (pid : Nat) (s : State) : exec (.pageMoveComplete pid) s = execPageMoveComplete pid s := rfl
@[simp] theorem exec_notifyCompletionEvent (pid qc : Nat) (s : State) : exec (.notifyCompletionEvent pid qc) s = execNotifyCompletionEvent pid qc s := rfl
@[simp] theorem exec_mapBlockFill (pid qc slot blk : Nat) (s : State) : exec (.mapBlockFill pid qc slot blk) s = execMapBlockFill pid qc slot blk s := rfl
@[simp] theorem exec_faultReplayWalk (id : Nat) (s : State) : exec (.faultReplayWalk id) s = execFaultReplayWalk id s := rfl
@[simp] theorem exec_leJoinWake (rid : Nat) (s : State) : exec (.leJoinWake rid) s = execLeJoinWake rid s := rfl
@[simp] theorem exec_runDeferredAccept (rid : Nat) (s : State) : exec (.runDeferredAccept rid) s = execRunDeferredAccept rid s := rfl
@[simp] theorem exec_passPlace (s : State) : exec (.passPlace) s = execPassPlace s := rfl
@[simp] theorem exec_ageingPeriodExpiry (rid : Nat) (s : State) : exec (.ageingPeriodExpiry rid) s = execAgeingPeriodExpiry rid s := rfl
@[simp] theorem exec_preemptionRequest (s : State) : exec (.preemptionRequest) s = execPreemptionRequest s := rfl
@[simp] theorem exec_phoavoMigrationRequest (pid : Nat) (dies : BitVec 8) (s : State) : exec (.phoavoMigrationRequest pid dies) s = execPhoavoMigrationRequest pid dies s := rfl
@[simp] theorem exec_passSave (pid : Nat) (s : State) : exec (.passSave pid) s = execPassSave pid s := rfl
@[simp] theorem exec_passFinish (pid : Nat) (s : State) : exec (.passFinish pid) s = execPassFinish pid s := rfl
@[simp] theorem exec_slackDeadlineExpiry (pid : Nat) (s : State) : exec (.slackDeadlineExpiry pid) s = execSlackDeadlineExpiry pid s := rfl
@[simp] theorem exec_tickWatchdogExpiry (pid : Nat) (s : State) : exec (.tickWatchdogExpiry pid) s = execTickWatchdogExpiry pid s := rfl
@[simp] theorem exec_spareCoreExchange (lc : Nat) (healthy : Bool) (s : State) : exec (.spareCoreExchange lc healthy) s = execSpareCoreExchange lc healthy s := rfl
@[simp] theorem exec_machineCheck (pid : Nat) (s : State) : exec (.machineCheck pid) s = execMachineCheck pid s := rfl
@[simp] theorem exec_capoLeaseAnswer (pid qc n : Nat) (s : State) : exec (.capoLeaseAnswer pid qc n) s = execCapoLeaseAnswer pid qc n s := rfl
@[simp] theorem exec_leaseEnergyExhausted (pid : Nat) (s : State) : exec (.leaseEnergyExhausted pid) s = execLeaseEnergyExhausted pid s := rfl
@[simp] theorem exec_unitPowerGate (u : PowerUnit) (s : State) : exec (.unitPowerGate u) s = execUnitPowerGate u s := rfl
@[simp] theorem exec_unitPowerWake (u : PowerUnit) (s : State) : exec (.unitPowerWake u) s = execUnitPowerWake u s := rfl
@[simp] theorem exec_refusedRequestRetry (n : Nat) (s : State) : exec (.refusedRequestRetry n) s = execRefusedRequestRetry n s := rfl
@[simp] theorem exec_targetAbsentExpiry (n : Nat) (s : State) : exec (.targetAbsentExpiry n) s = execTargetAbsentExpiry n s := rfl
@[simp] theorem exec_raloreInputChange (step : Bool) (s : State) : exec (.raloreInputChange step) s = execRaloreInputChange step s := rfl
@[simp] theorem exec_raloreMessage (sq : BitVec 32) (limw rsv : BitVec 16) (s : State) : exec (.raloreMessage sq limw rsv) s = execRaloreMessage sq limw rsv s := rfl
@[simp] theorem exec_raloreLimitMet (s : State) : exec (.raloreLimitMet) s = execRaloreLimitMet s := rfl
@[simp] theorem exec_powerFail (s : State) : exec (.powerFail) s = execPowerFail s := rfl
@[simp] theorem exec_fabricMessageDelivery (m : FabricMsg) (s : State) : exec (.fabricMessageDelivery m) s = execFabricMessageDelivery m s := rfl
@[simp] theorem exec_moduleReset (m : BitVec 21) (s : State) : exec (.moduleReset m) s = execModuleReset m s := rfl
@[simp] theorem exec_hostWrite (pa : ExtAddr) (bytes : List Byte) (relaxed : Bool) (s : State) : exec (.hostWrite pa bytes relaxed) s = execHostWrite pa bytes relaxed s := rfl
@[simp] theorem exec_hostRead (pa : ExtAddr) (n : Nat) (s : State) : exec (.hostRead pa n) s = execHostRead pa n s := rfl
@[simp] theorem exec_mgSubasidWrite (v : Word) (s : State) : exec (.mgSubasidWrite v) s = execMgSubasidWrite v s := rfl
@[simp] theorem exec_mgAsidctxWrite (off : Nat) (v : Word) (s : State) : exec (.mgAsidctxWrite off v) s = execMgAsidctxWrite off v s := rfl
@[simp] theorem exec_asidInvalidationComplete (asid : BitVec 16) (s : State) : exec (.asidInvalidationComplete asid) s = execAsidInvalidationComplete asid s := rfl
@[simp] theorem exec_mgKill (v : Word) (s : State) : exec (.mgKill v) s = execMgKill v s := rfl
@[simp] theorem exec_mgRalseqWrite (v : Word) (s : State) : exec (.mgRalseqWrite v) s = execMgRalseqWrite v s := rfl
@[simp] theorem exec_mgKvpoolWrite (pool dw : Nat) (v : Word) (s : State) : exec (.mgKvpoolWrite pool dw v) s = execMgKvpoolWrite pool dw v s := rfl
@[simp] theorem exec_mgRailWrite (off : Nat) (v : Word) (s : State) : exec (.mgRailWrite off v) s = execMgRailWrite off v s := rfl
@[simp] theorem exec_mgRegisterWrite (off : Nat) (v : Word) (s : State) : exec (.mgRegisterWrite off v) s = execMgRegisterWrite off v s := rfl
@[simp] theorem exec_modulePowerOn (verified : Bool) (s : State) : exec (.modulePowerOn verified) s = execModulePowerOn verified s := rfl
@[simp] theorem exec_dieCalibrationComplete (d : Nat) (full : Bool) (s : State) : exec (.dieCalibrationComplete d full) s = execDieCalibrationComplete d full s := rfl
@[simp] theorem exec_dieRetire (d : Nat) (s : State) : exec (.dieRetire d) s = execDieRetire d s := rfl
@[simp] theorem exec_linkRetire (l : Nat) (s : State) : exec (.linkRetire l) s = execLinkRetire l s := rfl
@[simp] theorem exec_firmwareHandover (verified : Bool) (s : State) : exec (.firmwareHandover verified) s = execFirmwareHandover verified s := rfl
@[simp] theorem exec_uncorrectableError (at_ : PoisonAt) (s : State) : exec (.uncorrectableError at_) s = execUncorrectableError at_ s := rfl

end Sys2Proof.Machine
end

