-- ==== Sys2Proof/Laws/Encoding.lean ====
section
/-! SUPPORT. The fields of a word read back from their encodings: the lemmas that a proof over the encoder cites. -/

namespace Sys2Proof

/-! ### The word -/

/-- The fields of a packed word are the fields. -/
@[simp] theorem Raw.unpack_pack (r : Raw) : Raw.unpack r.pack = r := by
  obtain ⟨op, fn, st, pd, ta, tc, dst, sa, sb, x⟩ := r
  simp only [Raw.unpack, Raw.pack, Raw.mk.injEq]
  refine ⟨?_, ?_, ?_, ?_, ?_, ?_, ?_, ?_, ?_, ?_⟩ <;>
    (apply BitVec.eq_of_getLsbD_eq; intro i hi;
     simp only [BitVec.getLsbD_extractLsb', BitVec.getLsbD_append]; simp [hi]; try grind)

@[simp] theorem streamOf_streamBit (st : Stream) : streamOf (streamBit st) = st := by cases st <;> rfl

/-- The header of an encoded word. -/
@[simp] theorem rawH_hdr (op : BitVec 8) (fn : BitVec 6) (h : Hdr) (dst : BitVec 9) (sa sb : BitVec 10) (x : BitVec 22) :
    (rawH op fn h dst sa sb x).hdr = h := by
  cases h; simp [rawH, Raw.hdr]

/-! ### Operands -/

/-- An operand that has a field in the words of a stream (R109). -/
def opndFits (st : Stream) : Opnd → Bool
  | .r n => st == .exe || decide (n.val < 32)
  | .v _ => st == .exe
  | .k _ => st == .exe
  | .q _ _ => true
  | .n _ _ => st == .acc

/-- The keep bit is a source's alone. -/
def noKeep : Opnd → Bool
  | .q _ k => !k
  | .n _ k => !k
  | _ => true

/-- The answer is this operand. -/
def reads (e : Except Reject Opnd) (o : Opnd) : Bool :=
  match e with
  | .ok p => p == o
  | .error _ => false

theorem eq_of_reads {e : Except Reject Opnd} {o : Opnd} (h : reads e o = true) : e = .ok o := by
  cases e with
  | ok p => simp [reads] at h; rw [h]
  | error r => simp [reads] at h

/-- An operand's field reads back as the operand. -/
theorem opndOf_bits (st : Stream) (o : Opnd) (h : opndFits st o = true) : opndOf st (opndBits o) = .ok o := by
  apply eq_of_reads
  revert h
  cases o with
  | r n => cases st <;> revert n <;> decide +kernel
  | v n => cases st <;> revert n <;> decide +kernel
  | k n => cases st <;> revert n <;> decide +kernel
  | q n k => cases st <;> cases k <;> revert n <;> decide +kernel
  | n n k => cases st <;> cases k <;> revert n <;> decide +kernel

/-- So does a destination's. -/
theorem dstAs_bits (o : Opnd) (h : noKeep o = true) : dstAs (dstBits o) = opndBits o := by
  revert h
  cases o with
  | r n => revert n; decide +kernel
  | v n => revert n; decide +kernel
  | k n => revert n; decide +kernel
  | q n k => cases k <;> revert n <;> decide +kernel
  | n n k => cases k <;> revert n <;> decide +kernel

theorem tapField_opndBits (o : Opnd) : tapField (opndBits o) = false := by
  cases o with
  | r n => revert n; decide +kernel
  | v n => revert n; decide +kernel
  | k n => revert n; decide +kernel
  | q n k => cases k <;> revert n <;> decide +kernel
  | n n k => cases k <;> revert n <;> decide +kernel

/-! ### Codes -/

@[simp] theorem rmOf_rmBits (x : RM) : rmOf (rmBits x) = .ok x := by cases x <;> rfl
@[simp] theorem fwOf_fwBits (x : FW) : fwOf (fwBits x) = .ok x := by cases x <;> rfl
@[simp] theorem ctyOf_ctyBits (x : CvtTy) : ctyOf (ctyBits x) = .ok x := by cases x <;> rfl
@[simp] theorem vtyOf_vtyBits (x : VTy) : vtyOf (vtyBits x) = .ok x := by cases x <;> rfl
@[simp] theorem icondOf_icondBits (x : ICond) : icondOf (icondBits x) = .ok x := by cases x <;> rfl
@[simp] theorem bcondOf_bcondBits (x : BCond) : bcondOf (bcondBits x) = .ok x := by cases x <;> rfl
@[simp] theorem fcondOf_fcondBits (x : FCond) : fcondOf (fcondBits x) = .ok x := by cases x <;> rfl
@[simp] theorem kcondOf_kcondBits (x : KCond) : kcondOf (kcondBits x) = .ok x := by cases x <;> rfl
@[simp] theorem szOf_szBits (x : Sz) : szOf (szBits x) = .ok x := by cases x <;> rfl
@[simp] theorem awOf_awBits (x : AW) : awOf (awBits x) = .ok x := by cases x <;> rfl
@[simp] theorem aopOf_aopBits (x : AOpc) : aopOf (aopBits x) = .ok x := by cases x <;> rfl
@[simp] theorem fmtOf_fmtBits (x : Fmt) : fmtOf (fmtBits x) = .ok x := by cases x <;> rfl
@[simp] theorem okindOf_okindBits (x : OrdKind) : okindOf (okindBits x) = .ok x := by cases x <;> rfl
@[simp] theorem scanOf_scanBits (x : ScanOp) : scanOf (scanBits x) = .ok x := by cases x <;> rfl

/-! ### Parts of X -/

theorem append_hi {n m : Nat} (a : BitVec n) (b : BitVec m) : (a ++ b).extractLsb' m n = a := by
  apply BitVec.eq_of_getLsbD_eq
  intro i hi
  simp [hi, BitVec.getLsbD_append]

theorem append_lo {n m : Nat} (a : BitVec n) (b : BitVec m) : (a ++ b).extractLsb' 0 m = b := by
  apply BitVec.eq_of_getLsbD_eq
  intro i hi
  simp [hi, BitVec.getLsbD_append]

@[simp] theorem ordOf_ordBits (o : Ord14) : ordOf (ordBits o) = .ok o := by
  obtain ⟨k, s, p⟩ := o
  have h1 : (okindBits k ++ s ++ p).extractLsb' 12 2 = okindBits k := by
    apply BitVec.eq_of_getLsbD_eq; intro i hi; simp; grind
  have h2 : (okindBits k ++ s ++ p).extractLsb' 8 4 = s := by
    apply BitVec.eq_of_getLsbD_eq; intro i hi; simp; grind
  have h3 : (okindBits k ++ s ++ p).extractLsb' 0 8 = p := append_lo _ p
  unfold ordOf ordBits
  rw [h1, h2, h3, okindOf_okindBits]
  rfl

@[simp] theorem cmdFOf_cmdFX (f : CmdF) : cmdFOf (cmdFX f) = .ok f := by
  obtain ⟨o, w, s⟩ := f
  have h1 : (ordBits o ++ w ++ s).extractLsb' 8 14 = ordBits o := by
    apply BitVec.eq_of_getLsbD_eq; intro i hi; simp; grind
  have h2 : (ordBits o ++ w ++ s).extractLsb' 4 4 = w := by
    apply BitVec.eq_of_getLsbD_eq; intro i hi; simp; grind
  have h3 : (ordBits o ++ w ++ s).extractLsb' 0 4 = s := append_lo _ s
  unfold cmdFOf cmdFX
  rw [h1, h2, h3, ordOf_ordBits]
  rfl

@[simp] theorem maskOf_maskBits (m : VMask) : maskOf (maskBits m) = m := by
  obtain ⟨v, z, r⟩ := m
  revert r
  cases v <;> cases z <;> decide +kernel

@[simp] theorem semOf_semBits (s : SigSem) : semOf (semBits s) = .ok s := by
  cases s with
  | none => rfl
  | some n =>
    have h1 : ((1 : BitVec 1) ++ n).getLsbD 8 = true := by rw [BitVec.getLsbD_append]; rfl
    have h2 : ((1 : BitVec 1) ++ n).extractLsb' 0 8 = n := append_lo _ n
    unfold semOf semBits
    rw [if_pos h1, h2]

@[simp] theorem sigOf_sigX (s : BitVec 9) : sigOf (sigX s) = s := append_hi s 0

theorem tapOf_tapX (t : Tap) : tapOf (tapBits t) (tapX t) = .ok t := by
  cases t with
  | direct s l r =>
    have h1 : (s ++ l ++ r).extractLsb' 13 9 = s := by
      apply BitVec.eq_of_getLsbD_eq; intro i hi; simp; grind
    have h2 : (s ++ l ++ r).extractLsb' 5 8 = l := by
      apply BitVec.eq_of_getLsbD_eq; intro i hi; simp; grind
    have h3 : (s ++ l ++ r).extractLsb' 0 5 = r := append_lo _ r
    simp [tapOf, tapBits, tapX, h1, h2, h3]
  | indexed s n =>
    have h1 : (s ++ (0 : BitVec 7) ++ bvFin 6 n).extractLsb' 13 9 = s := by
      apply BitVec.eq_of_getLsbD_eq; intro i hi; simp; grind
    have h2 : (s ++ (0 : BitVec 7) ++ bvFin 6 n).extractLsb' 6 7 = 0 := by
      apply BitVec.eq_of_getLsbD_eq; intro i hi; simp; grind
    have h3 : (s ++ (0 : BitVec 7) ++ bvFin 6 n).extractLsb' 0 6 = bvFin 6 n := append_lo _ _
    unfold tapOf tapBits tapX
    simp only [h1, h2, h3]
    rfl

/-! ### Words -/

/-- Every check of a well-formed word holds. -/
theorem firstBad_none {l : List (Bool × IllFormed)} (h : firstBad l = none) : ∀ p ∈ l, p.1 = true := by
  induction l with
  | nil => simp
  | cons a r ih =>
    obtain ⟨b, e⟩ := a
    cases b
    · simp [firstBad] at h
    · simp only [firstBad] at h; intro p hp; rcases List.mem_cons.mp hp with rfl | hp
      · rfl
      · exact ih h p hp

/-- A legal scalar destination has a field, and keeps nothing. -/
theorem fits_dst {st o} (h : dstOk st o = true) : opndFits st o = true ∧ noKeep o = true := by
  cases st <;> cases o <;> simp_all [dstOk, regOk, chanWOk, opndFits, noKeep]

/-- A legal scalar source has a field. -/
theorem fits_src {st o} (h : srcOk st o = true) : opndFits st o = true := by
  cases st <;> cases o <;> simp_all [srcOk, regOk, chanROk, opndFits]

/-- The destination of an encoded word. -/
theorem d_enc (op fn h d a b x) (hd : dstOk h.st d = true) : (rawH op fn h (dstBits d) a b x).d = .ok d := by
  have := fits_dst hd
  simp [Raw.d, rawH, dstAs_bits, this, opndOf_bits]

/-- Its first source. -/
theorem a_enc (op fn h d a b x) (hd : srcOk h.st a = true) : (rawH op fn h d (opndBits a) b x).a = .ok a := by
  simp [Raw.a, rawH, opndOf_bits, fits_src hd]

/-- Its second source. -/
theorem b_enc (op fn h d a b x) (hd : srcOk h.st b = true) : (rawH op fn h d a (opndBits b) x).b = .ok b := by
  simp [Raw.b, rawH, opndOf_bits, fits_src hd]

/-- A word of three operands. -/
theorem dec3_enc3 (c op h d a b) (hd : dstOk h.st d = true) (ha : srcOk h.st a = true) (hb : srcOk h.st b = true) :
    dec3 c (enc3 op h d a b) = .ok (c h d a b) := by
  unfold dec3 enc3
  rw [d_enc _ _ _ _ _ _ _ hd, a_enc _ _ _ _ _ _ _ ha, b_enc _ _ _ _ _ _ _ hb, rawH_hdr]
  rfl

/-- A word decodes as its fields parse when it is well formed. -/
theorem dec_of_parse {i : Instr} {r : Raw} (hw : wf i = true) (hp : parseRaw r = .ok i) : decodeWord r.pack = .ok i := by
  unfold decodeWord decodeRaw
  rw [Raw.unpack_pack, hp]
  have : check i = none := by simpa [wf] using hw
  simp [this]

end Sys2Proof
end

