-- ==== Sys2Proof/Laws/Maps.lean ====
section
/-! SUPPORT. Laws of finite maps and of byte memory: a read after a write, and the canonical form. -/

namespace Sys2Proof.Machine

/-! ### Finite maps -/

theorem mget_filter_ne {α : Type} (d : α) (m : Map α) (k : Nat) : mget d (m.filter (fun p => p.1 != k)) k = d := by
  induction m with
  | nil => rfl
  | cons p r ih =>
    by_cases h : p.1 = k
    · simp [h, ih]
    · simp [h, mget, Ne.symm h, ih]

theorem mget_filter_other {α : Type} (d : α) (m : Map α) (k j : Nat) (h : j ≠ k) :
    mget d (m.filter (fun p => p.1 != k)) j = mget d m j := by
  induction m with
  | nil => rfl
  | cons p r ih =>
    by_cases hk : p.1 = k
    · simp [hk, mget, h, ih]
    · simp [hk, mget, ih]

theorem mget_mins_same {α : Type} (d : α) (m : Map α) (k : Nat) (v : α) : mget d (mins m k v) k = v := by
  induction m with
  | nil => simp [mins, mget]
  | cons p r ih =>
    simp only [mins]
    split
    · simp [mget]
    · split
      · simp [mget]
      · simp [mget, *]

theorem mget_mins_other {α : Type} (d : α) (m : Map α) (k j : Nat) (v : α) (h : j ≠ k) :
    mget d (mins m k v) j = mget d m j := by
  induction m with
  | nil => simp [mins, mget, h]
  | cons p r ih =>
    simp only [mins]
    split
    · simp [mget, h]
    · split
      · subst_vars; simp [mget, h]
      · simp [mget, ih]

/-- A read of a key after a write of that key. -/
@[simp] theorem mget_mset_same {α : Type} [DecidableEq α] (d : α) (m : Map α) (k : Nat) (v : α) :
    mget d (mset d m k v) k = v := by
  unfold mset
  split
  · subst_vars; exact mget_filter_ne _ m k
  · exact mget_mins_same d m k v

/-- A read of another key. -/
theorem mget_mset_other {α : Type} [DecidableEq α] (d : α) (m : Map α) (k j : Nat) (v : α) (h : j ≠ k) :
    mget d (mset d m k v) j = mget d m j := by
  unfold mset
  split
  · exact mget_filter_other d m k j h
  · exact mget_mins_other d m k j v h

theorem mget_mset {α : Type} [DecidableEq α] (d : α) (m : Map α) (k j : Nat) (v : α) :
    mget d (mset d m k v) j = if j = k then v else mget d m j := by
  split
  · subst_vars; simp
  · exact mget_mset_other d m k j v ‹_›

/-! ### Byte memory -/

/-- Reading after writing one byte. -/
theorem memGet_memSet (m : Mem) (a k : Nat) (b : Byte) : memGet (memSet m a b) k = if k = a then b else memGet m k :=
  mget_mset 0 m a k b

/-- A byte outside the cells written is unchanged. -/
theorem memGet_memCells_other (cs : List Host.Cell) (m : Mem) (k : Nat) (h : ∀ c ∈ cs, c.1 ≠ k) :
    memGet (memCells m cs) k = memGet m k := by
  induction cs generalizing m with
  | nil => rfl
  | cons c r ih =>
    have hc : ¬ k = c.1 := fun e => h c (by simp) e.symm
    have := ih (memSet m c.1 c.2) (fun d hd => h d (by simp [hd]))
    simp only [memCells, List.foldl_cons] at this ⊢
    rw [this, memGet_memSet, if_neg hc]

/-! ### The canonical form -/

theorem memWfFrom_mono {lo lo' : Nat} {m : Mem} (h : memWfFrom lo m = true) (hl : lo' ≤ lo) : memWfFrom lo' m = true := by
  cases m with
  | nil => rfl
  | cons p r =>
    obtain ⟨a, b⟩ := p
    simp only [memWfFrom, Bool.and_eq_true, decide_eq_true_eq] at h ⊢
    exact ⟨⟨by omega, h.1.2⟩, h.2⟩

theorem memWfFrom_filter {lo : Nat} {m : Mem} (f : Host.Cell → Bool) (h : memWfFrom lo m = true) :
    memWfFrom lo (m.filter f) = true := by
  induction m generalizing lo with
  | nil => rfl
  | cons p r ih =>
    obtain ⟨a, b⟩ := p
    simp only [memWfFrom, Bool.and_eq_true, decide_eq_true_eq] at h
    have hr := ih h.2
    cases hf : f (a, b)
    · simpa [List.filter_cons, hf] using memWfFrom_mono hr (by omega)
    · simp only [List.filter_cons, hf, if_true, memWfFrom, Bool.and_eq_true, decide_eq_true_eq]
      exact ⟨h.1, hr⟩

theorem memWfFrom_mins {lo : Nat} {m : Mem} {a : Nat} {b : Byte} (hb : b ≠ 0) (ha : lo ≤ a)
    (h : memWfFrom lo m = true) : memWfFrom lo (mins m a b) = true := by
  induction m generalizing lo with
  | nil => simpa [mins, memWfFrom, ha] using hb
  | cons p r ih =>
    obtain ⟨a', b'⟩ := p
    simp only [memWfFrom, Bool.and_eq_true, decide_eq_true_eq, bne_iff_ne] at h
    simp only [mins]
    split
    · simp only [memWfFrom, Bool.and_eq_true, decide_eq_true_eq, bne_iff_ne]
      exact ⟨⟨ha, hb⟩, ⟨by omega, h.1.2⟩, h.2⟩
    · split
      · subst_vars
        simp only [memWfFrom, Bool.and_eq_true, decide_eq_true_eq, bne_iff_ne]
        exact ⟨⟨ha, hb⟩, h.2⟩
      · simp only [memWfFrom, Bool.and_eq_true, decide_eq_true_eq, bne_iff_ne]
        exact ⟨⟨by omega, h.1.2⟩, ih (by omega) h.2⟩

/-- Writing one byte keeps the canonical form. -/
theorem memSet_wf {m : Mem} (a : Nat) (b : Byte) (h : m.wf = true) : (memSet m a b).wf = true := by
  unfold memSet mset
  split
  · exact memWfFrom_filter _ h
  · exact memWfFrom_mins ‹_› (Nat.zero_le a) h

/-- Writing cells keeps the canonical form. -/
theorem memCells_wf {m : Mem} (cs : List Host.Cell) (h : m.wf = true) : (memCells m cs).wf = true := by
  induction cs generalizing m with
  | nil => exact h
  | cons c r ih => exact ih (memSet_wf c.1 c.2 h)

/-- Writing consecutive bytes keeps the canonical form. -/
theorem memPut_wf {m : Mem} (a : Nat) (bs : List Byte) (h : m.wf = true) : (memPut m a bs).wf = true := by
  induction bs generalizing m a with
  | nil => exact h
  | cons b r ih => exact ih (a + 1) (memSet_wf a b h)

/-- Removing cells keeps the canonical form. -/
theorem filter_wf {m : Mem} (f : Host.Cell → Bool) (h : m.wf = true) : (Mem.wf (m.filter f)) = true :=
  memWfFrom_filter f h

end Sys2Proof.Machine
end

