-- ==== Sys2Proof/Laws/Memory.lean ====
section
/-! SUPPORT. The operations that change memory keep its canonical form, and what each of them writes. -/

namespace Sys2Proof.Machine

/-- A write that takes its place in the coherence order. -/
theorem toSystem_wf (s : State) (w : Wr) (h : s.mem.wf = true) : (s.toSystem w).mem.wf = true := memCells_wf w.cells h

/-- Such a write leaves the other locations alone. -/
theorem toSystem_other (s : State) (w : Wr) (k : Nat) (h : ∀ c ∈ w.cells, c.1 ≠ k) :
    memGet (s.toSystem w).mem k = memGet s.mem k := memGet_memCells_other w.cells s.mem k h

theorem append_wf (s : State) (i : Option StoreId) (w : Wr) (h : s.mem.wf = true) : (s.append i w).mem.wf = true := by
  cases i with
  | none => exact toSystem_wf s w h
  | some i => exact h

/-- Appending to a store leaves the system store alone. -/
theorem append_store_mem (s : State) (i : StoreId) (w : Wr) : (s.append (some i) w).mem = s.mem := rfl

theorem foldl_append_wf (nxt : Option StoreId) (ws : List Wr) (s : State) (h : s.mem.wf = true) :
    (ws.foldl (fun s w => s.append nxt w) s).mem.wf = true := by
  induction ws generalizing s with
  | nil => exact h
  | cons w r ih => exact ih (s.append nxt w) (append_wf s nxt w h)

theorem pushAll_wf (s : State) (i : StoreId) (nxt : Option StoreId) (h : s.mem.wf = true) :
    (s.pushAll i nxt).mem.wf = true := foldl_append_wf nxt (storeOf s.stores i) _ h

theorem pushBelow_wf (lvl : Nat) (is : List StoreId) (s : State) (h : s.mem.wf = true) : (s.pushBelow lvl is).mem.wf = true := by
  induction is generalizing s with
  | nil => exact h
  | cons i r ih =>
    simp only [State.pushBelow]
    split
    · exact ih _ (pushAll_wf s i r.head? h)
    · exact h

/-- The bytes of a frame move. -/
theorem moveFrame_wf (s : State) (old new size : Nat) (h : s.mem.wf = true) : (s.moveFrame old new size).mem.wf = true :=
  memCells_wf _ (filter_wf _ h)

/-- The line store of a core is cleared. -/
theorem clearLs_wf (s : State) (lc : Nat) (h : s.mem.wf = true) : (s.clearLs lc).mem.wf = true := filter_wf _ h

/-- The line store of a restored pass comes back. -/
theorem loadLs_wf (s : State) (p : Pass) (pos : Pos) (h : s.mem.wf = true) : (s.loadLs p pos).mem.wf = true :=
  memCells_wf _ h

/-- A loss of power. -/
theorem execModulePowerOn_wf (verified : Bool) (s t : State) (h : s.mem.wf = true) (e : execModulePowerOn verified s = .next t) :
    t.mem.wf = true := by
  obtain rfl := Host.Outcome.next.inj e
  exact filter_wf _ h

end Sys2Proof.Machine
end

