-- ==== Sys2Proof/Laws/State.lean ====
section
/-! SUPPORT. One lemma for each field and each shared update of the state: what the update leaves as it was. -/

namespace Sys2Proof.Machine

/-! ### State.updPass -/

@[simp] theorem updPass_cycle (s : State) (pid : Nat) (f : Pass → Pass) : (s.updPass pid f).cycle = s.cycle := rfl
@[simp] theorem updPass_turn (s : State) (pid : Nat) (f : Pass → Pass) : (s.updPass pid f).turn = s.turn := rfl
@[simp] theorem updPass_script (s : State) (pid : Nat) (f : Pass → Pass) : (s.updPass pid f).script = s.script := rfl
@[simp] theorem updPass_free (s : State) (pid : Nat) (f : Pass → Pass) : (s.updPass pid f).free = s.free := rfl
@[simp] theorem updPass_inputs (s : State) (pid : Nat) (f : Pass → Pass) : (s.updPass pid f).inputs = s.inputs := rfl
@[simp] theorem updPass_seq (s : State) (pid : Nat) (f : Pass → Pass) : (s.updPass pid f).seq = s.seq := rfl
@[simp] theorem updPass_mem (s : State) (pid : Nat) (f : Pass → Pass) : (s.updPass pid f).mem = s.mem := rfl
@[simp] theorem updPass_bufs (s : State) (pid : Nat) (f : Pass → Pass) : (s.updPass pid f).bufs = s.bufs := rfl
@[simp] theorem updPass_stores (s : State) (pid : Nat) (f : Pass → Pass) : (s.updPass pid f).stores = s.stores := rfl
@[simp] theorem updPass_waiters (s : State) (pid : Nat) (f : Pass → Pass) : (s.updPass pid f).waiters = s.waiters := rfl
@[simp] theorem updPass_dedupe (s : State) (pid : Nat) (f : Pass → Pass) : (s.updPass pid f).dedupe = s.dedupe := rfl
@[simp] theorem updPass_runs (s : State) (pid : Nat) (f : Pass → Pass) : (s.updPass pid f).runs = s.runs := rfl
@[simp] theorem updPass_nextId (s : State) (pid : Nat) (f : Pass → Pass) : (s.updPass pid f).nextId = s.nextId := rfl
@[simp] theorem updPass_remap (s : State) (pid : Nat) (f : Pass → Pass) : (s.updPass pid f).remap = s.remap := rfl
@[simp] theorem updPass_asids (s : State) (pid : Nat) (f : Pass → Pass) : (s.updPass pid f).asids = s.asids := rfl
@[simp] theorem updPass_binds (s : State) (pid : Nat) (f : Pass → Pass) : (s.updPass pid f).binds = s.binds := rfl
@[simp] theorem updPass_tlb (s : State) (pid : Nat) (f : Pass → Pass) : (s.updPass pid f).tlb = s.tlb := rfl
@[simp] theorem updPass_walks (s : State) (pid : Nat) (f : Pass → Pass) : (s.updPass pid f).walks = s.walks := rfl
@[simp] theorem updPass_faults (s : State) (pid : Nat) (f : Pass → Pass) : (s.updPass pid f).faults = s.faults := rfl
@[simp] theorem updPass_logq (s : State) (pid : Nat) (f : Pass → Pass) : (s.updPass pid f).logq = s.logq := rfl
@[simp] theorem updPass_pages (s : State) (pid : Nat) (f : Pass → Pass) : (s.updPass pid f).pages = s.pages := rfl
@[simp] theorem updPass_inval (s : State) (pid : Nat) (f : Pass → Pass) : (s.updPass pid f).inval = s.inval := rfl
@[simp] theorem updPass_mg (s : State) (pid : Nat) (f : Pass → Pass) : (s.updPass pid f).mg = s.mg := rfl
@[simp] theorem updPass_dies (s : State) (pid : Nat) (f : Pass → Pass) : (s.updPass pid f).dies = s.dies := rfl
@[simp] theorem updPass_fullDies (s : State) (pid : Nat) (f : Pass → Pass) : (s.updPass pid f).fullDies = s.fullDies := rfl
@[simp] theorem updPass_leaving (s : State) (pid : Nat) (f : Pass → Pass) : (s.updPass pid f).leaving = s.leaving := rfl
@[simp] theorem updPass_sparing (s : State) (pid : Nat) (f : Pass → Pass) : (s.updPass pid f).sparing = s.sparing := rfl
@[simp] theorem updPass_spared (s : State) (pid : Nat) (f : Pass → Pass) : (s.updPass pid f).spared = s.spared := rfl
@[simp] theorem updPass_outCores (s : State) (pid : Nat) (f : Pass → Pass) : (s.updPass pid f).outCores = s.outCores := rfl
@[simp] theorem updPass_links (s : State) (pid : Nat) (f : Pass → Pass) : (s.updPass pid f).links = s.links := rfl
@[simp] theorem updPass_gated (s : State) (pid : Nat) (f : Pass → Pass) : (s.updPass pid f).gated = s.gated := rfl
@[simp] theorem updPass_msgs (s : State) (pid : Nat) (f : Pass → Pass) : (s.updPass pid f).msgs = s.msgs := rfl
@[simp] theorem updPass_sent (s : State) (pid : Nat) (f : Pass → Pass) : (s.updPass pid f).sent = s.sent := rfl
@[simp] theorem updPass_poison (s : State) (pid : Nat) (f : Pass → Pass) : (s.updPass pid f).poison = s.poison := rfl
@[simp] theorem updPass_badRegions (s : State) (pid : Nat) (f : Pass → Pass) : (s.updPass pid f).badRegions = s.badRegions := rfl
@[simp] theorem updPass_poisonTiles (s : State) (pid : Nat) (f : Pass → Pass) : (s.updPass pid f).poisonTiles = s.poisonTiles := rfl
@[simp] theorem updPass_counts (s : State) (pid : Nat) (f : Pass → Pass) : (s.updPass pid f).counts = s.counts := rfl
@[simp] theorem updPass_reports (s : State) (pid : Nat) (f : Pass → Pass) : (s.updPass pid f).reports = s.reports := rfl
@[simp] theorem updPass_reads (s : State) (pid : Nat) (f : Pass → Pass) : (s.updPass pid f).reads = s.reads := rfl
@[simp] theorem updPass_powered (s : State) (pid : Nat) (f : Pass → Pass) : (s.updPass pid f).powered = s.powered := rfl
@[simp] theorem updPass_capo (s : State) (pid : Nat) (f : Pass → Pass) : (s.updPass pid f).capo = s.capo := rfl
@[simp] theorem updPass_images (s : State) (pid : Nat) (f : Pass → Pass) : (s.updPass pid f).images = s.images := rfl

/-! ### State.updRun -/

@[simp] theorem updRun_cycle (s : State) (rid : Nat) (f : Run → Run) : (s.updRun rid f).cycle = s.cycle := rfl
@[simp] theorem updRun_turn (s : State) (rid : Nat) (f : Run → Run) : (s.updRun rid f).turn = s.turn := rfl
@[simp] theorem updRun_script (s : State) (rid : Nat) (f : Run → Run) : (s.updRun rid f).script = s.script := rfl
@[simp] theorem updRun_free (s : State) (rid : Nat) (f : Run → Run) : (s.updRun rid f).free = s.free := rfl
@[simp] theorem updRun_inputs (s : State) (rid : Nat) (f : Run → Run) : (s.updRun rid f).inputs = s.inputs := rfl
@[simp] theorem updRun_seq (s : State) (rid : Nat) (f : Run → Run) : (s.updRun rid f).seq = s.seq := rfl
@[simp] theorem updRun_mem (s : State) (rid : Nat) (f : Run → Run) : (s.updRun rid f).mem = s.mem := rfl
@[simp] theorem updRun_bufs (s : State) (rid : Nat) (f : Run → Run) : (s.updRun rid f).bufs = s.bufs := rfl
@[simp] theorem updRun_stores (s : State) (rid : Nat) (f : Run → Run) : (s.updRun rid f).stores = s.stores := rfl
@[simp] theorem updRun_waiters (s : State) (rid : Nat) (f : Run → Run) : (s.updRun rid f).waiters = s.waiters := rfl
@[simp] theorem updRun_dedupe (s : State) (rid : Nat) (f : Run → Run) : (s.updRun rid f).dedupe = s.dedupe := rfl
@[simp] theorem updRun_passes (s : State) (rid : Nat) (f : Run → Run) : (s.updRun rid f).passes = s.passes := rfl
@[simp] theorem updRun_nextId (s : State) (rid : Nat) (f : Run → Run) : (s.updRun rid f).nextId = s.nextId := rfl
@[simp] theorem updRun_remap (s : State) (rid : Nat) (f : Run → Run) : (s.updRun rid f).remap = s.remap := rfl
@[simp] theorem updRun_asids (s : State) (rid : Nat) (f : Run → Run) : (s.updRun rid f).asids = s.asids := rfl
@[simp] theorem updRun_binds (s : State) (rid : Nat) (f : Run → Run) : (s.updRun rid f).binds = s.binds := rfl
@[simp] theorem updRun_tlb (s : State) (rid : Nat) (f : Run → Run) : (s.updRun rid f).tlb = s.tlb := rfl
@[simp] theorem updRun_walks (s : State) (rid : Nat) (f : Run → Run) : (s.updRun rid f).walks = s.walks := rfl
@[simp] theorem updRun_faults (s : State) (rid : Nat) (f : Run → Run) : (s.updRun rid f).faults = s.faults := rfl
@[simp] theorem updRun_logq (s : State) (rid : Nat) (f : Run → Run) : (s.updRun rid f).logq = s.logq := rfl
@[simp] theorem updRun_pages (s : State) (rid : Nat) (f : Run → Run) : (s.updRun rid f).pages = s.pages := rfl
@[simp] theorem updRun_inval (s : State) (rid : Nat) (f : Run → Run) : (s.updRun rid f).inval = s.inval := rfl
@[simp] theorem updRun_mg (s : State) (rid : Nat) (f : Run → Run) : (s.updRun rid f).mg = s.mg := rfl
@[simp] theorem updRun_dies (s : State) (rid : Nat) (f : Run → Run) : (s.updRun rid f).dies = s.dies := rfl
@[simp] theorem updRun_fullDies (s : State) (rid : Nat) (f : Run → Run) : (s.updRun rid f).fullDies = s.fullDies := rfl
@[simp] theorem updRun_leaving (s : State) (rid : Nat) (f : Run → Run) : (s.updRun rid f).leaving = s.leaving := rfl
@[simp] theorem updRun_sparing (s : State) (rid : Nat) (f : Run → Run) : (s.updRun rid f).sparing = s.sparing := rfl
@[simp] theorem updRun_spared (s : State) (rid : Nat) (f : Run → Run) : (s.updRun rid f).spared = s.spared := rfl
@[simp] theorem updRun_outCores (s : State) (rid : Nat) (f : Run → Run) : (s.updRun rid f).outCores = s.outCores := rfl
@[simp] theorem updRun_links (s : State) (rid : Nat) (f : Run → Run) : (s.updRun rid f).links = s.links := rfl
@[simp] theorem updRun_gated (s : State) (rid : Nat) (f : Run → Run) : (s.updRun rid f).gated = s.gated := rfl
@[simp] theorem updRun_msgs (s : State) (rid : Nat) (f : Run → Run) : (s.updRun rid f).msgs = s.msgs := rfl
@[simp] theorem updRun_sent (s : State) (rid : Nat) (f : Run → Run) : (s.updRun rid f).sent = s.sent := rfl
@[simp] theorem updRun_poison (s : State) (rid : Nat) (f : Run → Run) : (s.updRun rid f).poison = s.poison := rfl
@[simp] theorem updRun_badRegions (s : State) (rid : Nat) (f : Run → Run) : (s.updRun rid f).badRegions = s.badRegions := rfl
@[simp] theorem updRun_poisonTiles (s : State) (rid : Nat) (f : Run → Run) : (s.updRun rid f).poisonTiles = s.poisonTiles := rfl
@[simp] theorem updRun_counts (s : State) (rid : Nat) (f : Run → Run) : (s.updRun rid f).counts = s.counts := rfl
@[simp] theorem updRun_reports (s : State) (rid : Nat) (f : Run → Run) : (s.updRun rid f).reports = s.reports := rfl
@[simp] theorem updRun_reads (s : State) (rid : Nat) (f : Run → Run) : (s.updRun rid f).reads = s.reads := rfl
@[simp] theorem updRun_powered (s : State) (rid : Nat) (f : Run → Run) : (s.updRun rid f).powered = s.powered := rfl
@[simp] theorem updRun_capo (s : State) (rid : Nat) (f : Run → Run) : (s.updRun rid f).capo = s.capo := rfl
@[simp] theorem updRun_images (s : State) (rid : Nat) (f : Run → Run) : (s.updRun rid f).images = s.images := rfl

/-! ### State.updCore -/

@[simp] theorem updCore_cycle (s : State) (pid qc : Nat) (f : CoreSt → CoreSt) : (s.updCore pid qc f).cycle = s.cycle := rfl
@[simp] theorem updCore_turn (s : State) (pid qc : Nat) (f : CoreSt → CoreSt) : (s.updCore pid qc f).turn = s.turn := rfl
@[simp] theorem updCore_script (s : State) (pid qc : Nat) (f : CoreSt → CoreSt) : (s.updCore pid qc f).script = s.script := rfl
@[simp] theorem updCore_free (s : State) (pid qc : Nat) (f : CoreSt → CoreSt) : (s.updCore pid qc f).free = s.free := rfl
@[simp] theorem updCore_inputs (s : State) (pid qc : Nat) (f : CoreSt → CoreSt) : (s.updCore pid qc f).inputs = s.inputs := rfl
@[simp] theorem updCore_seq (s : State) (pid qc : Nat) (f : CoreSt → CoreSt) : (s.updCore pid qc f).seq = s.seq := rfl
@[simp] theorem updCore_mem (s : State) (pid qc : Nat) (f : CoreSt → CoreSt) : (s.updCore pid qc f).mem = s.mem := rfl
@[simp] theorem updCore_bufs (s : State) (pid qc : Nat) (f : CoreSt → CoreSt) : (s.updCore pid qc f).bufs = s.bufs := rfl
@[simp] theorem updCore_stores (s : State) (pid qc : Nat) (f : CoreSt → CoreSt) : (s.updCore pid qc f).stores = s.stores := rfl
@[simp] theorem updCore_waiters (s : State) (pid qc : Nat) (f : CoreSt → CoreSt) : (s.updCore pid qc f).waiters = s.waiters := rfl
@[simp] theorem updCore_dedupe (s : State) (pid qc : Nat) (f : CoreSt → CoreSt) : (s.updCore pid qc f).dedupe = s.dedupe := rfl
@[simp] theorem updCore_runs (s : State) (pid qc : Nat) (f : CoreSt → CoreSt) : (s.updCore pid qc f).runs = s.runs := rfl
@[simp] theorem updCore_nextId (s : State) (pid qc : Nat) (f : CoreSt → CoreSt) : (s.updCore pid qc f).nextId = s.nextId := rfl
@[simp] theorem updCore_remap (s : State) (pid qc : Nat) (f : CoreSt → CoreSt) : (s.updCore pid qc f).remap = s.remap := rfl
@[simp] theorem updCore_asids (s : State) (pid qc : Nat) (f : CoreSt → CoreSt) : (s.updCore pid qc f).asids = s.asids := rfl
@[simp] theorem updCore_binds (s : State) (pid qc : Nat) (f : CoreSt → CoreSt) : (s.updCore pid qc f).binds = s.binds := rfl
@[simp] theorem updCore_tlb (s : State) (pid qc : Nat) (f : CoreSt → CoreSt) : (s.updCore pid qc f).tlb = s.tlb := rfl
@[simp] theorem updCore_walks (s : State) (pid qc : Nat) (f : CoreSt → CoreSt) : (s.updCore pid qc f).walks = s.walks := rfl
@[simp] theorem updCore_faults (s : State) (pid qc : Nat) (f : CoreSt → CoreSt) : (s.updCore pid qc f).faults = s.faults := rfl
@[simp] theorem updCore_logq (s : State) (pid qc : Nat) (f : CoreSt → CoreSt) : (s.updCore pid qc f).logq = s.logq := rfl
@[simp] theorem updCore_pages (s : State) (pid qc : Nat) (f : CoreSt → CoreSt) : (s.updCore pid qc f).pages = s.pages := rfl
@[simp] theorem updCore_inval (s : State) (pid qc : Nat) (f : CoreSt → CoreSt) : (s.updCore pid qc f).inval = s.inval := rfl
@[simp] theorem updCore_mg (s : State) (pid qc : Nat) (f : CoreSt → CoreSt) : (s.updCore pid qc f).mg = s.mg := rfl
@[simp] theorem updCore_dies (s : State) (pid qc : Nat) (f : CoreSt → CoreSt) : (s.updCore pid qc f).dies = s.dies := rfl
@[simp] theorem updCore_fullDies (s : State) (pid qc : Nat) (f : CoreSt → CoreSt) : (s.updCore pid qc f).fullDies = s.fullDies := rfl
@[simp] theorem updCore_leaving (s : State) (pid qc : Nat) (f : CoreSt → CoreSt) : (s.updCore pid qc f).leaving = s.leaving := rfl
@[simp] theorem updCore_sparing (s : State) (pid qc : Nat) (f : CoreSt → CoreSt) : (s.updCore pid qc f).sparing = s.sparing := rfl
@[simp] theorem updCore_spared (s : State) (pid qc : Nat) (f : CoreSt → CoreSt) : (s.updCore pid qc f).spared = s.spared := rfl
@[simp] theorem updCore_outCores (s : State) (pid qc : Nat) (f : CoreSt → CoreSt) : (s.updCore pid qc f).outCores = s.outCores := rfl
@[simp] theorem updCore_links (s : State) (pid qc : Nat) (f : CoreSt → CoreSt) : (s.updCore pid qc f).links = s.links := rfl
@[simp] theorem updCore_gated (s : State) (pid qc : Nat) (f : CoreSt → CoreSt) : (s.updCore pid qc f).gated = s.gated := rfl
@[simp] theorem updCore_msgs (s : State) (pid qc : Nat) (f : CoreSt → CoreSt) : (s.updCore pid qc f).msgs = s.msgs := rfl
@[simp] theorem updCore_sent (s : State) (pid qc : Nat) (f : CoreSt → CoreSt) : (s.updCore pid qc f).sent = s.sent := rfl
@[simp] theorem updCore_poison (s : State) (pid qc : Nat) (f : CoreSt → CoreSt) : (s.updCore pid qc f).poison = s.poison := rfl
@[simp] theorem updCore_badRegions (s : State) (pid qc : Nat) (f : CoreSt → CoreSt) : (s.updCore pid qc f).badRegions = s.badRegions := rfl
@[simp] theorem updCore_poisonTiles (s : State) (pid qc : Nat) (f : CoreSt → CoreSt) : (s.updCore pid qc f).poisonTiles = s.poisonTiles := rfl
@[simp] theorem updCore_counts (s : State) (pid qc : Nat) (f : CoreSt → CoreSt) : (s.updCore pid qc f).counts = s.counts := rfl
@[simp] theorem updCore_reports (s : State) (pid qc : Nat) (f : CoreSt → CoreSt) : (s.updCore pid qc f).reports = s.reports := rfl
@[simp] theorem updCore_reads (s : State) (pid qc : Nat) (f : CoreSt → CoreSt) : (s.updCore pid qc f).reads = s.reads := rfl
@[simp] theorem updCore_powered (s : State) (pid qc : Nat) (f : CoreSt → CoreSt) : (s.updCore pid qc f).powered = s.powered := rfl
@[simp] theorem updCore_capo (s : State) (pid qc : Nat) (f : CoreSt → CoreSt) : (s.updCore pid qc f).capo = s.capo := rfl
@[simp] theorem updCore_images (s : State) (pid qc : Nat) (f : CoreSt → CoreSt) : (s.updCore pid qc f).images = s.images := rfl

/-! ### State.updStream -/

@[simp] theorem updStream_cycle (s : State) (pid qc : Nat) (st : Stream) (f : StreamSt → StreamSt) : (s.updStream pid qc st f).cycle = s.cycle := rfl
@[simp] theorem updStream_turn (s : State) (pid qc : Nat) (st : Stream) (f : StreamSt → StreamSt) : (s.updStream pid qc st f).turn = s.turn := rfl
@[simp] theorem updStream_script (s : State) (pid qc : Nat) (st : Stream) (f : StreamSt → StreamSt) : (s.updStream pid qc st f).script = s.script := rfl
@[simp] theorem updStream_free (s : State) (pid qc : Nat) (st : Stream) (f : StreamSt → StreamSt) : (s.updStream pid qc st f).free = s.free := rfl
@[simp] theorem updStream_inputs (s : State) (pid qc : Nat) (st : Stream) (f : StreamSt → StreamSt) : (s.updStream pid qc st f).inputs = s.inputs := rfl
@[simp] theorem updStream_seq (s : State) (pid qc : Nat) (st : Stream) (f : StreamSt → StreamSt) : (s.updStream pid qc st f).seq = s.seq := rfl
@[simp] theorem updStream_mem (s : State) (pid qc : Nat) (st : Stream) (f : StreamSt → StreamSt) : (s.updStream pid qc st f).mem = s.mem := rfl
@[simp] theorem updStream_bufs (s : State) (pid qc : Nat) (st : Stream) (f : StreamSt → StreamSt) : (s.updStream pid qc st f).bufs = s.bufs := rfl
@[simp] theorem updStream_stores (s : State) (pid qc : Nat) (st : Stream) (f : StreamSt → StreamSt) : (s.updStream pid qc st f).stores = s.stores := rfl
@[simp] theorem updStream_waiters (s : State) (pid qc : Nat) (st : Stream) (f : StreamSt → StreamSt) : (s.updStream pid qc st f).waiters = s.waiters := rfl
@[simp] theorem updStream_dedupe (s : State) (pid qc : Nat) (st : Stream) (f : StreamSt → StreamSt) : (s.updStream pid qc st f).dedupe = s.dedupe := rfl
@[simp] theorem updStream_runs (s : State) (pid qc : Nat) (st : Stream) (f : StreamSt → StreamSt) : (s.updStream pid qc st f).runs = s.runs := rfl
@[simp] theorem updStream_nextId (s : State) (pid qc : Nat) (st : Stream) (f : StreamSt → StreamSt) : (s.updStream pid qc st f).nextId = s.nextId := rfl
@[simp] theorem updStream_remap (s : State) (pid qc : Nat) (st : Stream) (f : StreamSt → StreamSt) : (s.updStream pid qc st f).remap = s.remap := rfl
@[simp] theorem updStream_asids (s : State) (pid qc : Nat) (st : Stream) (f : StreamSt → StreamSt) : (s.updStream pid qc st f).asids = s.asids := rfl
@[simp] theorem updStream_binds (s : State) (pid qc : Nat) (st : Stream) (f : StreamSt → StreamSt) : (s.updStream pid qc st f).binds = s.binds := rfl
@[simp] theorem updStream_tlb (s : State) (pid qc : Nat) (st : Stream) (f : StreamSt → StreamSt) : (s.updStream pid qc st f).tlb = s.tlb := rfl
@[simp] theorem updStream_walks (s : State) (pid qc : Nat) (st : Stream) (f : StreamSt → StreamSt) : (s.updStream pid qc st f).walks = s.walks := rfl
@[simp] theorem updStream_faults (s : State) (pid qc : Nat) (st : Stream) (f : StreamSt → StreamSt) : (s.updStream pid qc st f).faults = s.faults := rfl
@[simp] theorem updStream_logq (s : State) (pid qc : Nat) (st : Stream) (f : StreamSt → StreamSt) : (s.updStream pid qc st f).logq = s.logq := rfl
@[simp] theorem updStream_pages (s : State) (pid qc : Nat) (st : Stream) (f : StreamSt → StreamSt) : (s.updStream pid qc st f).pages = s.pages := rfl
@[simp] theorem updStream_inval (s : State) (pid qc : Nat) (st : Stream) (f : StreamSt → StreamSt) : (s.updStream pid qc st f).inval = s.inval := rfl
@[simp] theorem updStream_mg (s : State) (pid qc : Nat) (st : Stream) (f : StreamSt → StreamSt) : (s.updStream pid qc st f).mg = s.mg := rfl
@[simp] theorem updStream_dies (s : State) (pid qc : Nat) (st : Stream) (f : StreamSt → StreamSt) : (s.updStream pid qc st f).dies = s.dies := rfl
@[simp] theorem updStream_fullDies (s : State) (pid qc : Nat) (st : Stream) (f : StreamSt → StreamSt) : (s.updStream pid qc st f).fullDies = s.fullDies := rfl
@[simp] theorem updStream_leaving (s : State) (pid qc : Nat) (st : Stream) (f : StreamSt → StreamSt) : (s.updStream pid qc st f).leaving = s.leaving := rfl
@[simp] theorem updStream_sparing (s : State) (pid qc : Nat) (st : Stream) (f : StreamSt → StreamSt) : (s.updStream pid qc st f).sparing = s.sparing := rfl
@[simp] theorem updStream_spared (s : State) (pid qc : Nat) (st : Stream) (f : StreamSt → StreamSt) : (s.updStream pid qc st f).spared = s.spared := rfl
@[simp] theorem updStream_outCores (s : State) (pid qc : Nat) (st : Stream) (f : StreamSt → StreamSt) : (s.updStream pid qc st f).outCores = s.outCores := rfl
@[simp] theorem updStream_links (s : State) (pid qc : Nat) (st : Stream) (f : StreamSt → StreamSt) : (s.updStream pid qc st f).links = s.links := rfl
@[simp] theorem updStream_gated (s : State) (pid qc : Nat) (st : Stream) (f : StreamSt → StreamSt) : (s.updStream pid qc st f).gated = s.gated := rfl
@[simp] theorem updStream_msgs (s : State) (pid qc : Nat) (st : Stream) (f : StreamSt → StreamSt) : (s.updStream pid qc st f).msgs = s.msgs := rfl
@[simp] theorem updStream_sent (s : State) (pid qc : Nat) (st : Stream) (f : StreamSt → StreamSt) : (s.updStream pid qc st f).sent = s.sent := rfl
@[simp] theorem updStream_poison (s : State) (pid qc : Nat) (st : Stream) (f : StreamSt → StreamSt) : (s.updStream pid qc st f).poison = s.poison := rfl
@[simp] theorem updStream_badRegions (s : State) (pid qc : Nat) (st : Stream) (f : StreamSt → StreamSt) : (s.updStream pid qc st f).badRegions = s.badRegions := rfl
@[simp] theorem updStream_poisonTiles (s : State) (pid qc : Nat) (st : Stream) (f : StreamSt → StreamSt) : (s.updStream pid qc st f).poisonTiles = s.poisonTiles := rfl
@[simp] theorem updStream_counts (s : State) (pid qc : Nat) (st : Stream) (f : StreamSt → StreamSt) : (s.updStream pid qc st f).counts = s.counts := rfl
@[simp] theorem updStream_reports (s : State) (pid qc : Nat) (st : Stream) (f : StreamSt → StreamSt) : (s.updStream pid qc st f).reports = s.reports := rfl
@[simp] theorem updStream_reads (s : State) (pid qc : Nat) (st : Stream) (f : StreamSt → StreamSt) : (s.updStream pid qc st f).reads = s.reads := rfl
@[simp] theorem updStream_powered (s : State) (pid qc : Nat) (st : Stream) (f : StreamSt → StreamSt) : (s.updStream pid qc st f).powered = s.powered := rfl
@[simp] theorem updStream_capo (s : State) (pid qc : Nat) (st : Stream) (f : StreamSt → StreamSt) : (s.updStream pid qc st f).capo = s.capo := rfl
@[simp] theorem updStream_images (s : State) (pid qc : Nat) (st : Stream) (f : StreamSt → StreamSt) : (s.updStream pid qc st f).images = s.images := rfl

/-! ### State.tickSeq -/

@[simp] theorem tickSeq_cycle (s : State) : s.tickSeq.cycle = s.cycle := rfl
@[simp] theorem tickSeq_turn (s : State) : s.tickSeq.turn = s.turn := rfl
@[simp] theorem tickSeq_script (s : State) : s.tickSeq.script = s.script := rfl
@[simp] theorem tickSeq_free (s : State) : s.tickSeq.free = s.free := rfl
@[simp] theorem tickSeq_inputs (s : State) : s.tickSeq.inputs = s.inputs := rfl
@[simp] theorem tickSeq_mem (s : State) : s.tickSeq.mem = s.mem := rfl
@[simp] theorem tickSeq_bufs (s : State) : s.tickSeq.bufs = s.bufs := rfl
@[simp] theorem tickSeq_stores (s : State) : s.tickSeq.stores = s.stores := rfl
@[simp] theorem tickSeq_waiters (s : State) : s.tickSeq.waiters = s.waiters := rfl
@[simp] theorem tickSeq_dedupe (s : State) : s.tickSeq.dedupe = s.dedupe := rfl
@[simp] theorem tickSeq_passes (s : State) : s.tickSeq.passes = s.passes := rfl
@[simp] theorem tickSeq_runs (s : State) : s.tickSeq.runs = s.runs := rfl
@[simp] theorem tickSeq_nextId (s : State) : s.tickSeq.nextId = s.nextId := rfl
@[simp] theorem tickSeq_remap (s : State) : s.tickSeq.remap = s.remap := rfl
@[simp] theorem tickSeq_asids (s : State) : s.tickSeq.asids = s.asids := rfl
@[simp] theorem tickSeq_binds (s : State) : s.tickSeq.binds = s.binds := rfl
@[simp] theorem tickSeq_tlb (s : State) : s.tickSeq.tlb = s.tlb := rfl
@[simp] theorem tickSeq_walks (s : State) : s.tickSeq.walks = s.walks := rfl
@[simp] theorem tickSeq_faults (s : State) : s.tickSeq.faults = s.faults := rfl
@[simp] theorem tickSeq_logq (s : State) : s.tickSeq.logq = s.logq := rfl
@[simp] theorem tickSeq_pages (s : State) : s.tickSeq.pages = s.pages := rfl
@[simp] theorem tickSeq_inval (s : State) : s.tickSeq.inval = s.inval := rfl
@[simp] theorem tickSeq_mg (s : State) : s.tickSeq.mg = s.mg := rfl
@[simp] theorem tickSeq_dies (s : State) : s.tickSeq.dies = s.dies := rfl
@[simp] theorem tickSeq_fullDies (s : State) : s.tickSeq.fullDies = s.fullDies := rfl
@[simp] theorem tickSeq_leaving (s : State) : s.tickSeq.leaving = s.leaving := rfl
@[simp] theorem tickSeq_sparing (s : State) : s.tickSeq.sparing = s.sparing := rfl
@[simp] theorem tickSeq_spared (s : State) : s.tickSeq.spared = s.spared := rfl
@[simp] theorem tickSeq_outCores (s : State) : s.tickSeq.outCores = s.outCores := rfl
@[simp] theorem tickSeq_links (s : State) : s.tickSeq.links = s.links := rfl
@[simp] theorem tickSeq_gated (s : State) : s.tickSeq.gated = s.gated := rfl
@[simp] theorem tickSeq_msgs (s : State) : s.tickSeq.msgs = s.msgs := rfl
@[simp] theorem tickSeq_sent (s : State) : s.tickSeq.sent = s.sent := rfl
@[simp] theorem tickSeq_poison (s : State) : s.tickSeq.poison = s.poison := rfl
@[simp] theorem tickSeq_badRegions (s : State) : s.tickSeq.badRegions = s.badRegions := rfl
@[simp] theorem tickSeq_poisonTiles (s : State) : s.tickSeq.poisonTiles = s.poisonTiles := rfl
@[simp] theorem tickSeq_counts (s : State) : s.tickSeq.counts = s.counts := rfl
@[simp] theorem tickSeq_reports (s : State) : s.tickSeq.reports = s.reports := rfl
@[simp] theorem tickSeq_reads (s : State) : s.tickSeq.reads = s.reads := rfl
@[simp] theorem tickSeq_powered (s : State) : s.tickSeq.powered = s.powered := rfl
@[simp] theorem tickSeq_capo (s : State) : s.tickSeq.capo = s.capo := rfl
@[simp] theorem tickSeq_images (s : State) : s.tickSeq.images = s.images := rfl

/-! ### State.report -/

@[simp] theorem report_cycle (s : State) (r : Report) : (s.report r).cycle = s.cycle := rfl
@[simp] theorem report_turn (s : State) (r : Report) : (s.report r).turn = s.turn := rfl
@[simp] theorem report_script (s : State) (r : Report) : (s.report r).script = s.script := rfl
@[simp] theorem report_free (s : State) (r : Report) : (s.report r).free = s.free := rfl
@[simp] theorem report_inputs (s : State) (r : Report) : (s.report r).inputs = s.inputs := rfl
@[simp] theorem report_seq (s : State) (r : Report) : (s.report r).seq = s.seq := rfl
@[simp] theorem report_mem (s : State) (r : Report) : (s.report r).mem = s.mem := rfl
@[simp] theorem report_bufs (s : State) (r : Report) : (s.report r).bufs = s.bufs := rfl
@[simp] theorem report_stores (s : State) (r : Report) : (s.report r).stores = s.stores := rfl
@[simp] theorem report_waiters (s : State) (r : Report) : (s.report r).waiters = s.waiters := rfl
@[simp] theorem report_dedupe (s : State) (r : Report) : (s.report r).dedupe = s.dedupe := rfl
@[simp] theorem report_passes (s : State) (r : Report) : (s.report r).passes = s.passes := rfl
@[simp] theorem report_runs (s : State) (r : Report) : (s.report r).runs = s.runs := rfl
@[simp] theorem report_nextId (s : State) (r : Report) : (s.report r).nextId = s.nextId := rfl
@[simp] theorem report_remap (s : State) (r : Report) : (s.report r).remap = s.remap := rfl
@[simp] theorem report_asids (s : State) (r : Report) : (s.report r).asids = s.asids := rfl
@[simp] theorem report_binds (s : State) (r : Report) : (s.report r).binds = s.binds := rfl
@[simp] theorem report_tlb (s : State) (r : Report) : (s.report r).tlb = s.tlb := rfl
@[simp] theorem report_walks (s : State) (r : Report) : (s.report r).walks = s.walks := rfl
@[simp] theorem report_faults (s : State) (r : Report) : (s.report r).faults = s.faults := rfl
@[simp] theorem report_logq (s : State) (r : Report) : (s.report r).logq = s.logq := rfl
@[simp] theorem report_pages (s : State) (r : Report) : (s.report r).pages = s.pages := rfl
@[simp] theorem report_inval (s : State) (r : Report) : (s.report r).inval = s.inval := rfl
@[simp] theorem report_mg (s : State) (r : Report) : (s.report r).mg = s.mg := rfl
@[simp] theorem report_dies (s : State) (r : Report) : (s.report r).dies = s.dies := rfl
@[simp] theorem report_fullDies (s : State) (r : Report) : (s.report r).fullDies = s.fullDies := rfl
@[simp] theorem report_leaving (s : State) (r : Report) : (s.report r).leaving = s.leaving := rfl
@[simp] theorem report_sparing (s : State) (r : Report) : (s.report r).sparing = s.sparing := rfl
@[simp] theorem report_spared (s : State) (r : Report) : (s.report r).spared = s.spared := rfl
@[simp] theorem report_outCores (s : State) (r : Report) : (s.report r).outCores = s.outCores := rfl
@[simp] theorem report_links (s : State) (r : Report) : (s.report r).links = s.links := rfl
@[simp] theorem report_gated (s : State) (r : Report) : (s.report r).gated = s.gated := rfl
@[simp] theorem report_msgs (s : State) (r : Report) : (s.report r).msgs = s.msgs := rfl
@[simp] theorem report_sent (s : State) (r : Report) : (s.report r).sent = s.sent := rfl
@[simp] theorem report_poison (s : State) (r : Report) : (s.report r).poison = s.poison := rfl
@[simp] theorem report_badRegions (s : State) (r : Report) : (s.report r).badRegions = s.badRegions := rfl
@[simp] theorem report_poisonTiles (s : State) (r : Report) : (s.report r).poisonTiles = s.poisonTiles := rfl
@[simp] theorem report_counts (s : State) (r : Report) : (s.report r).counts = s.counts := rfl
@[simp] theorem report_reads (s : State) (r : Report) : (s.report r).reads = s.reads := rfl
@[simp] theorem report_powered (s : State) (r : Report) : (s.report r).powered = s.powered := rfl
@[simp] theorem report_capo (s : State) (r : Report) : (s.report r).capo = s.capo := rfl
@[simp] theorem report_images (s : State) (r : Report) : (s.report r).images = s.images := rfl

/-! ### State.issueEntry -/

@[simp] theorem issueEntry_cycle (s : State) (ag : Agent) (cl : Cls) (e : Entry) : (s.issueEntry ag cl e).cycle = s.cycle := rfl
@[simp] theorem issueEntry_turn (s : State) (ag : Agent) (cl : Cls) (e : Entry) : (s.issueEntry ag cl e).turn = s.turn := rfl
@[simp] theorem issueEntry_script (s : State) (ag : Agent) (cl : Cls) (e : Entry) : (s.issueEntry ag cl e).script = s.script := rfl
@[simp] theorem issueEntry_free (s : State) (ag : Agent) (cl : Cls) (e : Entry) : (s.issueEntry ag cl e).free = s.free := rfl
@[simp] theorem issueEntry_inputs (s : State) (ag : Agent) (cl : Cls) (e : Entry) : (s.issueEntry ag cl e).inputs = s.inputs := rfl
@[simp] theorem issueEntry_seq (s : State) (ag : Agent) (cl : Cls) (e : Entry) : (s.issueEntry ag cl e).seq = s.seq := rfl
@[simp] theorem issueEntry_mem (s : State) (ag : Agent) (cl : Cls) (e : Entry) : (s.issueEntry ag cl e).mem = s.mem := rfl
@[simp] theorem issueEntry_stores (s : State) (ag : Agent) (cl : Cls) (e : Entry) : (s.issueEntry ag cl e).stores = s.stores := rfl
@[simp] theorem issueEntry_waiters (s : State) (ag : Agent) (cl : Cls) (e : Entry) : (s.issueEntry ag cl e).waiters = s.waiters := rfl
@[simp] theorem issueEntry_dedupe (s : State) (ag : Agent) (cl : Cls) (e : Entry) : (s.issueEntry ag cl e).dedupe = s.dedupe := rfl
@[simp] theorem issueEntry_passes (s : State) (ag : Agent) (cl : Cls) (e : Entry) : (s.issueEntry ag cl e).passes = s.passes := rfl
@[simp] theorem issueEntry_runs (s : State) (ag : Agent) (cl : Cls) (e : Entry) : (s.issueEntry ag cl e).runs = s.runs := rfl
@[simp] theorem issueEntry_nextId (s : State) (ag : Agent) (cl : Cls) (e : Entry) : (s.issueEntry ag cl e).nextId = s.nextId := rfl
@[simp] theorem issueEntry_remap (s : State) (ag : Agent) (cl : Cls) (e : Entry) : (s.issueEntry ag cl e).remap = s.remap := rfl
@[simp] theorem issueEntry_asids (s : State) (ag : Agent) (cl : Cls) (e : Entry) : (s.issueEntry ag cl e).asids = s.asids := rfl
@[simp] theorem issueEntry_binds (s : State) (ag : Agent) (cl : Cls) (e : Entry) : (s.issueEntry ag cl e).binds = s.binds := rfl
@[simp] theorem issueEntry_tlb (s : State) (ag : Agent) (cl : Cls) (e : Entry) : (s.issueEntry ag cl e).tlb = s.tlb := rfl
@[simp] theorem issueEntry_walks (s : State) (ag : Agent) (cl : Cls) (e : Entry) : (s.issueEntry ag cl e).walks = s.walks := rfl
@[simp] theorem issueEntry_faults (s : State) (ag : Agent) (cl : Cls) (e : Entry) : (s.issueEntry ag cl e).faults = s.faults := rfl
@[simp] theorem issueEntry_logq (s : State) (ag : Agent) (cl : Cls) (e : Entry) : (s.issueEntry ag cl e).logq = s.logq := rfl
@[simp] theorem issueEntry_pages (s : State) (ag : Agent) (cl : Cls) (e : Entry) : (s.issueEntry ag cl e).pages = s.pages := rfl
@[simp] theorem issueEntry_inval (s : State) (ag : Agent) (cl : Cls) (e : Entry) : (s.issueEntry ag cl e).inval = s.inval := rfl
@[simp] theorem issueEntry_mg (s : State) (ag : Agent) (cl : Cls) (e : Entry) : (s.issueEntry ag cl e).mg = s.mg := rfl
@[simp] theorem issueEntry_dies (s : State) (ag : Agent) (cl : Cls) (e : Entry) : (s.issueEntry ag cl e).dies = s.dies := rfl
@[simp] theorem issueEntry_fullDies (s : State) (ag : Agent) (cl : Cls) (e : Entry) : (s.issueEntry ag cl e).fullDies = s.fullDies := rfl
@[simp] theorem issueEntry_leaving (s : State) (ag : Agent) (cl : Cls) (e : Entry) : (s.issueEntry ag cl e).leaving = s.leaving := rfl
@[simp] theorem issueEntry_sparing (s : State) (ag : Agent) (cl : Cls) (e : Entry) : (s.issueEntry ag cl e).sparing = s.sparing := rfl
@[simp] theorem issueEntry_spared (s : State) (ag : Agent) (cl : Cls) (e : Entry) : (s.issueEntry ag cl e).spared = s.spared := rfl
@[simp] theorem issueEntry_outCores (s : State) (ag : Agent) (cl : Cls) (e : Entry) : (s.issueEntry ag cl e).outCores = s.outCores := rfl
@[simp] theorem issueEntry_links (s : State) (ag : Agent) (cl : Cls) (e : Entry) : (s.issueEntry ag cl e).links = s.links := rfl
@[simp] theorem issueEntry_gated (s : State) (ag : Agent) (cl : Cls) (e : Entry) : (s.issueEntry ag cl e).gated = s.gated := rfl
@[simp] theorem issueEntry_msgs (s : State) (ag : Agent) (cl : Cls) (e : Entry) : (s.issueEntry ag cl e).msgs = s.msgs := rfl
@[simp] theorem issueEntry_sent (s : State) (ag : Agent) (cl : Cls) (e : Entry) : (s.issueEntry ag cl e).sent = s.sent := rfl
@[simp] theorem issueEntry_poison (s : State) (ag : Agent) (cl : Cls) (e : Entry) : (s.issueEntry ag cl e).poison = s.poison := rfl
@[simp] theorem issueEntry_badRegions (s : State) (ag : Agent) (cl : Cls) (e : Entry) : (s.issueEntry ag cl e).badRegions = s.badRegions := rfl
@[simp] theorem issueEntry_poisonTiles (s : State) (ag : Agent) (cl : Cls) (e : Entry) : (s.issueEntry ag cl e).poisonTiles = s.poisonTiles := rfl
@[simp] theorem issueEntry_counts (s : State) (ag : Agent) (cl : Cls) (e : Entry) : (s.issueEntry ag cl e).counts = s.counts := rfl
@[simp] theorem issueEntry_reports (s : State) (ag : Agent) (cl : Cls) (e : Entry) : (s.issueEntry ag cl e).reports = s.reports := rfl
@[simp] theorem issueEntry_reads (s : State) (ag : Agent) (cl : Cls) (e : Entry) : (s.issueEntry ag cl e).reads = s.reads := rfl
@[simp] theorem issueEntry_powered (s : State) (ag : Agent) (cl : Cls) (e : Entry) : (s.issueEntry ag cl e).powered = s.powered := rfl
@[simp] theorem issueEntry_capo (s : State) (ag : Agent) (cl : Cls) (e : Entry) : (s.issueEntry ag cl e).capo = s.capo := rfl
@[simp] theorem issueEntry_images (s : State) (ag : Agent) (cl : Cls) (e : Entry) : (s.issueEntry ag cl e).images = s.images := rfl

/-! ### State.rmEntry -/

@[simp] theorem rmEntry_cycle (s : State) (ag : Agent) (cl : Cls) (sq : Nat) : (s.rmEntry ag cl sq).cycle = s.cycle := rfl
@[simp] theorem rmEntry_turn (s : State) (ag : Agent) (cl : Cls) (sq : Nat) : (s.rmEntry ag cl sq).turn = s.turn := rfl
@[simp] theorem rmEntry_script (s : State) (ag : Agent) (cl : Cls) (sq : Nat) : (s.rmEntry ag cl sq).script = s.script := rfl
@[simp] theorem rmEntry_free (s : State) (ag : Agent) (cl : Cls) (sq : Nat) : (s.rmEntry ag cl sq).free = s.free := rfl
@[simp] theorem rmEntry_inputs (s : State) (ag : Agent) (cl : Cls) (sq : Nat) : (s.rmEntry ag cl sq).inputs = s.inputs := rfl
@[simp] theorem rmEntry_seq (s : State) (ag : Agent) (cl : Cls) (sq : Nat) : (s.rmEntry ag cl sq).seq = s.seq := rfl
@[simp] theorem rmEntry_mem (s : State) (ag : Agent) (cl : Cls) (sq : Nat) : (s.rmEntry ag cl sq).mem = s.mem := rfl
@[simp] theorem rmEntry_stores (s : State) (ag : Agent) (cl : Cls) (sq : Nat) : (s.rmEntry ag cl sq).stores = s.stores := rfl
@[simp] theorem rmEntry_waiters (s : State) (ag : Agent) (cl : Cls) (sq : Nat) : (s.rmEntry ag cl sq).waiters = s.waiters := rfl
@[simp] theorem rmEntry_dedupe (s : State) (ag : Agent) (cl : Cls) (sq : Nat) : (s.rmEntry ag cl sq).dedupe = s.dedupe := rfl
@[simp] theorem rmEntry_passes (s : State) (ag : Agent) (cl : Cls) (sq : Nat) : (s.rmEntry ag cl sq).passes = s.passes := rfl
@[simp] theorem rmEntry_runs (s : State) (ag : Agent) (cl : Cls) (sq : Nat) : (s.rmEntry ag cl sq).runs = s.runs := rfl
@[simp] theorem rmEntry_nextId (s : State) (ag : Agent) (cl : Cls) (sq : Nat) : (s.rmEntry ag cl sq).nextId = s.nextId := rfl
@[simp] theorem rmEntry_remap (s : State) (ag : Agent) (cl : Cls) (sq : Nat) : (s.rmEntry ag cl sq).remap = s.remap := rfl
@[simp] theorem rmEntry_asids (s : State) (ag : Agent) (cl : Cls) (sq : Nat) : (s.rmEntry ag cl sq).asids = s.asids := rfl
@[simp] theorem rmEntry_binds (s : State) (ag : Agent) (cl : Cls) (sq : Nat) : (s.rmEntry ag cl sq).binds = s.binds := rfl
@[simp] theorem rmEntry_tlb (s : State) (ag : Agent) (cl : Cls) (sq : Nat) : (s.rmEntry ag cl sq).tlb = s.tlb := rfl
@[simp] theorem rmEntry_walks (s : State) (ag : Agent) (cl : Cls) (sq : Nat) : (s.rmEntry ag cl sq).walks = s.walks := rfl
@[simp] theorem rmEntry_faults (s : State) (ag : Agent) (cl : Cls) (sq : Nat) : (s.rmEntry ag cl sq).faults = s.faults := rfl
@[simp] theorem rmEntry_logq (s : State) (ag : Agent) (cl : Cls) (sq : Nat) : (s.rmEntry ag cl sq).logq = s.logq := rfl
@[simp] theorem rmEntry_pages (s : State) (ag : Agent) (cl : Cls) (sq : Nat) : (s.rmEntry ag cl sq).pages = s.pages := rfl
@[simp] theorem rmEntry_inval (s : State) (ag : Agent) (cl : Cls) (sq : Nat) : (s.rmEntry ag cl sq).inval = s.inval := rfl
@[simp] theorem rmEntry_mg (s : State) (ag : Agent) (cl : Cls) (sq : Nat) : (s.rmEntry ag cl sq).mg = s.mg := rfl
@[simp] theorem rmEntry_dies (s : State) (ag : Agent) (cl : Cls) (sq : Nat) : (s.rmEntry ag cl sq).dies = s.dies := rfl
@[simp] theorem rmEntry_fullDies (s : State) (ag : Agent) (cl : Cls) (sq : Nat) : (s.rmEntry ag cl sq).fullDies = s.fullDies := rfl
@[simp] theorem rmEntry_leaving (s : State) (ag : Agent) (cl : Cls) (sq : Nat) : (s.rmEntry ag cl sq).leaving = s.leaving := rfl
@[simp] theorem rmEntry_sparing (s : State) (ag : Agent) (cl : Cls) (sq : Nat) : (s.rmEntry ag cl sq).sparing = s.sparing := rfl
@[simp] theorem rmEntry_spared (s : State) (ag : Agent) (cl : Cls) (sq : Nat) : (s.rmEntry ag cl sq).spared = s.spared := rfl
@[simp] theorem rmEntry_outCores (s : State) (ag : Agent) (cl : Cls) (sq : Nat) : (s.rmEntry ag cl sq).outCores = s.outCores := rfl
@[simp] theorem rmEntry_links (s : State) (ag : Agent) (cl : Cls) (sq : Nat) : (s.rmEntry ag cl sq).links = s.links := rfl
@[simp] theorem rmEntry_gated (s : State) (ag : Agent) (cl : Cls) (sq : Nat) : (s.rmEntry ag cl sq).gated = s.gated := rfl
@[simp] theorem rmEntry_msgs (s : State) (ag : Agent) (cl : Cls) (sq : Nat) : (s.rmEntry ag cl sq).msgs = s.msgs := rfl
@[simp] theorem rmEntry_sent (s : State) (ag : Agent) (cl : Cls) (sq : Nat) : (s.rmEntry ag cl sq).sent = s.sent := rfl
@[simp] theorem rmEntry_poison (s : State) (ag : Agent) (cl : Cls) (sq : Nat) : (s.rmEntry ag cl sq).poison = s.poison := rfl
@[simp] theorem rmEntry_badRegions (s : State) (ag : Agent) (cl : Cls) (sq : Nat) : (s.rmEntry ag cl sq).badRegions = s.badRegions := rfl
@[simp] theorem rmEntry_poisonTiles (s : State) (ag : Agent) (cl : Cls) (sq : Nat) : (s.rmEntry ag cl sq).poisonTiles = s.poisonTiles := rfl
@[simp] theorem rmEntry_counts (s : State) (ag : Agent) (cl : Cls) (sq : Nat) : (s.rmEntry ag cl sq).counts = s.counts := rfl
@[simp] theorem rmEntry_reports (s : State) (ag : Agent) (cl : Cls) (sq : Nat) : (s.rmEntry ag cl sq).reports = s.reports := rfl
@[simp] theorem rmEntry_reads (s : State) (ag : Agent) (cl : Cls) (sq : Nat) : (s.rmEntry ag cl sq).reads = s.reads := rfl
@[simp] theorem rmEntry_powered (s : State) (ag : Agent) (cl : Cls) (sq : Nat) : (s.rmEntry ag cl sq).powered = s.powered := rfl
@[simp] theorem rmEntry_capo (s : State) (ag : Agent) (cl : Cls) (sq : Nat) : (s.rmEntry ag cl sq).capo = s.capo := rfl
@[simp] theorem rmEntry_images (s : State) (ag : Agent) (cl : Cls) (sq : Nat) : (s.rmEntry ag cl sq).images = s.images := rfl

/-! ### State.slotDone -/

@[simp] theorem slotDone_cycle (s : State) (pid qc : Nat) (st : Stream) : (s.slotDone pid qc st).cycle = s.cycle := rfl
@[simp] theorem slotDone_script (s : State) (pid qc : Nat) (st : Stream) : (s.slotDone pid qc st).script = s.script := rfl
@[simp] theorem slotDone_free (s : State) (pid qc : Nat) (st : Stream) : (s.slotDone pid qc st).free = s.free := rfl
@[simp] theorem slotDone_inputs (s : State) (pid qc : Nat) (st : Stream) : (s.slotDone pid qc st).inputs = s.inputs := rfl
@[simp] theorem slotDone_seq (s : State) (pid qc : Nat) (st : Stream) : (s.slotDone pid qc st).seq = s.seq := rfl
@[simp] theorem slotDone_mem (s : State) (pid qc : Nat) (st : Stream) : (s.slotDone pid qc st).mem = s.mem := rfl
@[simp] theorem slotDone_bufs (s : State) (pid qc : Nat) (st : Stream) : (s.slotDone pid qc st).bufs = s.bufs := rfl
@[simp] theorem slotDone_stores (s : State) (pid qc : Nat) (st : Stream) : (s.slotDone pid qc st).stores = s.stores := rfl
@[simp] theorem slotDone_waiters (s : State) (pid qc : Nat) (st : Stream) : (s.slotDone pid qc st).waiters = s.waiters := rfl
@[simp] theorem slotDone_dedupe (s : State) (pid qc : Nat) (st : Stream) : (s.slotDone pid qc st).dedupe = s.dedupe := rfl
@[simp] theorem slotDone_passes (s : State) (pid qc : Nat) (st : Stream) : (s.slotDone pid qc st).passes = s.passes := rfl
@[simp] theorem slotDone_runs (s : State) (pid qc : Nat) (st : Stream) : (s.slotDone pid qc st).runs = s.runs := rfl
@[simp] theorem slotDone_nextId (s : State) (pid qc : Nat) (st : Stream) : (s.slotDone pid qc st).nextId = s.nextId := rfl
@[simp] theorem slotDone_remap (s : State) (pid qc : Nat) (st : Stream) : (s.slotDone pid qc st).remap = s.remap := rfl
@[simp] theorem slotDone_asids (s : State) (pid qc : Nat) (st : Stream) : (s.slotDone pid qc st).asids = s.asids := rfl
@[simp] theorem slotDone_binds (s : State) (pid qc : Nat) (st : Stream) : (s.slotDone pid qc st).binds = s.binds := rfl
@[simp] theorem slotDone_tlb (s : State) (pid qc : Nat) (st : Stream) : (s.slotDone pid qc st).tlb = s.tlb := rfl
@[simp] theorem slotDone_walks (s : State) (pid qc : Nat) (st : Stream) : (s.slotDone pid qc st).walks = s.walks := rfl
@[simp] theorem slotDone_faults (s : State) (pid qc : Nat) (st : Stream) : (s.slotDone pid qc st).faults = s.faults := rfl
@[simp] theorem slotDone_logq (s : State) (pid qc : Nat) (st : Stream) : (s.slotDone pid qc st).logq = s.logq := rfl
@[simp] theorem slotDone_pages (s : State) (pid qc : Nat) (st : Stream) : (s.slotDone pid qc st).pages = s.pages := rfl
@[simp] theorem slotDone_inval (s : State) (pid qc : Nat) (st : Stream) : (s.slotDone pid qc st).inval = s.inval := rfl
@[simp] theorem slotDone_mg (s : State) (pid qc : Nat) (st : Stream) : (s.slotDone pid qc st).mg = s.mg := rfl
@[simp] theorem slotDone_dies (s : State) (pid qc : Nat) (st : Stream) : (s.slotDone pid qc st).dies = s.dies := rfl
@[simp] theorem slotDone_fullDies (s : State) (pid qc : Nat) (st : Stream) : (s.slotDone pid qc st).fullDies = s.fullDies := rfl
@[simp] theorem slotDone_leaving (s : State) (pid qc : Nat) (st : Stream) : (s.slotDone pid qc st).leaving = s.leaving := rfl
@[simp] theorem slotDone_sparing (s : State) (pid qc : Nat) (st : Stream) : (s.slotDone pid qc st).sparing = s.sparing := rfl
@[simp] theorem slotDone_spared (s : State) (pid qc : Nat) (st : Stream) : (s.slotDone pid qc st).spared = s.spared := rfl
@[simp] theorem slotDone_outCores (s : State) (pid qc : Nat) (st : Stream) : (s.slotDone pid qc st).outCores = s.outCores := rfl
@[simp] theorem slotDone_links (s : State) (pid qc : Nat) (st : Stream) : (s.slotDone pid qc st).links = s.links := rfl
@[simp] theorem slotDone_gated (s : State) (pid qc : Nat) (st : Stream) : (s.slotDone pid qc st).gated = s.gated := rfl
@[simp] theorem slotDone_msgs (s : State) (pid qc : Nat) (st : Stream) : (s.slotDone pid qc st).msgs = s.msgs := rfl
@[simp] theorem slotDone_sent (s : State) (pid qc : Nat) (st : Stream) : (s.slotDone pid qc st).sent = s.sent := rfl
@[simp] theorem slotDone_poison (s : State) (pid qc : Nat) (st : Stream) : (s.slotDone pid qc st).poison = s.poison := rfl
@[simp] theorem slotDone_badRegions (s : State) (pid qc : Nat) (st : Stream) : (s.slotDone pid qc st).badRegions = s.badRegions := rfl
@[simp] theorem slotDone_poisonTiles (s : State) (pid qc : Nat) (st : Stream) : (s.slotDone pid qc st).poisonTiles = s.poisonTiles := rfl
@[simp] theorem slotDone_counts (s : State) (pid qc : Nat) (st : Stream) : (s.slotDone pid qc st).counts = s.counts := rfl
@[simp] theorem slotDone_reports (s : State) (pid qc : Nat) (st : Stream) : (s.slotDone pid qc st).reports = s.reports := rfl
@[simp] theorem slotDone_reads (s : State) (pid qc : Nat) (st : Stream) : (s.slotDone pid qc st).reads = s.reads := rfl
@[simp] theorem slotDone_powered (s : State) (pid qc : Nat) (st : Stream) : (s.slotDone pid qc st).powered = s.powered := rfl
@[simp] theorem slotDone_capo (s : State) (pid qc : Nat) (st : Stream) : (s.slotDone pid qc st).capo = s.capo := rfl
@[simp] theorem slotDone_images (s : State) (pid qc : Nat) (st : Stream) : (s.slotDone pid qc st).images = s.images := rfl

/-! ### State.firstSlot -/

@[simp] theorem firstSlot_cycle (s : State) : s.firstSlot.cycle = s.cycle := rfl
@[simp] theorem firstSlot_script (s : State) : s.firstSlot.script = s.script := rfl
@[simp] theorem firstSlot_free (s : State) : s.firstSlot.free = s.free := rfl
@[simp] theorem firstSlot_inputs (s : State) : s.firstSlot.inputs = s.inputs := rfl
@[simp] theorem firstSlot_seq (s : State) : s.firstSlot.seq = s.seq := rfl
@[simp] theorem firstSlot_mem (s : State) : s.firstSlot.mem = s.mem := rfl
@[simp] theorem firstSlot_bufs (s : State) : s.firstSlot.bufs = s.bufs := rfl
@[simp] theorem firstSlot_stores (s : State) : s.firstSlot.stores = s.stores := rfl
@[simp] theorem firstSlot_waiters (s : State) : s.firstSlot.waiters = s.waiters := rfl
@[simp] theorem firstSlot_dedupe (s : State) : s.firstSlot.dedupe = s.dedupe := rfl
@[simp] theorem firstSlot_passes (s : State) : s.firstSlot.passes = s.passes := rfl
@[simp] theorem firstSlot_runs (s : State) : s.firstSlot.runs = s.runs := rfl
@[simp] theorem firstSlot_nextId (s : State) : s.firstSlot.nextId = s.nextId := rfl
@[simp] theorem firstSlot_remap (s : State) : s.firstSlot.remap = s.remap := rfl
@[simp] theorem firstSlot_asids (s : State) : s.firstSlot.asids = s.asids := rfl
@[simp] theorem firstSlot_binds (s : State) : s.firstSlot.binds = s.binds := rfl
@[simp] theorem firstSlot_tlb (s : State) : s.firstSlot.tlb = s.tlb := rfl
@[simp] theorem firstSlot_walks (s : State) : s.firstSlot.walks = s.walks := rfl
@[simp] theorem firstSlot_faults (s : State) : s.firstSlot.faults = s.faults := rfl
@[simp] theorem firstSlot_logq (s : State) : s.firstSlot.logq = s.logq := rfl
@[simp] theorem firstSlot_pages (s : State) : s.firstSlot.pages = s.pages := rfl
@[simp] theorem firstSlot_inval (s : State) : s.firstSlot.inval = s.inval := rfl
@[simp] theorem firstSlot_mg (s : State) : s.firstSlot.mg = s.mg := rfl
@[simp] theorem firstSlot_dies (s : State) : s.firstSlot.dies = s.dies := rfl
@[simp] theorem firstSlot_fullDies (s : State) : s.firstSlot.fullDies = s.fullDies := rfl
@[simp] theorem firstSlot_leaving (s : State) : s.firstSlot.leaving = s.leaving := rfl
@[simp] theorem firstSlot_sparing (s : State) : s.firstSlot.sparing = s.sparing := rfl
@[simp] theorem firstSlot_spared (s : State) : s.firstSlot.spared = s.spared := rfl
@[simp] theorem firstSlot_outCores (s : State) : s.firstSlot.outCores = s.outCores := rfl
@[simp] theorem firstSlot_links (s : State) : s.firstSlot.links = s.links := rfl
@[simp] theorem firstSlot_gated (s : State) : s.firstSlot.gated = s.gated := rfl
@[simp] theorem firstSlot_msgs (s : State) : s.firstSlot.msgs = s.msgs := rfl
@[simp] theorem firstSlot_sent (s : State) : s.firstSlot.sent = s.sent := rfl
@[simp] theorem firstSlot_poison (s : State) : s.firstSlot.poison = s.poison := rfl
@[simp] theorem firstSlot_badRegions (s : State) : s.firstSlot.badRegions = s.badRegions := rfl
@[simp] theorem firstSlot_poisonTiles (s : State) : s.firstSlot.poisonTiles = s.poisonTiles := rfl
@[simp] theorem firstSlot_counts (s : State) : s.firstSlot.counts = s.counts := rfl
@[simp] theorem firstSlot_reports (s : State) : s.firstSlot.reports = s.reports := rfl
@[simp] theorem firstSlot_reads (s : State) : s.firstSlot.reads = s.reads := rfl
@[simp] theorem firstSlot_powered (s : State) : s.firstSlot.powered = s.powered := rfl
@[simp] theorem firstSlot_capo (s : State) : s.firstSlot.capo = s.capo := rfl
@[simp] theorem firstSlot_images (s : State) : s.firstSlot.images = s.images := rfl

@[simp] theorem tickSeq_seq (s : State) : s.tickSeq.seq = s.seq + 1 := rfl

/-! ### Cores and streams -/

@[simp] theorem coreUpdStream_lcore (c : CoreSt) (st : Stream) (f : StreamSt → StreamSt) : (c.updStream st f).lcore = c.lcore := by cases st <;> rfl
@[simp] theorem coreUpdStream_v (c : CoreSt) (st : Stream) (f : StreamSt → StreamSt) : (c.updStream st f).v = c.v := by cases st <;> rfl
@[simp] theorem coreUpdStream_k (c : CoreSt) (st : Stream) (f : StreamSt → StreamSt) : (c.updStream st f).k = c.k := by cases st <;> rfl
@[simp] theorem coreUpdStream_ch (c : CoreSt) (st : Stream) (f : StreamSt → StreamSt) : (c.updStream st f).ch = c.ch := by cases st <;> rfl
@[simp] theorem coreUpdStream_sems (c : CoreSt) (st : Stream) (f : StreamSt → StreamSt) : (c.updStream st f).sems = c.sems := by cases st <;> rfl
@[simp] theorem coreUpdStream_waitNow (c : CoreSt) (st : Stream) (f : StreamSt → StreamSt) : (c.updStream st f).waitNow = c.waitNow := by cases st <;> rfl
@[simp] theorem coreUpdStream_slstall (c : CoreSt) (st : Stream) (f : StreamSt → StreamSt) : (c.updStream st f).slstall = c.slstall := by cases st <;> rfl
@[simp] theorem coreUpdStream_replays (c : CoreSt) (st : Stream) (f : StreamSt → StreamSt) : (c.updStream st f).replays = c.replays := by cases st <;> rfl
@[simp] theorem coreUpdStream_semsat (c : CoreSt) (st : Stream) (f : StreamSt → StreamSt) : (c.updStream st f).semsat = c.semsat := by cases st <;> rfl
@[simp] theorem coreUpdStream_satNow (c : CoreSt) (st : Stream) (f : StreamSt → StreamSt) : (c.updStream st f).satNow = c.satNow := by cases st <;> rfl
@[simp] theorem coreUpdStream_crNew (c : CoreSt) (st : Stream) (f : StreamSt → StreamSt) : (c.updStream st f).crNew = c.crNew := by cases st <;> rfl
@[simp] theorem coreUpdStream_cmds (c : CoreSt) (st : Stream) (f : StreamSt → StreamSt) : (c.updStream st f).cmds = c.cmds := by cases st <;> rfl
@[simp] theorem coreUpdStream_tiles (c : CoreSt) (st : Stream) (f : StreamSt → StreamSt) : (c.updStream st f).tiles = c.tiles := by cases st <;> rfl
@[simp] theorem coreUpdStream_fq (c : CoreSt) (st : Stream) (f : StreamSt → StreamSt) : (c.updStream st f).fq = c.fq := by cases st <;> rfl
@[simp] theorem coreUpdStream_rm (c : CoreSt) (st : Stream) (f : StreamSt → StreamSt) : (c.updStream st f).rm = c.rm := by cases st <;> rfl
@[simp] theorem coreUpdStream_sbase (c : CoreSt) (st : Stream) (f : StreamSt → StreamSt) : (c.updStream st f).sbase = c.sbase := by cases st <;> rfl
@[simp] theorem coreUpdStream_mgap (c : CoreSt) (st : Stream) (f : StreamSt → StreamSt) : (c.updStream st f).mgap = c.mgap := by cases st <;> rfl
@[simp] theorem coreUpdStream_cbase (c : CoreSt) (st : Stream) (f : StreamSt → StreamSt) : (c.updStream st f).cbase = c.cbase := by cases st <;> rfl
@[simp] theorem coreUpdStream_cgap (c : CoreSt) (st : Stream) (f : StreamSt → StreamSt) : (c.updStream st f).cgap = c.cgap := by cases st <;> rfl
@[simp] theorem coreUpdStream_mlast (c : CoreSt) (st : Stream) (f : StreamSt → StreamSt) : (c.updStream st f).mlast = c.mlast := by cases st <;> rfl
@[simp] theorem coreUpdStream_clast (c : CoreSt) (st : Stream) (f : StreamSt → StreamSt) : (c.updStream st f).clast = c.clast := by cases st <;> rfl
@[simp] theorem coreUpdStream_slots (c : CoreSt) (st : Stream) (f : StreamSt → StreamSt) : (c.updStream st f).slots = c.slots := by cases st <;> rfl
@[simp] theorem coreUpdStream_armed (c : CoreSt) (st : Stream) (f : StreamSt → StreamSt) : (c.updStream st f).armed = c.armed := by cases st <;> rfl
@[simp] theorem coreUpdStream_nots (c : CoreSt) (st : Stream) (f : StreamSt → StreamSt) : (c.updStream st f).nots = c.nots := by cases st <;> rfl
@[simp] theorem coreUpdStream_flts (c : CoreSt) (st : Stream) (f : StreamSt → StreamSt) : (c.updStream st f).flts = c.flts := by cases st <;> rfl
@[simp] theorem coreUpdStream_events (c : CoreSt) (st : Stream) (f : StreamSt → StreamSt) : (c.updStream st f).events = c.events := by cases st <;> rfl
@[simp] theorem coreUpdStream_evAt (c : CoreSt) (st : Stream) (f : StreamSt → StreamSt) : (c.updStream st f).evAt = c.evAt := by cases st <;> rfl
@[simp] theorem coreUpdStream_attqs (c : CoreSt) (st : Stream) (f : StreamSt → StreamSt) : (c.updStream st f).attqs = c.attqs := by cases st <;> rfl
@[simp] theorem coreUpdStream_ticked (c : CoreSt) (st : Stream) (f : StreamSt → StreamSt) : (c.updStream st f).ticked = c.ticked := by cases st <;> rfl
@[simp] theorem coreUpdStream_acqs (c : CoreSt) (st : Stream) (f : StreamSt → StreamSt) : (c.updStream st f).acqs = c.acqs := by cases st <;> rfl

@[simp] theorem coreUpdStream_same (c : CoreSt) (st : Stream) (f : StreamSt → StreamSt) :
    (c.updStream st f).stream st = f (c.stream st) := by cases st <;> rfl
@[simp] theorem coreUpdStream_exe_acc (c : CoreSt) (f : StreamSt → StreamSt) : (c.updStream .exe f).acc = c.acc := rfl
@[simp] theorem coreUpdStream_acc_exe (c : CoreSt) (f : StreamSt → StreamSt) : (c.updStream .acc f).exe = c.exe := rfl

@[simp] theorem stream_unhold_pc (t : StreamSt) : t.unhold.pc = t.pc := rfl
@[simp] theorem stream_unhold_regs (t : StreamSt) : t.unhold.regs = t.regs := rfl
@[simp] theorem stream_unhold_exited (t : StreamSt) : t.unhold.exited = t.exited := rfl
@[simp] theorem stream_unhold_pend (t : StreamSt) : t.unhold.pend = t.pend := rfl
@[simp] theorem stream_unhold_spill (t : StreamSt) : t.unhold.spill = t.spill := rfl
@[simp] theorem stream_unhold_srdseed (t : StreamSt) : t.unhold.srdseed = t.srdseed := rfl
@[simp] theorem stream_unhold_tvec (t : StreamSt) : t.unhold.tvec = t.tvec := rfl
@[simp] theorem stream_unhold_epc (t : StreamSt) : t.unhold.epc = t.epc := rfl
@[simp] theorem stream_unhold_tcause (t : StreamSt) : t.unhold.tcause = t.tcause := rfl
@[simp] theorem stream_unhold_tinfo (t : StreamSt) : t.unhold.tinfo = t.tinfo := rfl
@[simp] theorem stream_unhold_loops (t : StreamSt) : t.unhold.loops = t.loops := rfl
@[simp] theorem stream_unhold_ldepth (t : StreamSt) : t.unhold.ldepth = t.ldepth := rfl
@[simp] theorem stream_unhold_settle (t : StreamSt) : t.unhold.settle = t.settle := rfl
@[simp] theorem stream_unhold_nextTrap (t : StreamSt) : t.unhold.nextTrap = t.nextTrap := rfl
@[simp] theorem stream_unhold_tickWait (t : StreamSt) : t.unhold.tickWait = t.tickWait := rfl
@[simp] theorem stream_unhold_line (t : StreamSt) : t.unhold.line = t.line := rfl
@[simp] theorem stream_unhold_spillBad (t : StreamSt) : t.unhold.spillBad = t.spillBad := rfl
@[simp] theorem stream_trap_regs (t : StreamSt) (w : VAddr) (cause : BitVec 8) (info : Word) : (t.trap w cause info).regs = t.regs := rfl
@[simp] theorem stream_trap_exited (t : StreamSt) (w : VAddr) (cause : BitVec 8) (info : Word) : (t.trap w cause info).exited = t.exited := rfl
@[simp] theorem stream_trap_pend (t : StreamSt) (w : VAddr) (cause : BitVec 8) (info : Word) : (t.trap w cause info).pend = t.pend := rfl
@[simp] theorem stream_trap_spill (t : StreamSt) (w : VAddr) (cause : BitVec 8) (info : Word) : (t.trap w cause info).spill = t.spill := rfl
@[simp] theorem stream_trap_srdseed (t : StreamSt) (w : VAddr) (cause : BitVec 8) (info : Word) : (t.trap w cause info).srdseed = t.srdseed := rfl
@[simp] theorem stream_trap_tvec (t : StreamSt) (w : VAddr) (cause : BitVec 8) (info : Word) : (t.trap w cause info).tvec = t.tvec := rfl
@[simp] theorem stream_trap_loops (t : StreamSt) (w : VAddr) (cause : BitVec 8) (info : Word) : (t.trap w cause info).loops = t.loops := rfl
@[simp] theorem stream_trap_ldepth (t : StreamSt) (w : VAddr) (cause : BitVec 8) (info : Word) : (t.trap w cause info).ldepth = t.ldepth := rfl
@[simp] theorem stream_trap_nextTrap (t : StreamSt) (w : VAddr) (cause : BitVec 8) (info : Word) : (t.trap w cause info).nextTrap = t.nextTrap := rfl
@[simp] theorem stream_trap_tickWait (t : StreamSt) (w : VAddr) (cause : BitVec 8) (info : Word) : (t.trap w cause info).tickWait = t.tickWait := rfl
@[simp] theorem stream_trap_line (t : StreamSt) (w : VAddr) (cause : BitVec 8) (info : Word) : (t.trap w cause info).line = t.line := rfl
@[simp] theorem stream_trap_spillBad (t : StreamSt) (w : VAddr) (cause : BitVec 8) (info : Word) : (t.trap w cause info).spillBad = t.spillBad := rfl

@[simp] theorem stream_after_regs (t : StreamSt) (n : Next) : (t.after n).regs = t.regs := by cases n <;> rfl
@[simp] theorem stream_after_exited (t : StreamSt) (n : Next) : (t.after n).exited = t.exited := by cases n <;> rfl
@[simp] theorem stream_after_pend (t : StreamSt) (n : Next) : (t.after n).pend = t.pend := by cases n <;> rfl
@[simp] theorem stream_after_spill (t : StreamSt) (n : Next) : (t.after n).spill = t.spill := by cases n <;> rfl
@[simp] theorem stream_after_srdseed (t : StreamSt) (n : Next) : (t.after n).srdseed = t.srdseed := by cases n <;> rfl
@[simp] theorem stream_after_tvec (t : StreamSt) (n : Next) : (t.after n).tvec = t.tvec := by cases n <;> rfl
@[simp] theorem stream_after_epc (t : StreamSt) (n : Next) : (t.after n).epc = t.epc := by cases n <;> rfl
@[simp] theorem stream_after_tcause (t : StreamSt) (n : Next) : (t.after n).tcause = t.tcause := by cases n <;> rfl
@[simp] theorem stream_after_tinfo (t : StreamSt) (n : Next) : (t.after n).tinfo = t.tinfo := by cases n <;> rfl
@[simp] theorem stream_after_settle (t : StreamSt) (n : Next) : (t.after n).settle = t.settle := by cases n <;> rfl
@[simp] theorem stream_after_nextTrap (t : StreamSt) (n : Next) : (t.after n).nextTrap = t.nextTrap := by cases n <;> rfl
@[simp] theorem stream_after_tickWait (t : StreamSt) (n : Next) : (t.after n).tickWait = t.tickWait := by cases n <;> rfl
@[simp] theorem stream_after_line (t : StreamSt) (n : Next) : (t.after n).line = t.line := by cases n <;> rfl
@[simp] theorem stream_after_spillBad (t : StreamSt) (n : Next) : (t.after n).spillBad = t.spillBad := by cases n <;> rfl

end Sys2Proof.Machine
end

