-- ==== Sys2Proof/Laws/Ops.lean ====
section
/-! SUPPORT. What the shared operations of a step can do: the slot of a word, issue, results in flight and landing. -/

namespace Sys2Proof.Machine

/-! ### Passes and cores -/

theorem find_map_upd {α : Type} (l : List α) (k : α → Nat) (f : α → α) (hf : ∀ a, k (f a) = k a) (i j : Nat) :
    (l.map (fun a => if k a == i then f a else a)).find? (fun a => k a == j) =
      if j = i then (l.find? (fun a => k a == j)).map f else l.find? (fun a => k a == j) := by
  induction l with
  | nil => simp
  | cons a r ih =>
    simp only [List.map_cons, List.find?_cons]
    by_cases ha : k a = i
    · by_cases hj : j = i
      · subst hj; simp [ha, hf]
      · have hk : (k (f a) == j) = false := by simp [hf, ha, Ne.symm hj]
        have hk' : (k a == j) = false := by simp [ha, Ne.symm hj]
        rw [if_neg hj] at ih ⊢
        simp only [ha, beq_self_eq_true, if_true, hk]
        rw [← ha, hk']
        simpa [ha] using ih
    · by_cases hj : k a = j
      · have : j ≠ i := fun e => ha (hj.trans e)
        simp [hj, this]
      · have hj' : (k a == j) = false := by simp [hj]
        have ha' : (k a == i) = false := by simp [ha]
        simp only [ha', hj']
        simpa [hj'] using ih

/-- The pass of a number after an update that keeps its number. -/
theorem pass_updPass (s : State) (pid : Nat) (f : Pass → Pass) (hf : ∀ p, (f p).pid = p.pid) (j : Nat) :
    (s.updPass pid f).pass? j = if j = pid then (s.pass? j).map f else s.pass? j :=
  find_map_upd s.passes (fun p => p.pid) f hf pid j

@[simp] theorem updCore_pid (p : Pass) (qc : Nat) (f : CoreSt → CoreSt) : (p.updCore qc f).pid = p.pid := rfl
@[simp] theorem updCore_st (p : Pass) (qc : Nat) (f : CoreSt → CoreSt) : (p.updCore qc f).st = p.st := rfl
@[simp] theorem updCore_rid (p : Pass) (qc : Nat) (f : CoreSt → CoreSt) : (p.updCore qc f).rid = p.rid := rfl

theorem pass_updCore (s : State) (pid qc : Nat) (f : CoreSt → CoreSt) (j : Nat) :
    (s.updCore pid qc f).pass? j = if j = pid then (s.pass? j).map (fun p => p.updCore qc f) else s.pass? j :=
  pass_updPass s pid (fun p => p.updCore qc f) (fun _ => rfl) j

/-- A core replaced in place. -/
theorem updCore_eq_set (p : Pass) (qc : Nat) (f : CoreSt → CoreSt) (c : CoreSt) (h : p.cores[qc]? = some c) :
    p.updCore qc f = { p with cores := p.cores.set qc (f c) } := by
  unfold Pass.updCore
  congr 1
  apply List.ext_getElem?
  intro i
  simp only [List.getElem?_modify, List.getElem?_set]
  by_cases hi : qc = i
  · subst hi; simp [h]; exact (List.getElem?_eq_some_iff.mp h).1
  · simp [hi]

theorem slotsOf_congr (p q : Pass) (hp : p.pid = q.pid) (hl : p.cores.length = q.cores.length) : slotsOf p = slotsOf q := by
  unfold slotsOf; rw [hp, hl]

theorem allSlots_map (l : List Pass) (f : Pass → Pass) (hp : ∀ p, (f p).pid = p.pid) (hs : ∀ p, (f p).st = p.st)
    (hl : ∀ p, (f p).cores.length = p.cores.length) :
    ((l.map f).filter (fun p => p.st == .resident)).flatMap slotsOf =
      (l.filter (fun p => p.st == .resident)).flatMap slotsOf := by
  induction l with
  | nil => rfl
  | cons p r ih =>
    by_cases h : p.st = .resident
    · simp [h, hs, ih, slotsOf_congr (f p) p (hp p) (hl p)]
    · simp [h, hs, ih]

/-- A core update leaves the slots of the cycle alone. -/
@[simp] theorem allSlots_updCore (s : State) (pid qc : Nat) (f : CoreSt → CoreSt) :
    (s.updCore pid qc f).allSlots = s.allSlots := by
  unfold State.allSlots State.updCore State.updPass
  apply allSlots_map
  · intro p; split <;> rfl
  · intro p; split <;> rfl
  · intro p; split <;> simp [Pass.updCore]

@[simp] theorem allSlots_tickSeq (s : State) : s.tickSeq.allSlots = s.allSlots := rfl

/-! ### The slot of a word -/

/-- What comes after a slot depends on the turn and on the slots of the cycle alone. -/
theorem slotDone_congr {s u : State} (ht : s.turn = u.turn) (ha : s.allSlots = u.allSlots) (pid qc : Nat) (st : Stream) :
    (s.slotDone pid qc st).turn = (u.slotDone pid qc st).turn := by
  simp only [State.slotDone, ht, ha]

@[simp] theorem slotDone_updCore (s : State) (pid qc : Nat) (f : CoreSt → CoreSt) (i j : Nat) (st : Stream) :
    ((s.updCore pid qc f).slotDone i j st).turn = (s.slotDone i j st).turn :=
  slotDone_congr (s := s.updCore pid qc f) (u := s) rfl (allSlots_updCore s pid qc f) i j st

/-- What a word finds at its slot. -/
theorem ctx_spec {s : State} {h : Hdr} {x : Ctx} (e : s.ctx? h = some x) :
    x.h = h ∧ x.w.st = h.st ∧ x.w.cycle = s.cycle ∧ s.slotNow = some (x.w.pid, x.w.qc, h.st) ∧ s.pass? x.w.pid = some x.p ∧
    x.p.st = .resident ∧ x.p.cores[x.w.qc]? = some x.c ∧ s.run? x.p.rid = some x.r ∧ x.t = x.c.stream h.st := by
  unfold State.ctx? at e
  split at e
  · rename_i pid qc st ht
    split at e
    · split at e
      · split at e
        · split at e
          · obtain rfl := Option.some.inj e
            subst_vars
            simp_all
          · cases e
        · cases e
      · cases e
    · cases e
  · cases e

/-- A word with no slot does nothing. -/
theorem issue_none {s : State} {h : Hdr} (e : s.ctx? h = none) (srcs dsts : List Opnd) (body : Ctx → List Val → Act) :
    issue h srcs dsts s body = .next s := by unfold issue; rw [e]

/-- A word always answers a next state. -/
theorem issue_next (s : State) (h : Hdr) (srcs dsts : List Opnd) (body : Ctx → List Val → Act) :
    ∃ t, issue h srcs dsts s body = .next t := by
  unfold issue
  split
  · exact ⟨_, rfl⟩
  · split
    · exact ⟨_, rfl⟩
    · split
      · exact ⟨_, rfl⟩
      · split <;> exact ⟨_, rfl⟩

/-- A word that meets its conditions runs its body on the values of its sources. -/
theorem issue_body {s : State} {h : Hdr} {srcs dsts : List Opnd} {x : Ctx} {vs : List Val}
    (e : Issues s h srcs dsts x vs) (body : Ctx → List Val → Act) :
    issue h srcs dsts s body = .next (State.finish x srcs (body x vs)) := by
  obtain ⟨h1, h2, h3, h4⟩ := e
  unfold issue
  rw [h1]
  simp [h2, h3, h4]

/-- The same of an instruction whose meaning is that word. -/
theorem exec_body {i : Instr} {s : State} {h : Hdr} {srcs dsts : List Opnd} {body : Ctx → List Val → Act}
    (hi : exec i s = issue h srcs dsts s body) {x : Ctx} {vs : List Val} (e : Issues s h srcs dsts x vs) :
    exec i s = .next (State.finish x srcs (body x vs)) := hi.trans (issue_body e body)

/-! ### Issue -/

/-- The core that a word leaves behind. -/
def Ctx.coreAfter (x : Ctx) (sq : Nat) (srcs : List Opnd) (g : Go) (c : CoreSt) : CoreSt :=
  let c := { c with ch := popSrcs c.ch srcs }
  let r := takeOuts c sq 0 g.outs
  let c := if g.outs.isEmpty && g.req == .none then r.1
    else pushPend r.1 x.w.st { outs := r.2, tag := x.h.ta, issued := x.w.cycle, due := g.due, req := g.req, seq := sq,
                               pin := g.pin, arg := g.arg }
  c.updStream x.w.st (fun t => t.after g.next)

theorem issueGo_eq (x : Ctx) (srcs : List Opnd) (g : Go) :
    State.issueGo x srcs g =
      ((g.st.updCore x.w.pid x.w.qc (x.coreAfter g.st.seq srcs g)).tickSeq).slotDone x.w.pid x.w.qc x.w.st := rfl

/-- What issuing changes, given the pass and the core with the word's own effect. -/
theorem issueGo_commits (x : Ctx) (srcs : List Opnd) (g : Go) (p : Pass) (c : CoreSt)
    (hp : g.st.pass? x.w.pid = some p) (hc : p.cores[x.w.qc]? = some c) :
    Commits x g.st p (x.coreAfter g.st.seq srcs g c) (State.issueGo x srcs g) := by
  rw [issueGo_eq]
  refine ⟨rfl, rfl, slotDone_updCore g.st x.w.pid x.w.qc (x.coreAfter g.st.seq srcs g) _ _ _, ?_, ?_⟩
  · intro pid hpid
    have := pass_updCore g.st x.w.pid x.w.qc (x.coreAfter g.st.seq srcs g) pid
    rw [if_neg hpid] at this
    exact this
  · have := pass_updCore g.st x.w.pid x.w.qc (x.coreAfter g.st.seq srcs g) x.w.pid
    rw [if_pos rfl, hp, Option.map_some, updCore_eq_set p _ _ c hc] at this
    exact this

/-- A word whose own effect is on its core alone. -/
theorem commits_updCore (x : Ctx) (s : State) (f : CoreSt → CoreSt) (c : CoreSt) (t : State)
    (h : Commits x (s.updCore x.w.pid x.w.qc f) { x.p with cores := x.p.cores.set x.w.qc (f x.c) } c t) :
    Commits x s x.p c t := by
  obtain ⟨h1, h2, h3, h4, h5⟩ := h
  refine ⟨?_, h2, ?_, ?_, ?_⟩
  · have := congrArg (fun u : State => { u with passes := s.passes }) h1
    exact this
  · simpa using h3
  · intro pid hpid
    rw [h4 pid hpid, pass_updCore, if_neg hpid]
  · simpa using h5

/-! ### Channels and results -/

/-- A source takes the oldest entry of its channel, and of no other. -/
theorem popSrc_get (ch : Map (List ChEnt)) (o : Opnd) (j : Nat) :
    mget [] (popSrc ch o) j = (mget [] ch j).drop (if isChan o && !keeps o && chIdx o == j then 1 else 0) := by
  unfold popSrc
  cases hc : (isChan o && !keeps o)
  · simp
  · by_cases hj : j = chIdx o
    · subst hj; simp [List.drop_one]
    · have : (chIdx o == j) = false := by simp [Ne.symm hj]
      simp [this, mget_mset_other _ _ _ _ _ hj]

/-- The sources of a word take the oldest entries of their channels (R111). -/
theorem popSrcs_get (os : List Opnd) (ch : Map (List ChEnt)) (j : Nat) :
    mget [] (popSrcs ch os) j = (mget [] ch j).drop (popsOf os j) := by
  induction os generalizing ch with
  | nil => rfl
  | cons o r ih =>
    rw [popSrcs, List.foldl_cons]
    refine (ih (popSrc ch o)).trans ?_
    rw [popSrc_get, List.drop_drop]
    congr 1
    unfold popsOf
    simp only [List.filter_cons]
    cases (isChan o && !keeps o && chIdx o == j)
    · simp
    · simp [Nat.add_comm]

/-- Entries taken for results change the channels of a core and nothing else. -/
theorem takeOuts_core (outs : List (Opnd × Option Val)) (c : CoreSt) (sq i : Nat) :
    { (takeOuts c sq i outs).1 with ch := c.ch } = c := by
  induction outs generalizing c i with
  | nil => rfl
  | cons o r ih =>
    obtain ⟨o, v⟩ := o
    simp only [takeOuts]
    split
    · have := ih (chPush c (chIdx o) { id := sq * 4 + i, ty := .data, val := none }) (i + 1)
      have e := congrArg (fun d : CoreSt => { d with ch := c.ch }) this
      exact e
    · exact ih c (i + 1)

theorem takeOuts_exe (outs : List (Opnd × Option Val)) (c : CoreSt) (sq i : Nat) : (takeOuts c sq i outs).1.exe = c.exe := by
  have h := congrArg (fun d : CoreSt => d.exe) (takeOuts_core outs c sq i)
  exact h

theorem takeOuts_acc (outs : List (Opnd × Option Val)) (c : CoreSt) (sq i : Nat) : (takeOuts c sq i outs).1.acc = c.acc := by
  have h := congrArg (fun d : CoreSt => d.acc) (takeOuts_core outs c sq i)
  exact h

/-- The entries that the results of a word take of a channel stand at its end, in order (R141). -/
theorem takeOuts_get (outs : List (Opnd × Option Val)) (c : CoreSt) (sq i j : Nat) :
    mget [] (takeOuts c sq i outs).1.ch j = mget [] c.ch j ++ entriesOf sq j i outs := by
  induction outs generalizing c i with
  | nil => simp [takeOuts, entriesOf]
  | cons o r ih =>
    obtain ⟨o, v⟩ := o
    simp only [takeOuts, entriesOf]
    cases hc : isChan o
    · simp [ih]
    · by_cases hj : chIdx o = j
      · subst hj; simp [ih, chPush]
      · simp [ih, chPush, hj, mget_mset_other _ _ _ _ _ (Ne.symm hj)]

/-- The results of a word go to its destinations in order. -/
theorem takeOuts_results (outs : List (Opnd × Option Val)) (c : CoreSt) (sq i : Nat) :
    (takeOuts c sq i outs).2 = resultsOf sq i outs := by
  induction outs generalizing c i with
  | nil => rfl
  | cons o r ih =>
    obtain ⟨o, v⟩ := o
    simp only [takeOuts, resultsOf]
    cases hc : isChan o <;> simp [ih]

/-- Taken entries are data without their content, one for each destination. -/
theorem entriesOf_spec (outs : List (Opnd × Option Val)) (sq j i : Nat) :
    (entriesOf sq j i outs).length = pushesOf (outs.map (fun o => o.1)) j ∧
      ∀ e ∈ entriesOf sq j i outs, e.ty = .data ∧ e.val = none := by
  induction outs generalizing i with
  | nil => simp [entriesOf, pushesOf]
  | cons o r ih =>
    obtain ⟨o, v⟩ := o
    obtain ⟨hl, he⟩ := ih (i + 1)
    unfold pushesOf at hl ⊢
    simp only [entriesOf]
    split
    · rename_i h
      simp only [List.length_cons, hl, List.map_cons, List.filter_cons, h.1, h.2, beq_self_eq_true, Bool.and_self, if_true,
        true_and]
      intro e hm
      rcases List.mem_cons.mp hm with rfl | hm
      · exact ⟨rfl, rfl⟩
      · exact he e hm
    · rename_i h
      have hb : (isChan o && chIdx o == j) = false := by
        cases hc : isChan o <;> simp_all
      simpa [List.filter_cons, hb] using ⟨hl, he⟩

/-- A result that goes in flight. -/
def Ctx.flight (x : Ctx) (sq : Nat) (g : Go) (c : CoreSt) : Pend :=
  { outs := (takeOuts { c with ch := popSrcs c.ch [] } sq 0 g.outs).2, tag := x.h.ta, issued := x.w.cycle, due := g.due,
    req := g.req, seq := sq, pin := g.pin, arg := g.arg }

theorem takeOuts_outs (outs : List (Opnd × Option Val)) (c c' : CoreSt) (sq i : Nat) :
    (takeOuts c sq i outs).2 = (takeOuts c' sq i outs).2 := by
  induction outs generalizing c c' i with
  | nil => rfl
  | cons o r ih =>
    obtain ⟨o, v⟩ := o
    simp only [takeOuts]
    split
    · simp only [List.cons.injEq, true_and]; exact ih _ _ _
    · simp only [List.cons.injEq, true_and]; exact ih _ _ _

theorem coreAfter_other (x : Ctx) (sq : Nat) (srcs : List Opnd) (g : Go) (c : CoreSt) :
    (x.coreAfter sq srcs g c).stream (otherStream x.w.st) = c.stream (otherStream x.w.st) := by
  have he := takeOuts_exe g.outs { c with ch := popSrcs c.ch srcs } sq 0
  have ha := takeOuts_acc g.outs { c with ch := popSrcs c.ch srcs } sq 0
  unfold Ctx.coreAfter pushPend
  cases hs : x.w.st <;> simp only [otherStream, CoreSt.stream, CoreSt.updStream] <;> split <;> assumption

theorem coreAfter_stream (x : Ctx) (sq : Nat) (srcs : List Opnd) (g : Go) (c : CoreSt) :
    (x.coreAfter sq srcs g c).stream x.w.st =
      ({ c.stream x.w.st with pend := if g.outs.isEmpty && g.req == .none then (c.stream x.w.st).pend
        else (c.stream x.w.st).pend ++ [x.flight sq g c] } : StreamSt).after g.next := by
  have hs : (takeOuts { c with ch := popSrcs c.ch srcs } sq 0 g.outs).1.stream x.w.st = c.stream x.w.st := by
    cases x.w.st
    · exact takeOuts_exe g.outs { c with ch := popSrcs c.ch srcs } sq 0
    · exact takeOuts_acc g.outs { c with ch := popSrcs c.ch srcs } sq 0
  unfold Ctx.coreAfter pushPend
  simp only [coreUpdStream_same]
  split
  · rw [hs]
  · simp only [coreUpdStream_same]
    rw [hs]
    unfold Ctx.flight
    rw [takeOuts_outs g.outs { c with ch := popSrcs c.ch srcs } { c with ch := popSrcs c.ch [] }]

theorem coreAfter_ch (x : Ctx) (sq : Nat) (srcs : List Opnd) (g : Go) (c : CoreSt) :
    (x.coreAfter sq srcs g c).ch = (takeOuts { c with ch := popSrcs c.ch srcs } sq 0 g.outs).1.ch := by
  unfold Ctx.coreAfter pushPend
  simp only [coreUpdStream_ch]
  split
  · rfl
  · simp

theorem coreAfter_rest (x : Ctx) (sq : Nat) (srcs : List Opnd) (g : Go) (c : CoreSt) :
    { x.coreAfter sq srcs g c with exe := c.exe, acc := c.acc, ch := c.ch } = c := by
  have h := takeOuts_core g.outs { c with ch := popSrcs c.ch srcs } sq 0
  have h' := congrArg (fun d : CoreSt => { d with exe := c.exe, acc := c.acc, ch := c.ch }) h
  refine Eq.trans ?_ h'
  unfold Ctx.coreAfter pushPend
  cases x.w.st <;> simp only [CoreSt.updStream] <;> split <;> rfl

/-- The channels of a core after a word has issued on it. -/
theorem coreAfter_chan (x : Ctx) (sq : Nat) (srcs : List Opnd) (g : Go) (c : CoreSt) (j : Nat) :
    mget [] (x.coreAfter sq srcs g c).ch j = (mget [] c.ch j).drop (popsOf srcs j) ++ entriesOf sq j 0 g.outs := by
  rw [coreAfter_ch, takeOuts_get, popSrcs_get]

/-- What the stream's core keeps when a word issues, beside the word's own effect. -/
theorem coreAfter_frame (x : Ctx) (sq : Nat) (srcs : List Opnd) (g : Go) (c0 : CoreSt) :
    CoreFrame x c0 srcs (g.outs.map (fun o => o.1)) (x.coreAfter sq srcs g c0) := by
  refine ⟨coreAfter_rest x sq srcs g c0, coreAfter_other x sq srcs g c0, ?_, fun j =>
    ⟨_, coreAfter_chan x sq srcs g c0 j, entriesOf_spec g.outs sq j 0⟩⟩
  rw [coreAfter_stream]
  cases g.next <;> rfl

theorem coreAfter_next (x : Ctx) (sq : Nat) (srcs : List Opnd) (g : Go) (c0 : CoreSt) :
    NextWord x c0 g.next (x.coreAfter sq srcs g c0) := by
  have h := coreAfter_stream x sq srcs g c0
  refine ⟨?_, ?_, ?_, ?_⟩ <;> rw [h] <;> cases g.next <;> first | rfl | exact ⟨rfl, rfl⟩

theorem coreAfter_pend_nil (x : Ctx) (sq : Nat) (srcs : List Opnd) (g : Go) (c0 : CoreSt) (ho : g.outs = [])
    (hr : g.req = .none) : ((x.coreAfter sq srcs g c0).stream x.w.st).pend = (c0.stream x.w.st).pend := by
  rw [coreAfter_stream, stream_after_pend, ho, hr]; rfl

theorem coreAfter_pend (x : Ctx) (sq : Nat) (srcs : List Opnd) (g : Go) (c0 : CoreSt) (ho : g.outs ≠ []) :
    ((x.coreAfter sq srcs g c0).stream x.w.st).pend = (c0.stream x.w.st).pend ++ [x.flight sq g c0] := by
  rw [coreAfter_stream, stream_after_pend]
  cases h : g.outs with
  | nil => exact absurd h ho
  | cons a r => rfl


/-! ### Words by what they do -/

/-- A word without a result. -/
theorem finish_effect (x : Ctx) (srcs : List Opnd) (s1 : State) (n : Next) (p : Pass) (c0 : CoreSt)
    (hp : s1.pass? x.w.pid = some p) (hc : p.cores[x.w.qc]? = some c0) :
    EffectWord x srcs s1 n (State.finish x srcs (Act.goto s1 n)) :=
  let g : Go := { st := s1, outs := [], due := .exact 0, req := .none, pin := none, arg := 0, next := n }
  ⟨p, c0, _, hp, hc, issueGo_commits x srcs g p c0 hp hc,
    coreAfter_frame x s1.seq srcs g c0, coreAfter_next x s1.seq srcs g c0,
    coreAfter_pend_nil x s1.seq srcs g c0 rfl rfl⟩

/-- A word with results. -/
theorem finish_flight (x : Ctx) (srcs : List Opnd) (g : Go) (p : Pass) (c0 : CoreSt)
    (hp : g.st.pass? x.w.pid = some p) (hc : p.cores[x.w.qc]? = some c0) (ho : g.outs ≠ []) :
    FlightWord x srcs g.st g.outs g.due g.req g.pin g.arg g.next (State.finish x srcs (.go g)) :=
  ⟨p, c0, _, _, hp, hc, issueGo_commits x srcs g p c0 hp hc,
    coreAfter_frame x g.st.seq srcs g c0, coreAfter_next x g.st.seq srcs g c0, coreAfter_chan x g.st.seq srcs g c0,
    coreAfter_pend x g.st.seq srcs g c0 ho, rfl, rfl, rfl, rfl, rfl, rfl, rfl, takeOuts_results _ _ _ _⟩

/-- A word that only moves its stream. -/
theorem finish_plain {s : State} {h : Hdr} {x : Ctx} (e : s.ctx? h = some x) (srcs : List Opnd) (n : Next) :
    PlainWord s x srcs n (State.finish x srcs (Act.goto s n)) := by
  obtain ⟨-, hst, -, -, hp, -, hc, -, ht⟩ := ctx_spec e
  rw [← hst] at ht
  obtain ⟨p, c0, c, h1, h2, h3, h4, h5, h6⟩ := finish_effect x srcs s n x.p x.c hp hc
  obtain rfl := Option.some.inj (hp.symm.trans h1)
  obtain rfl := Option.some.inj (hc.symm.trans h2)
  exact ⟨c, h3, h4, h5, h6.trans (by rw [ht])⟩

/-- A word whose own effect is on its core alone. -/
theorem finish_core {s : State} {h : Hdr} {x : Ctx} (e : s.ctx? h = some x) (srcs : List Opnd) (f : CoreSt → CoreSt) :
    CoreWord s x srcs (f x.c) (State.finish x srcs (Act.done (s.updCore x.w.pid x.w.qc f))) := by
  obtain ⟨-, hst, -, -, hp, -, hc, -, ht⟩ := ctx_spec e
  have hl := (List.getElem?_eq_some_iff.mp hc).1
  have hp1 : (s.updCore x.w.pid x.w.qc f).pass? x.w.pid = some { x.p with cores := x.p.cores.set x.w.qc (f x.c) } := by
    rw [pass_updCore, if_pos rfl, hp, Option.map_some, updCore_eq_set x.p _ _ x.c hc]
  have hc1 : (x.p.cores.set x.w.qc (f x.c))[x.w.qc]? = some (f x.c) := by simp [hl]
  obtain ⟨p, c0, c, h1, h2, h3, h4, h5, h6⟩ := finish_effect x srcs _ .seq _ _ hp1 hc1
  obtain rfl := Option.some.inj (hp1.symm.trans h1)
  obtain rfl := Option.some.inj (hc1.symm.trans h2)
  exact ⟨c, commits_updCore x s f c _ h3, h4, h5, h6⟩

/-! ### Landing -/

theorem setReg_ch (c : CoreSt) (st : Stream) (o : Opnd) (v : Val) : (setReg c st o v).ch = c.ch := by
  unfold setReg; split <;> simp

/-- The serial numbers of a channel's entries stay as they are when results land. -/
theorem chLand_ids (c : CoreSt) (i id j : Nat) (v : Word) :
    (mget [] (chLand c i id v).ch j).map (fun e => e.id) = (mget [] c.ch j).map (fun e => e.id) := by
  unfold chLand
  by_cases h : j = i
  · subst h
    simp only [mget_mset_same, List.map_map]
    apply List.map_congr_left
    intro e _
    simp only [Function.comp]
    split <;> rfl
  · rw [mget_mset_other _ _ _ _ _ h]

theorem landOut_ids (c : CoreSt) (st : Stream) (o : Out) (j : Nat) :
    (mget [] (landOut c st o).ch j).map (fun e => e.id) = (mget [] c.ch j).map (fun e => e.id) := by
  unfold landOut
  split
  · rfl
  · split
    · rw [setReg_ch]
    · exact chLand_ids _ _ _ _ _

theorem landOuts_ids (os : List Out) (c : CoreSt) (st : Stream) (j : Nat) :
    (mget [] (os.foldl (fun c o => landOut c st o) c).ch j).map (fun e => e.id) = (mget [] c.ch j).map (fun e => e.id) := by
  induction os generalizing c with
  | nil => rfl
  | cons o r ih => rw [List.foldl_cons, ih, landOut_ids]

theorem landPend_ids (c : CoreSt) (st : Stream) (p : Pend) (j : Nat) :
    (mget [] (landPend c st p).ch j).map (fun e => e.id) = (mget [] c.ch j).map (fun e => e.id) := by
  unfold landPend
  rw [coreUpdStream_ch, landOuts_ids]

theorem landPends_ids (ps : List Pend) (c : CoreSt) (st : Stream) (j : Nat) :
    (mget [] (ps.foldl (fun c p => landPend c st p) c).ch j).map (fun e => e.id) =
      (mget [] c.ch j).map (fun e => e.id) := by
  induction ps generalizing c with
  | nil => rfl
  | cons p r ih => rw [List.foldl_cons, ih, landPend_ids]

/-- A result on its own landing in its destination. -/
theorem landPend_reg (c : CoreSt) (st : Stream) (p : Pend) (o : Opnd) (v : Val) (hp : p.outs = [{ dst := .reg o, val := some v }])
    (hc : isChan o = false) (hf : fits o v = true) : readBack (landPend c st p) st o = some v := by
  unfold landPend
  rw [hp]
  simp only [List.foldl_cons, List.foldl_nil, landOut]
  cases o <;> cases v <;> simp_all [fits, isChan, setReg, readBack]

theorem landPend_chan (c : CoreSt) (st : Stream) (p : Pend) (o : Opnd) (id : Nat) (v : Word)
    (hp : p.outs = [{ dst := .chan o id, val := some (.w v) }]) (hc : isChan o = true)
    (hl : ((mget [] c.ch (chIdx o)).map (fun e => e.id)).getLast? = some id) :
    readBack (landPend c st p) st o = some (.w v) := by
  have key : ((mget [] (landPend c st p).ch (chIdx o)).getLast?.bind (fun e => e.val)) = some v := by
    unfold landPend
    rw [hp]
    simp only [List.foldl_cons, List.foldl_nil, landOut, coreUpdStream_ch, chLand, mget_mset_same, Val.word]
    rw [List.getLast?_map] at hl
    rw [List.getLast?_map]
    cases h : (mget [] c.ch (chIdx o)).getLast? with
    | none => rw [h] at hl; cases hl
    | some e =>
      rw [h] at hl
      simp only [Option.map_some, Option.some.injEq] at hl
      simp [hl]
  cases o <;> simp_all [isChan, readBack]

/-- The one result of a word lands in its destination, whatever has landed since it issued. -/
theorem land_single (x : Ctx) (srcs : List Opnd) (g : Go) (d : Opnd) (v : Val) (c0 c : CoreSt) (sq : Nat)
    (ho : g.outs = [(d, some v)]) (hf : fits d v = true)
    (hids : ∀ j, (mget [] c.ch j).map (fun e => e.id) = (mget [] (x.coreAfter sq srcs g c0).ch j).map (fun e => e.id)) :
    readBack (landPend c x.w.st (x.flight sq g c0)) x.w.st d = some v := by
  cases hcd : isChan d
  · apply landPend_reg _ _ _ _ _ _ hcd hf
    simp [Ctx.flight, ho, takeOuts, hcd]
  · obtain ⟨w, rfl⟩ : ∃ w, v = .w w := by
      cases v
      · exact ⟨_, rfl⟩
      · cases d <;> simp_all [isChan, fits]
    apply landPend_chan _ _ _ _ (sq * 4 + 0) _ _ hcd
    · rw [hids, coreAfter_ch]
      simp [ho, takeOuts, hcd, chPush]
    · simp [Ctx.flight, ho, takeOuts, hcd]

/-- A word of fixed latency with one result: the whole of what it does. -/
theorem issueGo_fixedTo {s : State} {h : Hdr} {srcs : List Opnd} {d : Opnd} {x : Ctx} {vs : List Val}
    (e : Issues s h srcs [d] x vs) (v : Val) (hf : fits d v = true) (n : Next) :
    FixedTo s x srcs d v n (State.finish x srcs (.go
      { st := s, outs := [(d, some v)], due := .exact (x.w.cycle + x.h.pd.val), req := .none, pin := none, arg := 0,
        next := n })) := by
  obtain ⟨hx, -, -, -⟩ := e
  obtain ⟨-, hst, -, -, hp, -, hc, -, ht⟩ := ctx_spec hx
  rw [← hst] at ht
  let g : Go := { st := s, outs := [(d, some v)], due := .exact (x.w.cycle + x.h.pd.val), req := .none, pin := none, arg := 0,
                  next := n }
  refine ⟨x.coreAfter s.seq srcs g x.c, issueGo_commits x srcs g x.p x.c hp hc, ?_, coreAfter_next x s.seq srcs g x.c, ?_⟩
  · exact coreAfter_frame x s.seq srcs g x.c
  · have hpend : ((x.coreAfter s.seq srcs g x.c).stream x.w.st).pend = x.t.pend ++ [x.flight s.seq g x.c] := by
      rw [coreAfter_pend _ _ _ _ _ (by simp [g]), ← ht]
    refine ⟨⟨_, hpend, rfl, rfl, rfl⟩, ?_⟩
    unfold landDue
    rw [hpend, List.filter_append, List.foldl_append]
    have hd : (x.flight s.seq g x.c).due = .exact (x.w.cycle + x.h.pd.val) := rfl
    have hk : ∀ f : Pend → Bool, f (x.flight s.seq g x.c) = true → [x.flight s.seq g x.c].filter f = [x.flight s.seq g x.c] :=
      fun f hf => by simp [hf]
    rw [hk _ (by simp [hd])]
    simp only [List.foldl_cons, List.foldl_nil]
    exact land_single x srcs g d v x.c _ s.seq rfl hf (fun j => landPends_ids _ _ _ _)

theorem issueGo_fixed {s : State} {h : Hdr} {srcs : List Opnd} {d : Opnd} {x : Ctx} {vs : List Val}
    (e : Issues s h srcs [d] x vs) (v : Val) (hf : fits d v = true) :
    FixedWord s x srcs d v (State.finish x srcs (Act.fixed x s d v)) := issueGo_fixedTo e v hf .seq

/-- A word of variable latency with one result known at issue. -/
theorem issueGo_var {s : State} {h : Hdr} {srcs : List Opnd} {d : Opnd} {x : Ctx} {vs : List Val}
    (e : Issues s h srcs [d] x vs) (v : Val) (lo hi : Nat) (hf : fits d v = true) :
    VarWord s x srcs d v lo hi (State.finish x srcs (Act.var x s d v lo (some hi))) := by
  obtain ⟨hx, -, -, -⟩ := e
  obtain ⟨-, hst, -, -, hp, -, hc, -, ht⟩ := ctx_spec hx
  rw [← hst] at ht
  let g : Go := { st := s, outs := [(d, some v)], due := .within (x.w.cycle + lo) (x.w.cycle + hi), req := .none, pin := none,
                  arg := 0, next := .seq }
  refine ⟨x.coreAfter s.seq srcs g x.c, issueGo_commits x srcs g x.p x.c hp hc, ?_, coreAfter_next x s.seq srcs g x.c,
    x.flight s.seq g x.c, ?_, rfl, rfl, rfl, ?_⟩
  · exact coreAfter_frame x s.seq srcs g x.c
  · rw [coreAfter_pend _ _ _ _ _ (by simp [g]), ← ht]
  · exact land_single x srcs g d v x.c _ s.seq rfl hf (fun _ => rfl)

/-! ### Taking a trap -/

/-- Everything that taking a trap does (R380, R384). -/
theorem takeTrap_takes {s : State} {h : Hdr} {x : Ctx} (e : s.ctx? h = some x) (cause : BitVec 8) (info : Word) :
    TakesTrap s x cause info
      ((s.takeTrap x.w.pid x.w.qc x.w.st x.t.pc cause info).slotDone x.w.pid x.w.qc x.w.st) := by
  obtain ⟨-, hst, -, -, hp, -, hc, -, ht⟩ := ctx_spec e
  rw [← hst] at ht
  have hcore : s.core? x.w.pid x.w.qc = some x.c := by unfold State.core?; rw [hp]; exact hc
  constructor
  · rintro ⟨h0, hw⟩
    have hcond : ((x.c.stream x.w.st).tvec = 0 || !isWordAddr (x.c.stream x.w.st).tvec) = false := by
      rw [← ht, hw]; simpa using h0
    have hT : s.takeTrap x.w.pid x.w.qc x.w.st x.t.pc cause info =
        (s.updStream x.w.pid x.w.qc x.w.st (fun t => t.trap x.t.pc cause info)).unregister (.core x.w.pid x.w.qc) := by
      unfold State.takeTrap
      rw [hp, hcore]
      simp only [hcond]
      rfl
    rw [hT]
    refine ⟨rfl, rfl, ?_, ?_, ?_⟩
    · exact slotDone_updCore s x.w.pid x.w.qc (fun c => c.updStream x.w.st (fun t => t.trap x.t.pc cause info)) _ _ _
    · intro pid hpid
      have := pass_updCore s x.w.pid x.w.qc (fun c => c.updStream x.w.st (fun t => t.trap x.t.pc cause info)) pid
      rw [if_neg hpid] at this
      exact this
    · have := pass_updCore s x.w.pid x.w.qc (fun c => c.updStream x.w.st (fun t => t.trap x.t.pc cause info)) x.w.pid
      rw [if_pos rfl, hp, Option.map_some, updCore_eq_set x.p _ _ x.c hc] at this
      refine Eq.trans this ?_
      rw [ht]
      cases x.w.st <;> rfl
  · intro h0
    have hcond : ((x.c.stream x.w.st).tvec = 0 || !isWordAddr (x.c.stream x.w.st).tvec) = true := by
      rw [← ht]; rcases h0 with h0 | h0 <;> simp [h0]
    have hT : s.takeTrap x.w.pid x.w.qc x.w.st x.t.pc cause info =
        s.terminate x.p.rid cause x.c.lcore (if x.w.st = .acc then 0 else 1) info := by
      unfold State.takeTrap
      rw [hp, hcore]
      simp only [hcond, if_true]
      cases x.w.st <;> rfl
    rw [hT]

/-- A trap with a handler changes its stream and the registrations of its core. -/
theorem takeTrap_handler {s : State} {pid qc : Nat} {st : Stream} {p : Pass} {c : CoreSt} (w : VAddr) (cause : BitVec 8)
    (info : Word) (hp : s.pass? pid = some p) (hc : p.cores[qc]? = some c) (h0 : (c.stream st).tvec ≠ 0)
    (hw : isWordAddr (c.stream st).tvec = true) :
    s.takeTrap pid qc st w cause info =
      (s.updStream pid qc st (fun t => t.trap w cause info)).unregister (.core pid qc) := by
  unfold State.takeTrap State.core?
  have hz : ((c.stream st).tvec = 0 || !isWordAddr (c.stream st).tvec) = false := by simp [hw]; exact h0
  simp only [hp, hc]
  rw [hz]; rfl

end Sys2Proof.Machine
end

