-- ==== Sys2Proof/Laws/Xlate.lean ====
section
/-! SUPPORT. What a translation can change: cached entries and the choices drawn, and nothing else. -/

namespace Sys2Proof.Machine

/-- The states differ at most in cached translations and in the choices drawn. -/
def SameButCached (s t : State) : Prop := ∃ a b c d, t = { s with tlb := a, walks := b, script := c, free := d }

theorem SameButCached.refl (s : State) : SameButCached s s := ⟨_, _, _, _, rfl⟩

theorem SameButCached.trans {s t u : State} (h : SameButCached s t) (k : SameButCached t u) : SameButCached s u := by
  obtain ⟨_, _, _, _, rfl⟩ := h
  obtain ⟨_, _, _, _, rfl⟩ := k
  exact ⟨_, _, _, _, rfl⟩

theorem draw_same (s : State) (n : Nat) : SameButCached s (s.draw n).2 := by
  unfold State.draw
  split <;> exact ⟨_, _, _, _, rfl⟩

theorem walk_same (die : Nat) (asid : BitVec 16) (va l tbl : Nat) (s : State) : SameButCached s (s.walk die asid va l tbl).2 := by
  have fill (u : State) (l : Nat) (e : Word) : SameButCached u (u.walkFill die asid l va e) := ⟨_, _, _, _, rfl⟩
  induction l generalizing tbl s with
  | zero =>
    unfold State.walk
    generalize s.walkHit die asid 0 va = o
    rcases o with _ | c
    · exact .refl s
    · dsimp only
      split
      · exact .refl s
      · exact draw_same s 2
  | succ l ih =>
    have go : ∀ w u, SameButCached s u → SameButCached s (match l + 1, pteKind (l + 1) w with
        | l' + 1, .table pa => (u.walkFill die asid (l + 1) va w).walk die asid va l' pa
        | _, k => ((k, w, l + 1), u) : (PteKind × Word × Nat) × State).2 := by
      intro w u h
      cases pteKind (l + 1) w with
      | table pa => exact h.trans ((fill u _ _).trans (ih _ _))
      | leaf pa => exact h
      | bad n => exact h
    unfold State.walk
    generalize s.walkHit die asid (l + 1) va = o
    rcases o with _ | c <;> dsimp only
    · exact go _ _ (.refl s)
    · refine go _ _ ?_
      split
      · exact .refl s
      · exact draw_same s 2

theorem translate_same (s : State) (die : Nat) (asid : BitVec 16) (va : VAddr) (acc : Acc) :
    SameButCached s (s.translate die asid va acc).2 := by
  have hw := walk_same die asid va.toNat 3 (s.asidCtx asid).root.toNat s
  have put (u v : State) (h : SameButCached s u) : SameButCached s { u with script := v.script, free := v.free } :=
    h.trans ⟨_, _, _, _, rfl⟩
  have fill (u : State) (t : TlbEnt) : SameButCached u (u.tlbFill t) := ⟨_, _, _, _, rfl⟩
  unfold State.translate
  dsimp only
  generalize s.walk die asid va.toNat 3 (s.asidCtx asid).root.toNat = r at hw
  generalize s.tlbHit die asid va.toNat = o
  obtain ⟨⟨k, e, l⟩, u⟩ := r
  have hd := draw_same s 2
  have hf : SameButCached s (if (leafCheck acc e va.toNat (lvlShift l)).isOk then
      u.tlbFill { die := die, asid := asid, va := va.toNat / 2 ^ lvlShift l * 2 ^ lvlShift l, lg := lvlShift l, pte := e }
      else u) := by
    split
    · exact hw.trans (fill _ _)
    · exact hw
  rcases o with _ | t <;> rcases k with a | n | a <;> dsimp only
  iterate 3 first | exact hf | exact hw
  all_goals
    split
    · exact .refl s
    · split
      · first | exact put _ _ hf | exact put _ _ hw
      · exact hd

theorem spans_same (tr : VAddr → State → Tr × State) (h : ∀ v s, SameButCached s (tr v s).2) (fuel : Nat) (va : VAddr) (n : Nat)
    (s : State) : SameButCached s (spans tr fuel va n s).2 := by
  induction fuel generalizing va n s with
  | zero => exact .refl s
  | succ k ih =>
    unfold spans
    split
    · exact .refl s
    · exact (h va s).trans (ih _ _ _)

/-- An access changes cached translations and takes choices, and does nothing else. -/
theorem access_same (s : State) (die : Nat) (asid : BitVec 16) (acc : Acc) (va : VAddr) (n : Nat) :
    SameButCached s (s.access die asid acc va n).2 := spans_same _ (fun v s => translate_same s die asid v acc) _ va n s

theorem quietParts_same (s : State) (die : Nat) (asid : BitVec 16) (acc : Acc) (va : VAddr) (n : Nat) :
    SameButCached s (s.quietParts die asid acc va n).2 := by
  unfold State.quietParts
  have h := access_same s die asid acc va n
  dsimp only
  split <;> exact h

theorem readChain_same {s t : State} (h : SameButCached s t) (k : Nat) (ch : List StoreId) : t.readChain k ch = s.readChain k ch := by
  obtain ⟨_, _, _, _, rfl⟩ := h
  induction ch with
  | nil => rfl
  | cons i r ih => simp only [State.readChain, ih]

/-- What memory, path buffers and stores hold does not depend on cached translations. -/
theorem readFrom_same {s t : State} (h : SameButCached s t) (ag : Agent) (cl : Cls) (lvl : Nat) (ks : List Nat) :
    t.readFrom ag cl lvl ks = s.readFrom ag cl lvl ks := by
  have hc : t.chain ag cl = s.chain ag cl := by
    obtain ⟨_, _, _, _, rfl⟩ := h
    rfl
  simp only [State.readFrom, hc, readChain_same h]

end Sys2Proof.Machine
end

