-- ==== Sys2Proof/Tests/Slice0.lean ====
section
/-! SUPPORT. Tests of the model: ill-formed words for every check, words that the spec writes out, single steps with results
computed in the spec, and for every statement a state and operands that meet its hypotheses together. -/

namespace Sys2Proof.Tests

open Sys2Proof.Machine

/-! ### States built for the tests -/

def exeHdr : Hdr := { st := .exe, pd := 0, ta := 0, tc := 0 }
def accHdr : Hdr := { st := .acc, pd := 0, ta := 0, tc := 0 }

/-- A word of the execute stream, or of the access stream, is next: pass 0, run 1, core 0. -/
def exeSt : State := State.reset.withFetchWord 80 (0x5F * 2 ^ 72)
def accSt : State := State.reset.withFetchWord 80 (0x5F * 2 ^ 72 + 2 ^ 65)

def onCore (s : State) (f : CoreSt → CoreSt) : State := s.updCore 0 0 f
def onPass (s : State) (f : Pass → Pass) : State := s.updPass 0 f

/-- The first 2 MiB translate to themselves with every permission, from the TLB of die 0, for each of the next draws. -/
def mapped (s : State) : State :=
  { s with tlb := [{ die := 0, asid := 0, va := 0, lg := 21, pte := 0x1F }], script := List.replicate 24 1 }

/-- A line-store signal of one row of 256 bytes, with its current sample in a state. -/
def desc0 : SigDesc :=
  { tier := 0, home := 0, fmt := 0, rows := 1, rw := 1, gm := 0, g0 := false, keep := false, depth := 2, base := 0, fw := 0,
    fill := 0, period := 1, phase := 0 }
def slot0 (st : SlotState) : Slot := { num := 0, st := st, segs := 0, wp := 0, rp := 0, data := [], touched := false, back := false }
def sig0 (st : SlotState) : Sig :=
  { desc := desc0, live := true, n := 0, o := 0, g := false, due := true, slots := [slot0 st], rest := false }
def withSig (s : State) (g : Sig) : State := onPass s (fun p => { p with sigs := [(0, some g)] })

/-- A word may issue, with more to be true of what it finds. -/
def issueOk (s : State) (h : Hdr) (srcs dsts : List Opnd) (P : Ctx → List Val → Bool) : Bool :=
  match s.ctx? h with
  | some x => dsts.all (x.bound s) && x.ready dsts && (match readSrcs x.c x.w 0 x.c.ch srcs with
    | some vs => P x vs
    | none => false)
  | none => false

theorem issueOk_spec {s : State} {h : Hdr} {srcs dsts : List Opnd} {P : Ctx → List Val → Bool}
    (e : issueOk s h srcs dsts P = true) : ∃ x vs, Issues s h srcs dsts x vs ∧ P x vs = true := by
  cases hx : s.ctx? h with
  | none => simp [issueOk, hx] at e
  | some x =>
    cases hv : readSrcs x.c x.w 0 x.c.ch srcs with
    | none => simp [issueOk, hx, hv] at e
    | some vs => exact ⟨x, vs, by simp_all [issueOk, Issues], by simp_all [issueOk]⟩

/-- An access translates, with more to be true of its parts and of the state after it. -/
def accOk (r : Except AccFault (List Part) × State) (P : List Part → State → Bool) : Bool :=
  match r with
  | (.ok ps, s1) => P ps s1
  | (.error _, _) => false
def accBad (r : Except AccFault (List Part) × State) (P : AccFault → State → Bool) : Bool :=
  match r with
  | (.error f, s1) => P f s1
  | (.ok _, _) => false

theorem accOk_spec {r : Except AccFault (List Part) × State} {P : List Part → State → Bool} (e : accOk r P = true) :
    ∃ ps s1, r = (.ok ps, s1) ∧ P ps s1 = true := by
  obtain ⟨v | ps, s1⟩ := r
  · cases e
  · exact ⟨ps, s1, rfl, e⟩

/-! ### Ill-formed words, one for each check -/

theorem test_wf_stream : check (.tick accHdr 0) = some .stream := by decide
theorem test_wf_latency : check (.add exeHdr (.r 1) (.r 2) (.r 3)) = some .latency := by decide
theorem test_wf_latency_tag : check (.div { exeHdr with ta := 0 } (.r 1) (.r 2) (.r 3)) = some .latency := by decide
theorem test_wf_dest : check (.add { exeHdr with pd := 1 } (.v 1) (.r 2) (.r 3)) = some .dest := by decide
theorem test_wf_source : check (.add { accHdr with pd := 1 } (.r 1) (.r 32) (.r 3)) = some .source := by decide
theorem test_wf_field : check (.bfx { exeHdr with pd := 1 } false (.r 1) (.r 2) 60 5) = some .field := by decide
theorem test_wf_ordering : check (.ld { accHdr with ta := 1 } false .d ⟨.acq, 0, 0⟩ (.r 1) (.r 2) 0) = some .ordering := by decide
theorem test_wf_vtype : check (.vfma { exeHdr with pd := 4 } .w .rne (.v 1) (.v 2) (.v 3) (.v 4) ⟨false, false, 0⟩) =
  some .vtype := by decide
theorem test_wf_mask : check (.vredmax { exeHdr with pd := 6 } .s (.r 1) (.reg (.v 2)) ⟨true, true, 0⟩) = some .mask := by decide
theorem test_wf_taps : check (.vadd { exeHdr with ta := 1 } .s (.fp .rne) (.v 1) (.tap (.direct 0 0 0)) (.tap (.direct 0 0 0))
  ⟨false, false, 0⟩) = some .taps := by decide
theorem test_wf_aligned : check (.vsort { exeHdr with pd := 12 } .s false (.v 1) (.v 2) (.v 4)) = some .aligned := by decide

/-! ### Words that the spec writes out, one of each family and more -/

theorem test_dec_addi : decodeTableWord 80 0x03022000_1405003FFFFF =            -- 06_instruction_word.md
  some (.addi { st := .acc, pd := 1, ta := 0, tc := 0 } (.r 5) (.r 5) 0x3FFFFF) := by rfl
theorem test_dec_ffma : decodeTableWord 80 0x43028100_30070280B000 =            -- 09_program_scale_add.md
  some (.ffma { st := .acc, pd := 4, ta := 0, tc := 0x20 } .s .rne (.r 12) (.r 7) (.r 10) (.r 11)) := by rfl
theorem test_dec_br : decodeTableWord 80 0x50060000_0005003FFFFE =              -- 08_sequencer_instructions.md
  some (.br accHdr .nz (.r 5) 0x3FFFFE) := by rfl
theorem test_dec_ld : decodeTableWord 80 0x600A0400_1C0600000010 =
  some (.ld { accHdr with ta := 1 } false .w ⟨.none, 0, 0⟩ (.r 7) (.r 6) 0x10) := by rfl
theorem test_dec_st : decodeTableWord 80 0x610A0000_0009030000FC =
  some (.st accHdr .w ⟨.none, 0, 0⟩ (.r 9) 0xFC (.r 12)) := by rfl
theorem test_dec_faddw : decodeTableWord 80 0x64060400_280902E50004 =           -- 17_memory_path.md
  some (.faddw { accHdr with ta := 1 } .d ⟨.rel, 5, 0⟩ 0 (.r 10) (.r 9) (.r 11) (.imm 4)) := by rfl
theorem test_dec_tick : decodeTableWord 80 0x70000000_0000000000C8 = some (.tick exeHdr 200) := by rfl
theorem test_dec_tld : decodeTableWord 80 0x71000401_0A8000000020 =
  some (.tld { exeHdr with ta := 1 } 0 (.v 2) (.direct 0 1 0)) := by rfl
theorem test_dec_ckey : decodeTableWord 80 0x78004000_080100010400 =            -- 14_curve_unit.md
  some (.ckey { exeHdr with pd := 2 } ⟨2, 2⟩ (.r 2) (.r 1)) := by rfl
theorem test_dec_vadd : decodeTableWord 80 0x80208001_10411080001B =            -- 13_vector_engine.md
  some (.vadd { exeHdr with pd := 4 } .h (.fp .rne) (.v 4) (.reg (.v 1)) (.reg (.v 2)) ⟨true, true, 3⟩) := by rfl
theorem test_dec_mmac : decodeTableWord 80 0xC34C0000_000C03520834 =            -- 16_matrix_engine.md
  some (.mmac exeHdr 2 3 (.reg (.r 12)) (.reg (.r 13)) ⟨⟨.acq, 2, 8⟩, 3, 4⟩) := by rfl
theorem test_dec_cred : decodeTableWord 80 0xD4080000_000E03C00005 =            -- 18_copy_gather_engine.md
  some (.cred exeHdr .bf16 (.r 14) (.r 15) ⟨⟨.none, 0, 0⟩, 0, 5⟩) := by rfl
theorem test_dec_attq : decodeTableWord 80 0xD90C0004_201505800003 =            -- 22_stack_attention.md
  some (.attq exeHdr 3 (.q 8 false) (.r 21) (.r 22) ⟨⟨.none, 0, 0⟩, 0, 3⟩) := by rfl
theorem test_dec_freg : decodeTableWord 80 0xE2020800_340902000000 =            -- 20_launch_engine.md
  some (.freg { accHdr with ta := 2 } (.r 13) (.r 9) (.r 8)) := by rfl
theorem test_dec_lease : decodeTableWord 80 0xF4020400_300900000000 =           -- 25_power_fabric_host.md
  some (.lease { accHdr with ta := 1 } (.r 12) (.r 9)) := by rfl
theorem test_dec_zero : decodeTableWord 80 0 = none := by rfl                   -- R127: OP 0x00

/-! ### Reset -/

theorem test_reset_mem : State.reset.mem.wf = true := by decide

/-! ### Single steps and roundings with values that the spec works out -/

def reg (s : State) (n : Nat) (v : Word) : State :=
  onCore s (fun c => { c with exe := { c.exe with regs := mset 0 c.exe.regs n v } })

/-- The result that the word just issued has in flight. -/
def resultOf (o : Out3) : Option Val :=
  match o with
  | .next t => (match t.core? 0 0 with
    | some c => (match c.exe.pend.getLast? with
      | some p => (match p.outs.head? with
        | some u => u.val
        | none => none)
      | none => none)
    | none => none)
  | _ => none

/-- Two sources in s2 and s3. -/
def two (a b : Word) : State := reg (reg exeSt 2 a) 3 b

/-- Core 0 of pass 0 after a step. -/
def coreHas (t : State) (P : CoreSt → Bool) : Bool :=
  match t.core? 0 0 with
  | some c => P c
  | none => false

-- 08_sequencer_instructions.md, under R141
theorem test_mul : resultOf (exec (.mul { exeHdr with pd := 3 } (.r 1) (.r 2) (.r 3)) (two 6 7)) = some (.w 42) := by
  decide +kernel
-- R147, the table of cases
theorem test_div_by_zero : resultOf (exec (.div { exeHdr with ta := 1 } (.r 1) (.r 2) (.r 3)) (two 5 0)) =
    some (.w 0xFFFFFFFFFFFFFFFF) := by decide +kernel
theorem test_div_rounds_to_zero : resultOf (exec (.div { exeHdr with ta := 1 } (.r 1) (.r 2) (.r 3)) (two (-7) 2)) =
    some (.w (-3)) := by decide +kernel
theorem test_divu_wide : resultOf (exec (.divu { exeHdr with ta := 1 } (.r 1) (.r 2) (.r 3)) (two 0x8000000000000000 (-1))) =
    some (.w 0) := by decide +kernel
theorem test_rem_sign : resultOf (exec (.rem { exeHdr with ta := 1 } (.r 1) (.r 2) (.r 3)) (two (-7) 2)) =
    some (.w (-1)) := by decide +kernel
theorem test_remu_by_zero : resultOf (exec (.remu { exeHdr with ta := 1 } (.r 1) (.r 2) (.r 3)) (two 5 0)) =
    some (.w 5) := by decide +kernel
-- 14_curve_unit.md, under R242
theorem test_ckey : resultOf (exec (.ckey { exeHdr with pd := 2 } ⟨2, 2⟩ (.r 2) (.r 3)) (two 0 0x19D)) = some (.w 0x173) := by
  decide +kernel
theorem test_cunk : resultOf (exec (.cunk { exeHdr with pd := 2 } ⟨2, 2⟩ (.r 2) (.r 3)) (two 0 0x173)) = some (.w 0x19D) := by
  decide +kernel
-- R97, the worked element
theorem test_srd_hash : srdHash 0 1 0 = 0x752F := by decide
theorem test_srd_up : FFmt.round fBF16 { rm := .srd, seed := 0, now := 0 } 1 false (FFmt.dec fFP32 0x3F808000) = 0x3F81 := by
  decide +kernel
theorem test_srd_down : FFmt.round fBF16 { rm := .srd, seed := 0, now := 0 } 1 false (FFmt.dec fFP32 0x3F806000) = 0x3F80 := by
  decide +kernel
-- R163, the worked cycle: an increment has saturated, the access stream writes 5
theorem test_semsat : (match exec (.csrw accHdr 0x014 (.r 2)) (onCore accSt (fun c =>
      { c with semsat := 1, satNow := 1, acc := { c.acc with regs := mset 0 c.acc.regs 2 5 } })) with
    | .next t => coreHas t (fun c => (c.nextCycle 1 false false 0).semsat == 6)
    | _ => false) = true := by decide +kernel
-- R164: trap 0x2A
theorem test_trap : (match exec (.trap exeHdr 0x2A) (onCore exeSt (fun c => { c with exe := { c.exe with tvec := 0x20000 } })) with
    | .next t => coreHas t (fun c => c.exe.tinfo == 0x2A && c.exe.pc == 0x20000)
    | _ => false) = true := by decide +kernel

/-! ### Hypotheses met: registers and control flow -/

theorem witness_IntegerResults : ∃ (i : Instr) (h : Hdr) (srcs : List Opnd) (d : Opnd) (f : (Nat → Word) → Word) (s : State)
    (x : Ctx) (vs : List Val), r144 i = some (h, srcs, d, f) ∧ Issues s h srcs [d] x vs ∧ isV d = false :=
  ⟨.add exeHdr (.r 1) (.r 2) (.r 3), _, _, _, _, exeSt, _, _, rfl, ⟨rfl, rfl, rfl, rfl⟩, rfl⟩

theorem witness_ShiftResults : (∃ x vs, r145 (.shl exeHdr (.r 1) (.r 2) (.imm 63)) = some (exeHdr, .r 1, .r 2, .imm 63,
      fun x n => BitVec.ofNat 64 (x.toNat * 2 ^ n)) ∧ Issues exeSt exeHdr [.r 2] [.r 1] x vs) ∧
    (∃ x vs, Issues exeSt exeHdr [.r 2, .r 3] [.r 1] x vs) :=
  ⟨⟨_, _, rfl, rfl, rfl, rfl, rfl⟩, ⟨_, _, rfl, rfl, rfl, rfl⟩⟩

theorem witness_CompareResults : (∃ x vs, Issues exeSt exeHdr [.r 2, .r 3] [.r 1] x vs ∧ r146 .eq (wordAt vs 0) (wordAt vs 1)) ∧
    (∃ x vs, Issues exeSt exeHdr [.r 2] [.r 1] x vs ∧ ¬r146 .ltu (wordAt vs 0) 0) :=
  ⟨⟨_, _, ⟨rfl, rfl, rfl, rfl⟩, rfl⟩, ⟨_, _, ⟨rfl, rfl, rfl, rfl⟩, Nat.not_lt_zero _⟩⟩

theorem witness_FieldResults : ∃ i h srcs d f, r148 i = some (h, srcs, d, f) ∧ wf i = true ∧
    ∃ x vs, Issues exeSt h srcs [d] x vs :=
  ⟨.bfx { exeHdr with pd := 1 } true (.r 1) (.r 2) 0 64, _, _, _, _, rfl, by decide, _, _, ⟨rfl, rfl, rfl, rfl⟩⟩

theorem witness_DivisionResults : ∃ i h srcs d f, r147 i = some (h, srcs, d, f) ∧ ∃ x vs, Issues exeSt h srcs [d] x vs ∧
    isV d = false := ⟨.div { exeHdr with ta := 1 } (.r 1) (.r 2) (.r 3), _, _, _, _, rfl, _, _, ⟨rfl, rfl, rfl, rfl⟩, rfl⟩

theorem witness_FloatResults : (∃ i h f rm d srcs op, r151 i = some (h, f, rm, d, srcs, op) ∧
      ∃ x vs, Issues exeSt h srcs [d] x vs ∧ isV d = false) ∧
    (∃ i h f rm d srcs op, r151Slow i = some (h, f, rm, d, srcs, op) ∧ ∃ x vs, Issues exeSt h srcs [d] x vs ∧ isV d = false) ∧
    (∃ r, r ∈ r78) ∧ sgnNum true 3 * (2 : Nat) + sgnNum false 5 * (4 : Nat) ≠ 0 ∧
    sgnNum true 1 * (2 : Nat) + sgnNum false 2 * (1 : Nat) = 0 ∧ 3 ^ 2 * 4 = 9 * 4 ^ 1 :=
  ⟨⟨.ffma exeHdr .s .rne (.r 1) (.r 2) (.r 3) (.r 4), _, _, _, _, _, _, rfl, _, _, ⟨rfl, rfl, rfl, rfl⟩, rfl⟩,
   ⟨.fsqrt { exeHdr with ta := 7 } .h .rne (.r 1) (.r 2), _, _, _, _, _, _, rfl, _, _, ⟨rfl, rfl, rfl, rfl⟩, rfl⟩,
   ⟨_, List.mem_cons_self⟩, by decide, by decide, by decide⟩

theorem witness_FloatOtherResults : (∃ x vs, Issues exeSt exeHdr [.r 2, .r 3] [.r 1] x vs) ∧
    ∃ x vs, Issues exeSt exeHdr [.r 2] [.r 1] x vs := ⟨⟨_, _, rfl, rfl, rfl, rfl⟩, ⟨_, _, rfl, rfl, rfl, rfl⟩⟩

theorem witness_KeyAndMaskResults : (∃ i h srcs d f, keyRow i = some (h, srcs, d, f) ∧ isV d = false ∧
      (∃ x vs, Issues exeSt h srcs [d] x vs) ∧ wf i = true) ∧
    (∃ i h srcs d f, keyRow i = some (h, srcs, d, f) ∧ isV d = true ∧ ∃ x vs, Issues exeSt h srcs [d] x vs) ∧
    (∃ i h srcs d f, maskRow i = some (h, srcs, d, f) ∧ isV d = false ∧ ∃ x vs, Issues exeSt h srcs [d] x vs) :=
  ⟨⟨.cbox { exeHdr with pd := 2 } ⟨0, 63⟩ (.r 1) (.r 2) (.r 4), _, _, _, _, rfl, rfl, ⟨_, _, rfl, rfl, rfl, rfl⟩, by decide⟩,
   ⟨.ckey exeHdr ⟨2, 2⟩ (.v 1) (.v 2), _, _, _, _, rfl, rfl, _, _, ⟨rfl, rfl, rfl, rfl⟩⟩,
   ⟨.knot exeHdr (.k 1) (.k 7), _, _, _, _, rfl, rfl, _, _, ⟨rfl, rfl, rfl, rfl⟩⟩⟩

theorem witness_VectorElements : ∃ i h w tops d mk g, elRow i = some (h, w, tops, d, mk, g) ∧ tops.findSome? topTap = none ∧
    isV d = true ∧ ∃ x vs, Issues exeSt h (tops.flatMap topSrc ++ maskSrcs mk d) [d] x vs :=
  ⟨.vadd exeHdr .w (.int true) (.v 0) (.reg (.v 31)) (.reg (.r 3)) ⟨true, false, 7⟩, _, _, _, _, _, _, rfl, rfl, rfl, _, _,
   ⟨rfl, rfl, rfl, rfl⟩⟩

theorem witness_IssueEffect : ∃ (x : Ctx) (g : Go) (p : Pass) (c0 : CoreSt), exeSt.ctx? exeHdr = some x ∧ g = plainGo exeSt .seq ∧
    g.st.pass? x.w.pid = some p ∧ p.cores[x.w.qc]? = some c0 ∧ g.outs = [] ∧ g.req = .none ∧
    ({ g with outs := [(.r 1, none)] } : Go).outs ≠ [] := ⟨_, _, _, _, rfl, rfl, rfl, rfl, rfl, rfl, by decide⟩

/-- A tagged result in flight to s1. -/
def flight : Pend :=
  { outs := [{ dst := .reg (.r 1), val := some (.w 7) }], tag := 1, issued := 0, due := .least 0, req := .none, seq := 0,
    pin := none, arg := 0 }
def withFlight (s : State) (p : Pend) : State := onCore s (fun c => { c with exe := { c.exe with pend := [p] } })

theorem witness_WordsHold : (∃ i h srcs dsts x,
      (∃ body, exec i (withFlight exeSt flight) = issue h srcs dsts (withFlight exeSt flight) body) ∧
      (withFlight exeSt flight).ctx? h = some x ∧ (∀ d ∈ dsts, x.bound (withFlight exeSt flight) d = true) ∧
      ∃ d ∈ dsts, isChan d = false ∧ x.t.busyReg d = true) ∧
    (∃ x, (withFlight exeSt flight).ctx? { exeHdr with tc := 1 } = some x ∧
      x.bound (withFlight exeSt flight) (.r 2) = true ∧ x.t.tcFree 1 = false) ∧
    (∃ x, (withFlight exeSt flight).ctx? { exeHdr with ta := 1 } = some x ∧ x.t.tagBusy 1 = true) ∧
    (∃ x, (withFlight exeSt flight).ctx? exeHdr = some x ∧ isChan (.r 1) = false ∧ x.t.busyReg (.r 1) = true) ∧
    (∃ x, exeSt.ctx? exeHdr = some x ∧ readSrcs x.c x.w 0 x.c.ch [.r 1, .q 0 false] = none) ∧
    (∃ x, accSt.ctx? accHdr = some x ∧ x.bound accSt (.n 0 false) = false) :=
  ⟨⟨.add exeHdr (.r 1) (.r 2) (.r 3), exeHdr, [.r 2, .r 3], [.r 1], _,
    ⟨fun x vs => Act.fixed x (withFlight exeSt flight) (.r 1) (.w (wordAt vs 0 + wordAt vs 1)), rfl⟩, rfl, by decide +kernel,
    _, List.mem_cons_self, rfl, rfl⟩, ⟨_, rfl, rfl, rfl⟩, ⟨_, rfl, rfl⟩, ⟨_, rfl, rfl, rfl⟩, ⟨_, rfl, rfl⟩, ⟨_, rfl, rfl⟩⟩

def handled : State := onCore exeSt (fun c => { c with exe := { c.exe with tvec := 0x2A } })

theorem witness_SoftwareTrap : (∃ x vs, Issues exeSt exeHdr [] [] x vs ∧ x.t.tvec = 0) ∧
    (∃ x vs, Issues handled exeHdr [] [] x vs ∧ x.t.tvec ≠ 0 ∧ isWordAddr x.t.tvec = true) ∧
    (∃ p c, handled.pass? 0 = some p ∧ p.cores[0]? = some c ∧ (c.stream .exe).tvec ≠ 0 ∧
      isWordAddr (c.stream .exe).tvec = true) :=
  ⟨⟨_, _, ⟨rfl, rfl, rfl, rfl⟩, rfl⟩, ⟨_, _, ⟨rfl, rfl, rfl, rfl⟩, by decide, rfl⟩, ⟨_, _, rfl, rfl, by decide, rfl⟩⟩

theorem witness_TrapReturn : (∃ x vs, Issues exeSt exeHdr [] [] x vs ∧ isWordAddr x.t.epc = true) ∧
    (∃ x vs, Issues (onCore exeSt (fun c => { c with exe := { c.exe with epc := 9 } })) exeHdr [] [] x vs ∧
      isWordAddr x.t.epc = false) := by
  constructor <;> exact ⟨_, _, ⟨rfl, rfl, rfl, rfl⟩, rfl⟩

/-- s2 holds a value. -/
def withR2 (s : State) (w : Word) : State :=
  onCore s (fun c => { c with exe := { c.exe with regs := [(2, w)] }, acc := { c.acc with regs := [(2, w)] } })

theorem witness_Transfers : (∃ x vs, Issues exeSt exeHdr [.r 2] [] x vs ∧ r155 .z (wordAt vs 0) ∧ ¬r155 .nz (wordAt vs 0)) ∧
    (∃ x vs, Issues exeSt exeHdr [] [] x vs) ∧ (∃ x vs, Issues exeSt exeHdr [] [.r 1] x vs ∧ isV (.r 1) = false) ∧
    (∃ x vs, Issues (withR2 exeSt 10) exeHdr [.r 2] [] x vs ∧ isWordAddr (va57 (wordAt vs 0)) = true) ∧
    (∃ x vs, Issues (withR2 exeSt 11) exeHdr [.r 2] [] x vs ∧ isWordAddr (va57 (wordAt vs 0)) = false) := by
  refine ⟨⟨_, _, ⟨rfl, rfl, rfl, rfl⟩, rfl, fun h => h rfl⟩, ⟨_, _, rfl, rfl, rfl, rfl⟩, ?_⟩
  and_intros <;> exact ⟨_, _, ⟨rfl, rfl, rfl, rfl⟩, rfl⟩

/-- q7, the queue that the execute stream pops, holds one entry. -/
def withQ7 (ty : EntTy) (v : Word) : State := onCore exeSt (fun c => { c with ch := [(7, [{ id := 0, ty := ty, val := some v }])] })

theorem witness_ConditionQueues : isChan (.q 7 false) = true ∧
    (∃ x vs e, Issues (withQ7 .bit 1) exeHdr [.q 7 false] [] x vs ∧ headOf x (.q 7 false) = some e ∧ e.ty ≠ .token) ∧
    (∃ x vs e, Issues (withQ7 .token 10) exeHdr [.q 7 false] [] x vs ∧ headOf x (.q 7 false) = some e ∧ e.ty = .token ∧
      isWordAddr (va57 (wordAt vs 0)) = true) ∧
    (∃ x vs, Issues exeSt exeHdr [.r 1] [.q 6 false] x vs) ∧ (∃ x vs, Issues exeSt exeHdr [] [.q 6 false] x vs) :=
  ⟨rfl, ⟨_, _, _, ⟨rfl, rfl, rfl, rfl⟩, rfl, by decide⟩, ⟨_, _, _, ⟨rfl, rfl, rfl, rfl⟩, rfl, rfl, rfl⟩, by
    constructor <;> exact ⟨_, _, rfl, rfl, rfl, rfl⟩⟩

theorem witness_LoopOpens : (∃ x vs, Issues exeSt exeHdr [.r 1] [] x vs ∧ x.t.ldepth ≠ 4) ∧
    (∃ x vs, Issues (onCore exeSt (fun c => { c with exe := { c.exe with ldepth := 4 } })) exeHdr [] [] x vs ∧ x.t.ldepth = 4) :=
  by constructor <;> exact ⟨_, _, ⟨rfl, rfl, rfl, rfl⟩, by decide⟩

theorem witness_NopExitTick : ∃ x vs, Issues exeSt exeHdr [] [] x vs := ⟨_, _, rfl, rfl, rfl, rfl⟩

def ctx0 : AsidCtx :=
  { ast := 1, root := 0, htb := 0x1000, htl := 2, kwb := 0, lkp := 0, kws := 0, pst := 0, fln := 0, flb := 0, flp := 0 }

/-- The first core of a pass that stands nowhere. -/
def bare : CoreSt := newCore 0 [] 0

theorem witness_ControlRegisters : (∃ x vs v, Issues accSt accHdr [] [.r 31] x vs ∧ isV (.r 31) = false ∧
      ((0x04C : BitVec 12).toNat, v) ∈ r131 accSt x) ∧
    (∃ x vs, Issues accSt accHdr [.r 31] [] x vs) ∧ ((0x014 : Nat), (7 : Word)) ∈ ({ bare with crNew := [(0x014, 7)] } : CoreSt).crNew ∧
    (∀ v, (0x014, v) ∉ bare.crNew) :=
  ⟨⟨_, _, 0, ⟨rfl, rfl, rfl, rfl⟩, rfl, by unfold r131; exact List.mem_of_getLast? rfl⟩, ⟨_, _, rfl, rfl, rfl, rfl⟩,
   List.mem_cons_self, nofun⟩

def withSem (v : BitVec 16) : State := onCore exeSt (fun c => { c with sems := [(255, v)] })
/-- One wait for semaphore 255, at a counter of 1: of the execute stream, of the access stream, of a copy command. -/
def waitsExe : State := onCore (withSem 1) (fun c => { c with exe := { c.exe with semWait := some (255, []) } })
def waitsAcc : State := onCore (withSem 1) (fun c => { c with acc := { c.acc with semWait := some (255, []) } })
def waitsCpy : Cmd :=
  { id := 5, eng := .copy, st := .queued, ins := .cnot exeHdr 0, ops := [], taps := [], wpins := [], rpins := [], fmt := 0,
    rm := .rne, seed := 0, kvs := [], range := (0, 0), outs := [], tag := 0, seq := 0, ivl := 0, wait := some 255, sig := none,
    ord := { kind := .none, scope := 0, paths := 0 }, begun := 0, prog := 0, blks := none, flt := none, held := false }
def waitsCmd : State := onCore (withSem 1) (fun c => { c with cmds := [waitsCpy] })
/-- A state with its command queue of an engine full. -/
def crowd (e : Eng) (s : State) : State :=
  onCore s (fun c => { c with cmds := List.replicate 64 { waitsCpy with eng := e, wait := none } })
/-- The pass of the placed word. -/
def pass0 (s : State) : Pass := s.passes.headD (newPass 0 (wordRun 0) { dies := [0], core := 0 } ctx0)

theorem witness_Semaphores : (∃ x vs, Machine.semOf (.imm 255) vs = (255, []) ∧ Issues (withSem 65535) exeHdr [] [] x vs ∧
      (mget 0 x.c.sems 255).toNat + mget 0 x.c.waitNow 255 = 65535) ∧
    (∃ x vs, Machine.semOf (.imm 255) vs = (255, []) ∧ Issues exeSt exeHdr [] [] x vs ∧ mget 0 x.c.sems 255 = 0) ∧
    (∃ (p : Pass) (c : CoreSt), waitsExe.core? p.pid 0 = some c ∧ (mget 0 c.sems 255).toNat = 1 ∧ waitsExe.stalled p = false ∧
      c.exe.semWait = some (255, []) ∧ c.acc.semWait = none ∧ c.cmds = []) ∧
    (∃ (p : Pass) (c : CoreSt), waitsAcc.core? p.pid 0 = some c ∧ (mget 0 c.sems 255).toNat = 1 ∧ waitsAcc.stalled p = false ∧
      c.exe.semWait = none ∧ c.acc.semWait = some (255, []) ∧ c.cmds = []) ∧
    (∃ (p : Pass) (c : CoreSt), waitsCmd.core? p.pid 0 = some c ∧
      (mget 0 c.sems 255).toNat = 1 ∧ c.exe.semWait = none ∧ c.acc.semWait = none ∧
      (c.cmdsIn .copy .queued).head? = some waitsCpy ∧ waitsCpy.wait = some 255 ∧ waitsCpy.ord.kind = .none ∧
      c.cmds = [waitsCpy] ∧ [Eng.mat, .copy, .vec, .curve, .att] = [.mat] ++ .copy :: [.vec, .curve, .att]) :=
  ⟨⟨_, _, rfl, ⟨rfl, rfl, rfl, rfl⟩, rfl⟩, ⟨_, _, rfl, ⟨rfl, rfl, rfl, rfl⟩, rfl⟩,
   ⟨pass0 waitsExe, _, rfl, by and_intros <;> rfl⟩, ⟨pass0 waitsAcc, _, rfl, by and_intros <;> rfl⟩,
   ⟨pass0 waitsCmd, _, rfl, by and_intros <;> rfl⟩⟩

theorem witness_SpillBanks : (∃ x vs, Issues (withR2 exeSt 4088) exeHdr (optList (some (.r 2))) [.r 1] x vs ∧
      (wordAt vs 0 + (0 : BitVec 22).signExtend 64).toNat + szBytes .d ≤ 4096) ∧
    (∃ x vs, Issues (withR2 exeSt 4089) exeHdr (optList (some (.r 2))) [.r 1] x vs ∧
      4096 < (wordAt vs 0 + (0 : BitVec 22).signExtend 64).toNat + szBytes .d) ∧
    (∃ x vs, Issues (withR2 exeSt 4087) exeHdr (optList (some (.r 2)) ++ [.r 3]) [] x vs ∧
      (wordAt vs 0 + (0 : BitVec 22).signExtend 64).toNat % szBytes .d ≠ 0) :=
  by and_intros <;> exact ⟨_, _, ⟨rfl, rfl, rfl, rfl⟩, by decide⟩

/-! ### Hypotheses met: memory, queues and vectors -/

def plain14 : Ord14 := { kind := .none, scope := 0, paths := 0 }

def withCtx (s : State) (a : AsidCtx) : State :=
  { s with asids := [(0, a)], passes := s.passes.map (fun p => { p with ctx := a }) }

/-- A load or store of n bytes at s2 issues and translates. -/
def accessMet (s : State) (x : Ctx) (vs : List Val) (acc : Acc) (n : Nat) (P : List Part → State → Bool) : Bool :=
  !s.walkHeld x.ag s.seq && accOk (s.accessAs x.ag s.seq x.die x.asid acc (memAddr (wordAt vs 0) 0) n) P

theorem witness_LoadIssues : ∃ x vs, Issues (mapped accSt) accHdr [.r 2] [.r 1] x vs ∧
    (accessMet (mapped accSt) x vs .rd 8 (fun _ _ => true) &&
      (mapped accSt).relsNaming x.ag .w (mapped accSt).seq == []) = true := issueOk_spec (by decide +kernel)

theorem witness_StoreIssues : ∃ x vs, Issues (mapped accSt) accHdr [.r 2, .r 3] [] x vs ∧
    (accessMet (mapped accSt) x vs .wr 1 (fun _ _ => true) &&
      (mapped accSt).relsNaming x.ag .w (mapped accSt).seq == []) = true := issueOk_spec (by decide +kernel)

/-- A page without permissions. -/
def unreadable : State := { mapped accSt with tlb := [{ die := 0, asid := 0, va := 0, lg := 21, pte := 3 }] }
/-- An address space with a fault log. -/
def logged : State := withCtx accSt { ctx0 with flb := 0x8000 }

def faultMet (s : State) (x : Ctx) (vs : List Val) (cause : BitVec 8) (flb : VAddr) : Bool :=
  !s.walkHeld x.ag s.seq && accBad (s.accessAs x.ag s.seq x.die x.asid .rd (memAddr (wordAt vs 0) 0) 8) (fun f _ =>
    f.cause == cause && x.p.ctx.flb == flb)

/-- Two levels of tables, and a leaf of 1 GiB at 0. -/
def tabled (leaf : Byte) : State :=
  { withCtx accSt { ctx0 with root := 0x40000 } with mem := [(0x40000, 1), (0x40001, 0x10), (0x40002, 4), (0x41000, leaf)] }
/-- The table entry at a physical address, as a walker of die 0 reads it. -/
def entOf (s : State) (a : Nat) : Word := leWord (s.readKeys (.walker 0) .w (paKeys a 8))

theorem tabled_walk (leaf : Byte) (h : leaf = 0x1F ∨ leaf = 3 ∨ leaf = 0x3F) :
    WalkEnds (entOf (tabled leaf)) 0 r365 0x40000 (.ok (leaf.zeroExtend 64, 30)) := by
  have h0 : entOf (tabled leaf) (0x40000 + 8 * (0 / 2 ^ 39 % 262144)) = 0x41001 := by rcases h with rfl | rfl | rfl <;> decide +kernel
  have h1 : entOf (tabled leaf) (0x41000 + 8 * (0 / 2 ^ 30 % 512)) = leaf.zeroExtend 64 := by
    rcases h with rfl | rfl | rfl <;> decide +kernel
  refine .table 39 262144 false 4096 _ _ 0x41000 _ _ h0.symm (by decide) (by decide) (by decide) (by unfold r368; decide) (by decide)
    (by decide) (by decide) (by decide) (.leaf 30 512 4096 _ _ 0 _ h1.symm ?_ ?_ ?_ ?_ ?_ ?_ ?_) <;>
    rcases h with rfl | rfl | rfl <;> first | decide | (unfold r368; decide)

theorem witness_AccessFaults :
    (∃ i h srcs dsts acc va n al, accessOf i = some (h, srcs, dsts, acc, va, n, al) ∧
      (∃ x vs, Issues (withR2 accSt 4) h srcs dsts x vs ∧ ((va vs).toNat % al == 4) = true) ∧
      (∃ x vs, Issues unreadable h srcs dsts x vs ∧ ((va vs).toNat % al == 0 && acc == .wr && n == 8 &&
        !unreadable.walkHeld x.ag unreadable.seq && accBad (unreadable.accessAs x.ag unreadable.seq x.die x.asid .wr (va vs) 8)
          (fun f _ => f.cause == 0x0B)) = true)) ∧
    (∃ i h srcs dsts acc va n al, accessOf i = some (h, srcs, dsts, acc, va, n, al) ∧
      (∃ x vs, Issues accSt h srcs dsts x vs ∧ ((va vs).toNat % al == 0 && acc == .rd && n == 8 &&
        va vs == memAddr (wordAt vs 0) 0 && faultMet accSt x vs 0x0A 0) = true) ∧
      (∃ x vs, Issues logged h srcs dsts x vs ∧ ((va vs).toNat % al == 0 && va vs == memAddr (wordAt vs 0) 0 &&
        faultMet logged x vs 0x0A 0x8000) = true)) ∧
    (∀ w ∈ (tabled 0x1F).walks, w.die = 0 → w.asid ≠ 0) ∧ ((tabled 0x1F).asidCtx 0).root.toNat = 0x40000 ∧
    (tabled 0x1F).tlbHit 0 0 0 = none ∧ ((mapped (tabled 0x1F)).tlbHit 0 0 0).isSome = true ∧
    (∀ e ∈ (tabled 0x1F).tlb, e.die = 0 → e.asid ≠ 0) ∧
    (∃ r, WalkEnds (entOf (tabled 0x1F)) 0 r365 0x40000 r ∧ r367 .rd 0 r = .ok 0 .r 30) ∧
    (∃ r, WalkEnds (entOf (tabled 3)) 0 r365 0x40000 r ∧ r367 .rd 0 r = .perm) ∧
    (∃ r, WalkEnds (entOf (tabled 0x3F)) 0 r365 0x40000 r ∧ r367 .wr 0 r = .cow) ∧
    (∃ r, WalkEnds (entOf accSt) 0 r365 0 r ∧ r367 .rd 0 r = .trans 0) :=
  ⟨⟨.amo { accHdr with ta := 1 } .add .d plain14 5 (.r 4) (.r 2) (.r 3), _, _, _, _, _, _, _, rfl, issueOk_spec (by decide +kernel),
    issueOk_spec (by decide +kernel)⟩,
   ⟨.ld { accHdr with ta := 1 } false .d plain14 (.r 4) (.r 2) 0, _, _, _, _, _, _, _, rfl, issueOk_spec (by decide +kernel),
    issueOk_spec (by decide +kernel)⟩,
   nofun, rfl, rfl, rfl, nofun, ⟨_, tabled_walk _ (Or.inl rfl), by decide⟩, ⟨_, tabled_walk _ (Or.inr (Or.inl rfl)), by decide⟩,
   ⟨_, tabled_walk _ (Or.inr (Or.inr rfl)), by decide⟩,
   ⟨_, .invalid 39 262144 false 4096 _ _ 0 (by decide +kernel) (by decide), by decide⟩⟩

theorem witness_AtomicIssues :
    (∃ i h wd ord asc srcs d act, atomOf i = some (h, wd, ord, asc, srcs, d, act) ∧
      ∃ x vs, Issues (mapped accSt) h srcs (optList d) x vs ∧ ((memAddr (wordAt vs 0) 0).toNat % awBytes wd == 0 &&
        accessMet (mapped accSt) x vs .wr (awBytes wd) (fun _ _ => true)) = true) ∧
    (∃ i h wd ord asc srcs d act, atomOf i = some (h, wd, ord, asc, srcs, d, act) ∧
      ∃ x vs, Issues (withR2 accSt 4) h srcs (optList d) x vs ∧ ((memAddr (wordAt vs 0) 0).toNat % awBytes wd == 4) = true) :=
  ⟨⟨.cas { accHdr with ta := 1 } .d plain14 5 (.r 4) (.r 2) (.r 3), _, _, _, _, _, _, _, rfl, issueOk_spec (by decide +kernel)⟩,
   ⟨.ramo accHdr .add .d plain14 5 (.r 2) (.r 3), _, _, _, _, _, _, _, rfl, issueOk_spec (by decide +kernel)⟩⟩

/-- The read of wwait, with a test of what it finds. -/
def waitMet (s : State) (x : Ctx) (vs : List Val) (P : Nat → Bool) : Bool :=
  accessMet s x vs .rd 8 (fun ps s1 =>
    let ks := ps.flatMap (fun p => p.keys)
    let s2 := s1.register (ks.headD 0) (.core x.w.pid x.w.qc)
    (s1.waiter? x.w.pid x.w.qc).isNone && s2.mayRead x.lc s2.seq ks .r x.t.pend && s2.badKeys x.ag .s ks == [] &&
      P (leNat (s2.readKeys x.ag .s ks)))

theorem witness_WaitWord :
    (∃ x vs, Issues (mapped accSt) accHdr (.r 2 :: thrSrc (.imm 0)) [] x vs ∧ waitMet (mapped accSt) x vs (fun v =>
      decide ((thrVal (.imm 0) (wordAt vs 1)).toNat % 2 ^ awBitsOf .d ≤ v)) = true) ∧
    (∃ x vs, Issues (mapped accSt) accHdr (.r 2 :: thrSrc (.imm 1)) [] x vs ∧ waitMet (mapped accSt) x vs (fun v =>
      decide (v < (thrVal (.imm 1) (wordAt vs 1)).toNat % 2 ^ awBitsOf .d)) = true) :=
  ⟨issueOk_spec (by decide +kernel), issueOk_spec (by decide +kernel)⟩

/-- Handle 1 names an empty queue of two slots whose home is this module. -/
def queued : State := { withCtx (withR2 (mapped accSt) 1) ctx0 with
  mem := [(0x1011, 0x20), (0x101E, 4), (0x2011, 0x30), (0x2018, 1)],
  stores := [{ id := .node, ws := [{ seq := 0, pk := .r, cells :=
    [(0x1018, Config.moduleId.extractLsb' 0 8), (0x1019, Config.moduleId.extractLsb' 8 8),
     (0x101A, (Config.moduleId.extractLsb' 16 5).zeroExtend 8)] }] }] }

/-- The second doubleword of that handle's slot, for a home. -/
def homeWord (m : BitVec 21) : Word :=
  leWord [m.extractLsb' 0 8, m.extractLsb' 8 8, (m.extractLsb' 16 5).zeroExtend 8, 0, 0, 0, 4, 0]

def slotOf (s : State) : List Part := ((s.quietParts 0 0 .rd 0x1010 16).1).getD []
def slotSt (s : State) : State := (s.quietParts 0 0 .rd 0x1010 16).2

def slotBytes (m : BitVec 21) : List Byte :=
  [0, 0x20, 0, 0, 0, 0, 0, 0, m.extractLsb' 0 8, m.extractLsb' 8 8, (m.extractLsb' 16 5).zeroExtend 8, 0, 0, 0, 4, 0]

theorem queued_bytes : queued.readFrom (.core 0) .s 5 (partKeys (slotOf queued)) = slotBytes Config.moduleId := by
  have h : partKeys (slotOf queued) = (List.range 16).map (fun i => 0x1010 + i) := by decide +kernel
  rw [h]
  rfl

theorem queued_slot : queued.handleSlot (.core 0) 0 5 1 =
    (some (slotOf queued, 0x2000, homeWord Config.moduleId), slotSt queued) := by
  have hb := (readFrom_same (quietParts_same queued 0 0 .rd 0x1010 16) (.core 0) .s 5 (partKeys (slotOf queued))).trans queued_bytes
  have h1 : (queued.ctxOf (.core 0) 0) = ctx0 := by decide +kernel
  have h2 : (queued.quietParts 0 0 .rd 0x1010 16).1 = some (slotOf queued) := by decide +kernel
  have h3 : fld 1 19 0 = 1 := by decide
  have h4 : agDie (.core 0) = 0 := by decide
  have h5 : ctx0.htb + BitVec.ofNat 57 (16 * 1) = 0x1010 := by decide
  have h6 : (decide ((1 : Nat) = 0) || decide (ctx0.htl.toNat ≤ 1)) = false := by decide
  unfold State.handleSlot
  simp only [h1, h3, h4, h5, h2, h6, hb]
  rfl

theorem homeWord_fields (m : BitVec 21) : fld (homeWord m) 49 21 = 0 ∧ fld (homeWord m) 51 50 = 1 ∧
    fld (homeWord m) 20 0 = m.toNat ∧ fld (homeWord m) 63 52 = 0 := by
  have h : homeWord m = BitVec.ofNat 64 (m.toNat + 2 ^ 50) := by
    have := m.isLt
    apply BitVec.eq_of_toNat_eq
    simp [homeWord, leWord, leNat]
    omega
  have := m.isLt
  rw [h]
  simp [fld]
  omega

theorem queued_step (b : Option Word) : queued.queueStep (.core 0) 0 5 1 b =
    (slotSt queued).blockStep (.core 0) 0 5 (slotOf queued) 0x2000 b := by
  obtain ⟨h1, h2, h3, h4⟩ := homeWord_fields Config.moduleId
  unfold State.queueStep
  rw [queued_slot]
  simp only [h1, h2, h3, h4, isRemote, bne_self_eq_false, Bool.and_false]
  with_unfolding_all rfl

theorem mayDrain_of_empty {s : State} {ag : Agent} {cl : Cls} {e : Entry} (h : bufOf s.bufs ag cl = [])
    (hb : s.barred ag cl e.po = false) (hr : isRel e.ord = false) (hw : s.relsNaming ag .w e.seq = []) :
    s.mayDrain ag cl e = true := by
  simp [State.mayDrain, State.walksEarly, h, hb, hr, hw]

theorem forceLoads_none {s : State} {lc i : Nat} {p : Pass} {c : CoreSt} (h : s.holder lc = some (p, i))
    (hc : p.cores[i]? = some c) (he : c.acc.pend = []) (sq : Nat) (ks : List Nat) : s.forceLoads lc sq ks = s := by
  simp [State.forceLoads, h, hc, he]

theorem queued_force (ks : List Nat) : queued.forceLoads 0 queued.seq ks = queued := by
  have h : (queued.holder 0).isSome = true := by rfl
  exact forceLoads_none (p := ((queued.holder 0).get h).1) (i := 0) (c := (((queued.holder 0).get h).1.cores).headD bare)
    rfl rfl rfl _ _

/-- A queue step of the word may be performed and has a code. -/
def QueueMet (s : State) (x : Ctx) (h : Word) (act : EAct) (b : Option Word) (P : Nat → Prop) : Prop :=
  ∃ e, e = queueEntry s x h act plain14 5 ∧ s.mayDrain x.ag .s e = true ∧
    P ((s.forceLoads x.lc s.seq (s.entFoot x.ag e).1).queueStep x.ag x.asid (s.scopeLvl x.ag (5 : BitVec 4).toNat) h b).1.code

theorem queued_met {x : Ctx} {h : Word} (hx : (x.ag == .core 0 && x.asid == 0 && x.lc == 0 && h == 1) = true) (act : EAct)
    (b : Option Word) (P : Nat → Prop)
    (hq : P ((slotSt queued).blockStep (.core 0) 0 5 (slotOf queued) 0x2000 b).1.code) : QueueMet queued x h act b P := by
  simp only [Bool.and_eq_true, beq_iff_eq] at hx
  obtain ⟨⟨⟨h1, h2⟩, h3⟩, h4⟩ := hx
  subst h4
  refine ⟨_, rfl, mayDrain_of_empty ?_ ?_ rfl ?_, ?_⟩
  · rw [h1]; decide +kernel
  · rw [h1]
    show queued.barred (.core 0) .s queued.seq = false
    decide +kernel
  · rw [h1]
    show queued.relsNaming (.core 0) .w queued.seq = []
    decide +kernel
  · rw [h3, queued_force, h1, h2, show queued.scopeLvl (.core 0) (5 : BitVec 4).toNat = 5 from by decide +kernel, queued_step]
    exact hq

/-- A word with a release and an acquire may perform its step, whose handle names no queue. -/
def annotMet (s : State) (x : Ctx) (vs : List Val) (act : EAct) (b : Option Word) : Bool :=
  let e := queueEntry s x (wordAt vs 0) act { kind := .ar, scope := 5, paths := 1 } 5
  s.mayDrain x.ag .s e && ((((s.forceLoads x.lc s.seq (s.entFoot x.ag e).1).releaseNow x.ag (pathSet 1 .s)
    (s.scopeLvl x.ag 5)).queueStep x.ag x.asid (s.scopeLvl x.ag 5) (wordAt vs 0) b).1.code == 3)
/-- The flush of an acquire of core 0 waits. -/
def acquired : State := { onCore accSt (fun c => { c with acqs := [⟨0, 0xFF, some 5⟩] }) with seq := 1 }

theorem witness_QueueWords : (∃ x vs, Issues accSt accHdr [.r 2, .r 3] [.r 4] x vs ∧ (accSt.queueStep x.ag x.asid
      (accSt.scopeLvl x.ag 5) (wordAt vs 0) (some 0)).1.code = 3) ∧
    (∃ x vs, Issues queued accHdr [.r 2, .r 3] [.r 4] x vs ∧
      QueueMet queued x (wordAt vs 0) (.enq (wordAt vs 1)) (some (wordAt vs 1)) (fun c => c ≠ 1)) ∧
    (∃ x vs, Issues queued accHdr [.r 2] [.r 4, oddOf (.r 4)] x vs ∧ QueueMet queued x (wordAt vs 0) .deq none (fun c => c = 1)) ∧
    (∃ x vs, Issues accSt accHdr [.r 2, .r 3] [.r 4] x vs ∧ annotMet accSt x vs (.enq (wordAt vs 1)) (some (wordAt vs 1)) = true) ∧
    (∃ x vs, Issues accSt accHdr [.r 2] [.r 4, oddOf (.r 4)] x vs ∧ annotMet accSt x vs .deq none = true) ∧
    (∃ x vs, Issues acquired accHdr [.r 2, .r 3] [.r 4] x vs ∧ (!acquired.mayDrain x.ag .s
      (queueEntry acquired x (wordAt vs 0) (.enq (wordAt vs 1)) plain14 5)) = true) ∧
    (∃ x vs, Issues acquired accHdr [.r 2] [.r 4, oddOf (.r 4)] x vs ∧ (!acquired.mayDrain x.ag .s
      (queueEntry acquired x (wordAt vs 0) .deq plain14 5)) = true) := by
  refine ⟨?_, ?_, ?_, issueOk_spec (by decide +kernel), issueOk_spec (by decide +kernel), issueOk_spec (by decide +kernel),
    issueOk_spec (by decide +kernel)⟩
  · obtain ⟨x, vs, h, e⟩ := issueOk_spec (s := accSt) (h := accHdr) (srcs := [.r 2, .r 3]) (dsts := [.r 4]) (P := fun x vs =>
      (accSt.queueStep x.ag x.asid (accSt.scopeLvl x.ag 5) (wordAt vs 0) (some 0)).1.code == 3) (by decide +kernel)
    exact ⟨x, vs, h, beq_iff_eq.mp e⟩
  · obtain ⟨x, vs, h, e⟩ := issueOk_spec (s := queued) (h := accHdr) (srcs := [.r 2, .r 3]) (dsts := [.r 4]) (P := fun x vs =>
      (x.ag == .core 0 && x.asid == 0 && x.lc == 0 && wordAt vs 0 == 1) && wordAt vs 1 == 0) (by decide +kernel)
    simp only [Bool.and_eq_true] at e
    exact ⟨x, vs, h, queued_met (by simp only [Bool.and_eq_true]; exact e.1) _ _ _ (by rw [beq_iff_eq.mp e.2]; decide +kernel)⟩
  · obtain ⟨x, vs, h, e⟩ := issueOk_spec (s := queued) (h := accHdr) (srcs := [.r 2]) (dsts := [.r 4, oddOf (.r 4)]) (P := fun x vs =>
      x.ag == .core 0 && x.asid == 0 && x.lc == 0 && wordAt vs 0 == 1) (by decide +kernel)
    exact ⟨x, vs, h, queued_met e _ _ _ (by decide +kernel)⟩

theorem witness_VectorResults : ∃ i h tops extra d vec P, vecRow i = some (h, tops, extra, d, vec, P) ∧ wf i = true ∧
    tops.findSome? topTap = none ∧ isV d = vec ∧
    ∃ x vs, Issues exeSt h (tops.flatMap topSrc ++ extra) [d] x vs ∧ true = true :=
  ⟨.vredsum { exeHdr with pd := 6 } .s (.fp .rne) (.r 1) (.reg (.v 2)) ⟨true, false, 7⟩, _, _, _, _, _, _, rfl, by decide, rfl,
   rfl, issueOk_spec (P := fun _ _ => true) (by decide +kernel)⟩

def t0 : Tap := .direct 0 0 0
/-- A tap two samples back. -/
def tFar : Tap := .direct 0 2 0
/-- The current sample of signal 0 can be read. -/
def readable : State := withSig exeSt { sig0 .ready with slots := [{ slot0 .ready with touched := true }] }

theorem witness_VectorTaps : (∃ i h tops extra d vec P, tapRow i = some (h, tops, extra, d, vec, P) ∧ wf i = true ∧
      tops.findSome? topTap = some t0 ∧ isV d = vec ∧
      (∃ x vs, Issues (crowd .vec exeSt) h (tops.flatMap topSrc ++ extra) [d] x vs ∧ x.c.qFull .vec = true) ∧
      (∃ x vs, Issues exeSt h (tops.flatMap topSrc ++ extra) [d] x vs ∧ (match readTap x exeSt (0, 0, 0) 0 with
        | .fault e => e.1 == 0x12
        | _ => false) = true) ∧
      (∃ x vs, Issues (withSig exeSt (sig0 .filling)) h (tops.flatMap topSrc ++ extra) [d] x vs ∧
        (match readTap x (withSig exeSt (sig0 .filling)) (0, 0, 0) 0 with
        | .hold _ => true
        | _ => false) = true) ∧
      (∃ x vs, Issues readable h (tops.flatMap topSrc ++ extra) [d] x vs ∧ (match readTap x readable (0, 0, 0) 0 with
        | .ok _ r => !x.c.qFull .vec && !r.pin.any (x.p.pinFull false)
        | _ => false) = true)) :=
  ⟨.vadd { exeHdr with ta := 1 } .w (.int false) (.v 1) (.tap t0) (.reg (.v 2)) ⟨false, false, 0⟩, _, _, _, _, _, _, rfl, by decide,
   rfl, rfl, issueOk_spec (by decide +kernel), issueOk_spec (by decide +kernel), issueOk_spec (by decide +kernel),
   issueOk_spec (by decide +kernel)⟩

theorem witness_SortAndMerge : (∃ x vs, Issues exeSt exeHdr [.v 2, .v 3] [.v 4, pairHi (.v 4)] x vs) ∧
    (∃ x vs, Issues exeSt exeHdr [.v 4, vAfter 1 (.v 4), vAfter 2 (.v 4), .v 8, vAfter 1 (.v 8), vAfter 2 (.v 8)]
      [.v 12, vAfter 1 (.v 12), vAfter 2 (.v 12)] x vs) := ⟨⟨_, _, rfl, rfl, rfl, rfl⟩, ⟨_, _, rfl, rfl, rfl, rfl⟩⟩

def plainLs : LsF := { wait := none, sig := none, kv := false, kr := 0, ord := plain14 }

theorem witness_LineStoreWords : (∃ i h l srcs outs addrs n al, lsRow i = some (h, l, srcs, outs, addrs, n, al) ∧
      (∃ x vs, Issues (withR2 exeSt (2 ^ 24 - 256)) h srcs outs x vs ∧ (!x.c.qFull .vec && (addrs vs).all (fun p =>
        lsWhy ((withR2 exeSt (2 ^ 24 - 256)).lsTop x.w.pid x.w.qc) p.2 n al == none)) = true) ∧
      (∃ x vs, Issues (withR2 exeSt (2 ^ 24)) h srcs outs x vs ∧ (addrs vs).all (fun p =>
        lsWhy ((withR2 exeSt (2 ^ 24)).lsTop x.w.pid x.w.qc) p.2 n al == some 0) = true) ∧
      (∃ x vs, Issues (crowd .vec exeSt) h srcs outs x vs ∧ x.c.qFull .vec = true)) ∧
    (∃ x vs, Issues (crowd .curve exeSt) exeHdr [.r 2, .r 4, pairHi (.r 4)] [.r 6] x vs ∧ x.c.qFull .curve = true) ∧
    (∃ x vs, Issues (withR2 exeSt 8) exeHdr [.r 2, .r 4, pairHi (.r 4)] [.r 6] x vs ∧ (!x.c.qFull .curve &&
      lsWhy ((withR2 exeSt 8).lsTop x.w.pid x.w.qc) 8 (16 + 16 * 512) 16 == some 2) = true) ∧
    (∃ x vs, Issues exeSt exeHdr [.r 2, .r 4, pairHi (.r 4)] [.r 6] x vs ∧ (!x.c.qFull .curve &&
      lsWhy (exeSt.lsTop x.w.pid x.w.qc) 0 (16 + 16 * 512) 16 == none) = true) :=
  ⟨⟨.vld { exeHdr with ta := 1 } plainLs (.v 1) (.r 2), _, _, _, _, _, _, _, rfl, issueOk_spec (by decide +kernel),
    issueOk_spec (by decide +kernel), issueOk_spec (by decide +kernel)⟩, issueOk_spec (by decide +kernel),
   issueOk_spec (by decide +kernel), issueOk_spec (by decide +kernel)⟩

/-! ### Hypotheses met: signals -/

/-- An address space in whose KV window signal 0 lies, its page on its way to tier 2. -/
def kvCtx : AsidCtx := { ctx0 with kwb := 2 ^ 40, lkp := 0, kws := 2 ^ 30 }
def kvSig : Sig := { sig0 .ready with desc := { desc0 with tier := 2, base := 2 ^ 40, depth := 64, gm := 1 } }
def kvAway : State :=
  { withCtx (withSig exeSt kvSig) kvCtx with pages := [{ asid := 0, blk := 0, ps := .down, frame := 0, size := 2 ^ 14,
                                                         dest := none, want := none, mover := 0 }] }

theorem witness_SlotReads : ∃ i h srcs d tp bad off n val, slotReadRow i = some (h, srcs, d, tp, bad, off, n, val) ∧
    tapArgs tp 0 = (0, 0, 0) ∧
    (∃ x vs, Issues exeSt h srcs [d] x vs ∧ (x.p.sig? 0 == none) = true) ∧
    (∃ x vs, Issues (withSig exeSt (sig0 .filling)) h srcs [d] x vs ∧ (x.p.sig? 0 == some (sig0 .filling)) = true) ∧
    (∃ x vs, Issues readable h srcs [d] x vs ∧ (match x.p.sig? 0 with
      | some g => g.desc.rw == 1 && g.slot? 0 == some { slot0 .ready with touched := true } &&
          !isKv x.p.ctx g.desc
      | none => false) = true) ∧
    (∃ x vs, Issues kvAway h srcs [d] x vs ∧ (x.p.sig? 0 == some kvSig && isKv x.p.ctx kvSig.desc &&
      kvAway.pageSt x.p.ctx x.asid kvSig.desc 0 == .down) = true) ∧
    ¬lagOut (sig0 .ready) 0 ∧ lagOut (sig0 .ready) 2 ∧ ¬lagOut kvSig 0 ∧
    (let g : Sig := { sig0 .ready with desc := { desc0 with fw := 1 } }; ¬lagOut g 1 ∧ g.n - (1 : Nat) < 0) :=
  ⟨.tld { exeHdr with ta := 1 } 0 (.v 1) t0, _, _, _, _, _, _, _, _, rfl, rfl, issueOk_spec (by decide +kernel),
   issueOk_spec (by decide +kernel), issueOk_spec (by decide +kernel), issueOk_spec (by decide +kernel),
   by unfold lagOut; decide, by unfold lagOut; decide, by unfold lagOut; decide, by unfold lagOut; decide, by decide⟩

/-- The current sample of signal 0 can be written. -/
def writable : State := withSig exeSt { sig0 .empty with slots := [{ slot0 .empty with touched := true }] }

theorem witness_SlotWrites : ∃ i h srcs args seg bytes always, slotWriteRow i = some (h, srcs, args, seg, bytes, always) ∧
    (∀ vs, args vs = (0, 0, 0)) ∧ seg = 0 ∧
    (∃ x vs, Issues exeSt h srcs [] x vs ∧ (x.p.sig? 0 == none) = true) ∧
    (∃ x vs, Issues (withSig exeSt (sig0 .ready)) h srcs [] x vs ∧ (x.p.sig? 0 == some (sig0 .ready)) = true) ∧
    (∃ x vs, Issues writable h srcs [] x vs ∧ (match x.p.sig? 0 with
      | some g => g.due && !g.rest && g.slot? 0 == some { slot0 .empty with touched := true } &&
          !isKv x.p.ctx g.desc
      | none => false) = true) :=
  ⟨.tst exeHdr 0 t0 (.v 1), _, _, _, _, _, _, rfl, fun _ => rfl, rfl, issueOk_spec (by decide +kernel),
   issueOk_spec (by decide +kernel), issueOk_spec (by decide +kernel)⟩


theorem witness_SignalState : (∃ x vs, Issues exeSt exeHdr [] [.r 1] x vs ∧ (x.p.sig? 0 == none) = true) ∧
    (∃ x vs, Issues readable exeHdr [] [.r 1] x vs ∧ (x.p.sig? 0).isSome = true) ∧
    (∃ x vs, Issues readable exeHdr (tapSrc t0) [.r 1] x vs ∧ (tapArgs t0 (wordAt vs 0) == (0, 0, 0)) = true) ∧
    lagCase (sig0 .ready) 0 2 ∧ lagCase (sig0 .ready) 2 5 ∧
    lagCase { sig0 .empty with desc := { desc0 with fw := 1 } } 1 4 ∧
    (∃ x vs, Issues (withCtx (withSig exeSt kvSig) kvCtx) exeHdr (tapSrc t0) [.r 1] x vs ∧ (match x.p.sig? 0 with
      | some g => isKv x.p.ctx g.desc
      | none => false) = true) :=
  ⟨issueOk_spec (by decide +kernel), issueOk_spec (by decide +kernel), issueOk_spec (by decide +kernel),
   ⟨by unfold lagOut; decide, by decide, rfl, _, rfl, rfl⟩, Or.inl (by decide), ⟨by unfold lagOut; decide, by decide⟩,
   issueOk_spec (by decide +kernel)⟩

/-- A gated signal that has no sample yet. -/
def gated : Sig := { sig0 .empty with desc := { desc0 with gm := 1 }, n := -1, due := false, slots := [] }

theorem witness_SignalChanges : (∃ x vs, Issues (withSig exeSt gated) exeHdr (gateSrc .on) [] x vs ∧
      (x.p.sig? 0 == some gated) = true) ∧ gated.desc.gm ≠ 0 ∧
    (∃ x vs, Issues (withSig exeSt (sig0 .ready)) exeHdr [.r 2] [] x vs ∧ (match x.p.sig? 0 with
      | some g => g.desc.gm == 0 && g.n != -1
      | none => false) = true) ∧
    (∃ x vs, Issues (withSig (withR2 exeSt 256) { gated with desc := { desc0 with tier := 2, base := 256 } }) exeHdr [.r 2] [] x vs ∧
      (match x.p.sig? 0 with
      | some g => g.n == -1 && g.desc.backed && (wordAt vs 0).toNat == 256
      | none => false) = true) ∧
    (∃ x vs, Issues (withSig (withR2 exeSt (4096 * 2 ^ 16 + 4095)) gated) exeHdr [.r 2] [] x vs ∧
      ((wordAt vs 0).toNat / 2 ^ 16 % 2 ^ 13 == 4096 && (wordAt vs 0).toNat % 2 ^ 12 == 4095) = true) :=
  ⟨issueOk_spec (by decide +kernel), by decide, issueOk_spec (by decide +kernel), issueOk_spec (by decide +kernel),
   issueOk_spec (by decide +kernel)⟩

/-- v1 holds a descriptor of a backed signal. -/
def declared : State := onCore exeSt (fun c => { c with v := [(1, BitVec.ofNat 2048
  (2 ^ 63 + 1 + 2 ^ 64 * 2 ^ 20 + 2 ^ 192 * 2 ^ 16))] })

theorem witness_SignalLife : (∃ x vs, Issues declared exeHdr [.v 1] [] x vs ∧ (
      let w := fun j => (vecAt vs 0).extractLsb' (64 * j) 64
      x.p.sig? 0 == none && descOk x.r.rcd.qc x.r.rcd.qd (w 0) (w 1) (w 2) (w 3) &&
        (parseDesc (w 0) (w 1) (w 2) (w 3)).backed) = true) ∧
    (∃ x vs, Issues exeSt exeHdr [.v 1] [] x vs ∧ (x.p.sig? 0 == none && !descOk x.r.rcd.qc x.r.rcd.qd 0 0 0 0) = true) ∧
    (∃ x vs, Issues readable exeHdr [] [] x vs ∧ (match x.p.sig? 0 with
      | some g => g.slots.all (fun q => q.wp == 0 && q.rp == 0) && !g.desc.backed
      | none => false) = true) ∧
    (∃ x vs, Issues (withSig exeSt { sig0 .ready with slots := [{ slot0 .ready with rp := 1 }] }) exeHdr [] [] x vs ∧
      (match x.p.sig? 0 with
      | some g => g.slots.any (fun q => q.rp != 0)
      | none => false) = true) := by
  and_intros <;> exact issueOk_spec (by decide +kernel)

theorem witness_SignalSaves : (∃ x vs, Issues (crowd .copy exeSt) exeHdr [.r 2] [] x vs ∧ x.c.qFull .copy = true) ∧
    (∃ x vs, Issues exeSt exeHdr [.r 2] [] x vs ∧ (!x.c.qFull .copy && x.p.sig? 0 == none) = true) ∧
    (∃ x vs, Issues (withSig exeSt { sig0 .ready with slots := [slot0 .draining] }) exeHdr [.r 2] [] x vs ∧ (match x.p.sig? 0 with
      | some g => g.slots.any (fun q => q.st == .draining)
      | none => false) = true) ∧
    (∃ x vs, Issues (withSig exeSt { sig0 .ready with slots := [{ slot0 .ready with rp := 65535 }] }) exeHdr [.r 2] [] x vs ∧
      (x.p.pinFull false (0, 0) && (match x.p.sig? 0 with
      | some g => g.o == 0 && (g.n + 1).toNat - g.emptyHead == 1
      | none => false)) = true) ∧
    (∃ x vs, Issues (withSig (withR2 exeSt 32) (sig0 .ready)) exeHdr [.r 2] [] x vs ∧
      (x.p.sig? 0 == some (sig0 .ready) && (wordAt vs 0).toNat == 32 && !x.c.qFull .copy) = true) ∧
    (∃ x vs, Issues (withSig exeSt (sig0 .ready)) exeHdr [.r 2] [] x vs ∧ ((wordAt vs 0).toNat == 0) = true) ∧
    (∃ x vs, Issues (withSig (withR2 exeSt 32) { sig0 .ready with due := false }) exeHdr [.r 2] [] x vs ∧
      (match x.p.sig? 0 with
      | some g => !g.due && !g.pinned
      | none => false) = true) := by
  and_intros <;> exact issueOk_spec (by decide +kernel)

/-! ### Hypotheses met: matrix, copy and attention words -/

theorem witness_QueueControl : (∃ x vs, Issues exeSt exeHdr [.r 2] [] x vs ∧
      (decide (x.c.fq.length < 16) && !leaseBad (wordAt vs 0) && !x.c.qFull .mat) = true) ∧
    (∃ x vs, Issues (onCore exeSt (fun c => { c with fq := List.replicate 16 0 })) exeHdr [.r 2] [] x vs ∧
      decide (16 ≤ x.c.fq.length) = true) ∧
    (∃ x vs, Issues exeSt exeHdr [] [] x vs ∧ (!x.c.qFull .mat && !x.c.qFull .copy) = true) ∧
    (∃ x vs, Issues (crowd .mat exeSt) exeHdr [] [] x vs ∧ x.c.qFull .mat = true) ∧
    (∃ x vs, Issues (crowd .copy exeSt) exeHdr [] [] x vs ∧ x.c.qFull .copy = true) ∧
    (∃ x vs, Issues (crowd .mat exeSt) exeHdr [.r 2] [] x vs ∧ x.c.qFull .mat = true) ∧
    (∃ p c g q, readable.pass? 0 = some p ∧ p.cores[0]? = some c ∧ mget none p.sigs 0 = some g ∧ g.slot? 0 = some q) ∧
    (∃ x vs, Issues exeSt exeHdr (Machine.gapSrc (.imm 0xFFFF)) [] x vs ∧ (!x.c.qFull .mat && !x.c.qFull .copy) = true) ∧
    (∃ x vs, Issues (withR2 exeSt (2 ^ 40)) exeHdr [.r 2] [] x vs ∧ leaseBad (wordAt vs 0) = true) := by
  and_intros <;> first
    | exact issueOk_spec (by decide +kernel)
    | exact ⟨_, _, _, _, rfl, rfl, rfl, rfl⟩

def plainF : CmdF := { ord := plain14, wsem := 0, ssem := 0 }
/-- One format word waits: FP32 for every operand; s2 names rows of 512 bytes at 0. -/
def formatted (w : Word) : State := onCore (withR2 exeSt w) (fun c => { c with fq := [0] })

/-- The format word of E4M3 operands waits. -/
def macTapped (s : State) : State := onCore s (fun c => { c with fq := [0x33000000] })
/-- The current sample of signal 0 has eight rows and can be read. -/
def eightRows : State :=
  withSig exeSt { sig0 .ready with desc := { desc0 with rows := 8 }, slots := [{ slot0 .ready with touched := true }] }

theorem witness_MatrixWords : (∃ i h a f chk st tr, tileRow i = some (h, a, f, chk, st, tr) ∧ chk 0 = none ∧
      (∃ x vs, Issues exeSt h [a] [] x vs ∧ (x.c.fq == []) = true) ∧
      (∃ x vs, Issues (formatted (512 * 2 ^ 24 + 16384 * 2 ^ 36)) h [a] [] x vs ∧ (x.c.fq == [0] && !x.c.qFull .mat &&
        (let d := descOf (wordAt vs 0)
         let rs := tileRows ((fwOF 0).getD .fp32) tr
         !d.bad && d.addr % 64 == 0 && d.rp % 64 == 0 && d.tp % 64 == 0 && decide (rs.len ≤ d.rp) && decide (32 * d.rp ≤ d.tp) &&
           rs.nums.all (fun r => d.rot == 0 && decide (d.row r + rs.len ≤ 2 ^ 24)))) = true) ∧
      (∃ x vs, Issues (formatted 1) h [a] [] x vs ∧ (!(descOf (wordAt vs 0)).bad && (descOf (wordAt vs 0)).addr % 64 != 0) = true) ∧
      (∃ x vs, Issues (formatted (2 ^ 63)) h [a] [] x vs ∧ (descOf (wordAt vs 0)).bad = true)) ∧
    (∃ i h a f chk st tr, tileRow i = some (h, a, f, chk, st, tr) ∧ chk 1 = some 1 ∧
      ∃ x vs, Issues (onCore exeSt (fun c => { c with fq := [1] })) h [a] [] x vs ∧ (x.c.fq == [1]) = true) ∧
    (∃ x vs, Issues (onCore exeSt (fun c => { c with fq := [0x33000000] })) exeHdr (macSrc (.reg (.v 0)) ++ macSrc (.reg (.v 8))) [] x vs ∧
      (match x.c.fq with
       | w :: _ => fmtMacOn ((onCore exeSt (fun c => { c with fq := [0x33000000] })).fullDies.getLsbD x.die) w == none &&
           macCode x.p (.reg (.v 0)) [] ((fwAF w).getD .fp32) false 8 == none &&
           macCode x.p (.reg (.v 8)) [] ((fwBF w).getD .fp32) true 8 == none &&
           macLs 0 (.reg (.v 0)) [] ((fwAF w).getD .fp32) false 8 == none && macTap (.reg (.v 0)) (.reg (.v 8)) [] [] == none &&
           !x.c.qFull .mat
       | [] => false) = true) ∧
    (∃ x vs, Issues (crowd .mat exeSt) exeHdr [.r 2] [] x vs ∧ x.c.qFull .mat = true) ∧
    (∃ x vs, Issues (formatted (256 * 2 ^ 24 + 16384 * 2 ^ 36)) exeHdr [.r 2] [] x vs ∧ (let d := descOf (wordAt vs 0)
      !d.bad && d.addr % 64 == 0 && d.rp % 64 == 0 && d.tp % 64 == 0 &&
        decide (d.rp < (tileRows ((fwOF 0).getD .fp32) false).len)) = true) ∧
    (∃ x vs, Issues (macTapped (withSig exeSt (sig0 .filling))) exeHdr (macSrc (.tap t0) ++ macSrc (.reg (.v 8))) [] x vs ∧
      (match readTap x (macTapped (withSig exeSt (sig0 .filling))) (tapArgs t0 (wordAt [] 0)) 0 with
      | .hold _ => !x.c.qFull .mat && macTap (.tap t0) (.reg (.v 8)) [] [] == some (t0, wordAt [] 0)
      | _ => false) = true) ∧
    (∃ x vs, Issues (formatted (512 * 2 ^ 24 + 16384 * 2 ^ 36 + (2 ^ 24 - 64))) exeHdr [.r 2] [] x vs ∧
      (let d := descOf (wordAt vs 0)
       let rs := tileRows ((fwOF 0).getD .fp32) false
       !d.bad && d.addr % 64 == 0 && d.rp % 64 == 0 && d.tp % 64 == 0 && decide (rs.len ≤ d.rp) && decide (32 * d.rp ≤ d.tp) &&
         rs.nums.any (fun r => d.rot == 0 && decide (2 ^ 24 < d.row r + rs.len)) && !x.c.qFull .mat) = true) ∧
    (∃ x vs, Issues (macTapped eightRows) exeHdr (macSrc (.tap tFar) ++ macSrc (.reg (.v 8))) [] x vs ∧
      (match readTap x (macTapped eightRows) (tapArgs tFar (wordAt [] 0)) 0, x.p.sig? 0 with
      | .fault e, some g => decide (0 + 8 ≤ g.desc.rows) && e == (0x14, tapDetail 0 2 0) && !x.c.qFull .mat &&
          decide (0 < g.desc.rw) && macCode x.p (.tap tFar) [] .e4m3 false 8 == none
      | _, _ => false) = true) ∧
    (∃ x vs, Issues (macTapped exeSt) exeHdr (macSrc (.tap t0) ++ macSrc (.reg (.v 8))) [] x vs ∧
      (x.p.sig? 0 == none && macCode x.p (.tap t0) [] .e4m3 false 8 == none) = true) ∧
    (∃ x vs, Issues (macTapped readable) exeHdr (macSrc (.tap t0) ++ macSrc (.reg (.v 8))) [] x vs ∧ (match x.p.sig? 0 with
      | some g => decide (g.desc.rows < 0 + 8) && macCode x.p (.tap t0) [] .e4m3 false 8 == none
      | none => false) = true) ∧
    (∃ x vs, Issues (macTapped eightRows) exeHdr (macSrc (.tap t0) ++ macSrc (.reg (.v 8))) [] x vs ∧
      (match readTap x (macTapped eightRows) (tapArgs t0 (wordAt [] 0)) 0 with
      | .ok _ _ => (match x.p.sig? 0 with
        | some g => decide (0 + 8 ≤ g.desc.rows) && macCode x.p (.tap t0) [] .e4m3 false 8 == none
        | none => false)
      | _ => false) = true) := by
  refine ⟨⟨.mst exeHdr 0 (.r 2) plainF, _, _, _, _, _, _, rfl, by decide, ?_⟩,
    ⟨.mld exeHdr 0 (.r 2) plainF, _, _, _, _, _, _, rfl, by decide +kernel, ?_⟩, ?_⟩
  all_goals and_intros <;> exact issueOk_spec (by decide +kernel)

/-- Handle 1 names a shape record of one row of one byte at 0x2000. -/
def oneRow : List Word := [0, 0, 0x1000000, 0, 0, 0, 0, 0]
def shaped : State := { withCtx (withR2 (mapped exeSt) 1) ctx0 with mem := [(0x1011, 0x20), (0x101E, 8), (0x2013, 1)] }
/-- The record that a shape word with handle H finds. -/
def shapeGot (s : State) (x : Ctx) (H : Word) : Option (List Word × State) :=
  match s.accessAs x.ag s.seq x.die x.asid .rd (x.p.ctx.htb + BitVec.ofNat 57 (16 * (H.toNat % 2 ^ 20))) 16 with
  | (.ok ps1, s1) =>
    let b1 := s1.readKeys x.ag .s (partKeys ps1)
    let w0 : Word := BitVec.ofNat 64 (leNat (b1.take 8))
    let w1 : Word := BitVec.ofNat 64 (leNat (b1.drop 8))
    match s1.accessAs x.ag s1.seq x.die x.asid .rd (w0.truncate 57) 64 with
    | (.ok ps2, s2) =>
      let b2 := s2.readKeys x.ag .s (partKeys ps2)
      let ws := (List.range 8).map (fun i => (BitVec.ofNat 64 (leNat ((b2.drop (8 * i)).take 8)) : Word))
      if (H.toNat % 2 ^ 20 ≠ 0 ∧ H.toNat % 2 ^ 20 < x.p.ctx.htl.toNat) ∧
        (s.walkHeld x.ag s.seq = false ∧ s1.mayRead x.lc s1.seq (partKeys ps1) (readPk ps1) x.c.acc.pend = true ∧
          s1.badKeys x.ag .s ((partKeys ps1).take 8 ++ (partKeys ps1).drop 10) = []) ∧
        (fld w1 51 50 = 2 ∧ fld w0 63 57 = 0 ∧ fld w1 49 21 = 0 ∧ w0.toNat % 64 = 0 ∧ fld w1 63 52 = fld H 31 20) ∧
        (s1.walkHeld x.ag s1.seq = false ∧ s2.mayRead x.lc s2.seq (partKeys ps2) (readPk ps2) x.c.acc.pend = true ∧
          s2.badKeys x.ag .s (partKeys ps2) = []) ∧ shReserved ws = false
      then some (ws, s2) else none
    | _ => none
  | _ => none

theorem shapeGot_spec {s t : State} {x : Ctx} {H : Word} {ws : List Word} (e : shapeGot s x H = some (ws, t)) :
    ShapeRead s x H ws t := by
  unfold shapeGot at e
  split at e
  · next ps1 s1 h1 =>
    dsimp only at e
    split at e
    · next ps2 s2 h2 =>
      split at e
      · next hc =>
        obtain ⟨⟨a, b⟩, ⟨c, d, f⟩, ⟨g, h, i, j, k⟩, ⟨l, m, n⟩, o⟩ := hc
        simp only [Option.some.injEq, Prod.mk.injEq] at e
        obtain ⟨rfl, rfl⟩ := e
        exact ⟨ps1, ps2, s1, s2, _, _, _, _, a, b, c, h1, d, rfl, f, rfl, rfl, g, h, i, j, k, l, h2, m, rfl, n, rfl, o, rfl⟩
      · cases e
    · cases e
  · cases e

/-- The word reads its record, with more to be true of that and of the state after it. -/
def shapeMet (s : State) (x : Ctx) (vs : List Val) (P : List Word → State → Bool) : Bool :=
  match shapeGot s x (wordAt vs 0) with
  | some (ws, t) => P ws t && !x.c.qFull .copy
  | none => false

/-- Records whose destination has a refused kind, whose destination leaves the line store, and of two rows. -/
def rowless : State := { shaped with mem := [(0x1011, 0x20), (0x101E, 8), (0x200F, 0x80), (0x2013, 1)] }
def farRow : State :=
  { shaped with mem := [(0x1011, 0x20), (0x101E, 8), (0x2008, 0xFF), (0x2009, 0xFF), (0x200A, 0xFF), (0x200F, 0x40), (0x2010, 1),
                        (0x2013, 1)] }
def twoRows : State := { shaped with mem := [(0x1011, 0x20), (0x101E, 8), (0x2013, 2)] }
def tapSig : Sig := { sig0 .ready with slots := [{ slot0 .ready with touched := true }] }

theorem shapeMet_spec {s : State} {h : Hdr} {srcs : List Opnd} {P : Ctx → List Val → List Word → State → Bool}
    (e : issueOk s h srcs [] (fun x vs => shapeMet s x vs (P x vs)) = true) :
    ∃ x vs ws t, Issues s h srcs [] x vs ∧ ShapeRead s x (wordAt vs 0) ws t ∧ x.c.qFull .copy = false ∧ P x vs ws t = true := by
  obtain ⟨x, vs, hi, hp⟩ := issueOk_spec e
  unfold shapeMet at hp
  split at hp
  · next ws t hg =>
    simp only [Bool.and_eq_true, Bool.not_eq_true'] at hp
    exact ⟨x, vs, ws, t, hi, shapeGot_spec hg, hp.2, hp.1⟩
  · cases hp

/-- A tap one sample back, and a signal with its last two samples ready. -/
def tNear : Tap := .direct 0 1 0
def twoSamples : Sig := { sig0 .ready with n := 1, slots := [slot0 .ready, { slot0 .ready with num := 1 }] }

/-- The tap of a shape word reads its record, passes its other side and its rows, and raises a fault. -/
abbrev tapFaults (dst : Bool) (tp : Tap) (g : Sig) (cause : BitVec 8) : Prop :=
  ∃ x vs ws s1, Issues (withSig shaped g) exeHdr (.r 2 :: tapSrc tp) [] x vs ∧
    ShapeRead (withSig shaped g) x (wordAt vs 0) ws s1 ∧ x.c.qFull .copy = false ∧
    (sidesCode ws false [(!dst, false)] == none &&
      (sideOf ws (!dst) false).lsBad (List.range (shRows ws)) (shLen ws) (s1.lsTop x.w.pid x.w.qc) == none &&
      cpyRowBad x (tapArgs tp (wordAt vs 1)) ws == false && x.p.sig? 0 == some g &&
      (match (if dst then writeTap x s1 (tapArgs tp (wordAt vs 1)) 0 else readTap x s1 (tapArgs tp (wordAt vs 1)) 0) with
       | .fault e => e.1 == cause
       | _ => false)) = true

theorem witness_CopyWords : (∃ i h srcs f code bad, shapeRow i = some (h, srcs, f, code, bad) ∧
      (∃ x vs, Issues (crowd .copy exeSt) h srcs [] x vs ∧ x.c.qFull .copy = true) ∧
      (∃ x vs, Issues exeSt h srcs [] x vs ∧ (!x.c.qFull .copy && (wordAt vs 0).toNat % 2 ^ 20 == 0) = true) ∧
      (∃ x vs ws t, Issues shaped h srcs [] x vs ∧ ShapeRead shaped x (wordAt vs 0) ws t ∧ x.c.qFull .copy = false ∧
        (code ws == none && bad ws (wordAt vs 1) (t.lsTop x.w.pid x.w.qc) == none) = true) ∧
      (∃ x vs ws t, Issues rowless h srcs [] x vs ∧ ShapeRead rowless x (wordAt vs 0) ws t ∧ x.c.qFull .copy = false ∧
        (code ws).isSome = true) ∧
      (∃ x vs ws t, Issues farRow h srcs [] x vs ∧ ShapeRead farRow x (wordAt vs 0) ws t ∧ x.c.qFull .copy = false ∧
        (code ws == none && (bad ws (wordAt vs 1) (t.lsTop x.w.pid x.w.qc)).isSome) = true)) ∧
    (∃ i h a t flat dst, copyTap i = some (h, a, t, flat, dst) ∧
      (∃ x vs, Issues (crowd .copy exeSt) h (a :: tapSrc t) [] x vs ∧ x.c.qFull .copy = true) ∧
      (∃ x vs, Issues (withSig shaped (sig0 .filling)) h (a :: tapSrc t) [] x vs ∧ (!x.c.qFull .copy &&
        (match readTap x (withSig shaped (sig0 .filling)) (tapArgs t (wordAt vs 1)) 0 with
        | .hold _ => true
        | _ => false)) = true) ∧
      (∃ x vs ws s1, Issues shaped h (a :: tapSrc t) [] x vs ∧ ShapeRead shaped x (wordAt vs 0) ws s1 ∧
        x.c.qFull .copy = false ∧ (sidesCode ws flat [(!dst, false)] == none && x.p.sig? 0 == none &&
          (sideOf ws (!dst) flat).lsBad (List.range (shRows ws)) (shLen ws) (s1.lsTop x.w.pid x.w.qc) == none &&
          (match readTap x shaped (tapArgs t (wordAt vs 1)) 0 with
           | .hold _ => false
           | _ => true)) = true) ∧
      (∃ x vs ws s1, Issues rowless h (a :: tapSrc t) [] x vs ∧ ShapeRead rowless x (wordAt vs 0) ws s1 ∧
        x.c.qFull .copy = false ∧ (sidesCode ws flat [(!dst, false)]).isSome = true) ∧
      (∃ x vs ws s1, Issues (withSig shaped tapSig) h (a :: tapSrc t) [] x vs ∧
        ShapeRead (withSig shaped tapSig) x (wordAt vs 0) ws s1 ∧ x.c.qFull .copy = false ∧
        (sidesCode ws flat [(!dst, false)] == none &&
          (sideOf ws (!dst) flat).lsBad (List.range (shRows ws)) (shLen ws) (s1.lsTop x.w.pid x.w.qc) == none &&
          cpyRowBad x (tapArgs t (wordAt vs 1)) ws == false &&
          (match readTap x s1 (tapArgs t (wordAt vs 1)) 0 with
           | .ok _ _ => true
           | _ => false)) = true) ∧
      (∃ x vs ws s1, Issues (withSig twoRows tapSig) h (a :: tapSrc t) [] x vs ∧
        ShapeRead (withSig twoRows tapSig) x (wordAt vs 0) ws s1 ∧ x.c.qFull .copy = false ∧
        (sidesCode ws flat [(!dst, false)] == none &&
          (sideOf ws (!dst) flat).lsBad (List.range (shRows ws)) (shLen ws) (s1.lsTop x.w.pid x.w.qc) == none &&
          (match x.p.sig? 0 with
           | some g => decide (g.desc.rows < 0 + shRows ws)
           | none => false)) = true)) ∧
    tapFaults false tFar (sig0 .ready) 0x14 ∧ tapFaults true tFar (sig0 .ready) 0x14 ∧
    tapFaults true tNear twoSamples 0x15 ∧ tapFaults true t0 (sig0 .ready) 0x15 :=
  ⟨⟨.cpy2d exeHdr (.r 2) (.none plainF), _, _, _, _, _, rfl, issueOk_spec (by decide +kernel), issueOk_spec (by decide +kernel),
    shapeMet_spec (by decide +kernel), shapeMet_spec (by decide +kernel), shapeMet_spec (by decide +kernel)⟩,
   ⟨.cpy2d exeHdr (.r 2) (.src t0), _, _, _, _, _, rfl, issueOk_spec (by decide +kernel), issueOk_spec (by decide +kernel),
    shapeMet_spec (by decide +kernel), shapeMet_spec (by decide +kernel), shapeMet_spec (by decide +kernel),
    shapeMet_spec (by decide +kernel)⟩,
   shapeMet_spec (by decide +kernel), shapeMet_spec (by decide +kernel), shapeMet_spec (by decide +kernel),
   shapeMet_spec (by decide +kernel)⟩

theorem witness_MapWords : (∃ x vs, Issues (withR2 exeSt (2 ^ 24)) exeHdr [.r 2, .r 3] [] x vs ∧
      ((wordAt vs 0).toNat % 2 ^ 24 + 2048 * ((wordAt vs 0).toNat / 2 ^ 24 % 2 ^ 13) == 2048 && x.c.slots == [] &&
        !x.c.qFull .copy) = true) ∧
    (∃ x vs, Issues (withR2 exeSt (2 ^ 24 + 1)) exeHdr [.r 2, .r 3] [] x vs ∧
      (regBad x.c (wordAt vs 0) ((withR2 exeSt (2 ^ 24 + 1)).lsTop x.w.pid x.w.qc)).isSome = true) ∧
    (∃ x vs, Issues (withR2 exeSt (2 ^ 24 * 8191 + 4096)) exeHdr [.r 2, .r 3] [] x vs ∧
      decide (2 ^ 24 < (wordAt vs 0).toNat % 2 ^ 24 + 2048 * ((wordAt vs 0).toNat / 2 ^ 24 % 2 ^ 13)) = true) ∧
    (∃ x vs, Issues exeSt exeHdr [.r 2] [] x vs ∧ (!x.c.qFull .copy) = true) ∧
    (∃ x vs, Issues (crowd .copy exeSt) exeHdr [.r 2, .r 3] [] x vs ∧ x.c.qFull .copy = true) ∧
    (∃ x vs, Issues (crowd .copy exeSt) exeHdr [.r 2] [] x vs ∧ x.c.qFull .copy = true) := by
  and_intros <;> exact issueOk_spec (by decide +kernel)

/-- Signals 0 and 1 are KV signals whose current samples can be read; s2 and s3 name them, with line-store operands. -/
def kvSt : State :=
  let g : Sig := { kvSig with slots := [{ slot0 .ready with touched := true }] }
  let h : Sig := { g with desc := { g.desc with base := 2 ^ 40 + 2 ^ 14 } }
  onCore (onPass (withCtx exeSt kvCtx) (fun p => { p with sigs := [(0, some g), (1, some h)] })) (fun c =>
    { c with exe := { c.exe with regs := [(2, 4096 * 2 ^ 24), (3, 2 ^ 55)] } })

/-- The same with samples that are not written, and a kvapp list of one entry at 4096 of the line store, which s2 names. -/
def kvOpen (st : SlotState) (a : Word) : State :=
  let g : Sig := { kvSig with slots := [{ slot0 st with touched := true }] }
  let h : Sig := { g with desc := { g.desc with base := 2 ^ 40 + 2 ^ 14 } }
  let s := onCore (onPass (withCtx exeSt kvCtx) (fun p => { p with sigs := [(0, some g), (1, some h)] })) (fun c =>
    { c with exe := { c.exe with regs := [(2, a), (3, 2 ^ 55)] } })
  { s with mem := [(lsKey 0 0x1002, 1), (lsKey 0 0x100C, 1)] }

/-- The samples of signals 0 and 1 with full pin counts. -/
def pinned (wr : Bool) (s : State) : State :=
  onPass s (fun p => { p with sigs := p.sigs.map (fun e => (e.1, e.2.map (fun g => { g with slots := g.slots.map (fun q =>
    if wr then { q with wp := 65535 } else { q with rp := 65535 }) }))) })

/-- What attq finds of its signals, its samples and its line-store areas. -/
def attqMet (s : State) (x : Ctx) (vs : List Val) (A : Nat) : Bool :=
  !x.c.qFull .att && ((attqF x (wordAt vs 0) (wordAt vs 1)).findSome? id) == none &&
  (match x.p.sig? (fld (wordAt vs 0) 63 55), x.p.sig? (fld (wordAt vs 1) 63 55) with
   | some gk, some gv => rangeOf gk (max gk.o gv.o) (fld (wordAt vs 1) 23 0) (fld (wordAt vs 1) 47 24) == [0] &&
       fld (wordAt vs 0) 23 0 == A && ((areaF (s.lsTop x.w.pid x.w.qc) A (256 + gk.desc.size) 256).isNone == (A == 0))
   | _, _ => false)

theorem witness_AttentionWords :
    (∃ x vs, Issues (crowd .att exeSt) exeHdr [.r 2, .r 3] [] x vs ∧ x.c.qFull .att = true) ∧
    (∃ x vs, Issues exeSt exeHdr [.r 2, .r 3] [] x vs ∧
      ((attqF x (wordAt vs 0) (wordAt vs 1)).findSome? id == some (0x12, tapDetail 0 0 0)) = true) ∧
    (∃ x vs, Issues kvSt exeHdr [.r 2, .r 3] [] x vs ∧ (attqMet kvSt x vs 0 && slotReady x.p (0, 0) && slotReady x.p (1, 0) &&
      !x.p.pinFull false (0, 0) && !x.p.pinFull false (1, 0)) = true) ∧
    (∃ x vs, Issues (kvOpen .ready 8) exeHdr [.r 2, .r 3] [] x vs ∧ attqMet (kvOpen .ready 8) x vs 8 = true) ∧
    (∃ x vs, Issues (kvOpen .filling 0) exeHdr [.r 2, .r 3] [] x vs ∧ (attqMet (kvOpen .filling 0) x vs 0 &&
      !slotReady x.p (0, 0)) = true) ∧
    (∃ x vs, Issues (crowd .att exeSt) exeHdr [.r 3] [] x vs ∧ x.c.qFull .att = true) ∧
    (∃ x vs, Issues kvSt exeHdr [.r 3] [] x vs ∧ ([lagsF (wordAt vs 0) 1, notKvF x 0 1, overF x 1 (wordAt vs 0)].findSome? id == none &&
      fld (wordAt vs 0) 63 55 == 1 && (x.p.sig? 1).isSome) = true) ∧
    (∃ x vs, Issues exeSt exeHdr [.r 3] [] x vs ∧ ([lagsF (wordAt vs 0) 0, notKvF x 0 0, overF x 0 (wordAt vs 0)].findSome? id ==
      some (0x12, tapDetail 0 0 0)) = true) ∧
    (∃ x vs, Issues (crowd .att exeSt) exeHdr [.r 2] [.r 1] x vs ∧ x.c.qFull .att = true) ∧
    (∃ x vs, Issues exeSt exeHdr [.r 2] [.r 1] x vs ∧ ((wordAt vs 0).toNat / 2 ^ 32 % 512 == 0) = true) ∧
    (∃ x vs, Issues (withR2 exeSt (2 ^ 32 + 8)) exeHdr [.r 2] [.r 1] x vs ∧
      (areaF ((withR2 exeSt (2 ^ 32 + 8)).lsTop x.w.pid x.w.qc) 8 16 16).isSome = true) ∧
    (∃ x vs, Issues (reg kvSt 3 (2 ^ 55 + 5)) exeHdr [.r 2, .r 3] [] x vs ∧ (!x.c.qFull .att &&
      ((attqF x (wordAt vs 0) (wordAt vs 1)).findSome? id).isSome && (match x.p.sig? 0, x.p.sig? 1 with
      | some gk, some gv => rangeOf gk (max gk.o gv.o) (fld (wordAt vs 1) 23 0) (fld (wordAt vs 1) 47 24) == []
      | _, _ => false)) = true) ∧
    (∃ x vs, Issues (pinned false kvSt) exeHdr [.r 2, .r 3] [] x vs ∧ (attqMet (pinned false kvSt) x vs 0 &&
      x.p.pinFull false (0, 0)) = true) ∧
    (∃ x vs, Issues { onCore (kvOpen .empty (2 ^ 32 + 4096)) (fun c => { c with acqs := [⟨0, 0xFF, some 5⟩] }) with seq := 1 }
      exeHdr [.r 2] [.r 1] x vs ∧ x.readHeld
        { onCore (kvOpen .empty (2 ^ 32 + 4096)) (fun c => { c with acqs := [⟨0, 0xFF, some 5⟩] }) with seq := 1 } = true) ∧
    (∃ x vs, Issues (pinned true (kvOpen .empty (2 ^ 32 + 4096))) exeHdr [.r 2] [.r 1] x vs ∧
      (!x.c.qFull .att && !x.readHeld (pinned true (kvOpen .empty (2 ^ 32 + 4096))) &&
        x.c.footPresent { Foot.none with rd := blocksOf 4096 16 } && x.p.pinFull true (0, 0) &&
        (kvList ((pinned true (kvOpen .empty (2 ^ 32 + 4096))).lsGet x.lc .s 4096 16) 1).any (fun e =>
          (kvEnt x.p e.2).pins.contains (0, 0))) = true) ∧
    (∃ x vs, Issues (kvOpen .empty (2 ^ 32 + 4096)) exeHdr [.r 2] [.r 1] x vs ∧
      (!x.c.qFull .att && !x.readHeld (kvOpen .empty (2 ^ 32 + 4096)) &&
        x.c.footPresent { Foot.none with rd := blocksOf 4096 16 } &&
        ((kvappF x ((kvOpen .empty (2 ^ 32 + 4096)).lsTop x.w.pid x.w.qc) 0
          (kvList ((kvOpen .empty (2 ^ 32 + 4096)).lsGet x.lc .s 4096 16) 1)).findSome? id) == none &&
        (kvOpen .empty (2 ^ 32 + 4096)).badKeys x.ag .s (lsKeys x.lc 4096 16) == [] && !x.p.pinFull true (0, 0) &&
        !x.p.pinFull true (1, 0)) = true) ∧
    (∃ x vs, Issues (kvOpen .ready (2 ^ 32 + 4096)) exeHdr [.r 2] [.r 1] x vs ∧
      ((kvappF x ((kvOpen .ready (2 ^ 32 + 4096)).lsTop x.w.pid x.w.qc) 0
          (kvList ((kvOpen .ready (2 ^ 32 + 4096)).lsGet x.lc .s 4096 16) 1)).findSome? id == some (0x15, tapDetail 0 0 0)) = true) := by
  and_intros <;> exact issueOk_spec (by decide +kernel)

/-- A park record at 0x2000 that lists signal 0, with its wake word at 0x3000. -/
def parkable : State :=
  { withSig (withCtx (withR2 (mapped exeSt) 0x2000) kvCtx) kvSig with mem := [(0x2001, 0x30), (0x2013, 1)] }

/-- A record of zeros, and one whose bytes an earlier load has still to read. -/
def blankRec : State := withR2 (mapped exeSt) 0x2000
def pendRead : State := onCore { blankRec with seq := 1 } (fun c => { c with acc := { c.acc with pend := [
  { flight with req := .load [{ keys := paKeys 0x2000 8, pk := .r, page := (0x2000, 21), got := none }] .d false plain14 }] } })

theorem witness_ParkWord : (∃ x vs, Issues exeSt exeHdr [.r 2] [] x vs ∧ ((wordAt vs 0).truncate 57 == (0 : VAddr)) = true) ∧
    (∃ x vs, Issues parkable exeHdr [.r 2] [] x vs ∧ (!parkable.walkHeld x.ag parkable.seq &&
      accOk (parkable.accessAs x.ag parkable.seq x.die x.asid .rd ((wordAt vs 0).truncate 57) 64) (fun ps s1 =>
        let r := parkRec (s1.readKeys x.ag .s (partKeys ps))
        s1.badKeys x.ag .s (partKeys ps) == [] && s1.mayRead x.lc s1.seq (partKeys ps) (readPk ps) x.c.acc.pend &&
        parkCode x.p.ctx x.p r == none && r.wake == 0x3000 && !s1.walkHeld x.ag s1.seq &&
        accOk (s1.accessAs x.ag s1.seq x.die x.asid .wr r.wake 8) (fun _ _ => true))) = true) ∧
    (∃ x vs, Issues blankRec exeHdr [.r 2] [] x vs ∧
      accOk (blankRec.accessAs x.ag blankRec.seq x.die x.asid .rd ((wordAt vs 0).truncate 57) 64) (fun ps s1 =>
        s1.mayRead x.lc s1.seq (partKeys ps) (readPk ps) x.c.acc.pend &&
        parkCode x.p.ctx x.p (parkRec (s1.readKeys x.ag .s (partKeys ps))) == some 1) = true) ∧
    (∃ x vs, Issues pendRead exeHdr [.r 2] [] x vs ∧
      accOk (pendRead.accessAs x.ag pendRead.seq x.die x.asid .rd ((wordAt vs 0).truncate 57) 64) (fun ps s1 =>
        s1.badKeys x.ag .s (partKeys ps) == [] && !s1.mayRead x.lc s1.seq (partKeys ps) (readPk ps) x.c.acc.pend) = true) := by
  and_intros <;> exact issueOk_spec (by decide +kernel)

/-! ### Hypotheses met: launch, futures and the system words -/

/-- A graph record with one version at 0x4000. -/
def graphed : State :=
  { withCtx (withR2 (mapped accSt) 0x4000) ctx0 with mem := [(0x4020, 0x11), (0x4028, 1), (0x4080, 1)] }

/-- A store of one byte. -/
def entry0 : Entry :=
  { seq := 0, wr := { seq := 0, pk := .r, cells := [(64, 7)] }, act := .write, key := 0, hist := 0, ord := plain14, asc := 0,
    pid := 0, qc := 0 }
/-- A release of core 0 waits in its s buffer. -/
def released (s : State) : State := { s with seq := 1, bufs := [{ ag := .core 0, cl := .s, ents := [
  { entry0 with ord := { kind := .rel, scope := 5, paths := 0xFF } }] }] }
/-- A page fault of address space 0, with its record written as the first of its log, a replay of it asked for or not. -/
def faulted (s : State) (asked : Option (Nat × Nat × Nat)) : State :=
  { s with faults := [{ id := 0, logId := some 0, asid := 0, pid := 0, qc := 0, who := .stream .acc, va := 0, info := 0, reason := 0,
                        asked := asked }] }
/-- A run waits for room. -/
def crowded (s : State) : State := { s with runs := s.runs ++ [{ wordRun 7 with st := .deferred }] }
/-- s2 and s3 of the access stream. -/
def withR23 (s : State) (a b : Word) : State := onCore s (fun c => { c with acc := { c.acc with regs := [(2, a), (3, b)] } })

/-- The graph words find their record, and the doubleword of version 0 with a value. -/
def graphMet (s : State) (x : Ctx) (P : State → Word → Bool) : Bool :=
  match s.leRead 0 x.asid 0x4000 256 with
  | (.ok hb, s1) =>
    match s1.leRead 0 x.asid 0x4100 (16 * fld (dwordAt hb 0x80) 6 0) with
    | (.ok vb, s2) => !relsLeft x s && !(graphRec (hb.drop 0x80 ++ vb)).bad && (graphRec (hb.drop 0x80 ++ vb)).nv == 1 &&
        (match s2.checkRec 0 x.asid 0x4000 (hb.take 128) with
         | (.ok _, s3) => !s3.walkHeld x.ag s3.seq && accOk (s3.accessAs x.ag s3.seq x.die x.asid .wr 0x4108 8) (fun ps s4 =>
             !stepHeld x s4 false allCls ps && !stepHeld x s4 true allCls ps && s4.badKeys x.ag .s (partKeys ps) == [] &&
             P s4 (versionStep x s4 (partKeys ps) (fun _ => none)).1)
         | _ => false)
    | _ => false
  | _ => false
def version (bs : List Host.Cell) : State := { graphed with mem := graphed.mem ++ bs }

theorem witness_SpawnWords :
    (∃ x vs, Issues (released graphed) accHdr [.r 2] [] x vs ∧ relsLeft x (released graphed) = true) ∧
    (∃ x vs, Issues graphed accHdr [.r 2] [] x vs ∧ (!relsLeft x graphed &&
      (match graphed.readRec 0 x.asid ((wordAt vs 0).truncate 57) with
       | (.ok _, s1) => s1.runRoom
       | _ => false)) = true) ∧
    (∃ x vs, Issues (crowded graphed) accHdr [.r 2] [] x vs ∧ (!relsLeft x (crowded graphed) &&
      (match (crowded graphed).readRec 0 x.asid ((wordAt vs 0).truncate 57) with
       | (.ok _, s1) => !s1.runRoom
       | _ => false)) = true) ∧
    (∃ x vs, Issues (withR2 graphed 0x5000) accHdr [.r 2] [] x vs ∧
      (match (withR2 graphed 0x5000).readRec 0 x.asid ((wordAt vs 0).truncate 57) with
       | (.refuse n, _) => n == 1
       | _ => false) = true) ∧
    (∃ x vs, Issues (version []) accHdr [.r 2, .r 3] [] x vs ∧
      graphMet (version []) x (fun s4 old => s4.runRoom && old == 0) = true) ∧
    (∃ x vs, Issues (version [(0x4108, 0xFF), (0x4109, 0xFF)]) accHdr [.r 2, .r 3] [] x vs ∧
      graphMet (version [(0x4108, 0xFF), (0x4109, 0xFF)]) x (fun s4 old => s4.runRoom && old == 65535) = true) ∧
    (∃ x vs, Issues (version [(0x410A, 1)]) accHdr [.r 2, .r 3] [] x vs ∧
      graphMet (version [(0x410A, 1)]) x (fun s4 old => s4.runRoom && old.getLsbD 16) = true) := by
  and_intros <;> exact issueOk_spec (by decide +kernel)

/-- A future at a doubleword that translates, with its old value; a release of the word waits for nothing. -/
def futureMet (s : State) (x : Ctx) (va : VAddr) (P : Nat → Bool) : Bool :=
  !s.walkHeld x.ag s.seq && accOk (s.accessAs x.ag s.seq x.die x.asid .wr va 8) (fun ps s1 =>
    !stepHeld x s1 true futSet ps && s1.badKeys x.ag .s (partKeys ps) == [] && (let key := (partKeys ps).headD 0
      P (leNat ((s1.releaseNow x.ag futSet (homeScope key)).atomicAt x.ag .s (homeScope key)
        ((List.range 8).map (fun i => key + i)) .r (fun _ => none)).1)))
/-- The future at 0 holds a value. -/
def futSt (b : Byte) : State := { mapped accSt with mem := if b = 0 then [] else [(0, b)] }

theorem witness_FutureWords :
    (∃ x vs, Issues (withR2 accSt 4) accHdr [.r 2, .r 3] [] x vs ∧ (((wordAt vs 0).truncate 57 : VAddr).toNat % 8 == 4) = true) ∧
    (∃ x vs, Issues (onCore (mapped accSt) (fun c => { c with armed := List.replicate 8 { key := 0, va := 0, payload := 0 } }))
      accHdr [.r 2, .r 3] [] x vs ∧ decide (8 ≤ x.c.armed.length) = true) ∧
    (∃ x vs, Issues (released (mapped accSt)) accHdr [.r 2, .r 3] [] x vs ∧ (((wordAt vs 0).truncate 57 == (0 : VAddr)) &&
      accOk ((released (mapped accSt)).accessAs x.ag (released (mapped accSt)).seq x.die x.asid .wr 64 8) (fun ps s1 =>
        stepHeld x s1 true futSet ps)) = true) ∧
    (∃ x vs, Issues (futSt 0) accHdr [.r 2, .r 3] [] x vs ∧ (((wordAt vs 0).truncate 57 == (0 : VAddr)) &&
      futureMet (futSt 0) x 0 (fun n => n % 4 == 0) && decide (x.c.armed.length < 8)) = true) ∧
    (∃ x vs, Issues (futSt 2) accHdr [.r 2, .r 3] [] x vs ∧ (((wordAt vs 0).truncate 57 == (0 : VAddr)) &&
      futureMet (futSt 2) x 0 (fun n => n % 4 == 2 && n / 4 % 2 == 0)) = true) ∧
    (∃ x vs, Issues (futSt 6) accHdr [.r 2, .r 3] [] x vs ∧ (((wordAt vs 0).truncate 57 == (0 : VAddr)) &&
      futureMet (futSt 6) x 0 (fun n => n % 4 == 2 && n / 4 % 2 == 1)) = true) ∧
    (∃ x vs, Issues (futSt 1) accHdr [.r 2, .r 3] [] x vs ∧ (((wordAt vs 0).truncate 57 == (0 : VAddr)) &&
      futureMet (futSt 1) x 0 (fun n => n % 4 == 1)) = true) := by
  and_intros <;> exact issueOk_spec (by decide +kernel)

/-- The record of a freg is accepted, with more to be true of the state after it. -/
def recMet (s : State) (x : Ctx) (vs : List Val) (P : State → Bool) : Bool :=
  match s.readRec 0 x.asid ((wordAt vs 1).truncate 57) with
  | (.ok _, s0) => s0.runRoom && P s0
  | _ => false

theorem witness_RegisterWords :
    (∃ x vs, Issues (futSt 0) accHdr [.r 2, .r 3] [.r 4] x vs ∧ (((wordAt vs 0).truncate 57 == (0 : VAddr)) &&
      ((wordAt vs 1).truncate 57 == (0 : VAddr)) && futureMet (futSt 0) x 0 (fun n => n % 4 == 0)) = true) ∧
    (∃ x vs, Issues (withR23 graphed 0 0x4000) accHdr [.r 2, .r 3] [.r 4] x vs ∧ (((wordAt vs 0).truncate 57 == (0 : VAddr)) &&
      recMet (withR23 graphed 0 0x4000) x vs (fun s0 => futureMet s0 x 0 (fun n => n % 4 == 0))) = true) ∧
    (∃ x vs, Issues (withR23 graphed 4 0x4000) accHdr [.r 2, .r 3] [.r 4] x vs ∧
      (((wordAt vs 0).truncate 57 : VAddr).toNat % 8 == 4 && recMet (withR23 graphed 4 0x4000) x vs (fun _ => true)) = true) ∧
    (∃ x vs, Issues (futSt 3) accHdr [.r 2, .r 3] [.r 4] x vs ∧ (((wordAt vs 0).truncate 57 == (0 : VAddr)) &&
      ((wordAt vs 1).truncate 57 == (0 : VAddr)) && futureMet (futSt 3) x 0 (fun n => n % 4 == 3)) = true) := by
  and_intros <;> exact issueOk_spec (by decide +kernel)

theorem witness_SystemWords : (∃ x vs, Issues accSt accHdr [] [] x vs ∧ (!relsLeft x accSt && accSt.openPages x.asid == []) = true) ∧
    (∃ x vs, Issues (mapped accSt) accHdr [.r 2] [] x vs ∧ (!relsLeft x (mapped accSt) &&
      (mapped accSt).openPages x.asid == []) = true) ∧
    (∃ x vs, Issues (released accSt) accHdr [] [] x vs ∧ relsLeft x (released accSt) = true) ∧
    (∃ x vs, Issues (released accSt) accHdr [.r 2] [] x vs ∧ relsLeft x (released accSt) = true) ∧
    (∃ x vs, Issues (released accSt) accHdr [.r 2] [.r 4] x vs ∧
      (!((released accSt).relsNaming x.ag .w (released accSt).seq == [])) = true) ∧
    (∃ x vs, Issues (faulted accSt none) accHdr [.r 2] [.r 4] x vs ∧
      ((faulted accSt none).relsNaming x.ag .w (faulted accSt none).seq == [] &&
        ((faulted accSt none).faultOf x.asid (wordAt vs 0)).isSome) = true) ∧
    (∃ x vs, Issues (withR2 accSt (2 ^ 40)) accHdr [.r 2] [.r 4] x vs ∧ leaseBad (wordAt vs 0) = true) ∧
    (∃ x vs, Issues accSt accHdr [.r 2] [.r 4] x vs ∧ (accSt.relsNaming x.ag .w accSt.seq == [] &&
      accSt.faultOf x.asid (wordAt vs 0) == none && !leaseBad (wordAt vs 0)) = true) := by
  and_intros <;> exact issueOk_spec (by decide +kernel)

/-! ### Hypotheses met: events -/

/-- Core 0 of pass 0 with more to be true of it. -/
def coreOk (s : State) (P : CoreSt → Bool) : Bool :=
  match s.core? 0 0 with
  | some c => P c
  | none => false

/-- A load of eight bytes in flight, each read or not. -/
def loading (g : Option (List Byte)) : Pend :=
  { flight with req := .load [{ keys := paKeys 0 8, pk := .r, page := (0, 21), got := g }] .d false plain14 }
def loadSt : State := onCore accSt (fun c => { c with acc := { c.acc with pend := [loading none] } })
/-- A write of the first segment of the sample of signal 0. -/
def write0 : SlotWrite := { id := 4, sig := 0, num := 0, off := 0, data := [1], segs := 1, due := some 0 }
def slotWriting : State :=
  onPass (withSig exeSt { sig0 .empty with slots := [{ slot0 .empty with wp := 1 }] }) (fun p => { p with writes := [write0] })
def counting (s : State) (d : Bool) : State :=
  onCore s (fun c => { c with acc := { c.acc with limFrom := some { since := 0, bound := 0, info := 0, deq := d } } })
def limited (d : Bool) : State := counting accSt d
def waits (w : Waiter) (woken : Bool) (full : Option Nat) : State :=
  { exeSt with cycle := 1024, waiters := [{ key := 0, w := w, woken := woken, awake := false, full := full }] }

theorem witness_StreamEvents :
    coreOk (withFlight exeSt flight) (fun c => (c.exe.pend.find? (fun p => p.seq == 0)) == some flight) = true ∧
    (flight.due == .least (withFlight exeSt flight).cycle && flight.req == .none && flight.pin.isNone) = true ∧
    coreOk loadSt (fun c => (c.acc.pend.find? (fun p => p.seq == 0)) == some (loading none)) = true ∧
    (match (loadSt.performParts 0 0 0 1).pend? 0 0 .acc 0 with
     | some q => q == loading (some (List.replicate 8 0))
     | none => false) = true ∧
    (match slotWriting.pass? 0 with
     | some p => (p.writes.find? (fun w => w.id == 4)) == some write0 && (match mget none p.sigs 0 with
       | some g => (match g.slot? 0 with
         | some q => q.wp == 1 && q.st == .empty
         | none => false)
       | none => false)
     | none => false) = true ∧
    ((waits (.core 0 0) false (some 0)).waiting? (.core 0 0) == some { key := 0, w := .core 0 0, woken := false, awake := false,
                                                                       full := some 0 }) = true ∧
    ((waits (.join 1) false (some 0)).waiting? (.join 1) == some { key := 0, w := .join 1, woken := false, awake := false,
                                                                   full := some 0 }) = true ∧
    ((waits (.join 1) true none).waiting? (.join 1) == some { key := 0, w := .join 1, woken := true, awake := false,
                                                              full := none }) = true ∧
    (match (waits (.join 1) true none).run? 1 with
     | some r => r.rcd.jthr.toNat == 0
     | none => false) = true ∧
    coreOk (limited true) (fun c => (match c.acc.limFrom with
      | some l => decide (l.since + l.bound ≤ (limited true).cycle) && l.deq
      | none => false)) = true ∧
    coreOk (limited false) (fun c => (match c.acc.limFrom with
      | some l => decide (l.since + l.bound ≤ (limited false).cycle) && !l.deq
      | none => false)) = true := by
  and_intros <;> decide +kernel

/-- The store waits in the s buffer of core 0, and its write in the core's store and in the module store. -/
def buffered : State := { exeSt with bufs := [{ ag := .core 0, cl := .s, ents := [entry0] }],
                                     stores := [{ id := .core 0, ws := [entry0.wr] }, { id := .region, ws := [entry0.wr] }] }
/-- An atomic on the doubleword at 0 waits in the s buffer, with its word in flight. -/
def atom0 (act : EAct) (k : OrdKind) : Entry :=
  { entry0 with act := act, wr := { seq := 0, pk := .r, cells := keyCells (paKeys 0 8) (natLe 8 0) }, asc := 5,
                ord := { kind := k, scope := 5, paths := 1 } }
def atomic (act : EAct) (k : OrdKind) : State :=
  { onCore exeSt (fun c => { c with acc := { c.acc with pend := [{ flight with req := .entry }] } }) with
    bufs := [{ ag := .core 0, cl := .s, ents := [atom0 act k] }] }
def drains (act : EAct) (k : OrdKind) : Bool :=
  (atomic act k).mayDrain (.core 0) .s (atom0 act k) && (atom0 act k).wr.cells.length == awBytes .d

/-- An atomic with an acquire that names s and v, behind a command's acquire of v that waits, before a write on path v. -/
def acqAtom : Entry := { atom0 (.amo .add .d 7) .acq with seq := 1, po := 1, ord := { kind := .acq, scope := 5, paths := 3 } }
def flushing : State :=
  { onCore exeSt (fun c => { c with acqs := [⟨0, 2, some 5⟩] }) with
    seq := 3,
    bufs := [{ ag := .core 0, cl := .v, ents := [{ entry0 with seq := 2, po := 2 }] }, { ag := .core 0, cl := .s, ents := [acqAtom] }] }
/-- An atomic with an acquire may drain: whether its flush waits. -/
def flushTest (s : State) (e : Entry) (ps : BitVec 8) : Option Bool :=
  if s.mayDrain (.core 0) .s e then some (((s.drainOne (.core 0) .s e).noteAcq 0 0 e.seq ps).flushHeld (.core 0) ps e.seq) else none

theorem witness_OrderEvents : (bufOf buffered.bufs (.core 0) .s)[0]? = some entry0 ∧ buffered.mayDrain (.core 0) .s entry0 = true ∧
    buffered.mayDrain (.core 0) .v { entry0 with seq := 1 } = true ∧
    (released buffered).mayDrain (.core 0) .s { entry0 with seq := 1, wr := { entry0.wr with pk := .s } } = false ∧
    drains (.amo .add .d 7) .none = true ∧ drains (.cas .d 0 7) .none = true ∧ drains (.cas .d 1 7) .none = true ∧
    drains (.faddw .d 7 7) .none = true ∧ drains (.faddw .d 7 8) .none = true ∧ r288 .d 0 7 7 ∧ ¬r288 .d 0 7 8 ∧
    drains .write .rel = true ∧ drains (.amo .add .d 7) .acq = true ∧
    flushTest (atomic (.amo .add .d 7) .acq) (atom0 (.amo .add .d 7) .acq) 1 = some false ∧
    flushTest flushing acqAtom 3 = some true ∧
    coreOk (atomic (.amo .add .d 7) .none) (fun c => c.acc.pend == [{ flight with req := .entry }]) = true ∧
    (storeOf buffered.stores (.core 0))[0]? = some entry0.wr ∧ mayLeaveStore [] entry0.wr = true ∧
    mayLeaveStore [entry0.wr] entry0.wr = false ∧ buffered.nextStore (.core 0) ≠ none ∧ buffered.nextStore .region = none ∧
    hostPa 0 1 = true ∧ (exeSt.remoteDo 1 (.load 0 8)).isSome = true ∧ exeSt.dedupe.length < 4096 ∧
    4096 ≤ ({ exeSt with dedupe := List.replicate 4096 { src := 1, sq := 0, reply := [] } } : State).dedupe.length := by
  and_intros <;> first | decide +kernel | (unfold r288; decide)

/-- Command 5 of core 0. -/
def cmd0 (e : Eng) (st : CmdSt) (i : Instr) : Cmd :=
  { id := 5, eng := e, st := st, ins := i, ops := [], taps := [], wpins := [], rpins := [], fmt := 0x33000000, rm := .rne, seed := 0,
    kvs := [], range := (0, 0), outs := [], tag := 0, seq := 0, ivl := 0, wait := none, sig := none, ord := plain14, begun := 0,
    prog := 0, blks := none, flt := none, held := false }
def withCmd (k : Cmd) : State := onCore exeSt (fun c => { c with cmds := [k] })
def headOk (s : State) (e : Eng) (P : CmdCtx → Bool) : Bool :=
  match s.headCtx 0 0 e with
  | some x => x.k.wait.isNone && x.k.ord.kind == .none && P x
  | none => false
def cmdOk (s : State) (P : CmdCtx → Bool) : Bool :=
  match s.cmdCtx 0 0 5 with
  | some x => P x
  | none => false

def macV : Instr := .mmac exeHdr 0 0 (.reg (.v 0)) (.reg (.v 8)) plainF
def cpyLs : Instr := .cpy2d exeHdr (.r 2) (.none plainF)
/-- A copy of one byte of the line store from 0 to 64. -/
def cpyCmd : Cmd := { cmd0 .copy .departed cpyLs with
  ops := [.w 1, .w 0, .w (2 ^ 62), .w (2 ^ 62 + 64), .w 0x1000000, .w 0, .w 0, .w 0, .w 0, .w 0] }
def splitI : Instr := .csplit exeHdr ⟨2, 2⟩ .none (.r 6) (.r 2) (.r 4)
/-- A gather with an index list of one entry. -/
def gatCmd : Cmd := { cpyCmd with ins := .cgat exeHdr (.r 2) (.r 3) plainF, ops := cpyCmd.ops.set 1 (.w (2 ^ 32)) }

/-- The command heads its queue, or is in its engine, with more to be true of it. -/
def onHead (k : Cmd) (P : State → CmdCtx → Bool) : Bool := headOk (withCmd k) k.eng (P (withCmd k))
def onCmd (k : Cmd) (P : State → CmdCtx → Bool) : Bool := cmdOk (withCmd k) (P (withCmd k))

/-- A matrix command may start, or do its next step. -/
def matOpen (_ : State) (x : CmdCtx) : Bool := !x.earlier.any (matWaits x.k)
def matGo (s : State) (x : CmdCtx) : Bool :=
  decide (x.k.prog < matSteps x.k) && decide (matCost x.k (s.matPace x.p x.lc) ≤ x.k.quota + x.c.matLeft) && !matHeld s x &&
    x.c.footPresent (matStepFoot x.k)
/-- A copy command may start. -/
def cpyOpen (s : State) (x : CmdCtx) : Bool :=
  !x.k.held && !x.earlier.any (copyWaits x) && !credHeld s x && !saveHeld x && !s.engHeld x.c .c x.k &&
    x.c.footPresent { Foot.none with rd := cmdList x.k }
/-- A save or a restore of signal 0, its entry at 0x1000. -/
def saved0 (i : Instr) : Cmd := { cmd0 .copy .started i with ops := [.w 0x1000] }

/-- A gather of 64 lanes at 0, as its engine has it; the same while its block is absent. -/
def gathering : Cmd := { cmd0 .vec .departed (.vgath exeHdr plainLs (.v 1) (.v 2)) with ops := [.v 0, .w 0, .v 0] }
def gatherAway : State :=
  onCore (withCmd gathering) (fun c => { c with slots := [(0, { la := 0, nb := 1, base := 0, present := [], dirty := [] })] })
/-- The lines of its list that a split has still to write. -/
def splitOpen (x : CmdCtx) : List Nat :=
  (List.range (splitLines x ⟨2, 2⟩).length).filter (fun i => !x.k.marks.any (fun m => m.1 == i))
/-- A restore of one sample that has read it. -/
def restorable : State :=
  withSig (withCmd { saved0 (.srest exeHdr 0 (.r 2) none) with
    prog := 2,
    cap := [{ bytes := (((List.replicate 32 0).set 0 1).set 10 1).set 24 1, bad := [] },
            { bytes := List.replicate 256 7, bad := [] }] }) { sig0 .ready with rest := true }

theorem witness_EngineEvents :
    onHead (cmd0 .mat .queued (.mnot exeHdr 0)) (fun s x => mayLeave s x.c.mlast x.c.mgap 8 (x.c.leftOf .mat)) = true ∧
    onHead (cmd0 .mat .queued (.mmodeRm exeHdr .rtz)) (fun s x => mayLeave s x.c.mlast x.c.mgap 8 (x.c.leftOf .mat)) = true ∧
    onHead (cmd0 .mat .queued (.mpace exeHdr (.imm 5))) (fun s x => mayLeave s x.c.mlast x.c.mgap 8 (x.c.leftOf .mat)) = true ∧
    onCmd (cmd0 .mat .departed (.mnot exeHdr 0)) matOpen = true ∧
    onCmd (cmd0 .mat .departed (.mzero exeHdr 0xFF 0 0)) matOpen = true ∧
    onCmd (cmd0 .mat .started (.mzero exeHdr 0xFF 0 0)) matGo = true ∧
    onCmd { cmd0 .mat .started macV with quota := 64 } matGo = true ∧
    onCmd { cmd0 .mat .started (.mzero exeHdr 0xFF 0 0) with prog := 1 } (fun _ x => decide (matSteps x.k ≤ x.k.prog)) = true ∧
    onCmd (cmd0 .mat .started macV) (fun _ x => x.k.flt.isNone && x.k.sig.isNone) = true ∧
    onCmd { cmd0 .mat .started macV with sig := some 15 } (fun _ x => x.k.flt.isNone &&
      ((mget 0 x.c.sems 15).toNat + mget 0 x.c.waitNow 15 == 0)) = true ∧
    onHead { cpyCmd with st := .queued } (fun s x => mayLeave s x.c.clast x.c.cgap 16 (x.c.leftOf .copy)) = true ∧
    onHead (cmd0 .copy .queued (.cpace exeHdr (.imm 5))) (fun s x => mayLeave s x.c.clast x.c.cgap 16 (x.c.leftOf .copy)) = true ∧
    onCmd (cmd0 .copy .departed (.cnot exeHdr 0)) (fun s x => cpyOpen s x && isCnot x.k) = true ∧
    onCmd cpyCmd (fun s x => cpyOpen s x && !isCnot x.k && (copyOpen s x).1.isNone) = true ∧
    onCmd gatCmd (fun s x => cpyOpen s x && (lsKeys x.lc 0 4 == lsKeys x.lc (fld (wordAt x.k.ops 1) 23 0)
      (4 * fld (wordAt x.k.ops 1) 55 32))) = true ∧
    onCmd { cpyCmd with st := .started, quota := 1 } (fun s x => !x.k.held && x.k.flt.isNone && (match copyStep x with
      | some t => decide (t.used ≤ x.k.quota + x.c.copyLeft) && x.c.footPresent t.foot && !s.engHeld x.c .c x.k &&
          !s.walkHeld x.ag x.k.seq
      | none => false) && cmdSides x.k == (.ls 0 0 0, .ls 64 0 0)) = true ∧
    onCmd { cpyCmd with st := .started, flt := some (0x0B, 0) } (fun _ x => x.k.flt.isSome && !x.k.held) = true ∧
    onCmd { cpyCmd with st := .started, prog := 1 } (fun _ x => (copyStep x).isNone && !x.k.held) = true ∧
    onCmd { saved0 (.ssave exeHdr 0 (.r 2) none) with prog := 1 } (fun _ x => (copyStep x).isNone && !x.k.held) = true ∧
    onCmd { saved0 (.srest exeHdr 0 (.r 2) none) with flt := some (0x27, 0) } (fun _ x => x.k.flt.isSome && !x.k.held) = true ∧
    cmdOk restorable (fun x => x.k.flt.isNone && (copyStep x).isNone) = true ∧
    onHead { cmd0 .vec .queued (.vld exeHdr plainLs (.v 1) (.r 2)) with ops := [.w 0] } (fun s x =>
      (s.vecBegun 0 0).isNone && vecMay s x && !inFrets x.k.ins) = true ∧
    onHead { gathering with st := .queued } (fun s x => (s.vecBegun 0 0).isNone && vecMay s x && inFrets x.k.ins) = true ∧
    (match (withCmd gathering).vecBegun 0 0 with
     | some x => vecMay (withCmd gathering) x
     | none => false) = true ∧
    (match gatherAway.vecBegun 0 0 with
     | some x => !vecMay gatherAway x
     | none => false) = true ∧
    onHead (cmd0 .curve .queued splitI) (fun _ x => x.c.cmdsIn .curve .departed == []) = true ∧
    onCmd (cmd0 .curve .departed splitI) (fun _ x => x.c.footPresent (splitFoot x.k) && x.c.exe.pend == [] &&
      (x.c.cmdsIn .curve .departed).head? == some x.k && splitOpen x == [0]) = true ∧
    onCmd { cmd0 .curve .departed splitI with ops := [.w 48] } (fun _ x => splitOpen x == [0, 1]) = true := by
  and_intros <;> decide +kernel

def kvappI : Instr := .kvapp exeHdr 0 (.r 1) (.r 2) plainF
def promI : Instr := .prom exeHdr (.r 2) 0
/-- A query whose two signals are 0 and 0; an append of one entry of signal 0. -/
def queryCmd : Cmd := { cmd0 .att .started (.attq exeHdr 0 (.q 8 false) (.r 1) (.r 2) plainF) with ops := [.w 0, .w 0] }
def appendCmd : Cmd := { cmd0 .att .started kvappI with
  kvs := [{ sigK := 0, numK := 0, ka := 0, sigV := 0, numV := 0, va := 0 }] }
/-- A command of core 0 beside signal 0, which is a KV signal with its page on its way to tier 2. -/
def awayCmd (k : Cmd) : State := onCore kvAway (fun c => { c with cmds := [k] })
def due0 : Park :=
  { wake := 0, wakeVa := 0, t1 := 0, t2 := 0, sigs := [], wm := 0, since := 0, woken := false, order := none, t1on := true,
    t2on := true, dem1 := false, dem2 := false }
/-- Pass 0 is parked with its timers due. -/
def parked : State := onPass exeSt (fun p => { p with st := .parked, park := some due0 })
/-- A page moves from HBM to tier 2. -/
def moving : State := { exeSt with pages := [{ asid := 0, blk := 0, ps := .down, frame := 5 * 2 ^ 52, size := 2 ^ 14,
                                               dest := some (.tier2, 2 * 2 ^ 52), want := none, mover := 0 }] }
def armed0 : Armed := { key := 0, va := 0, payload := 7 }
/-- A completion event waits for its resolution step. -/
def notified : State := onCore exeSt (fun c => { c with events := [{ eng := .copy, flt := true, armed := armed0 }] })
/-- A started copy waits for block 0 of slot 0, which is absent. -/
def mappedSlot : State := onCore (withCmd { cpyCmd with st := .started }) (fun c =>
  { c with slots := [(0, { la := 0, nb := 1, base := 0, present := [], dirty := [] })] })

/-- Notifies of a core, with the fault of a copy among those of the batch that the copy notify ends. -/
def noted (f : Bool) : CoreSt := { bare with nots := [(.mat, 0, true), (.copy, 1, f)], flts := [(.copy, 0)], armed := [armed0] }

theorem witness_AttentionEvents :
    ((bare.nots, (noted false).evAt) == ([], none) && ({ noted true with evAt := some 9 } : CoreSt).evAt == some 9) = true ∧
    [Eng.mat, Eng.copy].filterMap (fun e => (noted true).nots.find? (fun n => n.1 == e)) = [(.mat, 0, true), (.copy, 1, true)] ∧
    onHead (cmd0 .att .queued kvappI) (fun s x => !attHeld s x) = true ∧
    onHead { cmd0 .att .queued promI with ops := [.w 0] } (fun s x => !attHeld s x) = true ∧
    onCmd (cmd0 .att .departed kvappI) (fun s x => attMay s x && x.c.footPresent (attFoot x)) = true ∧
    onCmd (cmd0 .att .started kvappI) (fun s x => appendAway s x == []) = true ∧
    cmdOk (awayCmd appendCmd) (fun x => !(appendAway (awayCmd appendCmd) x == [])) = true ∧
    cmdOk { withCmd queryCmd with cycle := 64 } (fun x => x.k.blks.isNone &&
      decide (x.k.begun + 2 ^ (fld (wordAt x.k.ops 0) 51 48 + 6) ≤ 64)) = true ∧
    cmdOk (awayCmd { queryCmd with blks := some [] }) (fun x => x.c.footPresent (attFoot x) && chRoom x.c x.k.pushTo &&
      x.k.blks.isSome && (x.p.sig? (fld (wordAt x.k.ops 0) 63 55)).isSome && (x.p.sig? (fld (wordAt x.k.ops 1) 63 55)).isSome) =
      true ∧
    onCmd { cmd0 .att .departed promI with ops := [.w 0], blks := some [] } (fun _ x => x.k.blks == some []) = true ∧
    (match parked.pass? 0 with
     | some p => p.st == .parked && (match p.park with
       | some k => k.t1on && k.t2on && k.t1 == 0 && k.t2 == 0 && k.since == 0
       | none => false)
     | none => false) = true ∧
    (moving.pages.find? (fun k => k.dest.isSome && k.mover == 0)).isSome = true ∧
    (match exeSt.unitCtx 0 0 with
     | some x => x.c.events == []
     | none => false) = true ∧
    (match notified.unitCtx 0 0 with
     | some x => x.c.events == [{ eng := .copy, flt := true, armed := armed0 }] && notified.eventReady x
     | none => false) = true ∧
    (match (waitersOfBlock mappedSlot 0 0 0 0).head? with
     | some x => (x.c.slot? 0).isSome
     | none => false) = true ∧
    (match (faulted accSt (some (0, 0, 0))).translate 0 0 0 .rd with
     | (.trans _, _) => true
     | _ => false) = true ∧
    (match (faulted (mapped accSt) (some (0, 0, 0))).translate 0 0 0 .rd with
     | (.ok _ _ _, _) => true
     | _ => false) = true := by
  and_intros <;> decide +kernel

/-- The pass and the run of the placed word with more to be true of them. -/
def passOk (s : State) (P : Pass → Run → Bool) : Bool :=
  match s.pass? 0 with
  | some p => (match s.run? p.rid with
    | some r => P p r
    | none => false)
  | none => false

/-- Pass 0 in another state, with more to be true of it. -/
def onP (f : Pass → Pass) (P : State → Pass → Run → Bool) : Bool := passOk (onPass exeSt f) (P (onPass exeSt f))
/-- Every core has issued its tick; a pass on one die with two cores, or on two dies. -/
def tickedP (p : Pass) : Pass := { p with cores := p.cores.map (fun c => { c with ticked := some 0 }) }
def twinP (p : Pass) : Pass := let q := tickedP p; { q with qc := 2, cores := q.cores ++ q.cores }
def wideP (p : Pass) : Pass := { tickedP p with qd := 2 }
/-- A tick of a resident pass may complete. -/
def tickMay (s : State) (p : Pass) : Bool := p.st == .resident && !s.stalled p && !p.ended
def doneCore (c : CoreSt) : CoreSt := { c with exe := { c.exe with exited := true }, acc := { c.acc with exited := true } }

theorem witness_QuireEvents :
    onP twinP (fun s p _ => tickMay s p && p.tick.isNone && p.cores.all (fun c => c.ticked.isSome) && p.qd == 1 &&
      decide (1 < p.cores.length)) = true ∧
    onP wideP (fun s p _ => tickMay s p && p.tick.isNone && p.tickMet && p.qd != 1) = true ∧
    onP tickedP (fun s p _ => tickMay s p && p.tick.isNone && p.tickMet && p.qd == 1 && decide (p.cores.length ≤ 1)) = true ∧
    onP (fun p => { wideP p with tick := some { at_ := 0, due := [] } }) (fun s p _ => tickMay s p && p.qd != 1 &&
      p.tick == some { at_ := 0, due := [] }) = true ∧
    onP (fun p => { twinP p with tick := some { at_ := 0, due := [] } }) (fun s p _ => tickMay s p && p.qd == 1 && p.tickMet &&
      p.tick == some { at_ := 0, due := [] }) = true ∧
    passOk (onPass (withSig exeSt (sig0 .ready)) tickedP) (fun p _ => p.tickMet && p.dueList == [0]) = true ∧
    passOk (onPass (withCmd cpyCmd) (fun p => { p with deadlines := [{ qc := 0, ivl := 0, at_ := 0 }] })) (fun p _ =>
      p.st == .resident && p.deadlines.any (p.overdue 0)) = true ∧
    onP (fun p => { p with wd := 4096 }) (fun _ p r => p.st == .resident && decide (r.rcd.budget ≤ p.wd) && !p.allExited &&
      p.cores.all (fun c => !c.exe.watched && !c.acc.watched)) = true ∧
    onP (fun p => { p with wd := 4096, cores := p.cores.map doneCore }) (fun _ p r => p.st == .resident &&
      decide (r.rcd.budget ≤ p.wd) && p.allExited && p.cores.all (fun c => !c.exe.watched && !c.acc.watched)) = true ∧
    (match handled.ctx? exeHdr with
     | some x => x.w.pid == 0 && x.t.tvec != 0 && isWordAddr x.t.tvec
     | none => false) = true ∧
    ((exeSt.holder 0).isSome && (exeSt.holder 63).isNone && !exeSt.outCores.contains 0 && !exeSt.spared.contains 0 &&
      !exeSt.sparing.contains 0) = true ∧
    (let t := { exeSt with spared := [0], sparing := [0], outCores := [7] }
     t.spared.contains (0 / 8) && t.sparing.contains 0 && t.outCores.contains 7 && t.spared.contains (7 / 8) &&
       !({ t with spared := [] } : State).spared.contains (7 / 8)) = true ∧
    onP (fun p => { p with mchk := some (0, 1) }) (fun _ p _ => p.mchk == some (0, 1)) = true := by
  and_intros <;> decide +kernel

/-- A saved pass that migrates to the quire where it was. -/
def migrated : State := onPass exeSt (fun p => { p with st := .saved, dest := some p.pos })
/-- A queued run, alone; one at the highest priority, on every core. -/
def aging : Run := { wordRun 7 with made := 0 }
def blocking : Run := { aging with eff := 7, rcd := { aging.rcd with qc := 8, qd := 8 } }
def alone (r : Run) : State := { State.reset with cycle := 10 ^ 12, runs := [r] }
/-- Core 0 is the only one in service. -/
def narrow (s : State) : State := { s with dies := 1, outCores := [1, 2, 3, 4, 5, 6, 7] }
def savedSt : State := narrow (onPass exeSt (fun p => { p with st := .saved }))
def deferredRun : State := { exeSt with runs := [{ wordRun 7 with st := .deferred }] }
/-- A run with a signal and a spatial level of two. -/
def signalled : Run := { aging with rcd := { aging.rcd with sigs := [desc0] } }

theorem witness_LaunchEvents :
    (signalled.rcd.sigs[0]? == some desc0 && decide (signalled.made < signalled.rcd.total)) = true ∧
    onP id (fun _ p _ => p.cores.length == p.qc * p.pos.dies.length && p.held == [] && p.cores[0]?.isSome) = true ∧
    (match migrated.migrating with
     | some (p, d) => (posCores d p.qc).all (fun lc => migrated.dies.getLsbD (lc / 8) && !migrated.outCores.contains lc)
     | none => false) = true ∧
    (let t := { migrated with outCores := [0], spared := [0] }
     match t.migrating with
     | some (p, d) => (posCores d p.qc).any (fun lc => t.outCores.contains lc)
     | none => false) = true ∧
    (let t := { migrated with outCores := [0] }
     t.passes.any (fun p => p.st == .saved && (match p.dest with
       | some d => (posCores d p.qc).all (fun lc => t.dies.getLsbD (lc / 8) && !t.spared.contains (lc / 8)) &&
           (posCores d p.qc).any (fun lc => t.outCores.contains lc)
       | none => false))) = true ∧
    (exeSt.migrating.isNone && exeSt.nextPlace.isNone) = true ∧
    (match savedSt.nextPlace with
     | some (_, some p, _) => p.pid == 0 && savedSt.migrating.isNone
     | _ => false) = true ∧
    (match (narrow (alone aging)).nextPlace with
     | some (r, none, _) => r.rid == 7 && (narrow (alone aging)).migrating.isNone
     | _ => false) = true ∧
    ((alone aging).run? 7 == some aging && (alone aging).ageDue aging && decide (aging.eff < 7)) = true ∧
    ((alone blocking).run? 7 == some blocking && (alone blocking).ageDue blocking && decide (7 ≤ blocking.eff) &&
      ((alone blocking).targetOf blocking).isSome && (alone blocking).runs == [blocking]) = true ∧
    onP (fun p => { p with boundary := some 0 }) (fun s p _ => p.st == .resident && p.boundary.isSome && p.quiet &&
      p.cores.all CoreSt.sendsEmpty && s.faults == []) = true ∧
    onP (fun p => { p with cores := p.cores.map doneCore }) (fun s p r => p.st == .resident && p.allExited && p.quiet &&
      s.faults == [] && !(s.wbMaps p r).1) = true ∧
    (deferredRun.runs.find? (fun r => r.st == .deferred) == some { wordRun 7 with st := .deferred } &&
      decide (deferredRun.runCount < 65536) && (wordRun 7).from_.2.1 != 8) = true ∧
    [(0, 8, 0), (0, 8, 1)].all (fun f => ({ exeSt with runs := [{ wordRun 7 with st := .deferred, from_ := f }] } : State).runs.any
      (fun r => r.st == .deferred && r.from_ == f)) = true := by
  and_intros <;> decide +kernel

def leaseCmd : Pend := { flight with req := .lease, due := .least 20, arg := 0x1000000010001 }
def msg0 : Msg := { id := 3, asid := 0, lcore := 9, rch := 0, val := 1, since := some 0, last := 0, from_ := none }
def sending : State :=
  { onCore exeSt (fun c => { c with ch := [(16, [{ id := 0, ty := .data, val := some 5 }])] }) with binds := [(0, 1)] }
/-- The receive channel of core 0 holds 16 entries. -/
def received : State :=
  onCore exeSt (fun c => { c with ch := [(12, List.replicate 16 { id := 0, ty := .data, val := some 5 })] })
def late (m : Msg) : State := { State.reset with cycle := 2700000, msgs := [m] }
def lateOk (s : State) : Bool :=
  match s.msgs.find? (fun m => m.id == 3) with
  | some m => m.since == some 0 && s.findTo m == .absent && decide (m.last + Config.cyclesPerUs ≤ s.cycle) && decide (1000 * Config.cyclesPerUs ≤ s.cycle)
  | none => false
/-- A binding to a module of any number. -/
def bound (m : BitVec 21) : Word := BitVec.ofNat 64 (m.toNat * 2 ^ 43 + 1)

theorem bound_module (m : BitVec 21) : (bound m).getLsbD 0 = true ∧ fld (bound m) 63 43 = m.toNat := by
  have := m.isLt
  refine ⟨?_, ?_⟩
  · rw [bound, BitVec.getLsbD_ofNat, Nat.testBit_zero]
    simp
    omega
  · simp [bound, fld]
    omega

theorem bound_other (m : BitVec 21) : fld (bound (m + 1)) 63 43 ≠ m.toNat := by
  rw [(bound_module _).2, BitVec.toNat_add]
  have := m.isLt
  simp
  omega

/-- A message of the grid waits for its limit with the throttle order at its last level. -/
def limitedTo (l : Nat) : State := { exeSt with mg := { exeSt.mg with level := 18, ralWait := some (5, l, false) } }

theorem limitedTo_draw : 250 < (limitedTo 250).drawNow ↔ 250 < (Config.draw exeSt.cycle 18).toNat := by
  have h1 : (limitedTo 250).passes.any (fun p => p.st == .resident) = true := by decide +kernel
  have h2 : (limitedTo 250).drawBound = 1700 := by decide +kernel
  have h3 : (limitedTo 250).drawAt (limitedTo 250).mg.level = Nat.min (Config.draw exeSt.cycle 18).toNat 300 := rfl
  unfold State.drawNow
  rw [h1, h2, h3]
  simp only [show ∀ a b, Nat.min a b = min a b from fun _ _ => rfl, if_true]
  omega

theorem witness_PowerAndFabricEvents :
    ((withFlight exeSt leaseCmd).leaseReq 0 0 0 == some (0x1000000010001, some .exe) && exeSt.capo == []) = true ∧
    passOk (withFlight exeSt leaseCmd) (fun p _ => p.st == .resident && p.cores[0]?.isSome) = true ∧
    State.reset.mayGate (.core 0) = true ∧ exeSt.mayGate (.core 0) = false ∧
    lateOk (late msg0) = true ∧ lateOk (late { msg0 with from_ := some (0, 0, 0) }) = true ∧
    ({ exeSt with msgs := [{ msg0 with lcore := 0 }] } : State).findTo { msg0 with lcore := 0 } ≠ .absent ∧
    passOk sending (fun p _ => p.st == .resident && coreOk sending (fun c =>
      (mget [] c.ch 16).head? == some { id := 0, ty := .data, val := some 5 } && (mget 0 exeSt.binds 0).getLsbD 0 == false)) = true ∧
    ((bound Config.moduleId).getLsbD 0 = true ∧ fld (bound Config.moduleId) 63 43 = Config.moduleId.toNat) ∧
    ((bound (Config.moduleId + 1)).getLsbD 0 = true ∧ fld (bound (Config.moduleId + 1)) 63 43 ≠ Config.moduleId.toNat) ∧
    (match exeSt.holder 0 with
     | some (p, i) => exeSt.asidOf p == 0 && p.held == [] && coreOk exeSt (fun c => p.cores[i]? == some c &&
         decide ((mget [] c.ch 12).length < 16)) && exeSt.msgs == [] && mget (64, 0) exeSt.remap 0 == (64, 0)
     | none => false) = true ∧
    coreOk received (fun c => decide (16 ≤ (mget [] c.ch 12).length)) = true ∧
    State.reset.mg.ralOk = false ∧ (1 ≤ ((5 : BitVec 32) - 4).toNat ∧ ((5 : BitVec 32) - 4).toNat < 2 ^ 31) ∧
    ¬(1 ≤ ((4 : BitVec 32) - 4).toNat ∧ ((4 : BitVec 32) - 4).toNat < 2 ^ 31) ∧
    (limitedTo 250).mg.ralWait = some (5, 250, false) ∧ (limitedTo 250).mg.level = 18 ∧
    (250 < (limitedTo 250).drawNow ↔ 250 < (Config.draw exeSt.cycle 18).toNat) ∧
    (300 ≤ 1700 ∧ (limitedTo 1700).drawBound ≤ 1700) ∧ 1600 < (limitedTo 1600).drawBound ∧
    (limitedTo 250).passes.any (fun p => p.st == .resident) = true ∧
    exeSt.powered = true ∧ ({ State.reset with powered := false } : State).powered = false ∧
    State.reset.passes.filter (fun p => p.st == .resident) = [] ∧
    exeSt.passes.filter (fun p => p.st == .resident) = [pass0 exeSt] ∧
    coreOk exeSt (fun c => !c.acc.exited && c.acc.nextTrap == [] && !c.cmds.any (fun k => k.id == 0)) = true ∧
    coreOk (onCore exeSt (fun c => { c with acc := c.acc.lose 3 2 })) (fun c => !c.acc.exited &&
      c.acc.nextTrap == [.linkLost 3 2]) = true ∧
    coreOk (onCore exeSt doneCore) (fun c => c.acc.exited) = true ∧
    (bufOf (atomic .deq .none).bufs (.core 0) .s).any (fun e => e.act == .deq) = true := by
  refine ⟨?_, ?_, ?_, ?_, ?_, ?_, ?_, ?_, bound_module _, ⟨(bound_module _).1, bound_other _⟩, ?_, ?_, ?_, ?_, ?_, ?_, ?_,
    limitedTo_draw, ?_⟩
  all_goals and_intros
  all_goals decide +kernel

/-- The address space 0 is live, and its run record at 0x4000 is what the window would submit. -/
def submitting : State := { graphed with mg := { graphed.mg with subrec := 0x4000 } }
/-- What the window finds of the record at an address. -/
def subMet (s : State) (va : VAddr) (P : RecRes → Bool) : Bool :=
  let t := (s.mgRange false).staleHeld
  (t.asidCtx 0).ast == 1 && t.runRoom && P (t.readRec 0 0 va).1
/-- Signal 0 is a KV signal with its page in HBM. -/
def kvHome : State :=
  { withCtx (withSig exeSt kvSig) kvCtx with pages := [{ asid := 0, blk := 0, ps := .hbm, frame := 5 * 2 ^ 52, size := 2 ^ 14,
                                                         dest := none, want := none, mover := 0 }] }

theorem witness_WindowEvents :
    ((crowded submitting).mgRange false).staleHeld.runRoom = false ∧ (State.reset.mgRange false).staleHeld.runRoom = true ∧
    ((State.reset.mgRange false).staleHeld.asidCtx 0).ast ≠ 1 ∧
    subMet submitting 0x4000 (fun r => match r with
      | .ok _ => true
      | _ => false) = true ∧
    subMet submitting 0x5000 (fun r => match r with
      | .refuse n => n == 1
      | _ => false) = true ∧
    subMet submitting (2 ^ 40) (fun r => match r with
      | .page _ => true
      | _ => false) = true ∧
    ctxWrite (State.reset.asidCtx 0) 0 0x4000000000000001 = none ∧
    (ctxWrite (State.reset.asidCtx 0) 0 0x4000000100000000).isSome = true ∧ astMove 0 1 = true ∧ astMove 0 2 = false ∧
    0 ∈ ({ State.reset with inval := [0] } : State).inval ∧
    (exeSt.runs.filter (fun r => (r.st == .waiting || r.st == .active) && r.rcd.asid == 0 && r.addr == 0) = exeSt.runs ∧
      exeSt.runs.length = 1 ∧ (exeSt.run? 1).isSome = true) ∧
    (0x100000000 : Word).getLsbD 32 = true ∧ (0 : Word).getLsbD 32 = false ∧
    State.reset.poolUsed 0 = false ∧ poolBase 0 (5 * 2 ^ 52) = true ∧ poolBase 0 1 = false ∧
    State.reset.holder 63 = none ∧ 63 ∉ State.reset.reserved ∧ 0 ∈ migrated.reserved ∧ State.reset.dies.getLsbD 7 = true ∧ State.reset.leaving.contains 7 = false ∧
    ({ State.reset with dies := 0 } : State).dies.getLsbD 0 = false ∧
    exeSt.passes.any (fun p => p.st == .resident && p.pos.dies.contains 0) = true ∧
    exeSt.passes.all (fun p => !p.pos.dies.contains 7 && p.dest.isNone) = true ∧ 23 ∉ State.reset.links ∧
    passOk kvHome (fun p _ => match mget none p.sigs 0 with
      | some g => isKv p.ctx g.desc && g.slots.length == 1 && (match kvHome.page? 0 (kvBlk p.ctx g.desc 0) with
        | some f => f.ps == .hbm
        | none => false)
      | none => false) = true ∧
    coreOk exeSt (fun _ => true) = true := by
  and_intros <;> decide +kernel

/-! ### Hypotheses met: the step and the encoding -/

theorem witness_StepKeepsMemoryForm : exeSt.mem.wf = true ∧ ∃ t, step exeSt = .next t := ⟨by decide, _, rfl⟩

/-- A word stands at the program counter of a stream whose slot it is, with more to be true of the stream and the word. -/
def stands (s : State) (st : Stream) (P : Ctx → IWord → Bool) : Bool :=
  match s.ctx? { st := st, pd := 0, ta := 0, tc := 0 } with
  | some x => !x.t.exited && !s.stalled x.p && !x.t.settle && x.t.nextTrap == [] && x.t.tickWait != some x.t.pc &&
      (match x.t.line with
       | some (l, bs) => l == lineOf x.t.pc && P x (wordOfBytes (wordIn bs x.t.pc))
       | none => false)
  | none => false
/-- The word of an instruction is placed. -/
def placed (i : Instr) : State := State.reset.withFetchWord 80 ((encode i).getD 0).toNat
def plainWord (w : IWord) : Bool :=
  match decodeWord w with
  | .ok i => (limitOf i).isNone
  | .error _ => false
def limitWord (w : IWord) : Bool :=
  match decodeWord w with
  | .ok i => (limitOf i).isSome
  | .error _ => false
def enqwI : Instr := .enqw { accHdr with ta := 1 } plain14 0 5 (.r 4) (.r 2) (.r 3)

theorem witness_StepRunsDecodedWord : exeSt.turn = .issue 0 0 .exe ∧
    stands exeSt .exe (fun x w => wordStream w == .exe && plainWord w && !exeSt.pacesWord x (bytesOfWord w) && x.t.limFrom.isNone) =
      true ∧
    stands { exeSt with turn := .last 0 0 } .exe (fun _ w => wordStream w == .exe && plainWord w) = true ∧
    stands { accSt with turn := .swap 0 0 } .acc (fun _ w => wordStream w == .acc && plainWord w) = true ∧
    stands (limited true) .acc (fun x w => wordStream w == .acc && plainWord w && x.t.limFrom.isSome) = true ∧
    stands (placed (.jcq exeHdr (.q 7 false))) .exe (fun x w => wordStream w == .exe && (headOf x (.q 7 false)).isNone &&
      (match decodeWord w with
       | .ok i => i == .jcq exeHdr (.q 7 false)
       | .error _ => false)) = true ∧
    stands (placed enqwI) .acc (fun x w => wordStream w == .acc && limitWord w && x.t.limFrom.isNone) = true ∧
    stands (counting (placed enqwI) false) .acc (fun x w => limitWord w && x.t.limFrom.isSome) = true ∧
    stands (State.reset.withFetchWord 80 0) .exe (fun _ w => wordStream w == .exe && !plainWord w && !limitWord w) = true ∧
    stands { onCore accSt (fun c => { c with exe := { c.exe with line := c.acc.line } }) with turn := .issue 0 0 .exe } .exe
      (fun _ w => wordStream w == .acc) = true := by
  and_intros <;> decide +kernel

theorem witness_EncodeDecode : ∃ w, wf (.addi { accHdr with pd := 1 } (.r 5) (.r 5) 0x3FFFFF) = true ∧
    encode (.addi { accHdr with pd := 1 } (.r 5) (.r 5) 0x3FFFFF) = some w ∧
    decodeWord w = .ok (.addi { accHdr with pd := 1 } (.r 5) (.r 5) 0x3FFFFF) := ⟨_, by decide, rfl, rfl⟩

theorem witness_DecodesSpecWords : ((0x22 : IWord) <<< 72).extractLsb' 72 8 = 0x22 ∧ ((0xFF : IWord) <<< 72).extractLsb' 72 8 = 0xFF ∧
    (0 : IWord).extractLsb' 72 8 = 0 := by decide

end Sys2Proof.Tests
end

section
/-! Proofs of the integer words of R144 and R147: what each function of the model computes, which word each row of the
tables is, and the two statements. -/

namespace Sys2Proof.Machine

/-! ### Sums and products -/

theorem add_eq_ofNat (a b : Word) : a + b = BitVec.ofNat 64 (a.toNat + b.toNat) := by
  simp [BitVec.ofNat_add]

theorem sub_eq_ofInt (a b : Word) : a - b = BitVec.ofInt 64 (a.toInt - b.toInt) := by
  apply BitVec.eq_of_toInt_eq
  rw [BitVec.toInt_sub, BitVec.toInt_ofInt]

theorem mul_eq_ofNat (a b : Word) : a * b = BitVec.ofNat 64 (a.toNat * b.toNat) := by
  simp [BitVec.ofNat_mul]

theorem add_signExtend_eq_ofInt (a : Word) (imm : BitVec 22) :
    a + imm.signExtend 64 = BitVec.ofInt 64 (a.toInt + imm.toInt) := by
  have himm : (imm.signExtend 64).toInt = imm.toInt := BitVec.toInt_signExtend_of_le (by decide)
  rw [BitVec.ofInt_add, BitVec.ofInt_toInt, ← himm, BitVec.ofInt_toInt]

/-- The high half of a 128-bit number is its signed value divided by 2^64, rounded down. -/
theorem extractLsb'_high_eq_ofInt (p : BitVec 128) : p.extractLsb' 64 64 = BitVec.ofInt 64 (p.toInt / 2 ^ 64) := by
  apply BitVec.eq_of_toNat_eq
  rw [BitVec.extractLsb'_toNat, BitVec.toNat_ofInt, BitVec.toInt_eq_toNat_cond, Nat.shiftRight_eq_div_pow]
  split <;> omega

/-- The product of two sign-extended words does not overflow 128 bits. -/
theorem toInt_mul_signExtend (a b : Word) : (a.signExtend 128 * b.signExtend 128).toInt = a.toInt * b.toInt := by
  have hlo := BitVec.le_toInt_mul_toInt (x := a) (y := b)
  have hhi := BitVec.toInt_mul_toInt_le (x := a) (y := b)
  rw [BitVec.toInt_mul, BitVec.toInt_signExtend_of_le (by decide), BitVec.toInt_signExtend_of_le (by decide)]
  apply Int.bmod_eq_of_le <;> omega

theorem mulHi_eq (a b : Word) : mulHi a b = BitVec.ofInt 64 (a.toInt * b.toInt / 2 ^ 64) := by
  rw [mulHi, extractLsb'_high_eq_ofInt, toInt_mul_signExtend]

theorem mulHiU_eq (a b : Word) : mulHiU a b = BitVec.ofNat 64 (a.toNat * b.toNat / 2 ^ 64) := by
  have hlt : a.toNat * b.toNat < 2 ^ 128 := (Nat.mul_lt_mul'' a.isLt b.isLt : _ < 2 ^ 64 * 2 ^ 64)
  apply BitVec.eq_of_toNat_eq
  rw [mulHiU, BitVec.extractLsb'_toNat, BitVec.toNat_mul, BitVec.toNat_setWidth_of_le (by decide),
    BitVec.toNat_setWidth_of_le (by decide), Nat.mod_eq_of_lt hlt, Nat.shiftRight_eq_div_pow, BitVec.toNat_ofNat]

/-! ### Counts of bits -/

theorem clzGo_eq (x k : Nat) : clzGo x k = ((List.range k).takeWhile (fun i => !x.testBit (k - 1 - i))).length := by
  induction k with
  | zero => rfl
  | succ k ih =>
    rw [clzGo, ih, List.range_succ_eq_map, List.takeWhile_cons, List.takeWhile_map]
    cases hk : x.testBit k <;> simp [hk, Function.comp_def, Nat.sub_sub, Nat.add_comm 1]

theorem ctzGo_eq (x i k : Nat) : ctzGo x i k = ((List.range k).takeWhile (fun j => !x.testBit (j + i))).length := by
  induction k generalizing i with
  | zero => rfl
  | succ k ih =>
    rw [ctzGo, ih, List.range_succ_eq_map, List.takeWhile_cons, List.takeWhile_map]
    cases hi : x.testBit i <;> simp [hi, Function.comp_def, Nat.add_assoc, Nat.add_comm 1]

theorem popGo_eq (x k : Nat) : popGo x k = ((List.range k).filter (fun i => x.testBit i)).length := by
  induction k with
  | zero => rfl
  | succ k ih =>
    rw [popGo, ih, List.range_succ, List.filter_append, List.length_append, Nat.add_comm]
    cases hk : x.testBit k <;> simp [hk]

/-! ### Minima and maxima -/

theorem minS_eq (a b : Word) : minS a b = if a.toInt ≤ b.toInt then a else b := by
  simp only [minS, BitVec.slt_iff_toInt_lt, ← Int.not_le, ite_not]

theorem maxS_eq (a b : Word) : maxS a b = if a.toInt ≤ b.toInt then b else a := by
  rcases Int.lt_trichotomy a.toInt b.toInt with hlt | heq | hgt
  · simp only [maxS, BitVec.slt_iff_toInt_lt, if_pos hlt, if_pos (Int.le_of_lt hlt)]
  · obtain rfl := BitVec.eq_of_toInt_eq heq
    simp only [maxS, ite_self]
  · simp only [maxS, BitVec.slt_iff_toInt_lt, if_neg (Int.not_lt.mpr (Int.le_of_lt hgt)), if_neg (Int.not_le.mpr hgt)]

theorem minU_eq (a b : Word) : minU a b = if a.toNat ≤ b.toNat then a else b := by
  simp only [minU, BitVec.ult_iff_toNat_lt, ← Nat.not_le, ite_not]

theorem maxU_eq (a b : Word) : maxU a b = if a.toNat ≤ b.toNat then b else a := by
  rcases Nat.lt_trichotomy a.toNat b.toNat with hlt | heq | hgt
  · simp only [maxU, BitVec.ult_iff_toNat_lt, if_pos hlt, if_pos (Nat.le_of_lt hlt)]
  · obtain rfl := BitVec.eq_of_toNat_eq heq
    simp only [maxU, ite_self]
  · simp only [maxU, BitVec.ult_iff_toNat_lt, if_neg (Nat.not_lt.mpr (Nat.le_of_lt hgt)), if_neg (Nat.not_le.mpr hgt)]

/-! ### Quotients and remainders -/

theorem divS_eq (a b : Word) :
    divS a b = if b = 0 then 0xFFFFFFFFFFFFFFFF else BitVec.ofInt 64 (a.toInt.tdiv b.toInt) := by
  have hq : a.sdiv b = BitVec.ofInt 64 (a.toInt.tdiv b.toInt) := by
    apply BitVec.eq_of_toInt_eq
    rw [BitVec.toInt_sdiv, BitVec.toInt_ofInt]
  rw [divS, hq]
  rfl

theorem divU_eq (a b : Word) : divU a b = if b = 0 then 0xFFFFFFFFFFFFFFFF else BitVec.ofNat 64 (a.toNat / b.toNat) := by
  have hq : a.udiv b = BitVec.ofNat 64 (a.toNat / b.toNat) := by
    rw [BitVec.udiv_eq, BitVec.udiv_def]
  rw [divU, hq]
  rfl

theorem remS_eq (a b : Word) : remS a b = if b = 0 then a else BitVec.ofInt 64 (a.toInt.tmod b.toInt) := by
  rw [remS, ← BitVec.toInt_srem, BitVec.ofInt_toInt]

theorem remU_eq (a b : Word) : remU a b = if b = 0 then a else BitVec.ofNat 64 (a.toNat % b.toNat) := by
  rw [remU, BitVec.umod_eq, BitVec.umod_def]

/-! ### The words of the tables -/

/-- A scalar fits every destination but a vector register. -/
theorem fits_word {d : Opnd} (hd : isV d = false) (v : Word) : fits d (.w v) = true := by
  cases d with
  | v => cases hd
  | _ => rfl

section
variable {h : Hdr} {d a b : Opnd} {s : State} {g : List Val → Word}

theorem alu1_eq_issue {f : Word → Word} (hg : ∀ vs, f (wordAt vs 0) = g vs) :
    alu1 h d a f s = issue h [a] [d] s (fun x vs => Act.fixed x s d (.w (g vs))) := by
  simp only [alu1, ← hg]

theorem alu2_eq_issue {f : Word → Word → Word} (hg : ∀ vs, f (wordAt vs 0) (wordAt vs 1) = g vs) :
    alu2 h d a b f s = issue h [a, b] [d] s (fun x vs => Act.fixed x s d (.w (g vs))) := by
  simp only [alu2, ← hg]

theorem aluDiv_eq_issue {f : Word → Word → Word} (hg : ∀ vs, f (wordAt vs 0) (wordAt vs 1) = g vs) :
    aluDiv h d a b f s = issue h [a, b] [d] s (fun x vs => Act.var x s d (.w (g vs)) 6 (some 70)) := by
  simp only [aluDiv, ← hg]

end

section
variable {i : Instr} {h : Hdr} {srcs : List Opnd} {d : Opnd} {f : (Nat → Word) → Word}

/-- A word of R144 issues as its row says: its sources in order, and the row's result of their values after PD cycles. -/
theorem exec_r144 (hr : r144 i = some (h, srcs, d, f)) (s : State) :
    exec i s = issue h srcs [d] s (fun x vs => Act.fixed x s d (.w (f (wordAt vs)))) := by
  cases i with
  | add => cases hr; exact (exec_add ..).trans (alu2_eq_issue fun _ => add_eq_ofNat _ _)
  | sub => cases hr; exact (exec_sub ..).trans (alu2_eq_issue fun _ => sub_eq_ofInt _ _)
  | addi h d a imm => cases hr; exact (exec_addi ..).trans (alu1_eq_issue fun _ => add_signExtend_eq_ofInt _ imm)
  | mul => cases hr; exact (exec_mul ..).trans (alu2_eq_issue fun _ => mul_eq_ofNat _ _)
  | mulh => cases hr; exact (exec_mulh ..).trans (alu2_eq_issue fun _ => mulHi_eq _ _)
  | mulhu => cases hr; exact (exec_mulhu ..).trans (alu2_eq_issue fun _ => mulHiU_eq _ _)
  | and => cases hr; exact (exec_and ..).trans (alu2_eq_issue fun _ => rfl)
  | or => cases hr; exact (exec_or ..).trans (alu2_eq_issue fun _ => rfl)
  | xor => cases hr; exact (exec_xor ..).trans (alu2_eq_issue fun _ => rfl)
  | andn => cases hr; exact (exec_andn ..).trans (alu2_eq_issue fun _ => rfl)
  | clz => cases hr; exact (exec_clz ..).trans (alu1_eq_issue fun _ => congrArg (BitVec.ofNat 64) (clzGo_eq _ 64))
  | ctz => cases hr; exact (exec_ctz ..).trans (alu1_eq_issue fun _ => congrArg (BitVec.ofNat 64) (ctzGo_eq _ 0 64))
  | popc => cases hr; exact (exec_popc ..).trans (alu1_eq_issue fun _ => congrArg (BitVec.ofNat 64) (popGo_eq _ 64))
  | min => cases hr; exact (exec_min ..).trans (alu2_eq_issue fun _ => minS_eq _ _)
  | max => cases hr; exact (exec_max ..).trans (alu2_eq_issue fun _ => maxS_eq _ _)
  | minu => cases hr; exact (exec_minu ..).trans (alu2_eq_issue fun _ => minU_eq _ _)
  | maxu => cases hr; exact (exec_maxu ..).trans (alu2_eq_issue fun _ => maxU_eq _ _)
  | mov => cases hr; exact (exec_mov ..).trans (alu1_eq_issue fun _ => rfl)
  | sel => cases hr; simp only [exec_sel, execSel, ne_eq, ite_not]
  | _ => cases hr

/-- A word of R147 issues as its row says, with a result that lands from 6 to 70 cycles later. -/
theorem exec_r147 (hr : r147 i = some (h, srcs, d, f)) (s : State) :
    exec i s = issue h srcs [d] s (fun x vs => Act.var x s d (.w (f (wordAt vs))) 6 (some 70)) := by
  cases i with
  | div => cases hr; exact (exec_div ..).trans (aluDiv_eq_issue fun _ => divS_eq _ _)
  | divu => cases hr; exact (exec_divu ..).trans (aluDiv_eq_issue fun _ => divU_eq _ _)
  | rem => cases hr; exact (exec_rem ..).trans (aluDiv_eq_issue fun _ => remS_eq _ _)
  | remu => cases hr; exact (exec_remu ..).trans (aluDiv_eq_issue fun _ => remU_eq _ _)
  | _ => cases hr

end

/-- Settles O1: every row issues with its result (`exec_r144`), and a word of fixed latency does nothing but write it. -/
theorem integerResults : Obligations.IntegerResults := by
  intro i h srcs d f hr s x vs hIss hd
  exact ⟨_, exec_body (exec_r144 hr s) hIss, issueGo_fixed hIss _ (fits_word hd _)⟩

/-- Settles O5: every row, a zero divisor and the overflow included, issues with its result (`exec_r147`), and a word of
variable latency does nothing but write it between its two bounds. -/
theorem divisionResults : Obligations.DivisionResults := by
  intro i h srcs d f hr s x vs hIss hd
  exact ⟨_, exec_body (exec_r147 hr s) hIss, issueGo_var hIss _ 6 70 (fits_word hd _)⟩

end Sys2Proof.Machine
end

section
/-! Proof of the software trap (R164) and of what taking a trap does to the passes (R380). -/

namespace Sys2Proof.Machine

@[simp] theorem pass_unregister (s : State) (w : Waiter) (j : Nat) : (s.unregister w).pass? j = s.pass? j := rfl

/-- A trap with a handler reaches one stream: every other pass, and all else of the stream's own pass, is as before. -/
theorem pass_takeTrap_handler {s : State} {pid qc : Nat} {st : Stream} {p : Pass} {c : CoreSt} (w : VAddr)
    (cause : BitVec 8) (info : Word) (hp : s.pass? pid = some p) (hc : p.cores[qc]? = some c)
    (h0 : (c.stream st).tvec ≠ 0) (hw : isWordAddr (c.stream st).tvec = true) (j : Nat) :
    (s.takeTrap pid qc st w cause info).pass? j =
      if j = pid then some { p with cores := p.cores.set qc (c.updStream st (fun t => t.trap w cause info)) }
      else s.pass? j := by
  rw [takeTrap_handler w cause info hp hc h0 hw, pass_unregister, State.updStream, pass_updCore]
  split
  · next hj => rw [hj, hp, Option.map_some, updCore_eq_set p qc _ c hc]
  · rfl

/-- Settles O12: a trap with a handler reaches its stream alone (`pass_takeTrap_handler`), and the body of `trap` is the trap
of cause 0x08 with the word's code (`takeTrap_takes`). -/
theorem softwareTrap : Obligations.SoftwareTrap := by
  refine ⟨fun s pid qc st w cause info p c hp hc h0 hw => ?_, fun h code s x vs hIss => ?_⟩
  · have hpass := pass_takeTrap_handler w cause info hp hc h0 hw
    exact ⟨(hpass pid).trans (if_pos rfl), fun j hj => (hpass j).trans (if_neg hj)⟩
  · have hexec := exec_body (exec_trap h code s) hIss
    obtain ⟨hctx, -, -, -⟩ := hIss
    exact ⟨_, hexec, takeTrap_takes hctx 0x08 (code.zeroExtend 64)⟩

end Sys2Proof.Machine
end
